-- ==== Sys2Proof/Word.lean ====
section
/-!
DEFINITION. Word.lean: the word types of the Stolgon X4 and the shape of its sparse maps.
-/
namespace Sys2Proof

/-- One byte of memory. -/
abbrev Byte := BitVec 8

/-- One 32-bit vector register of a lane, and a mask of the 32 lanes of a wave (R58). -/
abbrev Word := BitVec 32

/-- One 64-bit uniform register, one instruction word (R58, R96). -/
abbrev DWord := BitVec 64

/-- A 57-bit virtual address; every program counter is one (R144, R97). -/
abbrev Addr := BitVec 57

/-- A finite map kept sparse: (key, value) pairs, keys rising, no pair holding the map's default value. Memories are
of this shape, with bytes for values. -/
abbrev FMap (β : Type) := List (Nat × β)

end Sys2Proof
end

