-- ==== Sys2Proof/Machine/Bits.lean ====
section
/-!
DEFINITION. Machine/Bits.lean: bit fields, lane masks, and bytes of numbers in little-endian order (R1, R3).
-/
namespace Sys2Proof

/-- Bits hi down to lo of a number (bits(x, hi, lo) of the spec's pseudocode). -/
def bits (x hi lo : Nat) : Nat := x / 2 ^ lo % 2 ^ (hi + 1 - lo)

/-- Bit n of a number. -/
def bit (x n : Nat) : Bool := x.testBit n

/-- The two's-complement reading of the low n bits of a number (sext of R1). -/
def sextN (x n : Nat) : Int :=
  let y := x % 2 ^ n
  if n = 0 then 0 else if y < 2 ^ (n - 1) then (y : Int) else (y : Int) - 2 ^ n

/-- A number reduced to n bits. -/
def modN (x : Int) (n : Nat) : Nat := (x % (2 ^ n : Int)).toNat

/-- Rotation left of a 32-bit number. -/
def rotl32 (x : Word) (k : Nat) : Word := x.rotateLeft (k % 32)

/-- A Bool as 0 or 1. -/
def b2n (b : Bool) : Nat := if b then 1 else 0

/-- The lanes of a mask in increasing order. -/
def lanesOf (m : Word) : List Nat := (List.range 32).filter fun l => m.getLsbD l

/-- The lowest lane of a mask, 0 when it is empty. -/
def lowest (m : Word) : Nat := (lanesOf m).headD 0

/-- The number of lanes of a mask. -/
def laneCount (m : Word) : Nat := (lanesOf m).length

/-- The mask of one lane. -/
def laneMask (l : Nat) : Word := BitVec.ofNat 32 (2 ^ l)

/-- The mask of a list of lanes. -/
def maskOf (ls : List Nat) : Word := ls.foldl (fun m l => m ||| laneMask l) 0

/-- The lanes below n. -/
def lanesBelow (n : Nat) : Word := BitVec.ofNat 32 (2 ^ (min n 32) - 1)

/-- The n low bytes of a number, lowest address first (R3). -/
def toBytes : Nat → Nat → List Byte
  | 0, _ => []
  | n + 1, x => BitVec.ofNat 8 x :: toBytes n (x / 256)

/-- The number that a byte string holds, lowest address first (R3). -/
def ofBytes : List Byte → Nat
  | [] => 0
  | b :: t => b.toNat + 256 * ofBytes t

/-- A list cut into pieces of n, at most `fuel` of them. -/
def chunks {α : Type} (n : Nat) : Nat → List α → List (List α)
  | 0, _ => []
  | f + 1, l => if l.isEmpty then [] else l.take n :: chunks n f (l.drop n)

/-- The minimum of a list, or the default. -/
def minD (d : Nat) (l : List Nat) : Nat := l.foldl min d

/-- The smallest number below n that a test rejects. -/
def firstFree (n : Nat) (used : Nat → Bool) : Option Nat := (List.range n).find? fun k => !used k

/-- The first k numbers below n that a test rejects. -/
def freeSlots (n k : Nat) (used : Nat → Bool) : List Nat := ((List.range n).filter fun j => !used j).take k

/-- A list with one element replaced. -/
def setAt {α : Type} (l : List α) (n : Nat) (x : α) : List α := l.set n x

/-- Whether a list holds two equal elements. -/
def hasDup [DecidableEq α] : List α → Bool
  | [] => false
  | x :: t => t.contains x || hasDup t

/-- An element put before the first one that it precedes. -/
def insertBy {α : Type} (le : α → α → Bool) (x : α) : List α → List α
  | [] => [x]
  | y :: t => if le x y then x :: y :: t else y :: insertBy le x t

/-- A list in order, equal elements as they stood. -/
def sortBy {α : Type} (le : α → α → Bool) : List α → List α
  | [] => []
  | x :: t => insertBy le x (sortBy le t)

/-- floor(log2 x) for x above 0, 0 for 0. -/
def log2 (x : Nat) : Nat := x.log2

/-- Rounding up to a multiple of n. -/
def roundUp (x n : Nat) : Nat := (x + n - 1) / n * n

end Sys2Proof
end

