-- ==== Sys2Proof/Syntax.lean ====
section
/-!
DEFINITION. Syntax.lean: what can move the device, one constructor of `Instr` per row of spec/opcode_table.json.
The first 149 rows are what a program issues (instruction words; a write of SPMAPB is a CSRW, and a pair word is one
word); the others are steps of the controllers, the engines, the coherence homes, the host and the links.
-/
namespace Sys2Proof

/-- The sixteen type codes of R71 (SUB[4:0] = 0 to 15). -/
inductive Ty where
  | i8 | i16 | i32 | i64 | n8 | n16 | n32 | n64 | f16 | bf16 | f32 | f64 | e4m3 | e5m2 | cb4 | sc8
  deriving DecidableEq, Repr

/-- Energy class and guard of a whole word (R96, R99, R100). -/
structure Hdr where
  ec : BitVec 2
  pn : Bool
  pq : BitVec 3
  deriving DecidableEq, Repr

/-- A source field by its kind bits [7:6] (R59). A latch above L3 is not well formed. -/
inductive Src where
  | v (n : BitVec 6)
  | lat (k : BitVec 6)
  | s (n : BitVec 6)
  | imm (i : BitVec 6)
  deriving DecidableEq, Repr

/-- Type, destination and header of a pure ALU word: U selects sD, NW suppresses the write (R60, R66). -/
structure Alu where
  h : Hdr
  t : Ty
  u : Bool
  nw : Bool
  d : BitVec 6
  deriving DecidableEq, Repr

/-- A memory operand `[cA + idx*scale + off]` with its HINT bits (R72). -/
structure MemOp where
  cap : BitVec 4
  idx : Src
  scale : BitVec 2
  hint : BitVec 2
  off : BitVec 8
  deriving DecidableEq, Repr

/-- The half opcodes 0x00 to 0x17 of a pair word (R102), in that order. -/
inductive HalfOp where
  | nop | iadd | isub | imul | imad | imin | imax | and | or | xor | shl | shr | sar | rot | mov | movi
  | fadd | fsub | fmul | ffma | fmin | fmax | cvtF32 | cvtI32
  deriving DecidableEq, Repr

/-- One half of a pair word (R101). -/
structure Half where
  op : HalfOp
  d : BitVec 6
  src : Src
  k : BitVec 8
  pg : BitVec 2
  deriving DecidableEq, Repr

/-- The order an ORD or FENCE names (R195). -/
inductive Order where
  | acq | rel | ar | sc
  deriving DecidableEq, Repr

/-- The operations of ATOM and RED (R107). -/
inductive AtomOp where
  | add | min | max | and | or | xor | swap | fadd
  deriving DecidableEq, Repr

/-- The modes of SHFL (R377). -/
inductive ShflMode where
  | idx | up | down | xor
  deriving DecidableEq, Repr

/-- The modes of VOTE (R388). -/
inductive VoteMode where
  | all | any | ballot
  deriving DecidableEq, Repr

/-- The fields CAPGET reads (R321). -/
inductive CapField where
  | base | len | cursor | perm | tag | space
  deriving DecidableEq, Repr

/-- What the controller chooses at an admission: the team handle and the masks and quotas of the bind record, all left
open within bounds by R21 and R49. -/
structure AdmitChoice where
  handle : Nat
  wquota : Nat
  tquota : Nat
  wmask : BitVec 16
  tmask : Word
  deriving DecidableEq, Repr

/-- Where a spilled record re-enters (R29, R30, R284). -/
inductive PoolTarget where
  | carousel (cluster : Nat)
  | ready (cell : Nat)
  | handler (die : Nat)
  deriving DecidableEq, Repr

/-- How a PCIe completion ends a request (R212, R300). -/
inductive PcieStatus where
  | ok | error | reject
  deriving DecidableEq, Repr

/-- What a storage error strikes (R148). -/
inductive StorageErr where
  | corrected (cell : Nat) (word : Nat)
  | uncorrectable (pa : Nat)
  | localUncorrectable (cell : Nat) (pa : Nat)
  | registerFile (slot lane pair : Nat)
  | uniformFile (slot reg : Nat)
  | capabilityFile (slot reg word : Nat)
  | channel (die stack chan : Nat)
  deriving DecidableEq, Repr

/-- One constructor per row of the opcode table. -/
inductive Instr where
  -- integer and bit group
  | iadd (w : Alu) (a b : Src) (sat : Bool)
  | iaddc (w : Alu) (a b : Src) (k : BitVec 3)
  | isub (w : Alu) (a b : Src) (sat : Bool)
  | imul (w : Alu) (a b : Src)
  | imulh (w : Alu) (a b : Src)
  | imad (w : Alu) (a b c : Src)
  | idiv (w : Alu) (a b : Src)
  | irem (w : Alu) (a b : Src)
  | imin (w : Alu) (a b : Src)
  | imax (w : Alu) (a b : Src)
  | iabs (w : Alu) (a : Src) (sat : Bool)
  | ineg (w : Alu) (a : Src) (sat : Bool)
  | and (w : Alu) (a b : Src)
  | or (w : Alu) (a b : Src)
  | xor (w : Alu) (a b : Src)
  | not (w : Alu) (a : Src)
  | shl (w : Alu) (a b : Src)
  | shr (w : Alu) (a b : Src)
  | sar (w : Alu) (a b : Src)
  | rot (w : Alu) (a b : Src)
  | bfx (w : Alu) (a ctl : Src)
  | bfi (w : Alu) (a b ctl : Src)
  | popc (w : Alu) (a : Src)
  | clz (w : Alu) (a : Src)
  | ctz (w : Alu) (a : Src)
  | brev (w : Alu) (a : Src)
  | icmp (h : Hdr) (t : Ty) (qd : BitVec 3) (a b : Src) (cond : BitVec 3)
  | sel (w : Alu) (a b : Src) (k : BitVec 3)
  -- float group
  | fadd (w : Alu) (a b : Src) (rm : BitVec 2)
  | fsub (w : Alu) (a b : Src) (rm : BitVec 2)
  | fmul (w : Alu) (a b : Src) (rm : BitVec 2)
  | ffma (w : Alu) (a b c : Src) (rm : BitVec 2)
  | fmin (w : Alu) (a b : Src)
  | fmax (w : Alu) (a b : Src)
  | fdiv (w : Alu) (a b : Src) (rm : BitVec 2)
  | fsqrt (w : Alu) (a : Src) (rm : BitVec 2)
  | frcp (w : Alu) (a : Src) (rm : BitVec 2)
  | frsq (w : Alu) (a : Src) (rm : BitVec 2)
  | frnd (w : Alu) (a : Src) (rm : BitVec 2)
  | fexp2 (w : Alu) (a : Src)
  | flog2 (w : Alu) (a : Src)
  | fsin (w : Alu) (a : Src)
  | fcos (w : Alu) (a : Src)
  | ftanh (w : Alu) (a : Src)
  | fclass (w : Alu) (a : Src)
  | fcmp (h : Hdr) (t : Ty) (qd : BitVec 3) (a b : Src) (cond : BitVec 3)
  | dot2 (w : Alu) (a b c : Src) (rm : BitVec 2)
  | dot4 (w : Alu) (a b c : Src) (rm : BitVec 2)
  | cvt (w : Alu) (src : Ty) (a : Src) (rm : BitVec 2)
  | cvtq (h : Hdr) (t : Ty) (d : BitVec 6) (a sc : Src) (sf : Option (BitVec 6)) (rm : BitVec 2)
  | cvtd (h : Hdr) (t : Ty) (d : BitVec 6) (code sc : Src) (sf : Option (BitVec 6))
  | pack (w : Alu) (a b : Src) (m : BitVec 3) (sf : Option (BitVec 6))
  | unpk (w : Alu) (a : Src) (m : BitVec 3) (sf : Option (BitVec 6))
  -- lane group
  | shfl (h : Hdr) (mode : ShflMode) (d a : BitVec 6) (b : Src) (w : BitVec 3)
  | vote (h : Hdr) (mode : VoteMode) (d : BitVec 6) (qa : BitVec 3)
  | lred (h : Hdr) (t : Ty) (u : Bool) (d : BitVec 6) (a : Src) (op : BitVec 3)
  | lscan (h : Hdr) (t : Ty) (d : BitVec 6) (a : Src) (op : BitVec 3) (exc : Bool)
  | lidx (h : Hdr) (d : BitVec 6)
  | bcast (h : Hdr) (t : Ty) (u : Bool) (d a : BitVec 6) (lane : Src)
  -- moves
  | mov (w : Alu) (a : Src)
  | movi (w : Alu) (imm : BitVec 20)
  | movh (w : Alu) (imm : BitVec 20) (sh : BitVec 8)
  | plop (h : Hdr) (qd qa qb qc : BitVec 3) (lut : BitVec 8)
  | pmovTov (h : Hdr) (d : BitVec 6)
  | pmovFromv (h : Hdr) (src : Src) (mask : BitVec 6)
  | movxRead (h : Hdr) (d : BitVec 6) (k : BitVec 2) (imm : BitVec 6)
  | movxWrite (h : Hdr) (k : BitVec 2) (imm : BitVec 6) (src : Src)
  | xsetSet (h : Hdr) (k : BitVec 2) (src : Src) (lo hi : BitVec 6)
  | xsetAdd (h : Hdr) (k : BitVec 2) (src : Src)
  -- control
  | bra (h : Hdr) (tgt : BitVec 20) (join : BitVec 16)
  | brx (h : Hdr) (n : BitVec 6) (cap : BitVec 4) (idx : Src) (off : BitVec 8) (join : BitVec 8)
  | call (h : Hdr) (sd : BitVec 6) (tgt : BitVec 20)
  | ret (h : Hdr) (sa : BitVec 6)
  | join (ec : BitVec 2)
  | exit (h : Hdr)
  | exitTeam (h : Hdr)
  | nop (h : Hdr)
  | yld (h : Hdr)
  -- execution model
  | spawn (h : Hdr) (tgt : BitVec 20)
  | gather (h : Hdr) (tgt : BitVec 20)
  | migr (h : Hdr) (tgt : BitVec 20)
  | susp (h : Hdr)
  | refillQ (h : Hdr) (d : BitVec 6) (m : MemOp) (n : Src)
  | refillBkt (h : Hdr) (d : BitVec 6) (n : Src)
  | launch (h : Hdr) (m : MemOp) (sq : BitVec 6)
  | waitch (h : Hdr)
  | steal (h : Hdr) (qd : BitVec 3) (sv : Src)
  | enq (h : Hdr) (m : MemOp)
  -- memory
  | ld (h : Hdr) (t : Ty) (u : Bool) (d : BitVec 6) (m : MemOp)
  | ldCap (h : Hdr) (u : Bool) (cd : BitVec 4) (m : MemOp)
  | st (h : Hdr) (t : Ty) (m : MemOp) (data : Src)
  | stCap (h : Hdr) (m : MemOp) (cs : BitVec 4)
  | ldf (h : Hdr) (t : Ty) (d : BitVec 6) (m : MemOp)
  | pref (h : Hdr) (m : MemOp)
  | cflush (h : Hdr) (m : MemOp)
  | ord (ec : BitVec 2) (o : Order) (set : BitVec 8)
  | fence (h : Hdr) (o : Order) (set : BitVec 8)
  | atom (h : Hdr) (op : AtomOp) (w : BitVec 2) (d : BitVec 6) (m : MemOp) (b : Src)
  | red (h : Hdr) (op : AtomOp) (w : BitVec 2) (m : MemOp) (b : Src)
  | cas (h : Hdr) (t : Ty) (d : BitVec 6) (m : MemOp) (new : Src)
  -- capabilities
  | capset (h : Hdr) (cd ca : BitVec 4) (len : Src)
  | capinc (h : Hdr) (cd ca : BitVec 4) (inc : Src)
  | capincM (h : Hdr) (cd ca : BitVec 4) (inc : Src) (w : BitVec 5)
  | capget (h : Hdr) (f : CapField) (u : Bool) (d : BitVec 6) (ca : BitVec 4)
  | capperm (h : Hdr) (cd ca : BitVec 4) (mask : Src)
  | capchk (h : Hdr) (qd : BitVec 3) (ca : BitVec 4) (req : Src)
  -- synchronisation and messages
  | barArv (h : Hdr) (d : BitVec 6) (b : BitVec 3)
  | barWait (h : Hdr) (qd : BitVec 3) (tok : Src)
  | barSync (h : Hdr) (b : BitVec 3)
  | waitc (h : Hdr) (cls : BitVec 3) (t : BitVec 8)
  | waitany (h : Hdr) (d : BitVec 6) (mask : Src)
  | waitall (h : Hdr) (mask : Src)
  | ffr (h : Hdr) (d : BitVec 6) (mask : Src)
  | waitadr (h : Hdr) (t : Ty) (d : BitVec 6) (m : MemOp) (val : Src)
  | sig (h : Hdr) (sd : BitVec 6) (m : MemOp) (data : Src)
  | amsg (h : Hdr) (die : BitVec 2) (m : MemOp) (sh : BitVec 6)
  | mbxs (h : Hdr) (qd : BitVec 3) (src : Src) (ch : BitVec 3)
  | mbxr (h : Hdr) (d : BitVec 6) (ch : BitVec 3)
  -- engines
  | mma (h : Hdr) (t : Ty) (tile : BitVec 6) (hi : Bool) (sf : Option (BitVec 6)) (r : Bool)
  | mmas (h : Hdr) (t : Ty) (tile : BitVec 6) (m : MemOp) (sn : BitVec 6)
  | drain (h : Hdr) (t : Ty) (tile : BitVec 6) (m : MemOp) (sn : BitVec 6)
  | accz (h : Hdr) (tile : BitVec 6) (n : BitVec 6)
  | omap (h : Hdr) (m : MemOp) (sn : BitVec 6)
  | cpy (h : Hdr) (m : MemOp) (cs : BitVec 4) (sn : BitVec 6)
  | cpym (h : Hdr) (m : MemOp) (cs : BitVec 4) (sn : BitVec 6)
  | batonRing (h : Hdr) (sl : BitVec 6) (n : BitVec 4)
  | batonPass (h : Hdr)
  | batonEnd (h : Hdr)
  | jpoll (h : Hdr) (qd : BitVec 3) (sj : BitVec 6)
  | jwait (h : Hdr) (sj : BitVec 6)
  | bgath (h : Hdr) (m : MemOp) (cs : BitVec 4) (sn : BitVec 6)
  | bred (h : Hdr) (t : Ty) (m : MemOp) (cs : BitVec 4) (sn : BitVec 6)
  | bcvt (h : Hdr) (m : MemOp) (cs : BitVec 4) (sn : BitVec 6)
  | kcm (h : Hdr) (u : Bool) (d : BitVec 6) (r c : Src) (sk : BitVec 6)
  | beamQuery (h : Hdr) (d : BitVec 6) (m : MemOp)
  | beamResume (h : Hdr) (d : BitVec 6) (m : MemOp) (p : BitVec 6)
  | bres (h : Hdr) (d : BitVec 6) (j : Src)
  -- trapeze regions
  | trb (h : Hdr) (tgt : BitVec 20) (join : BitVec 16)
  | tre (h : Hdr)
  | tra (h : Hdr) (code : BitVec 8)
  | trs (h : Hdr) (d : BitVec 6)
  -- traps and CSRs
  | trap (h : Hdr) (code : BitVec 8)
  | bkpt (h : Hdr) (code : BitVec 8)
  | eret (h : Hdr)
  | csrr (h : Hdr) (d : BitVec 6) (csr : BitVec 12)
  | csrw (h : Hdr) (csr : BitVec 12) (src : Src)
  | spmapRegister (n : Nat) (val : DWord)
  | spmapDeregister (n : Nat) (val : DWord)
  | pairWord (h0 h1 : Half)
  -- launch queues, controllers and dispatch
  | queueDoorbell (q : Nat) (tail : BitVec 32)
  | qcfgWrite (q : Nat) (val : DWord)
  | packetRead (q : Nat)
  | teamAdmit (q : Nat) (c : AdmitChoice)
  | carouselArrival (cluster : Nat)
  | bucketTimeout (cluster : Nat)
  | bucketDispatch (cluster : Nat)
  | poolRefill (tgt : PoolTarget)
  | readyQueueDispatch (cell : Nat)
  | consumerAdmit (ctx node : Nat) (c : AdmitChoice)
  | enqResume (ctx node : Nat)
  | partialEviction (cell waves threads : Nat)
  | memberRestore (uid : Nat)
  | groupSwitchLimit (slot : Nat)
  | teamRetire (ctx handle : Nat)
  -- engines at work
  | matrixJobStart (cluster : Nat)
  | matrixJobComplete (cluster : Nat)
  | copyJobComplete (cluster job : Nat)
  | baseJobComplete (cluster job : Nat)
  | beamJobStart (cluster : Nat)
  | beamStep (cluster job : Nat)
  | beamJobSave (cluster job : Nat)
  | beamJobRestore (cluster job : Nat)
  | budgetRefill (die : Nat)
  | powerTokenDivision (activity : List Nat)
  | regionCommit (die : Nat)
  | soloTokenGrant (die : Nat)
  -- coherence messages in flight, named by their tag
  | rds (tag : Nat)
  | rdo (tag : Nat)
  | upg (tag : Nat)
  | lrd (tag : Nat)
  | wrt (tag : Nat)
  | urd (tag : Nat)
  | atm (tag : Nat)
  | inv (tag : Nat)
  | sns (tag : Nat)
  | sni (tag : Nat)
  | iack (tag : Nat)
  | sdat (tag : Nat)
  | wbif (tag : Nat)
  | data (tag : Nat)
  | nack (tag : Nat)
  | nackRetry (tag : Nat)
  | wb (tag : Nat)
  | evn (tag : Nat)
  | ptsTick (die : Nat)
  | leaseRebase (die : Nat)
  | hostHalfRequest (line : Nat) (half : Bool)
  -- host memory traffic and links
  | hostWrite (pa : Nat) (bytes : List Byte)
  | hostRead (pa : Nat) (n : Nat)
  | flitCrcFail (link : Nat)
  | linkRecoveryFail (link : Nat)
  | keyRollover (link : Nat)
  -- SPDM, power and firmware
  | getVersion (die : Nat)
  | getCapabilities (die : Nat)
  | negotiateAlgorithms (die : Nat)
  | getDigests (die : Nat)
  | getCertificate (die : Nat)
  | challenge (die : Nat)
  | getMeasurements (die : Nat)
  | keyExchange (die : Nat)
  | finish (die : Nat)
  | keyUpdate (link : Nat)
  | keyUpdateAck (link : Nat)
  | endSession (die : Nat)
  | firmwareVerify (die : Nat) (signed : Bool) (version : Nat)
  | attestationResult (die : Nat) (ok : Bool)
  | dieResetRequest (die : Nat) (val : DWord)
  | dieDrainComplete (die : Nat)
  | dieReset (die : Nat)
  | storageError (e : StorageErr)
  -- traps and wakes the device delivers
  | allAsleep (ctx : Nat)
  | waitadrWake (slot : Nat)
  | waitWake (slot : Nat)
  -- host registers
  | ctxctlHalt (ctx : Nat)
  | ctxctlGo (ctx : Nat)
  | tlbinv (val : DWord)
  | capw (ctx : Nat) (val : DWord)
  | ctxenWrite (ctx : Nat) (val : DWord)
  | flcfgWrite (ctx : Option Nat) (val : DWord)
  | diehtWrite (die : Nat) (val : DWord)
  | firmwareUpdate (val : DWord)
  | firmwareUpdateEnd (signed : Bool) (version : Nat) (programmed : Bool)
  | counterArm (die idx : Nat) (w0 : DWord)
  | counterDisarm (die idx : Nat) (w0 : DWord)
  | sigDecrement (die : Nat)
  | handlerRecordArrival (die : Nat)
  | handlerDispatch (die : Nat)
  | registerWrite (off : Nat) (val : DWord)
  | copyJobStart (cluster : Nat)
  | copySectorLand (cluster job sector : Nat)
  | pcieCompletion (st : PcieStatus)
  -- steps without an argument
  | powerUp
  | deviceFreeze
  | impreciseFault
  | tlbinvDone
  | peerWriteFail
  deriving DecidableEq, Repr

end Sys2Proof
end

