-- ==== Sys2Proof/Machine/Types.lean ====
section
/-!
DEFINITION. Machine/Types.lean: the type codes of R71 with their widths and classes, and the byte of a source field
(R59).
-/
namespace Sys2Proof

/-- The type code (R71). -/
def Ty.code : Ty → BitVec 5
  | .i8 => 0 | .i16 => 1 | .i32 => 2 | .i64 => 3 | .n8 => 4 | .n16 => 5 | .n32 => 6 | .n64 => 7
  | .f16 => 8 | .bf16 => 9 | .f32 => 10 | .f64 => 11 | .e4m3 => 12 | .e5m2 => 13 | .cb4 => 14 | .sc8 => 15

/-- The type of a code below 16 (R71). -/
def Ty.ofNat? : Nat → Option Ty
  | 0 => some .i8 | 1 => some .i16 | 2 => some .i32 | 3 => some .i64
  | 4 => some .n8 | 5 => some .n16 | 6 => some .n32 | 7 => some .n64
  | 8 => some .f16 | 9 => some .bf16 | 10 => some .f32 | 11 => some .f64
  | 12 => some .e4m3 | 13 => some .e5m2 | 14 => some .cb4 | 15 => some .sc8
  | _ => none

/-- The type of a code. -/
def Ty.ofCode (c : BitVec 5) : Option Ty := Ty.ofNat? c.toNat

/-- Width of an element in bits (R173, R349). -/
def Ty.bits : Ty → Nat
  | .i8 | .n8 | .e4m3 | .e5m2 | .sc8 => 8
  | .i16 | .n16 | .f16 | .bf16 => 16
  | .i32 | .n32 | .f32 => 32
  | .i64 | .n64 | .f64 => 64
  | .cb4 => 4

/-- Width of an access of the type in bytes (R349). -/
def Ty.bytes (t : Ty) : Nat := (t.bits + 7) / 8

/-- Signed integer types. -/
def Ty.isI : Ty → Bool
  | .i8 | .i16 | .i32 | .i64 => true
  | _ => false

/-- Unsigned integer types. -/
def Ty.isN : Ty → Bool
  | .n8 | .n16 | .n32 | .n64 => true
  | _ => false

/-- Float types. -/
def Ty.isF : Ty → Bool
  | .f16 | .bf16 | .f32 | .f64 | .e4m3 | .e5m2 => true
  | _ => false

/-- Integer types. -/
def Ty.isInt (t : Ty) : Bool := t.isI || t.isN

/-- Types of 64 bits. -/
def Ty.is64 (t : Ty) : Bool := t.bits = 64

/-- Integer types of 32 and 64 bits: SUB 2, 3, 6 and 7. -/
def Ty.isWide : Ty → Bool
  | .i32 | .i64 | .n32 | .n64 => true
  | _ => false

/-- The source that a field byte names (R59). -/
def Src.ofByte (b : BitVec 8) : Src :=
  let n : BitVec 6 := b.extractLsb' 0 6
  match b.extractLsb' 6 2 with
  | 0#2 => .v n
  | 1#2 => .lat n
  | 2#2 => .s n
  | _ => .imm n

/-- The field byte of a source (R59). -/
def Src.toByte : Src → BitVec 8
  | .v n => (0 : BitVec 2) ++ n
  | .lat n => (1 : BitVec 2) ++ n
  | .s n => (2 : BitVec 2) ++ n
  | .imm n => (3 : BitVec 2) ++ n

def Src.isV : Src → Bool
  | .v _ => true
  | _ => false

def Src.isL : Src → Bool
  | .lat _ => true
  | _ => false

def Src.isS : Src → Bool
  | .s _ => true
  | _ => false

def Src.isImm : Src → Bool
  | .imm _ => true
  | _ => false

/-- The register number of an even pair. -/
def even6 (n : BitVec 6) : Bool := !n.getLsbD 0

/-- A source that accepts all four kinds, read at a width of 64 bits when `w64` (R59): latches up to L3, even pairs. -/
def Src.any (w64 : Bool) : Src → Bool
  | .v n => !w64 || even6 n
  | .lat k => k.toNat ≤ 3
  | _ => true

/-- A source of uniform or immediate kind. -/
def Src.uni : Src → Bool
  | .s _ | .imm _ => true
  | _ => false

/-- A source of any kind but latch. -/
def Src.noLat (w64 : Bool) : Src → Bool
  | .v n => !w64 || even6 n
  | .lat _ => false
  | _ => true

/-- The value of an order's SUB (R195). -/
def Order.code : Order → BitVec 5
  | .acq => 0 | .rel => 1 | .ar => 2 | .sc => 3

def Order.ofNat? : Nat → Option Order
  | 0 => some .acq | 1 => some .rel | 2 => some .ar | 3 => some .sc | _ => none

/-- OP of ATOM and RED (R107). -/
def AtomOp.code : AtomOp → BitVec 3
  | .add => 0 | .min => 1 | .max => 2 | .and => 3 | .or => 4 | .xor => 5 | .swap => 6 | .fadd => 7

def AtomOp.ofCode (c : BitVec 3) : AtomOp :=
  match c.toNat with
  | 0 => .add | 1 => .min | 2 => .max | 3 => .and | 4 => .or | 5 => .xor | 6 => .swap | _ => .fadd

/-- Bytes of an atomic operand of OP and W (R107, R209). -/
def atomBytes (op : AtomOp) (w : BitVec 2) : Nat :=
  match op, w.toNat with
  | .fadd, 0 => 4
  | .fadd, _ => 2
  | _, 0 | _, 2 => 4
  | _, _ => 8

def ShflMode.code : ShflMode → BitVec 5
  | .idx => 0 | .up => 1 | .down => 2 | .xor => 3

def ShflMode.ofNat? : Nat → Option ShflMode
  | 0 => some .idx | 1 => some .up | 2 => some .down | 3 => some .xor | _ => none

def VoteMode.code : VoteMode → BitVec 5
  | .all => 0 | .any => 1 | .ballot => 2

def VoteMode.ofNat? : Nat → Option VoteMode
  | 0 => some .all | 1 => some .any | 2 => some .ballot | _ => none

def CapField.code : CapField → BitVec 5
  | .base => 0 | .len => 1 | .cursor => 2 | .perm => 3 | .tag => 4 | .space => 5

def CapField.ofNat? : Nat → Option CapField
  | 0 => some .base | 1 => some .len | 2 => some .cursor | 3 => some .perm | 4 => some .tag | 5 => some .space | _ => none

/-- The half opcode (R102). -/
def HalfOp.code : HalfOp → BitVec 7
  | .nop => 0x00 | .iadd => 0x01 | .isub => 0x02 | .imul => 0x03 | .imad => 0x04 | .imin => 0x05 | .imax => 0x06
  | .and => 0x07 | .or => 0x08 | .xor => 0x09 | .shl => 0x0A | .shr => 0x0B | .sar => 0x0C | .rot => 0x0D
  | .mov => 0x0E | .movi => 0x0F | .fadd => 0x10 | .fsub => 0x11 | .fmul => 0x12 | .ffma => 0x13 | .fmin => 0x14
  | .fmax => 0x15 | .cvtF32 => 0x16 | .cvtI32 => 0x17

/-- The half of an OPH; values from 0x18 up are unassigned (R103). -/
def HalfOp.ofNat? : Nat → Option HalfOp
  | 0x00 => some .nop | 0x01 => some .iadd | 0x02 => some .isub | 0x03 => some .imul | 0x04 => some .imad
  | 0x05 => some .imin | 0x06 => some .imax | 0x07 => some .and | 0x08 => some .or | 0x09 => some .xor
  | 0x0A => some .shl | 0x0B => some .shr | 0x0C => some .sar | 0x0D => some .rot | 0x0E => some .mov
  | 0x0F => some .movi | 0x10 => some .fadd | 0x11 => some .fsub | 0x12 => some .fmul | 0x13 => some .ffma
  | 0x14 => some .fmin | 0x15 => some .fmax | 0x16 => some .cvtF32 | 0x17 => some .cvtI32 | _ => none

/-- A formats of MMA and MMAS, and output formats of DRAIN (R106). -/
def Ty.isMma : Ty → Bool
  | .f16 | .bf16 | .f32 | .e4m3 | .e5m2 | .cb4 => true
  | _ => false

/-- Formats of PACK and UNPK (R106). -/
def Ty.isPack : Ty → Bool
  | .f16 | .bf16 | .e4m3 | .e5m2 | .cb4 => true
  | _ => false

/-- Formats of CVTQ and CVTD (R106). -/
def Ty.isQuant : Ty → Bool
  | .e4m3 | .e5m2 | .cb4 => true
  | _ => false

end Sys2Proof
end

