-- ==== Sys2Proof/Machine/Float.lean ====
section
/-!
DEFINITION. Machine/Float.lean: the float formats (R110), exact values, and rounding (R111 to R120). A value is kept exactly
until one rounding makes bits of it.
-/
namespace Sys2Proof.Fp

/-- Layout of a format (R110): exponent bits, mantissa bits, bias. E4M3 has no infinity and one NaN pattern. -/
structure Fmt where
  eb : Nat
  mb : Nat
  bias : Nat
  e4m3 : Bool := false
  deriving DecidableEq, Repr

/-- The format of a float type (R110); other types stand for F32 and are never asked for. -/
def fmtOf : Ty → Fmt
  | .f64 => ⟨11, 52, 1023, false⟩
  | .f16 => ⟨5, 10, 15, false⟩
  | .bf16 => ⟨8, 7, 127, false⟩
  | .e4m3 => ⟨4, 3, 7, true⟩
  | .e5m2 => ⟨5, 2, 15, false⟩
  | _ => ⟨8, 23, 127, false⟩

/-- Width of a format in bits. -/
def Fmt.width (f : Fmt) : Nat := 1 + f.eb + f.mb

/-- The canonical NaN (R110, R111). -/
def Fmt.nan (f : Fmt) : Nat :=
  if f.e4m3 then 0x7F else (2 ^ f.eb - 1) * 2 ^ f.mb + 2 ^ (f.mb - 1)

/-- The bits of +infinity (R110). -/
def Fmt.inf (f : Fmt) : Nat := (2 ^ f.eb - 1) * 2 ^ f.mb

/-- The bits of the largest finite value (R110). -/
def Fmt.maxFin (f : Fmt) : Nat := if f.e4m3 then 0x7E else f.inf - 1

/-- The sign bit. -/
def Fmt.sign (f : Fmt) (neg : Bool) : Nat := if neg then 2 ^ (f.eb + f.mb) else 0

/-- An exact value: NaN, an infinity, or ±m·2^e with a sign for zero. -/
inductive FVal where
  | nan
  | inf (neg : Bool)
  | fin (neg : Bool) (m : Nat) (e : Int)
  deriving DecidableEq, Repr

/-- The value of some bits (R110). -/
def decode (f : Fmt) (x : Nat) : FVal :=
  let neg := x.testBit (f.eb + f.mb)
  let e := x / 2 ^ f.mb % 2 ^ f.eb
  let m := x % 2 ^ f.mb
  if f.e4m3 && e = 15 && m = 7 then .nan
  else if !f.e4m3 && e = 2 ^ f.eb - 1 then (if m = 0 then .inf neg else .nan)
  else if e = 0 then .fin neg m (1 - (f.bias : Int) - f.mb)
  else .fin neg (2 ^ f.mb + m) ((e : Int) - f.bias - f.mb)

/-- 2^e for a non-negative exponent, 1 otherwise. -/
def pow2 (e : Int) : Nat := 2 ^ e.toNat

/-- floor(log2 (n/d)) for n and d above 0. -/
def ilog2 (n d : Nat) : Int :=
  let g : Int := (n.log2 : Int) - d.log2
  if n * pow2 (-g) < d * pow2 g then g - 1 else g

/-- Whether a magnitude with quotient q, remainder r over the divisor d is rounded up under a mode (R98, R113). -/
def roundUp? (rm : BitVec 2) (neg : Bool) (q r d : Nat) : Bool :=
  match rm.toNat with
  | 0 => d < 2 * r || (2 * r = d && q % 2 = 1)
  | 1 => false
  | 2 => neg && r != 0
  | _ => !neg && r != 0

/-- What a magnitude too large for the format becomes (R113). -/
def overflow (f : Fmt) (rm : BitVec 2) (neg : Bool) : Nat :=
  let toMax : Bool := f.e4m3 || (match rm.toNat with | 0 => false | 1 => true | 2 => !neg | _ => neg)
  f.sign neg + if toMax then f.maxFin else f.inf

/-- The exact magnitude n/d with a sign, rounded once into a format (R113). -/
def roundQ (f : Fmt) (rm : BitVec 2) (neg : Bool) (n d : Nat) : Nat :=
  if n = 0 then f.sign neg
  else
    let emin : Int := 1 - (f.bias : Int)
    let e := max (ilog2 n d) emin
    let qe := e - f.mb
    let n' := n * pow2 (-qe)
    let d' := d * pow2 qe
    let q := n' / d'
    let r := n' % d'
    let q' := if roundUp? rm neg q r d' then q + 1 else q
    let enc : Nat := (e - emin).toNat * 2 ^ f.mb + q'
    if f.maxFin < enc then overflow f rm neg else f.sign neg + enc

/-- Rounding a value into a format (R111, R113). -/
def round (f : Fmt) (rm : BitVec 2) : FVal → Nat
  | .nan => f.nan
  | .inf neg => if f.e4m3 then f.sign neg + f.maxFin else f.sign neg + f.inf
  | .fin neg m e => roundQ f rm neg (m * pow2 e) (pow2 (-e))

/-- The value with its sign turned. -/
def FVal.neg : FVal → FVal
  | .nan => .nan
  | .inf s => .inf (!s)
  | .fin s m e => .fin (!s) m e

def FVal.isNan : FVal → Bool
  | .nan => true
  | _ => false

def FVal.isInf : FVal → Bool
  | .inf _ => true
  | _ => false

def FVal.isZero : FVal → Bool
  | .fin _ 0 _ => true
  | _ => false

def FVal.sgn : FVal → Bool
  | .nan => false
  | .inf s => s
  | .fin s _ _ => s

/-- The exact product; 0·∞ is NaN (R335). -/
def mul : FVal → FVal → FVal
  | .fin s m e, .fin s' m' e' => .fin (s != s') (m * m') (e + e')
  | .nan, _ => .nan
  | _, .nan => .nan
  | .inf s, y => if y.isZero then .nan else .inf (s != y.sgn)
  | x, .inf s => if x.isZero then .nan else .inf (x.sgn != s)

/-- A finite value as a signed integer times 2^e0. -/
def scaled (e0 : Int) : FVal → Int
  | .fin s m e => let v : Int := (m * pow2 (e - e0) : Nat); if s then -v else v
  | _ => 0

/-- Exponent of a finite value; a large one otherwise. -/
def expOf : FVal → Int
  | .fin _ _ e => e
  | _ => 4096

/-- The exact sum of values (R112, R124): NaN for a NaN or for infinities of both signs; the sign of an exact zero is that of
the terms when they are zeros of one sign, and otherwise − under RD and + in the other modes. -/
def sum (rm : BitVec 2) (l : List FVal) : FVal :=
  if l.any FVal.isNan || (l.contains (.inf false) && l.contains (.inf true)) then .nan
  else if l.contains (.inf false) then .inf false
  else if l.contains (.inf true) then .inf true
  else
    let e0 := l.foldl (fun a x => min a (expOf x)) 4096
    let t := l.foldl (fun a x => a + scaled e0 x) (0 : Int)
    if t = 0 then
      let neg := if l.all fun x => x.isZero && x.sgn then true
        else if l.all fun x => x.isZero && !x.sgn then false
        else rm = 2
      .fin neg 0 0
    else .fin (t < 0) t.natAbs e0

/-- a + b. -/
def add (f : Fmt) (rm : BitVec 2) (a b : FVal) : Nat := round f rm (sum rm [a, b])

/-- a·b + c, rounded once. -/
def fma (f : Fmt) (rm : BitVec 2) (a b c : FVal) : Nat :=
  round f rm (match mul a b with | .nan => .nan | p => sum rm [p, c])

/-- a / b (R126). -/
def div (f : Fmt) (rm : BitVec 2) (a b : FVal) : Nat :=
  match a, b with
  | .nan, _ | _, .nan => f.nan
  | .inf s, .inf _ => let _ := s; f.nan
  | .inf s, .fin s' _ _ => round f rm (.inf (s != s'))
  | .fin s _ _, .inf s' => f.sign (s != s')
  | .fin s m e, .fin s' m' e' =>
    if m' = 0 then (if m = 0 then f.nan else round f rm (.inf (s != s')))
    else roundQ f rm (s != s') (m * pow2 (e - e')) (m' * pow2 (e' - e))

/-- The integer square root, found bit by bit from bit k down. -/
def isqrtAux (n : Nat) : Nat → Nat → Nat
  | 0, r => if (r + 1) * (r + 1) ≤ n then r + 1 else r
  | k + 1, r =>
    let r' := r + 2 ^ (k + 1)
    isqrtAux n k (if r' * r' ≤ n then r' else r)

/-- The integer square root. -/
def isqrt (n : Nat) : Nat := isqrtAux n (n.log2 / 2 + 1) 0

/-- The root of n/d as r·2^−k with a sticky bit below: (2r + sticky)·2^(−k−1). -/
def rootVal (n d k : Nat) : FVal :=
  let n' := n * 2 ^ (2 * k)
  let r := isqrt (n' / d)
  .fin false (2 * r + b2n (r * r * d != n')) (-(k : Int) - 1)

/-- √a (R126): √(−0) is −0, and a value below −0 gives NaN. -/
def sqrt (f : Fmt) (rm : BitVec 2) : FVal → Nat
  | .nan => f.nan
  | .inf s => if s then f.nan else f.inf
  | .fin s m e =>
    if m = 0 then f.sign s else if s then f.nan
    else round f rm (rootVal (m * pow2 e) (pow2 (-e)) (64 + (-e).toNat))

/-- 1/√a (R126): ±0 gives ±∞ (FRSQ(−0) is −∞, R335). -/
def rsqrt (f : Fmt) (rm : BitVec 2) : FVal → Nat
  | .nan => f.nan
  | .inf s => if s then f.nan else 0
  | .fin s m e =>
    if m = 0 then f.sign s + f.inf else if s then f.nan
    else round f rm (rootVal (pow2 (-e)) (m * pow2 e) (64 + e.toNat + m.log2))

/-- An exact magnitude n/d rounded to an integer under a mode. -/
def roundIntQ (rm : BitVec 2) (neg : Bool) (n d : Nat) : Int :=
  let q := n / d
  let v : Int := if roundUp? rm neg q (n % d) d then q + 1 else q
  if neg then -v else v

/-- A finite value rounded to an integer. -/
def toInt (rm : BitVec 2) : FVal → Int
  | .fin s m e => roundIntQ rm s (m * pow2 e) (pow2 (-e))
  | _ => 0

/-- The exact value of an integer. -/
def ofInt (x : Int) : FVal := .fin (x < 0) x.natAbs 0

/-- FRND (R335): zero results keep the sign of a. -/
def roundInt (f : Fmt) (rm : BitVec 2) : FVal → Nat
  | .nan => f.nan
  | .inf s => round f rm (.inf s)
  | .fin s m e =>
    let v := toInt rm (.fin s m e)
    round f rm (.fin s v.natAbs 0)

/-- Comparison of two finite values or infinities as reals: −1, 0 or 1. -/
def cmp (a b : FVal) : Int :=
  let k : FVal → Int := fun x => match x with
    | .inf s => if s then -1 else 1
    | _ => 0
  if a.isInf || b.isInf then (if k a < k b then -1 else if k b < k a then 1 else 0)
  else
    let e0 := min (expOf a) (expOf b)
    let x := scaled e0 a
    let y := scaled e0 b
    if x < y then -1 else if y < x then 1 else 0

/-- FMIN and FMAX (R335): one input's bits, the other input beside a NaN, −0 below +0. -/
def minmax (f : Fmt) (wantMax : Bool) (x y : Nat) : Nat :=
  let a := decode f x
  let b := decode f y
  if a.isNan && b.isNan then f.nan
  else if a.isNan then y
  else if b.isNan then x
  else
    let c := cmp a b
    let aLess := c < 0 || (c = 0 && a.sgn && !b.sgn)
    if wantMax then (if aLess then y else x) else (if aLess then x else if c = 0 && !(b.sgn && !a.sgn) then x else y)

/-- FCLASS (R336). -/
def fclass (f : Fmt) (x : Nat) : Nat :=
  match decode f x with
  | .nan => 0x100
  | .inf s => if s then 1 else 0x80
  | .fin s m _ =>
    if m = 0 then (if s then 8 else 0x10)
    else
      let sub := x / 2 ^ f.mb % 2 ^ f.eb = 0
      if s then (if sub then 4 else 2) else (if sub then 0x20 else 0x40)

/-- FCMP (R337). -/
def fcmp (f : Fmt) (cond : BitVec 3) (x y : Nat) : Bool :=
  let a := decode f x
  let b := decode f y
  let un := a.isNan || b.isNan
  let c := cmp a b
  match cond.toNat with
  | 0 => !un && c = 0
  | 1 => un || c != 0
  | 2 => !un && c < 0
  | 3 => !un && c ≤ 0
  | 4 => !un && 0 < c
  | 5 => !un && 0 ≤ c
  | 6 => !un
  | _ => un

/-- The value of an SC8 code other than 0xFF (R116). -/
def sc8 (c : Nat) : FVal := .fin false (8 + c % 8) ((c / 8 % 32 : Nat) - 15 - 3)

/-- An exact quotient or value for quantisation: x, or x divided by a scale (R120). The magnitude is n/d. -/
structure Quot where
  neg : Bool
  n : Nat
  d : Nat
  deriving DecidableEq, Repr

/-- A finite value as a quotient. -/
def Quot.ofVal (s : Bool) (m : Nat) (e : Int) : Quot := ⟨s, m * pow2 e, pow2 (-e)⟩

/-- The quotient divided by a positive finite value. -/
def Quot.divBy (x : Quot) : FVal → Quot
  | .fin _ m e => ⟨x.neg, x.n * pow2 (-e), x.d * (m * pow2 e)⟩
  | _ => x

/-- The signed numerator. -/
def Quot.sn (x : Quot) : Int := if x.neg then -(x.n : Int) else x.n

/-- x − c times the common denominator, for a codebook value c. -/
def Quot.diff (x : Quot) (c : FVal) : Int :=
  match c with
  | .fin s m e =>
    let cn : Int := if s then -(m * pow2 e : Nat) else (m * pow2 e : Nat)
    x.sn * pow2 (-e) - cn * x.d
  | _ => 0

/-- |x − c| as a numerator and denominator. -/
def Quot.dist (x : Quot) (c : FVal) : Nat × Nat := ((x.diff c).natAbs, x.d * pow2 (-(expOf c)))

/-- The code of the best entry among some codes: the first that no later one beats strictly, so the smaller code on a tie. -/
def bestCode (better : FVal → FVal → Bool) (cb : List FVal) (codes : List Nat) : Option Nat :=
  codes.foldl (fun acc k => match acc with
    | none => some k
    | some j => if better (cb.getD k .nan) (cb.getD j .nan) then some k else some j) none

/-- Rounding an exact quotient into CB4 (R119). -/
def roundCb4 (cb : List FVal) (rm : BitVec 2) (x : Quot) : Nat :=
  let all := List.range 16
  let at' := fun k => cb.getD k .nan
  let nearer : FVal → FVal → Bool := fun a b =>
    let p := x.dist a
    let q := x.dist b
    p.1 * q.2 < q.1 * p.2
  let rn := (bestCode nearer cb all).getD 0
  match rm.toNat with
  | 0 => rn
  | 1 => -- c·x ≥ 0 and |c| ≤ |x|
    let ok := all.filter fun k =>
      match at' k with
      | .fin s m e => (m = 0 || x.n = 0 || s = x.neg) && m * pow2 e * x.d ≤ x.n * pow2 (-e)
      | _ => false
    (bestCode nearer cb ok).getD rn
  | 2 =>
    let ok := all.filter fun k => 0 ≤ x.diff (at' k)
    (bestCode (fun a b => 0 < cmp a b) cb ok).getD ((bestCode (fun a b => cmp a b < 0) cb all).getD 0)
  | _ =>
    let ok := all.filter fun k => x.diff (at' k) ≤ 0
    (bestCode (fun a b => cmp a b < 0) cb ok).getD ((bestCode (fun a b => 0 < cmp a b) cb all).getD 0)

/-- An infinity into CB4 (R119). -/
def infCb4 (cb : List FVal) (neg : Bool) : Nat :=
  (bestCode (fun a b => if neg then cmp a b < 0 else 0 < cmp a b) cb (List.range 16)).getD 0

/-- Quantising a value, divided by a scale when one is given, into E4M3, E5M2, CB4 or an unscaled float format (R120). -/
def quantise (t : Ty) (cb : List FVal) (rm : BitVec 2) (x : FVal) (scale : Option FVal) : Nat :=
  match x with
  | .nan => if t = .cb4 then 0 else (fmtOf t).nan
  | .inf s => if t = .cb4 then infCb4 cb s else round (fmtOf t) rm (.inf s)
  | .fin s m e =>
    let q := match scale with
      | some sc => (Quot.ofVal s m e).divBy sc
      | none => Quot.ofVal s m e
    if t = .cb4 then roundCb4 cb rm q else roundQ (fmtOf t) rm q.neg q.n q.d

/-- The value of an element code of a format (R117): an entry of the codebook for CB4. -/
def element (t : Ty) (cb : List FVal) (code : Nat) : FVal :=
  if t = .cb4 then cb.getD (code % 16) .nan else decode (fmtOf t) code

/-- rne and rtz (R5). -/
def rne : BitVec 2 := 0
def rtz : BitVec 2 := 1

/-- F32. -/
def f32 : Fmt := fmtOf .f32

/-- KCM (R130). -/
def kcm (r c s : Word) (key : DWord) : Word :=
  let klo : Word := key.extractLsb' 0 32
  let khi : Word := key.extractLsb' 32 32
  let h := (r ^^^ klo) * 0xA511E9B3#32
  let h := h ^^^ rotl32 (c ^^^ khi) 13
  let h := h * 0x6C8E9CF5#32
  let h := h ^^^ (h >>> 15)
  let h := h ^^^ s
  let h := h * 0xA511E9B3#32
  h ^^^ (h >>> 16)

end Sys2Proof.Fp
end

