-- ==== Sys2Proof/Machine/Transc.lean ====
section
/-!
DEFINITION. Machine/Transc.lean: FEXP2, FLOG2, FSIN, FCOS and FTANH correctly rounded into F32 (R127). Each function is
computed in fixed point with p fractional bits and an error of at most 2^−p·2^32; when both ends of that interval round to
the same bits, those are the result, and otherwise p is doubled. The exact cases are split off first, so that the exact
value never lies on a rounding boundary.
-/
namespace Sys2Proof.Fp

/-- Fixed-point product: floor(a·b / 2^p). -/
def fxMul (p : Nat) (a b : Int) : Int := a * b / 2 ^ p

/-- Σ ± z^(2k+1)/(2k+1) for z = 1/q: atanh(1/q), or arctan(1/q) when `alt`. `t` is 2^p/q^(2k+1). -/
def invSeries (q : Nat) (alt : Bool) : Nat → Nat → Int → Int
  | 0, _, _ => 0
  | fuel + 1, k, t =>
    if t = 0 then 0
    else
      let term := t / (2 * k + 1)
      (if alt && k % 2 = 1 then -term else term) + invSeries q alt fuel (k + 1) (t / (q * q))

/-- ln 2 = 2·atanh(1/3), p fractional bits. -/
def ln2 (p : Nat) : Int := 2 * invSeries 3 false p 0 ((2 ^ p : Nat) / 3 : Nat)

/-- π = 16·arctan(1/5) − 4·arctan(1/239), p fractional bits. -/
def pi (p : Nat) : Int :=
  16 * invSeries 5 true p 0 ((2 ^ p : Nat) / 5 : Nat) - 4 * invSeries 239 true p 0 ((2 ^ p : Nat) / 239 : Nat)

/-- Σ y^k/k! from the term t = y^k/k! on. -/
def expSeries (p : Nat) (y : Int) : Nat → Nat → Int → Int
  | 0, _, _ => 0
  | fuel + 1, k, t => if t = 0 then 0 else t + expSeries p y fuel (k + 1) (fxMul p t y / (k + 1))

/-- e^y for 0 ≤ y < 1, p fractional bits. -/
def expFx (p : Nat) (y : Int) : Int := expSeries p y p 0 (2 ^ p)

/-- Σ z^(2k+1)/(2k+1) from the power t = z^(2k+1) on. -/
def atanhSeries (p : Nat) (z2 : Int) : Nat → Nat → Int → Int
  | 0, _, _ => 0
  | fuel + 1, k, t => if t = 0 then 0 else t / (2 * k + 1) + atanhSeries p z2 fuel (k + 1) (fxMul p t z2)

/-- Σ ± of alternate terms: sine from k = 1 and t = y, cosine from k = 0 and t = 1. -/
def trigSeries (p : Nat) (y2 : Int) : Nat → Nat → Int → Int
  | 0, _, _ => 0
  | fuel + 1, k, t => if t = 0 then 0 else t + trigSeries p y2 fuel (k + 2) (-(fxMul p t y2) / ((k + 1) * (k + 2)))

/-- Half the width of the interval, in units of 2^−p. -/
def fxErr : Int := 2 ^ 32

/-- v·2^(sh − p) rounded to nearest into F32. -/
def roundFx (p : Nat) (v sh : Int) : Nat := round f32 rne (.fin (v < 0) v.natAbs (sh - p))

/-- The result when the interval around v decides it. -/
def decided (p : Nat) (v sh : Int) : Option Nat :=
  let a := roundFx p (v - fxErr) sh
  let b := roundFx p (v + fxErr) sh
  if a = b then some a else none

/-- The first precision of a list that decides, the last one's rounding otherwise. -/
def ziv (g : Nat → Int × Int) : List Nat → Nat
  | [] => 0
  | [p] => roundFx p (g p).1 (g p).2
  | p :: q :: ps =>
    match decided p (g p).1 (g p).2 with
    | some r => r
    | none => ziv g (q :: ps)

/-- The precisions tried. -/
def precisions : List Nat := [256, 384, 640, 1152]

/-- m·2^e with p fractional bits, rounded down. -/
def toFx (p : Nat) (m : Nat) (e : Int) : Nat := m * pow2 (e + p) / pow2 (-(e + p))

/-- FEXP2 (R127). -/
def exp2 (x : Nat) : Nat :=
  match decode f32 x with
  | .nan => f32.nan
  | .inf s => if s then 0 else f32.inf
  | .fin s m e =>
    let v : FVal := .fin s m e
    if 0 ≤ cmp v (ofInt 128) then f32.inf
    else if cmp v (ofInt (-150)) < 0 then 0
    else
      let k := roundIntQ 2 s (m * pow2 e) (pow2 (-e))
      if cmp v (ofInt k) = 0 then round f32 rne (.fin false 1 k)
      else
        let g := fun p : Nat =>
          let f : Int := (if s then -(toFx p m e : Int) else (toFx p m e : Int)) - k * 2 ^ p
          (expFx p (fxMul p f (ln2 p)), k)
        ziv g precisions

/-- FLOG2 (R127). -/
def log2 (x : Nat) : Nat :=
  match decode f32 x with
  | .nan => f32.nan
  | .inf s => if s then f32.nan else f32.inf
  | .fin s m e =>
    if m = 0 then f32.sign true + f32.inf
    else if s then f32.nan
    else
      let k := m.log2
      let ex : Int := e + k
      if m = 2 ^ k then round f32 rne (ofInt ex)
      else
        let g := fun p : Nat =>
          let z : Int := ((m - 2 ^ k) * 2 ^ p / (m + 2 ^ k) : Nat)
          let l := 2 * atanhSeries p (fxMul p z z) p 0 z
          (ex * 2 ^ p + l * 2 ^ p / ln2 p, 0)
        ziv g precisions

/-- The argument |x| reduced: the quadrant, and the rest below π/2, with p fractional bits. π is taken with 160 more. -/
def reduce (p m : Nat) (e : Int) : Nat × Int :=
  let hp := pi (p + 160) / 2
  let a : Int := (toFx (p + 160) m e : Nat)
  let n := a / hp
  ((n % 4).toNat, (a - n * hp) / 2 ^ 160)

/-- Sine and cosine in fixed point of a reduced argument in quadrant n. -/
def quadrant (p n : Nat) (y : Int) : Int :=
  let y2 := fxMul p y y
  let sn := trigSeries p y2 p 1 y
  let cs := trigSeries p y2 p 0 (2 ^ p)
  match n % 4 with
  | 0 => sn
  | 1 => cs
  | 2 => -sn
  | _ => -cs

/-- FSIN (R127). -/
def sin (x : Nat) : Nat :=
  match decode f32 x with
  | .nan | .inf _ => f32.nan
  | .fin s m e =>
    if m = 0 then x
    else
      let g := fun p : Nat =>
        let r := reduce p m e
        let v := quadrant p r.1 r.2
        (if s then -v else v, (0 : Int))
      ziv g precisions

/-- FCOS (R127). -/
def cos (x : Nat) : Nat :=
  match decode f32 x with
  | .nan | .inf _ => f32.nan
  | .fin _ m e =>
    if m = 0 then 0x3F800000
    else
      let g := fun p : Nat =>
        let r := reduce p m e
        (quadrant p (r.1 + 1) r.2, (0 : Int))
      ziv g precisions

/-- FTANH (R127): beyond 32 the exact value lies closer to ±1 than half an ulp. -/
def tanh (x : Nat) : Nat :=
  match decode f32 x with
  | .nan => f32.nan
  | .inf s => f32.sign s + 0x3F800000
  | .fin s m e =>
    if m = 0 then x
    else if 0 ≤ cmp (.fin false m e) (ofInt 32) then f32.sign s + 0x3F800000
    else
      let g := fun p : Nat =>
        -- e^(−2|x|) from 2|x| = k·ln 2 + r, and tanh = (1 − t)/(1 + t)
        let y : Int := (2 * toFx (p + 64) m e : Nat)
        let l := ln2 (p + 64)
        let k := y / l
        let r := y - k * l
        let t := 2 ^ (2 * (p + 64)) / expFx (p + 64) r / 2 ^ k.toNat
        let one : Int := 2 ^ (p + 64)
        let v := (one - t) * 2 ^ p / (one + t)
        (if s then -v else v, (0 : Int))
      ziv g precisions

end Sys2Proof.Fp
end

