-- ==== Sys2Proof/Machine/BeamGeom.lean ====
section
/-!
DEFINITION. Machine/BeamGeom.lean: the exact geometry of beam queries (R267, R268, R271, R272): ray directions, boxes, the
classification of a beam against a box, and ray against triangle. Numbers are exact rationals.
-/
namespace Sys2Proof.Beam

/-- A point or direction. -/
structure Vec where
  x : Rat
  y : Rat
  z : Rat
  deriving DecidableEq, Repr

namespace Vec

def add (a b : Vec) : Vec := ⟨a.x + b.x, a.y + b.y, a.z + b.z⟩
def sub (a b : Vec) : Vec := ⟨a.x - b.x, a.y - b.y, a.z - b.z⟩
def scale (k : Rat) (a : Vec) : Vec := ⟨k * a.x, k * a.y, k * a.z⟩
def dot (a b : Vec) : Rat := a.x * b.x + a.y * b.y + a.z * b.z
def cross (a b : Vec) : Vec := ⟨a.y * b.z - a.z * b.y, a.z * b.x - a.x * b.z, a.x * b.y - a.y * b.x⟩
def toList (a : Vec) : List Rat := [a.x, a.y, a.z]

end Vec

/-- 2^e. -/
def ratPow2 (e : Int) : Rat :=
  let n : Nat := 2 ^ e.natAbs
  if 0 ≤ e then (n : Rat) else 1 / (n : Rat)

/-- The real number of F32 bits, read in the grid that goes on without an exponent limit: 0x7F80_0000 is 2^128 (R271). -/
def gridVal (w : Nat) : Rat :=
  let m : Nat := w % 2 ^ 31
  let e : Nat := m / 2 ^ 23
  let f : Nat := if e = 0 then m else 2 ^ 23 + m % 2 ^ 23
  let v : Rat := (f : Rat) * ratPow2 (if e = 0 then -149 else (e : Int) - 150)
  if w.testBit 31 then -v else v

/-- The place of F32 bits in the grid, −0 and +0 at one place. -/
def gridPos (w : Nat) : Int := if w.testBit 31 then -((w % 2 ^ 31 : Nat) : Int) else (w : Int)

/-- The number at a place of the grid. -/
def gridAt (n : Int) : Rat := if n < 0 then -(gridVal n.natAbs) else gridVal n.toNat

/-- A rational rounded once into F32. -/
def toF32 (x : Rat) : Nat := Fp.roundQ Fp.f32 Fp.rne (x < 0) x.num.natAbs x.den

/-- Whether F32 bits are finite. -/
def finite (w : Nat) : Bool := w / 2 ^ 23 % 256 != 255

/-- Cosine or sine of 2π·u/g, rounded once into F32 (R267). -/
def trigTurn (sine : Bool) (u g : Nat) : Nat :=
  let n := 4 * u / g
  let r := 4 * u % g
  let k := if sine then n else n + 1
  if r = 0 then
    match k % 4 with
    | 1 => 0x3F800000
    | 3 => 0xBF800000
    | _ => 0
  else
    Fp.ziv (fun p => (Fp.quadrant p k (Fp.pi p * r / (2 * g)), 0)) Fp.precisions

/-- The F32 bits of direction (u, v) (R267): kind 0 RAY, 1 FRUSTUM, 2 CONE; `d` holds D0 to D3. -/
def direction (kind g1 g2 u v : Nat) (d : List Nat) : List Nat :=
  let c (k a : Nat) : Rat := gridVal (d.getD (3 * k + a) 0)
  match kind with
  | 0 => d.take 3
  | 1 =>
    let a : Rat := (2 * u + 1 : Nat) / (2 * g1 : Nat)
    let b : Rat := (2 * v + 1 : Nat) / (2 * g2 : Nat)
    (List.range 3).map fun i =>
      toF32 ((1 - a) * (1 - b) * c 0 i + a * (1 - b) * c 1 i + (1 - a) * b * c 2 i + a * b * c 3 i)
  | _ =>
    let cs := gridVal (trigTurn false u g1)
    let sn := gridVal (trigTurn true u g1)
    let k : Rat := (v + 1 : Nat) / (g2 : Nat)
    (List.range 3).map fun i => toF32 (c 0 i + k * (cs * c 1 i + sn * c 2 i))

/-- The direction of F32 bits. -/
def vecOf (l : List Nat) : Vec := ⟨gridVal (l.getD 0 0), gridVal (l.getD 1 0), gridVal (l.getD 2 0)⟩

/-- The corners of the box to which a direction widens (R271). -/
def widened (l : List Nat) : List Vec :=
  let ends (k : Nat) : List Rat := let n := gridPos (l.getD k 0); [gridAt (n - 1), gridAt (n + 1)]
  (ends 0).flatMap fun x => (ends 1).flatMap fun y => (ends 2).map fun z => ⟨x, y, z⟩

/-- A box by its lower and upper corners. -/
structure Box where
  lo : Vec
  hi : Vec
  deriving DecidableEq, Repr

/-- Bounds of a ray's parameter; none above is +∞. -/
structure Span where
  tmin : Rat
  tmax : Option Rat
  deriving DecidableEq, Repr

/-- The parameters at which o + t·d lies in a slab, cut out of an interval: none when it is empty. -/
def cutSlab (l h o d : Rat) (s : Span) : Option Span :=
  if d == 0 then (if l ≤ o && o ≤ h then some s else none)
  else
    let a := if 0 < d then (l - o) / d else (h - o) / d
    let b := if 0 < d then (h - o) / d else (l - o) / d
    let lo := max s.tmin a
    let hi := match s.tmax with
      | some t => min t b
      | none => b
    if lo ≤ hi then some ⟨lo, some hi⟩ else none

/-- Whether o + t·d lies in a box for some t of a span. -/
def rayMeets (o d : Vec) (b : Box) (s : Span) : Bool :=
  ((cutSlab b.lo.x b.hi.x o.x d.x s).bind fun s =>
    (cutSlab b.lo.y b.hi.y o.y d.y s).bind fun s => cutSlab b.lo.z b.hi.z o.z d.z s).isSome

/-! ### Feasibility of a linear program -/

/-- A tableau in the first phase of the simplex method: rows with their right-hand side last, and the basic variable of each. -/
structure Tab where
  rows : List (List Rat)
  basis : List Nat
  obj : List Rat
  n : Nat

/-- Row r reduced so that its column j is 0, given the pivot row with a 1 there. -/
def elim (j : Nat) (piv r : List Rat) : List Rat :=
  let k := r.getD j 0
  if k == 0 then r else (r.zip piv).map fun p => p.1 - k * p.2

/-- One pivot by Bland's rule; none when no column improves the objective. -/
def Tab.pivot (t : Tab) : Option Tab :=
  match (List.range t.n).find? fun j => decide (0 < t.obj.getD j 0) with
  | none => none
  | some j =>
    let cand := (List.range t.rows.length).filter fun i => decide (0 < (t.rows.getD i []).getD j 0)
    let ratio (i : Nat) : Rat := (t.rows.getD i []).getD t.n 0 / (t.rows.getD i []).getD j 0
    match cand.foldl (fun (b : Option Nat) i =>
        match b with
        | none => some i
        | some k => if ratio i < ratio k || (ratio i == ratio k && t.basis.getD i 0 < t.basis.getD k 0) then some i else b) none with
    | none => none
    | some i =>
      let p := (t.rows.getD i []).getD j 1
      let piv := (t.rows.getD i []).map (· / p)
      some { t with rows := t.rows.zipIdx.map (fun r => if r.2 == i then piv else elim j piv r.1),
                    basis := t.basis.set i j, obj := elim j piv t.obj }

/-- Pivots until the objective is met or cannot improve; `feasible` gives more fuel than there are bases (log 36). -/
def Tab.solve : Nat → Tab → Bool
  | 0, _ => true
  | f + 1, t =>
    if t.obj.getD t.n 0 == 0 then true
    else
      match t.pivot with
      | none => false
      | some t' => t'.solve f

/-- Whether non-negative numbers satisfy some equations, each a list of coefficients with its right-hand side last. -/
def feasible (n : Nat) (eqs : List (List Rat)) : Bool :=
  let rows := eqs.map fun r => if r.getD n 0 < 0 then r.map (- ·) else r
  let obj := (List.range (n + 1)).map fun j => (rows.map fun r => r.getD j 0).foldl (· + ·) 0
  -- Bland's rule meets no basis twice, so there are fewer pivots than sets of rows.length columns
  Tab.solve ((n + rows.length) ^ rows.length + 1) ⟨rows, (List.range rows.length).map (n + ·), obj, n⟩

/-- Whether the region of a beam meets a box (R271). Every point of the region is APEX plus a sum of non-negative multiples of the
corner directions whose weights add up to a t of the span. -/
def regionMeets (o : Vec) (vs : List Vec) (b : Box) (s : Span) : Bool :=
  let k := vs.length
  -- slacks: one pair for each axis, then one pair for the sum of the weights
  let n := k + 8
  let unit (j : Nat) (c : Rat) : List Rat := (List.range 8).map fun i => if i == j then c else 0
  let axis (a : Nat) (get : Vec → Rat) : List (List Rat) :=
    [vs.map get ++ unit (2 * a) (-1) ++ [get b.lo - get o],
     vs.map get ++ unit (2 * a + 1) 1 ++ [get b.hi - get o]]
  let ones := vs.map fun _ => (1 : Rat)
  feasible n (axis 0 Vec.x ++ axis 1 Vec.y ++ axis 2 Vec.z ++ [ones ++ unit 6 (-1) ++ [s.tmin]] ++
    match s.tmax with
    | some t => [ones ++ unit 7 1 ++ [t]]
    | none => [])

/-- The classes of R271. -/
inductive Class where
  | allOut | allIn | mixed
  deriving DecidableEq, Repr

/-- A beam, by its rays' directions, against a box (R271). The directions that meet the box form a convex set, so ALL-IN needs the
corners only. -/
def classify (o : Vec) (dirs : List (List Nat)) (b : Box) (s : Span) : Class :=
  let vs := dirs.flatMap widened
  if vs.all fun d => rayMeets o d b s then .allIn
  else if regionMeets o vs b s then .mixed
  else .allOut

/-! ### Triangles -/

/-- A ray against a triangle (R272): t, b1 and b2 rounded into F32, when it hits. -/
def hit (o d v0 v1 v2 : Vec) (s : Span) : Option (Nat × Nat × Nat) :=
  let e1 := v1.sub v0
  let e2 := v2.sub v0
  let p := d.cross e2
  let det := e1.dot p
  if det == 0 then none
  else
    let tv := o.sub v0
    let q := tv.cross e1
    let b1 := tv.dot p / det
    let b2 := d.dot q / det
    let t := e2.dot q / det
    let below := match s.tmax with
      | some m => decide (t ≤ m)
      | none => true
    if 0 ≤ b1 && 0 ≤ b2 && b1 + b2 ≤ 1 && s.tmin ≤ t && below then some (toF32 t, toF32 b1, toF32 b2) else none

end Sys2Proof.Beam
end

