-- ==== Sys2Proof/Config.lean ====
section
/-!
DEFINITION. Config.lean: values that the spec leaves open, as constants without a body: nothing can evaluate them, so a
statement holds for every value they could have. `State.fresh` counts the draws.
-/
namespace Sys2Proof.Config

/-- Words that a halting member still completes, of which R251 allows 0 to 4 (log 7). -/
opaque skid : Nat → Nat

/-- The key that a link takes at a key rollover (R293, log 8). -/
opaque linkKey : Nat → Nat

/-- The vendor and part code of DEVID (R296, log 9). -/
opaque devid : DWord

/-- The bytes an ACC tile holds once taken anew, by draw and offset (R171, log 10). -/
opaque accByte : Nat → Nat → Byte

/-- The bytes of a host read of memory behind a die that is not TRUSTED (R291, log 45). -/
opaque hostByte : Nat → Byte

/-- The tokens that PWRLIM stands for in one division (R294, log 35). -/
opaque powerTokens : Nat → Nat

/-- The tokens that a die may hold: those of 520 W (R294, log 35). -/
opaque dieTokens : Nat

/-- Whether a heat-flux sensor of a die reads above 250 W/cm², by draw, and the share to which the die is then lowered (R294, log 35). -/
opaque hotDie : Nat → Bool
opaque cooled : Nat → Nat

/-- Whether the link layer's retries of a flit are exhausted, by draw, so that the link recovers (R248, log 8). -/
opaque retriesOver : Nat → Bool

/-- Whether a PEER request of the copy unit or of WAITADR meets an error: a read's completion has an error status, a posted write fails (R300,
log 88). -/
opaque peerFails : Nat → Bool

/-- The number of SKID words by its bound. -/
def skidOf (n : Nat) : Nat := skid n % 5

end Sys2Proof.Config
end

