-- ==== Sys2Proof/Machine/State.lean ====
section
/-!
DEFINITION. Machine/State.lean: the state of the whole device as plain data, the reasons a step can stop, and the state
after reset. Each structure names the rules of spec/ that give its fields.
-/
namespace Sys2Proof.Machine

/-- Reasons the machine stops. -/
inductive Fault where
  /-- Raised by `hostWrite` and `hostRead` at a device physical address that R141 does not back. Safe: the spec gives
  such a host access no effect, and the machine goes no further. -/
  | unbackedAddress
  deriving DecidableEq, Repr

/-- Reasons an instruction has no meaning here. -/
inductive Refusal where
  /-- Raised by an arm of `exec` that is not written yet. Safe: the machine stops. -/
  | notModelled (mnemonic : String)
  deriving DecidableEq, Repr

/-- A capability with its hidden tag (R132). -/
structure Cap where
  tag : Bool
  space : BitVec 4
  perm : BitVec 8
  e : BitVec 6
  basem : BitVec 23
  lenm : BitVec 23
  cursor : DWord
  deriving DecidableEq, Repr

/-- The NULL capability: every bit 0, untagged. -/
def Cap.null : Cap := ⟨false, 0, 0, 0, 0, 0, 0⟩

/-- An index register of one lane (R62). -/
structure XReg where
  val : BitVec 8
  hi : BitVec 6
  lo : BitVec 6
  deriving DecidableEq, Repr

/-- Value 0 with bounds 0 and 0 (R23). -/
def XReg.zero : XReg := ⟨0, 0, 0⟩

/-- The operand map set by OMAP (R175): the capability with its cursor at the B origin, the stride word, SOFS. -/
structure OMap where
  cap : Cap
  stride : DWord
  sofs : DWord
  deriving DecidableEq, Repr

/-- How a load writes what it read, and how an atomic returns the old value (R59, R60, R349). `decoded` is LDF with its
format slot, nibble and scale code (R352); `cap` is LD.CAP (R351). -/
inductive LoadDst where
  | vec (t : Ty) (d : Nat)
  | uni (t : Ty) (d : Nat)
  | decoded (t : Ty) (d : Nat) (slot : Nat) (hi : Bool) (scale : Option Nat)
  | cap (cd : Nat)
  | none
  deriving DecidableEq, Repr

/-- What a walk ends in: the physical address of the byte, the page size, and the leaf's fields (R144). -/
structure Leaf where
  pa : Nat
  bits : Nat
  pte : DWord
  deriving DecidableEq, Repr

/-- What an access does: load, store a value (with a capability's tag), an atomic, a compare and swap. -/
inductive AccOp where
  | load
  | store (x : Nat) (tag : Bool)
  | atom (op : AtomOp) (w : BitVec 2) (b : Nat)
  | cas (expected new : Nat)
  deriving DecidableEq, Repr

/-- One region access held back under R223, where `source` is the entry of the region that must end first; or one load that
waits behind a held write of its thread (R229), with what its access needs. -/
structure HeldAcc where
  lane : Nat
  /-- the lanes to which the access belongs: more than one for a word that acts once (R191) -/
  lanes : Word
  pa : Nat
  n : Nat
  source : Nat
  inRegion : Bool
  op : AccOp
  dst : LoadDst
  page : Option Leaf
  va : Nat
  hint : Nat
  acq : Bool
  /-- the lanes whose earlier accesses a release covers, none without one -/
  rel : Word
  /-- LDF: the element, as virtual address, physical address, length and page, which follows its scale (R352) -/
  next : Option (Nat × Nat × Nat × Option Leaf)
  deriving DecidableEq, Repr

/-- An imprecise store fault held in the store queue (R147, R257). -/
structure ImpFault where
  cause : BitVec 9
  pc : Addr
  addr : DWord
  lane : Nat
  uid : Nat
  member : Nat
  ctx : Nat
  team : Nat
  lid : Nat
  die : Nat
  cell : Nat
  /-- whether it was met while its team had no resident member: it goes to the first member that issues next (R257) -/
  adrift : Bool
  deriving DecidableEq, Repr

/-- A write that waits at its home: behind a solo region that has read its word (R229), in a register window whose block is lent
(R68), behind such a write of its own agent (R193 to R198), or on its way to another die (R248). The agent is a lane of the wave or scalar
thread `uid`, a job by cluster and key, or the host (uid 0). `page` is set for a thread's access; `dst` receives the old value of an
ATOM or CAS. `storesAfter` and `loadsAfter` are the lanes whose later stores and loads come after it (R194, R197), `rel` those whose
earlier accesses a release covers. -/
structure HeldWrite where
  uid : Nat
  job : Option (Nat × Nat)
  lane : Nat
  /-- the lanes to which the write belongs: more than one for a word that acts once (R191) -/
  lanes : Word
  cell : Nat
  ctx : Nat
  va : Nat
  pa : Nat
  n : Nat
  op : AccOp
  dst : LoadDst
  page : Option Leaf
  hint : Nat
  acq : Bool
  rel : Word
  /-- bytes made from poisoned data (R149) -/
  poison : List Nat
  storesAfter : Word
  loadsAfter : Word
  /-- whether a word of a group that holds the solo region has released it: records on their way wait for it (R25, log 69) -/
  told : Bool
  /-- the links of its way to another die, with the clk at which it was sent and the fault that their failure gives its lane (R248, R249) -/
  way : Option (List Nat × Nat × ImpFault)
  deriving DecidableEq, Repr

/-- What a lane with a held write does for its team once the write has been performed (R207, R229): arrivals at a barrier (R261),
entries of a mailbox channel (R356), or lanes that leave the live count after such an arrival (R161). -/
inductive LateEff where
  | arrive (b n : Nat)
  | post (ch : Nat) (ws : List Word)
  | leave (n : Nat)
  deriving DecidableEq, Repr

/-- Such an effect, with the lanes of the member `uid` whose held writes it waits for. -/
structure Late where
  uid : Nat
  lanes : Word
  ctx : Nat
  team : Nat
  eff : LateEff
  deriving DecidableEq, Repr

/-- What a sleeping group waits for; its PC stays at the wait word. -/
inductive Wait where
  /-- WAITADR (R389): per lane the address and the value compared with; `set` is the preceding ORD's (R260), and `sc` an SC order -/
  | adr (w64 eq : Bool) (d : Nat) (set : BitVec 8) (sc : Bool) (cap : Cap) (lanes : List (Nat × Nat × Nat))
  /-- WAITC (R203) -/
  | cnt (cls t : Nat)
  /-- WAITANY (R204) -/
  | anyTag (d : Nat) (mask : DWord) (en : Word)
  /-- WAITALL (R204) -/
  | allTags (mask : DWord)
  /-- JWAIT (R170) -/
  | job (id : Nat)
  /-- BAR.WAIT and BAR.SYNC (R310): enabled lanes, the lanes whose token is stale, and barrier and phase of each token that was
  of the present phase -/
  | bar (qd : Option (BitVec 3)) (en stale : Word) (toks : List (Nat × Nat))
  /-- WAITCH (R392) -/
  | child
  /-- TRE (R226) -/
  | tre (en : Word)
  /-- TRB waiting for the solo token or behind a solo region (R218, R229) -/
  | solo
  /-- a word waiting for held writes of its thread, or for a solo region that holds n bytes at pa (R229); the word executes again -/
  | behind (pa n : Nat)
  /-- EXIT parked until the team's child launches have retired (R38) -/
  | exitPark (en : Word)
  /-- a memory word, whether an ORD precedes it, waiting for PCIe completions (R212, R300), `left` of them, with lane and value of
  those that came and the first poisoned lane with its address; and for accesses held under R223 or R229. `turn` says whether another
  group may be current meanwhile (R158, R230, log 98) -/
  | access (dst : LoadDst) (ord : Bool) (left : Nat) (got : List (Nat × Nat)) (poison : Option (Nat × Nat)) (held : List HeldAcc)
      (turn : Bool)
  deriving DecidableEq, Repr

/-- States of a group (R153). -/
inductive GState where
  | run | parked | parent
  deriving DecidableEq, Repr

/-- A group of lanes of a wave (R153, R154). `parent` is none below the root. -/
structure Group where
  st : GState
  pc : Addr
  mask : Word
  parent : Option Nat
  stamp : BitVec 16
  join : Option Addr
  wait : Option Wait
  deriving DecidableEq, Repr

/-- An entry of the serial stack (R155). -/
structure SerialEntry where
  phase : Bool
  pc : Addr
  mask : Word
  arr : Word
  join : Option Addr
  deriving DecidableEq, Repr

/-- The order an ORD gives its target, with the ORD's own address (R195). -/
structure OrdPend where
  order : Order
  set : BitVec 8
  pc : Addr
  deriving DecidableEq, Repr

/-- Whether a member runs, completes skid words before it stops, or is stopped by a halt (R251). -/
inductive RunState where
  | run
  | halting (left done : Nat)
  | stopped
  deriving DecidableEq, Repr

/-- A wave in a wave slot or a scalar thread in a scalar slot (R58, R27): all that a member holds. -/
structure Member where
  uid : Nat
  scalar : Bool
  ctx : Nat
  team : Nat
  /-- team wave index or team scalar thread index (R37) -/
  idx : Nat
  /-- v registers, key lane*64 + register, and their poisoned 64-bit words, key lane*32 + register/2 (R148) -/
  v : FMap Word
  pv : FMap Bool
  s : FMap DWord
  c : FMap Cap
  /-- poisoned s registers, and poisoned 64-bit words of c registers, key 2*register + word (R148) -/
  ps : FMap Bool
  pk : FMap Bool
  /-- q0 to q6 as lane masks -/
  q : FMap Word
  /-- x registers, key lane*4 + k -/
  x : FMap XReg
  /-- L0 first; each latch maps lanes to values; missing ones are invalid -/
  lat : List (FMap DWord)
  /-- NW words of the open chain and the chain's first address (R66, R67) -/
  chain : Nat
  chainPc : Addr
  ord : Option OrdPend
  root : Group
  /-- sub-groups by their entry in the cell's split table -/
  subs : FMap Group
  /-- current group: none is the root -/
  cur : Option Nat
  /-- serial stack, top first, and the serial group while it is not empty -/
  serial : List SerialEntry
  serialG : Option (Option Nat)
  nextStamp : BitVec 16
  /-- words the current group has issued in a row (R158) -/
  inRow : Nat
  /-- A latch (R177): the block (v32-v63 when true) and format it holds -/
  alatch : Option (Bool × Ty)
  omap : Option OMap
  /-- outstanding counters COPY, MATRIX, BASE, BEAM, MSG (R168) -/
  cnt : FMap Nat
  jlast : BitVec 16
  engst : DWord
  /-- region status words by lane (R217) -/
  rstat : FMap Word
  ldr : Word
  /-- lent blocks with the job that lends each (R68): block v32-v63 when true -/
  lent : List (Bool × Nat)
  /-- clk at which the member entered its slot, and whether it has issued since (R52, R53) -/
  entered : Nat
  issued : Bool
  run : RunState
  /-- lanes of the group that entered the handler; while it is set, the groups of other lanes stay as they are (R251) -/
  trapLanes : Word
  deriving DecidableEq, Repr

/-- A continuation record (R19). `owner` is the context whose queue or pool holds it (R22), `setq` the predicate result that a
steal answer adds (R383). -/
structure Rec where
  entry : BitVec 48
  depth : BitVec 4
  kind : BitVec 4
  rsv : BitVec 6
  spill : Bool
  ldr : Bool
  team : BitVec 24
  ctx : BitVec 6
  seq : BitVec 34
  a : List Word
  owner : Nat
  setq : Option (BitVec 3 × Bool)
  deriving DecidableEq, Repr

/-- A bucket of the Carousel (R29). -/
structure Bucket where
  ctx : Nat
  team : Nat
  entry : BitVec 48
  recs : List Rec
  first : Nat
  ready : Bool
  deriving DecidableEq, Repr

/-- What a handler record carries of the team that sent it (R284 to R288): launch ID, descriptor, and what R36 takes from the
launch. -/
structure Origin where
  lid : Nat
  tdesc : Nat
  acap : Nat
  args : List DWord
  count : Nat
  level : Nat
  prio : Nat
  deriving DecidableEq, Repr

/-- No origin: the record belongs to a team. -/
def Origin.none : Origin := ⟨0, 0, 0, [], 0, 16, 0⟩

/-- A spilled record: the pool slot it holds and where it re-enters (R30). -/
structure Spilled where
  slot : Nat
  tgt : PoolTarget
  seq : BitVec 34
  setq : Option (BitVec 3 × Bool)
  team : Nat
  orig : Origin
  deriving DecidableEq, Repr

/-- A steal request waiting in a victim's mailbox (R54). -/
structure StealReq where
  rcd : Rec
  qd : BitVec 3
  dst : PoolTarget
  deriving DecidableEq, Repr

/-- The follow-on MMAS of a CPYM (R182), and the operands of an MMAS. -/
structure MmasOp where
  t : Ty
  tile : Nat
  acap : Cap
  aaddr : Nat
  astride : Nat
  aslot : Nat
  omap : OMap
  deriving DecidableEq, Repr

/-- What a job does (R172 to R189), with every operand it was checked with. -/
inductive JobOp where
  | mma (t : Ty) (tile : Nat) (rows : Word) (hi fromLatch : Bool) (aslot : Nat) (omap : OMap)
  | mmas (op : MmasOp)
  | accz (tile n : Nat)
  | drain (t : Ty) (tile : Nat) (dcap : Cap) (daddr : Nat) (w0 w1 w2 w3 : DWord) (rcap qcap : Cap)
  | cpy (dcap : Cap) (daddr : Nat) (scap : Cap) (len : Nat) (tag : Option Nat)
  | bgath (dcap : Cap) (daddr : Nat) (tcap icap : Cap) (count : Nat)
  | bred (t : Ty) (dcap : Cap) (daddr : Nat) (scap : Cap) (count : Nat)
  | bcvt (dcap : Cap) (daddr : Nat) (scap : Cap) (count : Nat) (rm : BitVec 2) (scalc : Bool)
  /-- a beam job, whose work stands in the cluster's beam list -/
  | beam
  deriving DecidableEq, Repr

/-- Where a job stands: accepted, started, at its end with writes still held at their homes, or complete and waiting to report
(R166, R168). -/
inductive JobSt where
  | queued | started | ending | done
  deriving DecidableEq, Repr

/-- A job of a cluster that has not reported yet (R166 to R169), in order of issue. A follow-on MMAS of a CPYM stands here from
its issue; `accepted` is its place among the commands of the cluster, none until the copy unit submits it (R182). `status` is the
cause it ended with. -/
structure Job where
  /-- the model's own name of the job: IDs come again after 65,536 -/
  key : Nat
  id : Nat
  cls : Nat
  uid : Nat
  ctx : Nat
  team : Nat
  cell : Nat
  op : JobOp
  st : JobSt
  status : Option (BitVec 9)
  accepted : Option Nat
  /-- copies: sectors landed or dropped, and the wave found in each register-window slot, none for a slot that dropped -/
  landed : FMap Bool
  slots : FMap (Option Nat)
  deriving DecidableEq, Repr

/-- A frame or a live beam of a traversal, and its 8 bytes in a save area (R274, R280). -/
structure BeamItem where
  node : Nat
  next : Nat
  col : Nat
  row : Nat
  ncol : Nat
  nrow : Nat
  leaf : Bool
  lvl : Nat
  deriving DecidableEq, Repr

/-- The fields of a query record as the unit read them (R265, R266). -/
structure Query where
  bvh : Cap
  res : Cap
  save : Cap
  ctl : DWord
  apex : List Word
  tmin : Word
  tmax : Word
  dirs : List Word
  deriving DecidableEq, Repr

/-- States of a beam job; `ending` waits for writes that are held at their homes (R229). -/
inductive BeamSt where
  | waiting | running | saved | ending
  deriving DecidableEq, Repr

/-- A beam job (R274 to R281). `piece` holds A0 to A2 of a RESUME. -/
structure BeamJob where
  key : Nat
  id : Nat
  uid : Nat
  ctx : Nat
  team : Nat
  cell : Nat
  prio : Nat
  cap : Cap
  addr : Nat
  piece : Option (Word × Word × Word)
  st : BeamSt
  q : Option Query
  /-- top last -/
  frames : List BeamItem
  beams : List BeamItem
  splits : Nat
  limit : Bool
  preempted : Bool
  deriving DecidableEq, Repr

/-- A team barrier (R261). -/
structure Barrier where
  ph : BitVec 16
  arr : Nat
  deriving DecidableEq, Repr

/-- The trap area of a team (R252). TSIB maps member indexes to (SKID, PC). -/
structure TrapArea where
  v : Bool
  imp : Bool
  oex : Bool
  lane : BitVec 6
  member : BitVec 6
  code : BitVec 8
  cause : BitVec 9
  tpc : Addr
  taddr : DWord
  tfpc : Addr
  tsib : List (Nat × Nat × Addr)
  deriving DecidableEq, Repr

/-- No trap: every field 0 (R252). -/
def TrapArea.zero : TrapArea := ⟨false, false, false, 0, 0, 0, 0, 0, 0, 0, []⟩

/-- A live team with its bind record (R34 to R38, R49), barriers, mailbox, baton and trap area. -/
structure Team where
  ctx : Nat
  handle : Nat
  lid : Nat
  tidx : Nat
  count : Nat
  args : List DWord
  acap : Nat
  tdesc : Nat
  entry : BitVec 48
  handler : Addr
  depth : Nat
  waves : Nat
  threads : Nat
  die : Nat
  cell : Nat
  bind : Nat
  prio : Nat
  wquota : Nat
  tquota : Nat
  wmask : BitVec 16
  tmask : Word
  spbase : Nat
  splen : Nat
  /-- 16 for a plain launch (R330) -/
  level : Nat
  live : Nat
  begun : Bool
  /-- a team formed by a handler thread (R285) -/
  isHandler : Bool
  bars : FMap Barrier
  mail : FMap (List Word)
  /-- baton ring: members in order and the holder (R183) -/
  baton : Option (List Nat × Nat)
  trap : TrapArea
  held : List ImpFault
  deriving DecidableEq, Repr

/-- A live launch (R35, R38, R43 to R46). -/
structure Launch where
  ctx : Nat
  lid : Nat
  queue : Nat
  entry : BitVec 48
  tdesc : Nat
  acap : Nat
  args : List DWord
  teams : Nat
  admitted : Nat
  depth : Nat
  /-- handle of the team that posted it -/
  parent : Option Nat
  stok : Nat
  irq : Bool
  failed : Bool
  /-- level of its consumer teams (R330); 16 for a plain launch -/
  level : Nat
  /-- the token that its packet waits for, and the value (R43, R45) -/
  wtok : Nat
  wval : BitVec 32
  deriving DecidableEq, Repr

/-- A child launch that LAUNCH has posted and no controller has read (R348). -/
structure Posted where
  ctx : Nat
  queue : Nat
  index : BitVec 32
  parent : Nat
  depth : Nat
  deriving DecidableEq, Repr

/-- A launch queue (R41, R42). -/
structure Queue where
  base : DWord
  msix : BitVec 11
  logsize : BitVec 5
  prio : BitVec 2
  ctx : BitVec 6
  dmask : BitVec 4
  dev : Bool
  en : Bool
  head : BitVec 32
  tail : BitVec 32
  /-- launch in admission by context and ID, and the die that took the queue's previous team (R46, R48) -/
  cur : Option (Nat × Nat)
  lastDie : Nat
  deriving DecidableEq, Repr

/-- A queue at reset (R41, R42). -/
def Queue.init : Queue := ⟨0, 0, 0, 0, 0, 0, false, false, 0, 0, none, 3⟩

/-- Enable, indices and layout of a log ring (R298, R299). -/
structure LogRing where
  base : DWord
  logsize : BitVec 5
  vec : BitVec 11
  en : Bool
  ovf : Bool
  head : BitVec 32
  tail : BitVec 32
  deriving DecidableEq, Repr

/-- A log ring at reset. -/
def LogRing.init : LogRing := ⟨0, 0, 0, false, false, 0, 0⟩

/-- A context: its block of BAR0 (R298) and its counters (R21, R45, R46, R184). The tables it names lie in memory. -/
structure Ctx where
  root : DWord
  weight : BitVec 8
  poolsz : BitVec 32
  captab : DWord
  fmttab : DWord
  marktab : DWord
  markcnt : BitVec 13
  desctab : DWord
  desccnt : BitVec 13
  caplo : DWord
  caphi : DWord
  log : LogRing
  en : Bool
  seq : BitVec 34
  nextLid : BitVec 32
  tok : FMap (BitVec 32)
  /-- BUDGET by die, and dies on which an engine word of the context stalls (R184) -/
  budget : FMap Nat
  stalled : FMap Bool
  halted : Bool
  /-- in the externally armed all-asleep state (R260) -/
  asleep : Bool
  spilled : List Spilled
  /-- records suspended by ENQ, with the address of their node and the place where they re-enter (R54, R55) -/
  gwaits : List (Nat × PoolTarget × Rec)
  /-- nodes that an ENQ of the context has named -/
  nodes : List Nat
  deriving DecidableEq, Repr

/-- A context before the host creates it. -/
def Ctx.init : Ctx :=
  ⟨0, 0, 0, 0, 0, 0, 0, 0, 0, 0, 0, LogRing.init, false, 0, 0, [], [], [], false, false, [], [], []⟩

/-- A copy tag that is not FREE (R150). -/
structure CopyTag where
  done : Bool
  owner : Nat
  err : Bool
  deriving DecidableEq, Repr

/-- A mapping entry (R142): SPMAPA, SPMAPB and the handle of the team that set V. -/
structure SpMap where
  gva : Addr
  v : Bool
  len : BitVec 11
  spoff : BitVec 18
  ctx : Nat
  team : Nat
  deriving DecidableEq, Repr

/-- A clear mapping entry. -/
def SpMap.zero : SpMap := ⟨0, false, 0, 0, 0, 0⟩

/-- What a cell holds beside its members (R9, R30, R54, R142, R150, R240) and its error counts (R13). -/
structure Cell where
  ready : List Rec
  /-- records on their way to the ready queue -/
  inbound : List Rec
  tag : FMap CopyTag
  spmap : FMap SpMap
  steal : FMap (List StealReq)
  pts : BitVec 16
  uncorr : Nat
  corr : FMap Nat
  /-- slots that yielded with the last word that their wave engine or scalar core has issued (R395) -/
  yielded : List Nat
  deriving DecidableEq, Repr

/-- A cell after the reset of its die (R241). -/
def Cell.init : Cell := ⟨[], [], [], [], [], 0xFFF0, 0, [], []⟩

/-- What a cluster holds (R8, R29, R166, R167, R171, R277). -/
structure Cluster where
  buckets : List Bucket
  /-- records on their way to the Carousel -/
  inbound : List Rec
  nextJob : BitVec 16
  nextKey : Nat
  /-- commands accepted so far -/
  accepted : Nat
  jobs : List Job
  beams : List BeamJob
  /-- the 64 beam jobs that completed most recently: ID, context, status -/
  beamDone : List (Nat × Nat × Word)
  /-- owner context of each ACC tile that is not FREE -/
  acc : FMap Nat
  /-- A operands latched by started MMAs, by issuer uid: key lane*32 + register of the block -/
  alatch : FMap (FMap Word)
  /-- context whose spilled records came back last (R29) -/
  lastPool : Nat
  deriving DecidableEq, Repr

/-- A cluster after the reset of its die. -/
def Cluster.init : Cluster := ⟨[], [], 0, 0, 0, [], [], [], [], [], 63⟩

/-- States of an open region (R221); an aborted one stands until its group issues (R225), and a deferred one is an aborted one whose
group runs a handler first (R254). -/
inductive RegionSt where
  | run | atTre | aborted | deferred
  deriving DecidableEq, Repr

/-- An open region (R218, R221): its table entry, checkpoint, read set and write set. DEPTH and FEEDS follow from the
WAITS of all entries (R223) and are not stored. -/
structure Region where
  st : RegionSt
  solo : Bool
  ctx : Nat
  cell : Nat
  scal : Bool
  slot : Nat
  lane : Nat
  uid : Nat
  abort : Addr
  join : Option Addr
  age : Nat
  waits : List Nat
  /-- the regions that its held accesses wait for: edges for R224, and no part of its DEPTH (R223) -/
  hold : List Nat
  fwd : List Nat
  /-- checkpoint of v0-v11 with their poisoned 64-bit words (R148), and of q0-q7 -/
  ckV : List Word
  ckP : BitVec 6
  ckQ : BitVec 8
  /-- words read: 4-byte word number and the committed value it must still hold, none when forwarded -/
  reads : List (Nat × Option Word)
  /-- bytes written, and 16-byte slots to which a tagged capability was last written -/
  writes : FMap Byte
  tags : List Nat
  /-- 64-bit words that one store of the region overwrote whole (R148) -/
  heals : List Nat
  deriving DecidableEq, Repr

/-- A SIG counter entry (R287). -/
structure SigCounter where
  v : Bool
  ctx : BitVec 6
  tdesc : BitVec 12
  count : BitVec 32
  hpc : BitVec 48
  recptr : Addr
  deriving DecidableEq, Repr

/-- A disarmed counter. -/
def SigCounter.zero : SigCounter := ⟨false, 0, 0, 0, 0, 0⟩

/-- A decrement on its way to a counter (R288): it arrives once its lane's earlier stores have been performed. -/
structure SigMsg where
  index : Nat
  d : Nat
  ctx : Nat
  team : Nat
  orig : Origin
  depth : Nat
  uid : Nat
  lane : Nat
  member : Nat
  pc : Addr
  cell : Nat
  senderDie : Nat
  deriving DecidableEq, Repr

/-- A handler record with the launch and descriptor it carries, and whose MSG count it holds (R284, R286). -/
structure HandlerRec where
  rcd : Rec
  orig : Origin
  uid : Nat
  deriving DecidableEq, Repr

/-- States of a die (R291). -/
inductive DieSt where
  | reset | attesting | quarantined | trusted | draining
  deriving DecidableEq, Repr

/-- SPDM messages of R290. -/
inductive SpdmMsg where
  | getVersion | getCapabilities | negotiateAlgorithms | getDigests | getCertificate | challenge | getMeasurements
  | keyExchange | finish | keyUpdate | keyUpdateAck | endSession
  deriving DecidableEq, Repr

/-- A compute die (R12 to R16, R48, R221, R229, R241, R284, R287, R291). -/
structure Die where
  st : DieSt
  dieht : BitVec 7
  /-- the H in force since the last admission round (R284) -/
  hNow : BitVec 7
  hq : List HandlerRec
  /-- handler records on their way to the queue -/
  hin : List HandlerRec
  sigs : List SigMsg
  counters : FMap SigCounter
  sitesRetired : BitVec 8
  sparesLeft : BitVec 4
  chret : FMap Nat
  chx : BitVec 3
  clmask : BitVec 16
  /-- logical-to-physical cell table: entries that differ from V = 1, SITE = i -/
  cellTab : FMap (BitVec 16)
  /-- sites recorded as retired and not yet applied; sites retired by earlier resets -/
  pending : List Nat
  retired : List Nat
  regions : FMap Region
  /-- bytes of open regions' writes in home order, newest first: byte address, entry -/
  wlog : List (Nat × Nat)
  /-- solo token: its holder's entry, and the waiting lanes (uid, lane) in order of request -/
  soloHolder : Option Nat
  /-- the lane (uid, lane) to which the token has passed and that has not yet opened its region -/
  soloGrant : Option (Nat × Nat)
  soloQ : List (Nat × Nat)
  tmax : BitVec 16
  floor : BitVec 16
  mts : FMap (BitVec 16)
  /-- allotment of a BUDGET refill, from the last division of power tokens (R185, R294); 27,200 before the first (log 34) -/
  tokens : Nat
  spdm : List SpdmMsg
  deriving DecidableEq, Repr

/-- A die after power-up (R12, R16, R241, R284, R291). -/
def Die.init : Die :=
  { st := .reset, dieht := 16, hNow := 16, hq := [], hin := [], sigs := [], counters := [], sitesRetired := 0, sparesLeft := 8,
    chret := [], chx := 0, clmask := 0xFFFF, cellTab := [], pending := [], retired := [], regions := [], wlog := [],
    soloHolder := none, soloGrant := none, soloQ := [], tmax := 0xFFF0, floor := 0xC000, mts := [], tokens := 27200,
    spdm := [] }

/-- Kinds of coherence message (R238). -/
inductive MsgKind where
  | rds | rdo | upg | lrd | wrt | urd | atm | inv | sns | sni | iack | sdat | wbif | data | nack | wb | evn
  deriving DecidableEq, Repr

/-- Protocol of a line (R234). -/
inductive LineMode where
  | empty | dir | lease | unc
  deriving DecidableEq, Repr

/-- A coherence message in flight, queued at a home, or refused and waiting to be sent again (R238, R239). `tag` is 4096 times its
sender plus the 12-bit tag. `cell` is the requester, the owner or the receiver; `mode` is the protocol that the requester's page names.
A snoop names the transaction it answers by `re`. `who` is the fault that the thread takes if the message is lost on a link (R248). -/
structure Msg where
  kind : MsgKind
  tag : Nat
  line : Nat
  cell : Nat
  cluster : Nat
  span : Word
  /-- data wanted (RDO), or a write or atomic of a clocked access (LEASE) -/
  flag : Bool
  pts : BitVec 16
  wts : BitVec 16
  exp : BitVec 16
  data : List Byte
  tags : BitVec 8
  /-- the poisoned 64-bit words of a line that DATA carries (R148) -/
  poison : BitVec 16
  /-- the byte of the line that an ATM names -/
  off : BitVec 7
  op : Option AccOp
  mode : LineMode
  who : Option ImpFault
  nacks : Nat
  re : Nat
  deriving DecidableEq, Repr

/-- A transaction that holds a line BUSY: its request, how many responses it awaits (R239), and the clusters whose EVN came meanwhile
(R248). -/
structure Tx where
  req : Msg
  awaits : Nat
  gone : DWord
  deriving DecidableEq, Repr

/-- A line record (R234, R236, R239). Owners are oldest first. -/
structure Line where
  mode : LineMode
  hown : BitVec 2
  wts : BitVec 16
  rts : BitVec 16
  sharers : DWord
  owners : List (Nat × Word)
  tx : Option Tx
  queue : List Msg
  /-- the protocol that a LEASE line takes once every clock has passed its RTS; the line is BUSY until then (R246) -/
  conv : Option LineMode
  deriving DecidableEq, Repr

/-- A line the home does not hold (R234). -/
def Line.init : Line := ⟨.empty, 0, 0xFFF0, 0xFFF0, 0, [], none, [], none⟩

/-- A LEASE copy in L1: the whole line with the tags of its eight capability slots and its poisoned 64-bit words (R135, R148,
R240). -/
structure LeaseCopy where
  wts : BitVec 16
  exp : BitVec 16
  data : List Byte
  tags : BitVec 8
  poison : BitVec 16
  deriving DecidableEq, Repr

/-- What a cell's L1 holds of a line (R235, R240). -/
structure L1Line where
  valid : Word
  dirty : Word
  lease : Option LeaseCopy
  /-- when the line came in; the lowest leaves first, and .STR puts a line first (R381) -/
  place : Nat
  deriving DecidableEq, Repr

/-- Nothing held. -/
def L1Line.init : L1Line := ⟨0, 0, none, 0⟩

/-- A TLB entry: the leaf that translates the page of 2^bits bytes that holds `va` (R146). -/
structure TlbEntry where
  ctx : Nat
  va : Nat
  bits : Nat
  pte : DWord
  deriving DecidableEq, Repr

/-- An entry of a cluster's page-walk cache: the non-leaf entry for an address of a level whose pages have 2^sh bytes (R146). -/
structure WalkEntry where
  ctx : Nat
  sh : Nat
  va : Nat
  pte : DWord
  deriving DecidableEq, Repr

/-- A load or an atomic of a thread that crossed links and whose reply may still be on its way: its line, the links of its way, and the
fault that the thread takes if one of them fails (R248, R249, log 83). -/
structure Flight where
  line : Nat
  links : List Nat
  who : ImpFault
  deriving DecidableEq, Repr

/-- Caches, directories, messages and TLBs. L1 lines have key cell*2^46 + line number. -/
structure Coh where
  lines : FMap Line
  l1 : FMap L1Line
  net : List Msg
  /-- requests refused by NACK, waiting for their retry -/
  retry : List Msg
  /-- the TLB of each cell, and the L2 TLB and the walk cache of each cluster (R146) -/
  tlb : FMap (List TlbEntry)
  tlb2 : FMap (List TlbEntry)
  walks : FMap (List WalkEntry)
  /-- tags that their receivers have applied while copies of the messages are still in flight (R238) -/
  applied : List Nat
  /-- accesses of threads in flight on links -/
  flights : List Flight
  deriving DecidableEq, Repr

/-- A PCIe request of a thread that awaits its completion (R212, R300). -/
structure PcieReq where
  uid : Nat
  group : Option Nat
  lane : Nat
  peer : Bool
  addr : Nat
  n : Nat
  op : AccOp
  /-- a RED: nothing returns and a rejection is imprecise -/
  posted : Bool
  pc : Addr
  /-- what an imprecise fault of the request reports (R212, R257) -/
  who : ImpFault
  deriving DecidableEq, Repr

/-- One direction of a UCIe link (R293): the key in use with its index bit, the new key that KEY_UPDATE has installed, flits sent with the
key in use, the old key while the receiver still accepts it and for how many flits, and the key of a flit that is sent again. -/
structure LinkDir where
  key : Nat
  index : Bool
  newKey : Option Nat
  flits : Nat
  oldKey : Option Nat
  grace : Nat
  resent : Option Nat
  deriving DecidableEq, Repr

/-- A direction at reset. -/
def LinkDir.init : LinkDir := ⟨0, false, none, 0, none, 0, none⟩

/-- A UCIe link (R7, R293): up, its direction away from its first end and the one back, retries of flits, and the clk at which its keys came
into use. -/
structure Link where
  up : Bool
  out : LinkDir
  back : LinkDir
  retries : Nat
  since : Nat
  deriving DecidableEq, Repr

/-- A link at reset. -/
def Link.init : Link := ⟨true, LinkDir.init, LinkDir.init, 0, 0⟩

/-- Host-side registers and what the device has sent to the host (R294, R296, R297, R299, R301, R263, R264). -/
structure HostRegs where
  pwrlim : BitVec 12
  rbsel : DWord
  ctxctl : BitVec 6
  tlbCtx : BitVec 6
  tlbVa : BitVec 41
  tlbAll : Bool
  tlbDone : Bool
  fwState : BitVec 4
  fwAddr : BitVec 40
  fwLen : BitVec 32
  /-- fused minimum security version, the version of the programmed image, and that of the image being programmed -/
  fwMin : Nat
  fwVersion : Nat
  fwNew : Nat
  recovery : Bool
  staging : FMap Byte
  ev : LogRing
  /-- MSI-X table and PBA, by 64-bit word -/
  msixTab : FMap DWord
  /-- MSI-X vectors sent, newest first -/
  msix : List Nat
  /-- data of the last BAR2 read, newest byte order as read -/
  readData : List Byte
  /-- messages exchanged with the host through the DOE mailbox of the IOD (R290) -/
  doe : List SpdmMsg
  deriving DecidableEq, Repr

/-- Host registers at reset. -/
def HostRegs.init : HostRegs :=
  { pwrlim := 2700, rbsel := 0, ctxctl := 0, tlbCtx := 0, tlbVa := 0, tlbAll := false, tlbDone := true, fwState := 0,
    fwAddr := 0, fwLen := 0, fwMin := 0, fwVersion := 0, fwNew := 0, recovery := false, staging := [], ev := LogRing.init, msixTab := [], msix := [],
    readData := [], doe := [] }

/-- Which agent moves: a member issues its next word, or another agent takes the step named. -/
inductive Move where
  | issue (slot : Nat)
  | event (i : Instr)
  deriving DecidableEq, Repr

/-- The whole device. Keys: die 0-3; cluster die*16 + y*4 + x; cell die*128 + logical index; member slot
cell*64 + slot, with slots 0-15 for waves and 16-47 for scalar threads. -/
structure State where
  /-- device physical memory: HBM, scratchpads and ACC tiles (R141) -/
  mem : FMap Byte
  /-- capability tags, by physical address / 16 (R135) -/
  tags : FMap Bool
  /-- poisoned 64-bit words, by physical address / 8, and HBM sectors, by physical address / 32 (R148) -/
  poisonW : FMap Bool
  poisonS : FMap Bool
  /-- HBM lines registered to a scratchpad (R142): line number, scratchpad address of the line -/
  mapped : FMap Nat
  hostMem : FMap Byte
  peerMem : FMap Byte
  dies : FMap Die
  clusters : FMap Cluster
  cells : FMap Cell
  members : FMap Member
  evicted : List Member
  teams : List Team
  launches : List Launch
  posted : List Posted
  queues : FMap Queue
  ctxs : FMap Ctx
  /-- weighted round robin (R47): teams admitted in the present round, by priority*64 + context; and per context the queue served
  last -/
  arbUsed : FMap Nat
  lastQ : FMap Nat
  coh : Coh
  pcie : List PcieReq
  /-- writes held at their homes, in order of arrival (R68, R229) -/
  heldW : List HeldWrite
  /-- what lanes with held writes do for their team once these have been performed, in order (R207, R229) -/
  late : List Late
  impFaults : List ImpFault
  links : FMap Link
  host : HostRegs
  frozen : Bool
  clk : Nat
  /-- the member whose word executes -/
  issuer : Option Nat
  nextUid : Nat
  /-- model's own, empty between steps: lines for which the step of an engine or of the host has to wait, with the protocol that its
  page names (R239, R246) -/
  lineQ : List (Nat × Option LineMode)
  /-- model's own: index into the free values of Config, the rotation, and the moves to come -/
  fresh : Nat
  turn : Nat
  schedule : List Move
  deriving DecidableEq, Repr

/-- The device right after power-up: every die in RESET, nothing resident, every memory unwritten. -/
def State.reset : State :=
  { mem := [], tags := [], poisonW := [], poisonS := [], mapped := [], hostMem := [], peerMem := [], dies := [], clusters := [],
    cells := [], members := [], evicted := [], teams := [], launches := [], posted := [], queues := [], ctxs := [], arbUsed := [], lastQ := [],
    coh := ⟨[], [], [], [], [], [], [], [], []⟩, pcie := [], heldW := [], late := [], impFaults := [], links := [], host := HostRegs.init, frozen := false,
    clk := 0, issuer := none, nextUid := 1, lineQ := [], fresh := 0, turn := 0, schedule := [] }

end Sys2Proof.Machine
end

