-- ==== Sys2Proof/Machine/Caps.lean ====
section
/-!
DEFINITION. Machine/Caps.lean: capabilities as values (R132, R133, R139): fields, bounds, moving the cursor, setting bounds,
and their 16 bytes in memory.
-/
namespace Sys2Proof.Machine

namespace Cap

/-- The high 64-bit word (R132). -/
def hiWord (c : Cap) : DWord := c.space ++ c.perm ++ c.e ++ c.basem ++ c.lenm

/-- The 128 bits as a number. -/
def toNat128 (c : Cap) : Nat := c.hiWord.toNat * 2 ^ 64 + c.cursor.toNat

/-- The capability of two 64-bit words and a tag (R132). -/
def ofWords (tag : Bool) (lo hi : DWord) : Cap :=
  { tag := tag, space := hi.extractLsb' 60 4, perm := hi.extractLsb' 52 8, e := hi.extractLsb' 46 6,
    basem := hi.extractLsb' 23 23, lenm := hi.extractLsb' 0 23, cursor := lo }

/-- The capability of a 128-bit number and a tag. -/
def ofNat128 (tag : Bool) (x : Nat) : Cap := ofWords tag (BitVec.ofNat 64 x) (BitVec.ofNat 64 (x / 2 ^ 64))

/-- E above 41 is reserved (R132). -/
def eOk (c : Cap) : Bool := c.e.toNat ≤ 41

/-- SPACE is neither NULL nor reserved. -/
def spaceOk (c : Cap) : Bool := 1 ≤ c.space.toNat && c.space.toNat ≤ 7

/-- log2 of the window size (R133). -/
def g (c : Cap) : Nat := c.e.toNat + 23

/-- The base (R133). -/
def base (c : Cap) : Nat :=
  if c.e.toNat < 41 then c.cursor.toNat / 2 ^ c.g * 2 ^ c.g + c.basem.toNat * 2 ^ c.e.toNat
  else c.basem.toNat * 2 ^ 41

/-- The length (R133). -/
def length (c : Cap) : Nat := c.lenm.toNat * 2 ^ c.e.toNat

/-- One past the last byte. -/
def top (c : Cap) : Nat := c.base + c.length

/-- Whether an access of n bytes at a lies inside the bounds (R136). -/
def inBounds (c : Cap) (a n : Nat) : Bool := c.base ≤ a && a + n ≤ c.top

/-- Whether two addresses lie in one window (R133). -/
def sameWindow (c : Cap) (a b : Nat) : Bool := c.e.toNat ≥ 41 || a / 2 ^ c.g == b / 2 ^ c.g

/-- The capability with its cursor moved; leaving the window clears the tag as well (R133, R321). -/
def moveTo (c : Cap) (a : DWord) : Cap :=
  { c with cursor := a, tag := c.tag && c.sameWindow c.cursor.toNat a.toNat }

/-- Whether bounds b and n can be set with exponent e (R133). -/
def boundsOk (b n e : Nat) : Bool :=
  b % 2 ^ e == 0 && n % 2 ^ e == 0 && n / 2 ^ e < 2 ^ 23 && b + n ≤ (b / 2 ^ (e + 23) + 1) * 2 ^ (e + 23)

/-- The smallest exponent for bounds b and n, none when no exponent qualifies (R133). -/
def expFor (b n : Nat) : Option Nat := (List.range 42).find? (boundsOk b n)

/-- The capability with bounds b and n and its cursor at b, when they have an exact encoding (R133, R321). -/
def withBounds (c : Cap) (b n : Nat) : Option Cap :=
  (expFor b n).map fun e =>
    { tag := true, space := c.space, perm := c.perm, e := BitVec.ofNat 6 e,
      basem := BitVec.ofNat 23 (if e < 41 then b % 2 ^ (e + 23) / 2 ^ e else b / 2 ^ 41),
      lenm := BitVec.ofNat 23 (n / 2 ^ e), cursor := BitVec.ofNat 64 b }

/-- A new capability from its parts, untagged NULL when the bounds have no exact encoding. -/
def make (space : BitVec 4) (perm : BitVec 8) (b n : Nat) : Cap :=
  ((withBounds { null with space := space, perm := perm } b n).getD null)

/-- Whether every permission of a mask is present. -/
def has (c : Cap) (mask : BitVec 8) : Bool := c.perm &&& mask == mask

/-- The stride step of CAPINC.M over slabs of 2^w bytes (R139); none leaves the mesh. Bits above the packed cursor stay. -/
def meshStep (cursor : Nat) (w : Nat) (stride : Int) : Option Nat :=
  let lo := bits cursor 17 0 % 2 ^ w
  let pos : Int := (bits cursor 26 18 * 2 ^ w + lo : Nat) + stride
  if pos < 0 || (512 * 2 ^ w : Nat) ≤ pos then none
  else
    let p := pos.toNat
    let l2 := p / 2 ^ w
    some (cursor / 2 ^ 27 * 2 ^ 27 + l2 * 2 ^ 18 + (bits cursor 17 0 - lo) + p % 2 ^ w)

end Cap

/-- Permission masks (R132, R134). -/
abbrev permR : BitVec 8 := 0x01
abbrev permW : BitVec 8 := 0x02
abbrev permX : BitVec 8 := 0x04
abbrev permLC : BitVec 8 := 0x08
abbrev permSC : BitVec 8 := 0x10
abbrev permAT : BitVec 8 := 0x20
abbrev permEN : BitVec 8 := 0x40
abbrev permGL : BitVec 8 := 0x80

/-- Spaces (R132). -/
abbrev spGlobal : Nat := 1
abbrev spSpad : Nat := 2
abbrev spSpadw : Nat := 3
abbrev spRegw : Nat := 4
abbrev spAccw : Nat := 5
abbrev spHost : Nat := 6
abbrev spPeer : Nat := 7

end Sys2Proof.Machine
end

