-- ==== Sys2Proof/Machine/FMap.lean ====
section
/-!
DEFINITION. Machine/FMap.lean: reading and writing the sparse maps of the state. A map lists its keys in rising order; a
map with a default value never lists that value, so equal maps are equal lists. A write drops the key first and then
inserts it in order, so that the read-after-write laws need no hypothesis about the list.
-/
namespace Sys2Proof.FMap

variable {β : Type}

/-- The value at a key, if one is listed. -/
def find? : FMap β → Nat → Option β
  | [], _ => none
  | (k, v) :: t, n => if k = n then some v else find? t n

/-- The first pair that passes a test. -/
def search (m : FMap β) (p : Nat × β → Bool) : Option (Nat × β) := List.find? p m

/-- The value at a key, or the default. -/
def get (d : β) (m : FMap β) (n : Nat) : β := (find? m n).getD d

/-- The map without a key. -/
def del (m : FMap β) (n : Nat) : FMap β := m.filter fun p => p.1 != n

/-- A pair inserted before the first greater key. -/
def insertOrd : FMap β → Nat → β → FMap β
  | [], n, v => [(n, v)]
  | (k, w) :: t, n, v => if n < k then (n, v) :: (k, w) :: t else (k, w) :: insertOrd t n v

/-- The map with a key bound to a value. -/
def ins (m : FMap β) (n : Nat) (v : β) : FMap β := insertOrd (del m n) n v

/-- The map with a key bound to a value; binding it to the default removes it. -/
def put [DecidableEq β] (d : β) (m : FMap β) (n : Nat) (v : β) : FMap β :=
  if v = d then del m n else ins m n v

/-- The value at a key changed by a function, when it is listed. -/
def upd (m : FMap β) (n : Nat) (f : β → β) : FMap β :=
  match find? m n with
  | some v => ins m n (f v)
  | none => m

/-- The value at a key changed by a function, the default standing for an unlisted one. -/
def modify [DecidableEq β] (d : β) (m : FMap β) (n : Nat) (f : β → β) : FMap β := put d m n (f (get d m n))

/-- The values listed. -/
def vals (m : FMap β) : List β := m.map Prod.snd

/-- The keys listed. -/
def keys (m : FMap β) : List Nat := m.map Prod.fst

/-- Every listed value changed by a function. -/
def mapVals (f : β → β) (m : FMap β) : FMap β := List.map (fun e => (e.1, f e.2)) m

/-- Keys strictly rising, and the default value nowhere: the canonical form. -/
def wf [DecidableEq β] (d : β) : FMap β → Bool
  | [] => true
  | [(_, v)] => v != d
  | (k, v) :: (l, w) :: t => (v != d) && (k < l) && wf d ((l, w) :: t)

/-- Keys strictly rising. -/
def sorted : FMap β → Bool
  | [] => true
  | [_] => true
  | (k, _) :: (l, w) :: t => (k < l) && sorted ((l, w) :: t)

end Sys2Proof.FMap
end

