-- ==== Sys2Proof/Machine/Phys.lean ====
section
/-!
DEFINITION. Machine/Phys.lean: the parts of the device by their keys, and device physical memory (R141): which addresses are
backed, bytes with the scratchpad lines that stand for global ones (R143), register windows (R69), tags (R135) and poison
(R148).
-/
namespace Sys2Proof.Machine

/-! ### Parts by key -/

/-- Cell of a member slot key, its slot number, and the cluster and die of a cell. -/
def cellOf (k : Nat) : Nat := k / 64
def slotOf (k : Nat) : Nat := k % 64
def clusterOfCell (c : Nat) : Nat := c / 8
def dieOfCell (c : Nat) : Nat := c / 128
def dieOfCluster (c : Nat) : Nat := c / 16

/-- The member slot key of a wave slot or a scalar slot. -/
def waveKey (cell slot : Nat) : Nat := cell * 64 + slot
def scalKey (cell slot : Nat) : Nat := cell * 64 + 16 + slot

namespace State

def die (s : State) (d : Nat) : Die := FMap.get Die.init s.dies d
def setDie (s : State) (d : Nat) (x : Die) : State := { s with dies := FMap.put Die.init s.dies d x }
def modDie (s : State) (d : Nat) (f : Die → Die) : State := s.setDie d (f (s.die d))
def cluster (s : State) (c : Nat) : Cluster := FMap.get Cluster.init s.clusters c
def setCluster (s : State) (c : Nat) (x : Cluster) : State := { s with clusters := FMap.put Cluster.init s.clusters c x }
def modCluster (s : State) (c : Nat) (f : Cluster → Cluster) : State := s.setCluster c (f (s.cluster c))
def cell (s : State) (c : Nat) : Cell := FMap.get Cell.init s.cells c
def setCell (s : State) (c : Nat) (x : Cell) : State := { s with cells := FMap.put Cell.init s.cells c x }
def modCell (s : State) (c : Nat) (f : Cell → Cell) : State := s.setCell c (f (s.cell c))
def ctx (s : State) (x : Nat) : Ctx := FMap.get Ctx.init s.ctxs x
def setCtx (s : State) (x : Nat) (c : Ctx) : State := { s with ctxs := FMap.put Ctx.init s.ctxs x c }
def modCtx (s : State) (x : Nat) (f : Ctx → Ctx) : State := s.setCtx x (f (s.ctx x))
def queue (s : State) (q : Nat) : Queue := FMap.get Queue.init s.queues q
def setQueue (s : State) (q : Nat) (x : Queue) : State := { s with queues := FMap.put Queue.init s.queues q x }
def member? (s : State) (k : Nat) : Option Member := FMap.find? s.members k
def setMember (s : State) (k : Nat) (m : Member) : State := { s with members := FMap.ins s.members k m }
def dropMember (s : State) (k : Nat) : State := { s with members := FMap.del s.members k }
def modMember (s : State) (k : Nat) (f : Member → Member) : State :=
  match s.member? k with
  | some m => s.setMember k (f m)
  | none => s

/-- A live team by its context and handle. -/
def team? (s : State) (ctx h : Nat) : Option Team := s.teams.find? fun t => t.ctx == ctx && t.handle == h

/-- A live team changed by a function. -/
def modTeam (s : State) (ctx h : Nat) (f : Team → Team) : State :=
  { s with teams := s.teams.map fun t => if t.ctx == ctx && t.handle == h then f t else t }

/-- A live launch by its context and ID. -/
def launch? (s : State) (ctx lid : Nat) : Option Launch := s.launches.find? fun l => l.ctx == ctx && l.lid == lid

def modLaunch (s : State) (ctx lid : Nat) (f : Launch → Launch) : State :=
  { s with launches := s.launches.map fun l => if l.ctx == ctx && l.lid == lid then f l else l }

/-- Whether a cluster is enabled (R14, R16). -/
def clusterOn (s : State) (c : Nat) : Bool := c < 64 && (s.die (dieOfCluster c)).clmask.getLsbD (c % 16)

/-- Whether a die is TRUSTED (R291). -/
def trusted (s : State) (d : Nat) : Bool := (s.die d).st == .trusted

end State

/-! ### Device physical memory -/

/-- One past the last byte of HBM: 768·10^9 (R141). -/
def hbmEnd : Nat := 768000000000
/-- Bytes behind one die (R233). -/
def hbmDie : Nat := 192000000000
def spadBase : Nat := 0xF000000000000
def regwBase : Nat := 0xF000010000000
def accBase : Nat := 0xF000020000000
def accEnd : Nat := 0xF000024000000

/-- A device memory. -/
abbrev Memory := FMap Byte

/-- The canonical form: addresses rising, no byte 0 listed. An unlisted byte reads as 0 (log 1). -/
def Memory.wf (m : Memory) : Bool := FMap.wf 0 m

def isHbm (pa : Nat) : Bool := pa < hbmEnd
def isSpad (pa : Nat) : Bool := spadBase ≤ pa && pa < spadBase + 2 ^ 27
def isRegw (pa : Nat) : Bool := regwBase ≤ pa && pa < regwBase + 2 ^ 25
def isAcc (pa : Nat) : Bool := accBase ≤ pa && pa < accEnd

/-- Whether a device physical address is backed (R141). -/
def backed (pa : Nat) : Bool := isHbm pa || isSpad pa || isRegw pa || isAcc pa

/-- The die that a device physical address belongs to. -/
def dieOfPa (pa : Nat) : Nat :=
  if isHbm pa then pa / hbmDie
  else if isSpad pa then dieOfCell ((pa - spadBase) / 2 ^ 18)
  else if isRegw pa then dieOfCell ((pa - regwBase) / 2 ^ 16)
  else dieOfCluster ((pa - accBase) / 2 ^ 20)

/-- The lane, register and byte of a register window offset (R69). -/
def regwPos (b : Nat) : Nat × Nat × Nat := (bits b 11 7, 32 + bits b 6 2, bits b 1 0)

/-- A vector register of a member. -/
def Member.vreg (m : Member) (lane r : Nat) : Word := FMap.get 0 m.v (lane * 64 + r)

/-- A vector register written. -/
def Member.setV (m : Member) (lane r : Nat) (x : Word) : Member := { m with v := FMap.put 0 m.v (lane * 64 + r) x }

namespace State

/-- An address with a mapped global line replaced by its scratchpad bytes (R143). -/
def redirect (s : State) (pa : Nat) : Nat :=
  if isHbm pa then
    match FMap.find? s.mapped (pa / 128) with
    | some q => q + pa % 128
    | none => pa
  else pa

/-- One byte of device memory. A register window with no wave reads as 0 (R70). -/
def byte (s : State) (pa : Nat) : Byte :=
  let pa := s.redirect pa
  if isRegw pa then
    let o := pa - regwBase
    let (l, r, b) := regwPos o
    match s.member? (waveKey (o / 2 ^ 16) (bits o 15 12)) with
    | some m => (m.vreg l r).extractLsb' (8 * b) 8
    | none => 0
  else FMap.get 0 s.mem pa

/-- One byte of device memory written, with neither tags nor poison touched. -/
def setByte (s : State) (pa : Nat) (x : Byte) : State :=
  let pa := s.redirect pa
  if isRegw pa then
    let o := pa - regwBase
    let (l, r, b) := regwPos o
    s.modMember (waveKey (o / 2 ^ 16) (bits o 15 12)) fun m =>
      let w := m.vreg l r
      m.setV l r ((w &&& ~~~(BitVec.ofNat 32 (0xFF * 2 ^ (8 * b)))) ||| BitVec.ofNat 32 (x.toNat * 2 ^ (8 * b)))
  else { s with mem := FMap.put 0 s.mem pa x }

/-- n bytes from pa as a list. -/
def bytes (s : State) (pa n : Nat) : List Byte := (List.range n).map fun i => s.byte (pa + i)

/-- n bytes from pa as a little-endian number. -/
def num (s : State) (pa n : Nat) : Nat := ofBytes (s.bytes pa n)

/-- Bytes written in order from pa. -/
def setBytes (s : State) : Nat → List Byte → State
  | _, [] => s
  | pa, b :: t => setBytes (s.setByte pa b) (pa + 1) t

/-- The tag of the slot that holds an address (R135). -/
def tagAt (s : State) (pa : Nat) : Bool := FMap.get false s.tags (s.redirect pa / 16)

/-- The tag of a slot set or cleared. -/
def setTag (s : State) (pa : Nat) (t : Bool) : State := { s with tags := FMap.put false s.tags (s.redirect pa / 16) t }

/-- The tags of every slot that n bytes from pa touch cleared (R135). -/
def clearTags (s : State) (pa n : Nat) : State :=
  (List.range ((pa + n - 1) / 16 + 1 - pa / 16)).foldl (fun s i => s.setTag ((pa / 16 + i) * 16) false) s

/-- The key of a register window's 64-bit word among a member's poison marks. -/
def regUnit (pa : Nat) : Nat :=
  let p := regwPos (pa - regwBase)
  p.1 * 32 + p.2.1 / 2

/-- Whether the poison of a register window's 64-bit word is set. -/
def regPoison (s : State) (pa : Nat) : Bool :=
  let o := pa - regwBase
  match s.member? (waveKey (o / 2 ^ 16) (bits o 15 12)) with
  | some m => FMap.get false m.pv (regUnit pa)
  | none => false

/-- Whether a byte lies in a poisoned HBM sector (R148). -/
def sectorPoisoned (s : State) (pa : Nat) : Bool := isHbm (s.redirect pa) && FMap.get false s.poisonS (s.redirect pa / 32)

/-- Whether a byte lies in a poisoned unit: a 64-bit word, or an HBM sector (R148). -/
def bytePoisoned (s : State) (pa : Nat) : Bool :=
  if isRegw (s.redirect pa) then s.regPoison (s.redirect pa)
  else FMap.get false s.poisonW (s.redirect pa / 8) || s.sectorPoisoned pa

/-- Whether any of n bytes from pa is poisoned. -/
def poisoned (s : State) (pa n : Nat) : Bool := (List.range n).any fun i => s.bytePoisoned (pa + i)

/-- The poison that a write of n bytes from pa clears: units it overwrites whole (R148). -/
def clearPoison (s : State) (pa n : Nat) : State :=
  let pa := s.redirect pa
  let words := (List.range ((pa + n) / 8 - (pa + 7) / 8)).map fun i => (pa + 7) / 8 + i
  let secs := (List.range ((pa + n) / 32 - (pa + 31) / 32)).map fun i => (pa + 31) / 32 + i
  if isRegw pa then
    let o := pa - regwBase
    s.modMember (waveKey (o / 2 ^ 16) (bits o 15 12)) fun m =>
      { m with pv := words.foldl (fun p w => FMap.put false p (regUnit (w * 8)) false) m.pv }
  else
    let pw := words.foldl (fun p w => FMap.put false p w false) s.poisonW
    let ps := if isHbm pa then secs.foldl (fun p w => FMap.put false p w false) s.poisonS else s.poisonS
    { s with poisonW := pw, poisonS := ps }

/-- The poison of every 64-bit word that n bytes from pa touch set: a poison that travels with data (R148, R149). -/
def setPoison (s : State) (pa n : Nat) : State :=
  let pa := s.redirect pa
  let words := (List.range ((pa + n - 1) / 8 + 1 - pa / 8)).map fun i => pa / 8 + i
  if isRegw pa then
    let o := pa - regwBase
    s.modMember (waveKey (o / 2 ^ 16) (bits o 15 12)) fun m =>
      { m with pv := words.foldl (fun p w => FMap.put false p (regUnit (w * 8)) true) m.pv }
  else
    { s with poisonW := words.foldl (fun p w => FMap.put false p w true) s.poisonW }

/-- An uncorrectable error at a byte: its HBM sector, or its 64-bit word elsewhere (R148). -/
def poisonUnit (s : State) (pa : Nat) : State :=
  let pa := s.redirect pa
  if isHbm pa then { s with poisonS := FMap.put false s.poisonS (pa / 32) true } else s.setPoison pa 1

end State

/-! ### Host and peer memory -/

/-- A byte of host or peer memory. -/
def State.extByte (s : State) (peer : Bool) (a : Nat) : Byte := FMap.get 0 (if peer then s.peerMem else s.hostMem) a

def State.setExtByte (s : State) (peer : Bool) (a : Nat) (x : Byte) : State :=
  if peer then { s with peerMem := FMap.put 0 s.peerMem a x } else { s with hostMem := FMap.put 0 s.hostMem a x }

def State.extBytes (s : State) (peer : Bool) (a n : Nat) : List Byte := (List.range n).map fun i => s.extByte peer (a + i)

def State.setExtBytes (s : State) (peer : Bool) : Nat → List Byte → State
  | _, [] => s
  | a, b :: t => setExtBytes (s.setExtByte peer a b) peer (a + 1) t

end Sys2Proof.Machine
end

