-- ==== Sys2Proof/Machine/Links.lean ====
section
/-!
DEFINITION. Machine/Links.lean: the UCIe links between the dies and to the IOD (R7, R293): which of them carry traffic, and the way
that traffic between two dies takes.
-/
namespace Sys2Proof.Machine

/-- One flit sent in a direction of a link: the receiver accepts an old key for 1,024 flits (R293). -/
def LinkDir.flit (x : LinkDir) : LinkDir :=
  { x with flits := x.flits + 1, grace := x.grace - 1, oldKey := if x.grace ≤ 1 then none else x.oldKey }

/-- The ends of a link in the order of R7: a die, and another die or none for the IOD. -/
def linkEnds : Nat → Nat × Option Nat
  | 0 => (0, none)
  | 1 => (1, none)
  | 2 => (2, none)
  | 3 => (3, none)
  | 4 => (0, some 1)
  | 5 => (1, some 2)
  | 6 => (2, some 3)
  | _ => (3, some 0)

namespace State

def link (s : State) (n : Nat) : Link := FMap.get Link.init s.links n
def setLink (s : State) (n : Nat) (l : Link) : State := { s with links := FMap.put Link.init s.links n l }
def modLink (s : State) (n : Nat) (f : Link → Link) : State := s.setLink n (f (s.link n))

/-- Whether a link can carry traffic: up, between TRUSTED ends (R293). -/
def linkLive (s : State) (n : Nat) : Bool :=
  let (a, b) := linkEnds n
  (s.link n).up && s.trusted a && (b.map s.trusted).getD true

/-- The ways from a die to another as links and whether each is taken away from its first end: the link between neighbours, two links by way
of a neighbour, and the IOD (R7). -/
def routes (a b : Nat) : List (List (Nat × Bool)) :=
  let up (x : Nat) : Nat × Bool := (4 + x % 4, true)
  let down (x : Nat) : Nat × Bool := (4 + (x + 3) % 4, false)
  let ring : List (List (Nat × Bool)) :=
    match (b + 4 - a) % 4 with
    | 1 => [[up a], [down a, down (a + 3), down (a + 2)]]
    | 2 => [[up a, up (a + 1)], [down a, down (a + 3)]]
    | _ => [[down a], [up a, up (a + 1), up (a + 2)]]
  ring.take 1 ++ [[(a, true), (b, false)]] ++ ring.drop 1

/-- The way that traffic between two dies takes: the first whose links are all live (R7, R293, log 44). -/
def pathLinks (s : State) (a b : Nat) : List (Nat × Bool) :=
  if a == b then [] else ((routes a b).find? fun r => r.all fun l => s.linkLive l.1).getD []

/-- Whether traffic can go from a die to another: to itself, or by links that are live (R293, log 99). -/
def reaches (s : State) (a b : Nat) : Bool := a == b || !(s.pathLinks a b).isEmpty

/-- A flit counted in a direction of a link. -/
def countFlit (s : State) (l : Nat × Bool) : State :=
  s.modLink l.1 fun x => if l.2 then { x with out := x.out.flit } else { x with back := x.back.flit }

/-- One flit counted on every link of the way between two dies (R293, log 99). -/
def countWay (s : State) (a b : Nat) : State := (s.pathLinks a b).foldl countFlit s

/-- A request and its answer counted between two dies. -/
def countTrip (s : State) (a b : Nat) : State := (s.countWay a b).countWay b a

end State
end Sys2Proof.Machine
end

