-- ==== Sys2Proof/Machine/Causes.lean ====
section
/-!
DEFINITION. Machine/Causes.lean: the cause codes (R40, R57, R75, R109, R151, R165, R190, R208, R232, R249, R250, R283,
R302).
-/
namespace Sys2Proof

/-- A cause code (R250). -/
abbrev Cause := BitVec 9

namespace Cause

abbrev illegalInstruction : Cause := 0x000
abbrev reservedField : Cause := 0x001
abbrev pairBank : Cause := 0x002
abbrev pcAlign : Cause := 0x003
abbrev csrAccess : Cause := 0x004
abbrev indexBounds : Cause := 0x030
abbrev latchStale : Cause := 0x031
abbrev latchChain : Cause := 0x032
abbrev operandKind : Cause := 0x033
abbrev indexSetup : Cause := 0x034
abbrev pageFault : Cause := 0x040
abbrev misaligned : Cause := 0x041
abbrev pagePerm : Cause := 0x042
abbrev addrRange : Cause := 0x043
abbrev pteFormat : Cause := 0x044
abbrev fetchPage : Cause := 0x045
abbrev poison : Cause := 0x046
abbrev spadForeign : Cause := 0x047
abbrev noSuchCell : Cause := 0x048
abbrev spadMap : Cause := 0x049
abbrev tagBusy : Cause := 0x04A
abbrev formatSlot : Cause := 0x04C
abbrev capTag : Cause := 0x080
abbrev capSpace : Cause := 0x081
abbrev capPerm : Cause := 0x082
abbrev capBounds : Cause := 0x083
abbrev capInexact : Cause := 0x084
abbrev capMonotonic : Cause := 0x085
abbrev capLocal : Cause := 0x086
abbrev unmarkedTarget : Cause := 0x0C0
abbrev targetKind : Cause := 0x0C1
abbrev waveOnly : Cause := 0x0C2
abbrev launchDepth : Cause := 0x0C3
abbrev notLeader : Cause := 0x0C4
abbrev launchEntry : Cause := 0x0C5
abbrev teamShape : Cause := 0x0C6
abbrev recordFormat : Cause := 0x0C7
abbrev poolExhausted : Cause := 0x0C8
abbrev suspendInRegion : Cause := 0x0C9
abbrev brxIndex : Cause := 0x0D0
abbrev refillQueue : Cause := 0x0D1
abbrev queueOverrun : Cause := 0x0E0
abbrev launchPacket : Cause := 0x0E1
abbrev launchQueue : Cause := 0x0E2
abbrev graphNode : Cause := 0x0E3
abbrev graphLevel : Cause := 0x0E4
abbrev ordForm : Cause := 0x0F0
abbrev barToken : Cause := 0x0F1
abbrev accOwner : Cause := 0x100
abbrev accRange : Cause := 0x101
abbrev noOperandMap : Cause := 0x102
abbrev operandMap : Cause := 0x103
abbrev aLatch : Cause := 0x104
abbrev batonState : Cause := 0x105
abbrev copyLength : Cause := 0x106
abbrev copyOverlap : Cause := 0x107
abbrev drainParam : Cause := 0x108
abbrev baseParam : Cause := 0x109
abbrev regwGone : Cause := 0x10A
abbrev followOnCancelled : Cause := 0x10B
abbrev atomicType : Cause := 0x110
abbrev regionCycle : Cause := 0x111
abbrev regionCascade : Cause := 0x112
abbrev regionCapacity : Cause := 0x113
abbrev regionExplicit : Cause := 0x114
abbrev regionRemote : Cause := 0x115
abbrev regionMemory : Cause := 0x116
abbrev regionValidate : Cause := 0x117
abbrev regionForbidden : Cause := 0x118
abbrev regionNested : Cause := 0x119
abbrev regionHalt : Cause := 0x11A
abbrev linkLost : Cause := 0x120
abbrev beamQuery : Cause := 0x130
abbrev beamNode : Cause := 0x131
abbrev beamSave : Cause := 0x132
abbrev trapInstr : Cause := 0x140
abbrev breakpoint : Cause := 0x141
abbrev allAsleep : Cause := 0x142
abbrev eretState : Cause := 0x143
abbrev handlerFault : Cause := 0x144
abbrev noHandler : Cause := 0x145
abbrev homeDieUnavailable : Cause := 0x160
abbrev amsgTarget : Cause := 0x161
abbrev sigCounter : Cause := 0x162

end Cause
end Sys2Proof
end

