-- ==== Sys2Proof/Machine/Tables.lean ====
section
/-!
DEFINITION. Machine/Tables.lean: the tables of a context as the device reads them from its memory (R298): capabilities,
formats (R92), marks (R31) and team descriptors (R90).
-/
namespace Sys2Proof.Machine

/-- The physical address that a table register holds in [51:12] (R298). -/
def tableAddr (r : DWord) : Nat := bits r.toNat 51 12 * 2 ^ 12

namespace State

/-- Entry i of the capability table of a context (R298). A reserved SPACE or E reads untagged (R135). -/
def capEntry (s : State) (x i : Nat) : Cap :=
  let pa := tableAddr (s.ctx x).captab + 16 * i
  let c := Cap.ofNat128 (s.tagAt pa) (s.num pa 16)
  { c with tag := c.tag && c.eOk && c.space.toNat ≤ 7 }

end State

/-- A format entry (R92). -/
structure FmtEntry where
  scaled : Bool
  efmt : Nat
  tbase : Nat
  sbase : Nat
  tlen : Nat
  codebook : List Nat
  deriving DecidableEq, Repr

namespace State

/-- Format slot i of a context (R92). A slot that the loader left empty reads as EFMT 0, which no decode accepts.
Bits [63:6] of word 0 are not looked at, whatever they hold (log 82). -/
def fmtEntry (s : State) (x i : Nat) : FmtEntry :=
  let pa := tableAddr (s.ctx x).fmttab + 64 * i
  let w0 := s.num pa 8
  { scaled := w0.testBit 5, efmt := bits w0 4 0, tbase := s.num (pa + 8) 8, sbase := s.num (pa + 16) 8,
    tlen := s.num (pa + 24) 8, codebook := (List.range 16).map fun j => s.num (pa + 32 + 2 * j) 2 }

/-- The kind of the mark at an address: 1 WAVE, 2 SCALAR, 3 ANY; none when no valid entry names it (R31). -/
def markKind (s : State) (x : Nat) (target : Nat) : Option Nat :=
  if target % 8 != 0 || 2 ^ 51 ≤ target then none
  else
    let base := tableAddr (s.ctx x).marktab
    let n := min (s.ctx x).markcnt.toNat 4096
    match (List.range n).find? fun i => s.num (base + 8 * i) 8 / 2 ^ 16 == target / 8 with
    | some i =>
      let e := s.num (base + 8 * i) 8
      if e % 2 ^ 14 = 0 && bits e 15 14 != 0 then some (bits e 15 14) else none
    | none => none

end State

/-- A team descriptor (R90). -/
structure TeamDesc where
  entry : BitVec 48
  handler : Nat
  waves : Nat
  threads : Nat
  spad : Nat
  cmask : Nat
  cidx : List Nat
  deriving DecidableEq, Repr

/-- Whether a shape lies within R34. A SPAD that is not a multiple of 256, or WAVES and THREADS both 0, passes (log 96). -/
def TeamDesc.shapeOk (d : TeamDesc) : Bool := d.waves ≤ 16 && d.threads ≤ 32 && d.spad ≤ 2 ^ 18

/-- Descriptor i of a context, when it is below DESCCNT (R44, R90). Set RSV bits of a descriptor in memory, for which no cause is named, are
ignored (log 93). -/
def State.desc? (s : State) (x i : Nat) : Option TeamDesc :=
  if i < (s.ctx x).desccnt.toNat then
    let pa := tableAddr (s.ctx x).desctab + 64 * i
    let w1 := s.num (pa + 8) 8
    let w2 := s.num (pa + 16) 8
    some { entry := BitVec.ofNat 48 (s.num pa 8 / 2 ^ 16), handler := bits w1 63 16 * 8, waves := bits w2 63 59,
           threads := bits w2 58 53, spad := bits w2 52 34, cmask := bits w2 11 0,
           cidx := (List.range 12).map fun n => s.num (pa + 24 + n) 1 }
  else none

/-- Whether a mark kind excludes a form present in a shape (R35). -/
def entryFits (mk : Option Nat) (waves threads : Nat) : Bool :=
  match mk with
  | none => false
  | some 1 => threads == 0
  | some 2 => waves == 0
  | some _ => true

end Sys2Proof.Machine
end

