-- ==== Sys2Proof/Machine/Translate.lean ====
section
/-!
DEFINITION. Machine/Translate.lean: page tables (R144), page permissions (R145) and TLB entries (R146).
-/
namespace Sys2Proof.Machine

def Leaf.coh (l : Leaf) : Nat := Sys2Proof.bits l.pte.toNat 62 61
def Leaf.fmt (l : Leaf) : Nat := Sys2Proof.bits l.pte.toNat 60 53
/-- The lease length; a field of 0 means 10 (R144, R240). -/
def Leaf.lease (l : Leaf) : Nat := if Sys2Proof.bits l.pte.toNat 11 4 = 0 then 10 else Sys2Proof.bits l.pte.toNat 11 4
def Leaf.x (l : Leaf) : Bool := l.pte.getLsbD 2
def Leaf.w (l : Leaf) : Bool := l.pte.getLsbD 1
def Leaf.r (l : Leaf) : Bool := l.pte.getLsbD 0

/-- The physical address field of a PTE. -/
def pteAddr (p : Nat) : Nat := bits p 51 12 * 2 ^ 12

/-- The format rules of R144 for an entry of the level whose pages have 2^sh bytes. -/
def pteOk (p sh : Nat) : Bool :=
  let coh := bits p 62 61
  let leaf := p.testBit 3
  !p.testBit 52 && coh != 3 && (coh == 1 || bits p 11 4 == 0) && backed (pteAddr p) &&
    if leaf then pteAddr p % 2 ^ sh == 0
    else sh != 16 && coh == 0 && bits p 60 53 == 0 && bits p 11 4 == 0 && bits p 2 0 == 0

/-- The levels from the root down: lowest VA bit of the index and its width (R144). -/
def walkLevels : List (Nat × Nat) := [(36, 21), (30, 6), (21, 9), (16, 5)]

/-- The non-leaf entry that a cluster's walk cache holds for an address at a level. -/
def State.walkHit (s : State) (cl x sh va : Nat) : Option Nat :=
  ((FMap.get [] s.coh.walks cl).find? fun e => e.ctx == x && e.sh == sh && e.va == va / 2 ^ sh).map fun e => e.pte.toNat

/-- The entry that a walk for a context uses at a level: one that the walk cache holds, or else the one in memory (R146). -/
def State.pteAt (s : State) (cl x va sh n table : Nat) : Nat :=
  (s.walkHit cl x sh va).getD (s.num (table + 8 * (va / 2 ^ sh % 2 ^ n)) 8)

/-- The walk of a table at a level (R144): PAGE_FAULT or PTE_FORMAT of the first entry that fails. -/
def State.walk (s : State) (cl x va : Nat) : List (Nat × Nat) → Nat → Except Cause Leaf
  | [], _ => .error .pteFormat
  | (sh, n) :: rest, table =>
    let p := s.pteAt cl x va sh n table
    if !p.testBit 63 then .error .pageFault
    else if !pteOk p sh then .error .pteFormat
    else if p.testBit 3 then
      let pa := pteAddr p + va % 2 ^ sh
      if backed pa then .ok ⟨pa, sh, BitVec.ofNat 64 p⟩ else .error .pteFormat
    else s.walk cl x va rest (pteAddr p)

/-- The leaf that an entry of some TLB gives for an address of a context. -/
def tlbFind (es : List TlbEntry) (x va : Nat) : Option Leaf :=
  (es.find? fun e => e.ctx == x && e.va / 2 ^ e.bits == va / 2 ^ e.bits).map fun e =>
    ⟨pteAddr e.pte.toNat + va % 2 ^ e.bits, e.bits, e.pte⟩

/-- The leaf that the cell's TLB, or else the L2 TLB of its cluster, holds for an address (R146). -/
def State.tlbHit (s : State) (cell x va : Nat) : Option Leaf :=
  (tlbFind (FMap.get [] s.coh.tlb cell) x va).orElse fun _ => tlbFind (FMap.get [] s.coh.tlb2 (clusterOfCell cell)) x va

/-- Translation of a 57-bit address for a context: an entry that the cell's TLB or its cluster's holds, or else the walk (R144,
R146). The byte itself must be backed (R141). -/
def State.translate (s : State) (cell x va : Nat) : Except Cause Leaf :=
  match s.tlbHit cell x va with
  | some l => if backed l.pa then .ok l else .error .pteFormat
  | none => s.walk (clusterOfCell cell) x va walkLevels (tableAddr (s.ctx x).root)

/-- A TLB of some size with an entry put first; the oldest leaves. -/
def tlbAdd (n : Nat) (es : List TlbEntry) (x va : Nat) (l : Leaf) : List TlbEntry :=
  if (tlbFind es x va).isSome then es else (⟨x, va / 2 ^ l.bits * 2 ^ l.bits, l.bits, l.pte⟩ :: es).take n

/-- The non-leaf entries that a walk to a leaf of 2^sh bytes passed, for the walk cache. -/
def State.walkPath (s : State) (cl x va leaf : Nat) : List (Nat × Nat) → Nat → List WalkEntry
  | [], _ => []
  | (sh, n) :: rest, table =>
    if sh ≤ leaf then []
    else
      let p := s.pteAt cl x va sh n table
      ⟨x, sh, va / 2 ^ sh, BitVec.ofNat 64 p⟩ :: s.walkPath cl x va leaf rest (pteAddr p)

/-- The TLBs and the walk cache after an access used the leaf that translates an address: 128 entries in a cell's TLB and 4,096
in a cluster's (R146), and 64 in its walk cache; the oldest leave first (log 6). -/
def State.fillTlb (s : State) (cell x va : Nat) (l : Leaf) : State :=
  let cl := clusterOfCell cell
  let ws := FMap.get [] s.coh.walks cl
  let new := if (s.tlbHit cell x va).isSome then [] else
    (s.walkPath cl x va l.bits walkLevels (tableAddr (s.ctx x).root)).filter fun e => !ws.contains e
  { s with coh := { s.coh with
      tlb := FMap.put [] s.coh.tlb cell (tlbAdd 128 (FMap.get [] s.coh.tlb cell) x va l),
      tlb2 := FMap.put [] s.coh.tlb2 cl (tlbAdd 4096 (FMap.get [] s.coh.tlb2 cl) x va l),
      walks := FMap.put [] s.coh.walks cl ((new ++ ws).take 64) } }

end Sys2Proof.Machine
end

