-- ==== Sys2Proof/Machine/Access.lean ====
section
/-!
DEFINITION. Machine/Access.lean: the checks of an access through a capability (R136 to R140, R145, R292). Each step is taken
over all enabled lanes before the next; the lowest lane that fails the earliest failing step gives the cause.
-/
namespace Sys2Proof.Machine

/-- A cause with what the trap area reports of it (R252): a lane, an address and the code of TRAP or BKPT. With no lane
named, the lowest enabled lane is reported. -/
structure Exn where
  cause : Cause
  lane : Option Nat := none
  addr : Nat := 0
  code : BitVec 8 := 0
  deriving DecidableEq, Repr

/-- A check that may meet a cause. -/
abbrev Chk := Except Exn

/-- A cause unless a condition holds. -/
def need (b : Bool) (c : Cause) (lane : Option Nat := none) (addr : Nat := 0) : Chk Unit :=
  if b then .ok () else .error { cause := c, lane := lane, addr := addr }

/-- One step over all lanes: the first lane whose test answers a cause. -/
def stepLanes (lanes : List (Nat × Nat)) (test : Nat → Option Cause) : Chk Unit :=
  match lanes.find? fun p => (test p.2).isSome with
  | some p => .error { cause := (test p.2).getD 0, lane := some p.1, addr := p.2 }
  | none => .ok ()

/-- An extent that a live team of a context holds on a cell covers a byte (R137, R138). -/
def State.inExtent (s : State) (x cell off : Nat) : Bool :=
  s.teams.any fun t => t.ctx == x && t.cell == cell && t.spbase ≤ off && off < t.spbase + t.splen

/-- Whether every byte of a scratchpad range lies in extents of a context. Extents are 256-byte aligned. -/
def State.rangeInExtents (s : State) (x cell off n : Nat) : Bool :=
  (List.range ((off + n - 1) / 256 + 1 - off / 256)).all fun i =>
    s.inExtent x cell (max off ((off / 256 + i) * 256)) &&
      s.inExtent x cell (min (off + n - 1) ((off / 256 + i) * 256 + 255))

/-- One past the last cursor of a space that has a limit (R137). -/
def cursorEnd : Nat → Option Nat
  | 1 => some (2 ^ 57)
  | 2 => some (2 ^ 18)
  | 3 => some (2 ^ 27)
  | 4 => some (2 ^ 25)
  | 5 => some (2 ^ 26)
  | _ => none

/-- The first cursor check of R137 for n bytes at a. -/
def rangeCheck (sp a n : Nat) : Option Cause :=
  match cursorEnd sp with
  | some e => if a + n ≤ e then none else some Cause.addrRange
  | none => none

/-- The bytes behind each cluster in a packed space, as a power of two (R138, R140). -/
def clusterShift : Nat → Option Nat
  | 3 => some 21
  | 4 => some 19
  | 5 => some 20
  | _ => none

/-- The second cursor check of R137, as seen from a cell: the clusters that a packed cursor names, or the extents of SPAD. -/
def State.placeCheck (s : State) (x cell sp a n : Nat) : Option Cause :=
  if sp == 2 then (if s.rangeInExtents x cell a n then none else some Cause.spadForeign)
  else match clusterShift sp with
    | some k =>
      if (List.range ((a + n - 1) / 2 ^ k + 1 - a / 2 ^ k)).all fun i => s.clusterOn (a / 2 ^ k + i) then none
      else some Cause.noSuchCell
    | none => none

/-- The cursor checks of R137 for n bytes at a, as seen from a cell. -/
def State.cursorCheck (s : State) (x cell sp a n : Nat) : Option Cause :=
  (rangeCheck sp a n).orElse fun _ => s.placeCheck x cell sp a n

/-- The capability steps of R136 for accesses of n bytes at addresses that pass an alignment test, then ADDR_RANGE (R137). -/
def capRange (c : Cap) (spaces : List Nat) (perm : BitVec 8) (n : Nat) (aligned : Nat → Bool) (lanes : List (Nat × Nat)) : Chk Unit := do
  stepLanes lanes fun _ => if c.tag then none else some Cause.capTag
  stepLanes lanes fun _ => if c.spaceOk && spaces.contains c.space.toNat then none else some Cause.capSpace
  stepLanes lanes fun _ => if c.has perm then none else some Cause.capPerm
  stepLanes lanes fun a => if c.inBounds a n then none else some Cause.capBounds
  stepLanes lanes fun a => if aligned a then none else some Cause.misaligned
  stepLanes lanes fun a => rangeCheck c.space.toNat a n

/-- The capability steps of R136, then the cursor steps of R137. -/
def State.capCheckBy (s : State) (x cell : Nat) (c : Cap) (spaces : List Nat) (perm : BitVec 8) (n : Nat) (aligned : Nat → Bool)
    (lanes : List (Nat × Nat)) : Chk Unit := do
  capRange c spaces perm n aligned lanes
  stepLanes lanes fun a => s.placeCheck x cell c.space.toNat a n

/-- The same for accesses aligned to `al`. -/
def State.capCheck (s : State) (x cell : Nat) (c : Cap) (spaces : List Nat) (perm : BitVec 8) (n al : Nat)
    (lanes : List (Nat × Nat)) : Chk Unit :=
  s.capCheckBy x cell c spaces perm n (fun a => a % al == 0) lanes

/-- The places an access can reach: device memory, with the leaf for a GLOBAL address, or memory beyond the host link. -/
inductive Target where
  | dev (pa : Nat) (leaf : Option Leaf)
  | ext (peer : Bool) (a : Nat)
  deriving DecidableEq, Repr

/-- The physical address of a target in the device. -/
def Target.pa : Target → Nat
  | .dev pa _ => pa
  | .ext _ a => a

/-- The leaf of a GLOBAL target. -/
def Target.page : Target → Option Leaf
  | .dev _ l => l
  | .ext .. => none

/-- The translation step for one address: the walk, then the page's permissions (R136, R145). -/
def State.locate (s : State) (x cell sp a : Nat) (r w : Bool) : Except Cause Target :=
  match sp with
  | 1 =>
    match s.translate cell x a with
    | .error c => .error c
    | .ok l => if (r && !l.r) || (w && !l.w) then .error Cause.pagePerm else .ok (.dev l.pa (some l))
  | 2 => .ok (.dev (spadBase + cell * 2 ^ 18 + a) none)
  | 3 => .ok (.dev (spadBase + a) none)
  | 4 => .ok (.dev (regwBase + a) none)
  | 5 => .ok (.dev (accBase + a) none)
  | 6 => .ok (.ext false a)
  | _ => .ok (.ext true a)

/-- Steps after the cursor checks for one address: the cluster that a packed cursor names, which a job's own cursors meet here
(R18), translation, the die, which must be TRUSTED and within reach of the cell (R292, log 99), and SPAD_FOREIGN at a SPADW target
(R138). -/
def State.reach (s : State) (x cell sp a n : Nat) (r w : Bool) : Except Cause Target :=
  match s.locate x cell sp a r w with
  | .error c => .error c
  | .ok t =>
    if !((clusterShift sp).map fun k => s.clusterOn (a / 2 ^ k)).getD true then .error Cause.noSuchCell else
    match t with
    | .ext .. => .ok t
    | .dev pa _ =>
      if sp != 2 && !(s.trusted (dieOfPa pa) && s.reaches (dieOfCell cell) (dieOfPa pa)) then .error Cause.homeDieUnavailable
      else if sp == 3 && !s.rangeInExtents x (a / 2 ^ 18) (a % 2 ^ 18) n then .error Cause.spadForeign
      else .ok t

/-- The rank of a late step among those of R136 by its cause: the walk, the page's permissions, the die, the extent of a SPADW
target. -/
def lateRank (c : Cause) : Nat :=
  if c == Cause.pagePerm then 1 else if c == Cause.homeDieUnavailable then 2 else if c == Cause.spadForeign then 3 else 0

/-! ### LEASE copies (R240) -/

/-- Serial-number comparison of lease stamps (R240). -/
def ltS (a b : BitVec 16) : Bool := a != b && (b - a).toNat < 2 ^ 15

/-- The L1 key of a line in a cell. -/
def l1Key (cell line : Nat) : Nat := cell * 2 ^ 46 + line

namespace State

def l1 (s : State) (cell n : Nat) : L1Line := FMap.get L1Line.init s.coh.l1 (l1Key cell n)
def pts (s : State) (cell : Nat) : BitVec 16 := (s.cell cell).pts

/-- The copy of a line that a load of a cell may still use (R240). -/
def leaseHit (s : State) (cell n : Nat) : Option LeaseCopy :=
  match (s.l1 cell n).lease with
  | some c => if ltS c.exp (s.pts cell) then none else some c
  | none => none

/-- The LEASE copy from which a load of a cell at a place takes its bytes: of a line homed on its die and not mapped (R143, R240, R245). -/
def copyFor (s : State) (cell : Nat) : Target → Option LeaseCopy
  | .dev pa (some l) =>
    if l.coh == 1 && isHbm pa && dieOfCell cell == dieOfPa pa && (FMap.find? s.mapped (pa / 128)).isNone then s.leaseHit cell (pa / 128) else none
  | _ => none

/-- Whether a load of n bytes by a cell's thread finds poison: in the copy that it uses, or else at the home (R148, R149). -/
def loadPoisoned (s : State) (cell : Nat) (t : Target) (n : Nat) : Bool :=
  match s.copyFor cell t with
  | some c => (List.range n).any fun i => c.poison.getLsbD ((t.pa % 128 + i) / 8)
  | none => s.poisoned t.pa n

end State

/-- A late step that failed for one lane, and its rank among the steps of R136, POISON the last. `own` marks an access of a thread,
whose load may use a copy. -/
def State.lateFail (s : State) (x cell sp n : Nat) (r w poison : Bool) (a : Nat) (own : Bool := false) : Option (Nat × Cause) :=
  match s.reach x cell sp a n r w with
  | .error c => some (lateRank c, c)
  | .ok (.ext ..) => none
  | .ok t => if poison && (if own && !w then s.loadPoisoned cell t n else s.poisoned t.pa n) then some (4, Cause.poison) else none

/-- The late steps over all lanes for an access whose causes are precise (R136): the earliest step that fails, and the
lowest lane that fails it. -/
def State.lateCheck (s : State) (x cell sp n : Nat) (r w poison : Bool) (lanes : List (Nat × Nat)) : Chk Unit := do
  let fails := lanes.filterMap fun p => (s.lateFail x cell sp n r w poison p.2 true).map fun f => (p, f)
  [0, 1, 2, 3, 4].foldl (fun acc k => do
    acc
    match fails.find? fun f => f.2.1 == k with
    | some f => .error { cause := f.2.2, lane := some f.1.1, addr := f.1.2 }
    | none => .ok ()) (.ok ())

/-- A range of addresses cut at multiples of 2^16, which no page and no cell's scratchpad crosses. -/
def pieces (a n : Nat) : List (Nat × Nat) :=
  if n == 0 then []
  else (List.range ((a + n - 1) / 2 ^ 16 + 1 - a / 2 ^ 16)).map fun j =>
    let lo := max a ((a / 2 ^ 16 + j) * 2 ^ 16)
    (lo, min (a + n) ((a / 2 ^ 16 + j + 1) * 2 ^ 16) - lo)

/-- The late steps of R136 over a region of n bytes: the step that fails first, its cause and its address. -/
def State.regionLate (s : State) (x cell sp a n : Nat) (r w poison : Bool) : Option (Nat × Cause × Nat) :=
  let fails := (pieces a n).filterMap fun p => (s.lateFail x cell sp p.2 r w poison p.1).map fun f => (f.1, f.2, p.1)
  [0, 1, 2, 3, 4].findSome? fun k => fails.find? fun f => f.1 == k

/-- A region's late steps as a check. -/
def State.lateRegion (s : State) (x cell sp a n : Nat) (r w poison : Bool) : Chk Unit :=
  match s.regionLate x cell sp a n r w poison with
  | some (_, c, b) => .error { cause := c, addr := b }
  | none => .ok ()

/-- Checks of a region of n bytes at a for an engine, with an alignment test of its own. -/
def State.regionCheckBy (s : State) (x cell : Nat) (c : Cap) (spaces : List Nat) (perm : BitVec 8) (a n : Nat) (aligned : Nat → Bool) :
    Chk Unit :=
  s.capCheckBy x cell c spaces perm n aligned [(0, a)] |>.mapError fun e => { e with lane := none }

/-- Checks of a region of n bytes at a for an engine or a table, made at issue (R136, R137, R396): everything up to the
cursor checks, with the region's own alignment. -/
def State.regionCheck (s : State) (x cell : Nat) (c : Cap) (spaces : List Nat) (perm : BitVec 8) (a n al : Nat) :
    Chk Unit :=
  s.regionCheckBy x cell c spaces perm a n fun b => b % al == 0

end Sys2Proof.Machine
end

