-- ==== Sys2Proof/Machine/Groups.lean ====
section
/-!
DEFINITION. Machine/Groups.lean: the groups of a wave (R153 to R161): splitting, serial execution, joining, vacating, and
the choice of the current group. A group is named by its split-table entry, the root by none.
-/
namespace Sys2Proof.Machine

/-- A group before anything joins it. -/
def Group.init : Group := ⟨.run, 0, 0, none, 0, none, none⟩

/-- The next word's address (R97). -/
def nextPc (pc : Addr) : Addr := pc + 8

namespace Member

/-- A group by its name. -/
def grp (m : Member) : Option Nat → Group
  | none => m.root
  | some e => (FMap.find? m.subs e).getD Group.init

/-- A group replaced. -/
def setGrp (m : Member) : Option Nat → Group → Member
  | none, g => { m with root := g }
  | some e, g => { m with subs := FMap.ins m.subs e g }

/-- A group changed. -/
def modGrp (m : Member) (g : Option Nat) (f : Group → Group) : Member := m.setGrp g (f (m.grp g))

/-- A sub-group's entry freed. -/
def freeGrp (m : Member) : Option Nat → Member
  | none => m
  | some e => { m with subs := FMap.del m.subs e }

/-- The current group. -/
def curGrp (m : Member) : Group := m.grp m.cur

/-- The PC of the current group. -/
def pc (m : Member) : Addr := m.curGrp.pc

/-- The current group sent on to an address. -/
def goto (m : Member) (a : Addr) : Member := m.modGrp m.cur fun g => { g with pc := a }

/-- The current group sent on to the next word. -/
def advance (m : Member) : Member := m.goto (nextPc m.pc)

/-- The live lanes: q0 (R58). -/
def q0 (m : Member) : Word := FMap.get 0 m.q 0

/-- A predicate as a lane mask; q7 reads as all ones (R58). -/
def qmask (m : Member) (k : Nat) : Word := if k = 7 then 0xFFFFFFFF else FMap.get 0 m.q k

/-- A predicate written whole; a write to q7 is ignored (R58). -/
def setQ (m : Member) (k : Nat) (w : Word) : Member := if k = 7 then m else { m with q := FMap.put 0 m.q k w }

/-- A predicate bit. -/
def qbit (m : Member) (k lane : Nat) : Bool := (m.qmask k).getLsbD lane

/-- The group that serial mode runs as, when the stack is not empty (R155). -/
def inSerial (m : Member) (g : Option Nat) : Bool := !m.serial.isEmpty && m.serialG == some g

/-- The innermost join of a group (R155). -/
def innermost (m : Member) (g : Option Nat) : Option Addr :=
  if m.inSerial g then (m.serial.head?.map SerialEntry.join).getD none else (m.grp g).join

/-- The sub-groups whose parent is a group, by entry. -/
def kids (m : Member) (p : Option Nat) : List (Nat × Group) := m.subs.filter fun e => e.2.parent == p

/-- The serial group handed its next part (R160); a flag says that the stack emptied with no lane left. -/
def nextPart (m : Member) (g : Option Nat) : Member × Bool :=
  let j := (m.serial.head?.map SerialEntry.join).getD none
  let rec go : List SerialEntry → Word → Member × Bool
    | [], arr =>
      let m := { m with serial := [], serialG := none }
      if arr = 0 then (m.modGrp g fun x => { x with mask := 0 }, true)
      else (m.modGrp g fun x => { x with mask := arr, pc := j.getD x.pc }, false)
    | e :: rest, arr =>
      if e.join == j then
        if e.phase then go rest (arr ||| e.arr)
        else
          let e' := { e with arr := e.arr ||| arr, phase := true }
          (({ m with serial := e' :: rest }).modGrp g fun x => { x with mask := e.mask, pc := e.pc }, false)
      else
        let m := { m with serial := e :: rest }
        if arr = 0 then
          -- the enclosing part is vacated in turn, by the next round
          (m.modGrp g fun x => { x with mask := 0 }, true)
        else (m.modGrp g fun x => { x with mask := arr, pc := j.getD x.pc }, false)
  go m.serial (m.grp g).mask

/-- A group with no running lane left (R159): vacating may free entries up to the root. The root vacated leaves the wave
without lanes, and it retires. -/
def vacate : Nat → Member → Option Nat → Member
  | 0, m, _ => m
  | f + 1, m, g =>
    if m.inSerial g then
      let (m, again) := m.nextPart g
      if again then vacate f m g else m
    else
      match g with
      | none => m
      | some e =>
        let p := (m.grp (some e)).parent
        let m := m.freeGrp (some e)
        match m.kids p with
        | [] => vacate f m p
        | [(c, x)] =>
          if x.st == .parent then m
          else
            (m.freeGrp (some c)).modGrp p fun y => { y with mask := x.mask, pc := x.pc, st := .run, wait := x.wait }
        | _ => m

/-- The check of R159 at a parent. -/
def check (m : Member) (p : Option Nat) : Member :=
  match m.kids p with
  | [] => vacate 128 m p
  | [(c, x)] =>
    if x.st == .parent then m
    else
      (m.freeGrp (some c)).modGrp p fun y => { y with mask := x.mask, pc := x.pc, st := .run, wait := x.wait }
  | _ => m

/-- Whether a group stays as it is because another group of its member runs a handler (R251). -/
def frozen (m : Member) (g : Option Nat) : Bool := m.trapLanes != 0 && (m.grp g).mask &&& m.trapLanes == 0

/-- Whether a group can issue. -/
def canIssue (m : Member) (g : Option Nat) : Bool :=
  let x := m.grp g
  x.st == .run && x.wait.isNone && x.mask != 0 && !m.frozen g

/-- The names of the groups: root first. -/
def names (m : Member) : List (Option Nat) := none :: m.subs.map fun e => some e.1

/-- Whether stamp a has waited longer than b (R154). -/
def older (a b : BitVec 16) : Bool := a != b && (b - a).toNat < 2 ^ 15

/-- The oldest of some groups. -/
def oldest (m : Member) : List (Option Nat) → Option (Option Nat)
  | [] => none
  | g :: t =>
    match m.oldest t with
    | none => some g
    | some h => if older (m.grp h).stamp (m.grp g).stamp then some h else some g

/-- The current group changed to another (R158): the old one takes a new stamp and the latches become invalid. -/
def switchTo (m : Member) (g : Option Nat) : Member :=
  if m.cur == g then m
  else
    let old := m.cur
    let m :=
      if m.names.contains old then
        { (m.modGrp old fun x => { x with stamp := m.nextStamp }) with nextStamp := m.nextStamp + 1 }
      else m
    { m with cur := g, lat := [], inRow := 0 }

/-- A current group that has parked, or has gone, replaced (R158): by the RUN group with the oldest stamp, of those that can issue before
those that sleep. -/
def elect (m : Member) : Member :=
  let runs (g : Option Nat) : Bool := (m.grp g).st == .run && (m.grp g).mask != 0
  if m.names.contains m.cur && runs m.cur then m
  else
    match m.oldest (m.names.filter m.canIssue) with
    | some g => m.switchTo g
    | none => m.switchTo ((m.oldest (m.names.filter runs)).getD none)

/-- JOIN at the current group's PC (R159). -/
def joinAt (m : Member) : Member :=
  let g := m.cur
  let a := m.pc
  match m.innermost g with
  | none => m.advance
  | some j =>
    if j != a then m.advance
    else if m.inSerial g then
      let (m, again) := m.nextPart g
      if again then (vacate 128 m g).elect else m
    else
      match g with
      | none => m.advance
      | some e =>
        let x := m.grp g
        match m.subs.search fun p => p.1 != e && p.2.parent == x.parent && p.2.join == x.join && p.2.st == .parked with
        | some (s, y) =>
          (((m.setGrp (some s) { y with mask := y.mask ||| x.mask }).freeGrp g).check x.parent).elect
        | none => ((m.setGrp g { x with st := .parked, pc := a }).check x.parent).elect

/-- A serial split (R160): parts in service order. -/
def serialSplit (m : Member) (g : Option Nat) (parts : List (Addr × Word)) (jj : Option Addr) : Member :=
  match parts with
  | [] => m
  | p1 :: rest =>
    let m := if m.serial.isEmpty then { m with serialG := some g } else m
    let es := rest.map fun p => (⟨false, p.1, p.2, 0, jj⟩ : SerialEntry)
    ({ m with serial := es ++ m.serial }).modGrp g fun x => { x with pc := p1.1, mask := p1.2 }

/-- New sub-groups at free entries, with stamps in service order (R157); the first part of a level or root split takes the first of
these stamps (log 76). -/
def addGroups (m : Member) (parent : Option Nat) (join : Option Addr) : List (Addr × Word) → List Nat → Member
  | p :: ps, e :: es =>
    addGroups ({ m with subs := FMap.ins m.subs e ⟨.run, p.1, p.2, parent, m.nextStamp, join, none⟩,
                        nextStamp := m.nextStamp + 1 }) parent join ps es
  | _, _ => m

/-- A split of the current group into parts in service order (R157); `free` lists the cell's free entries, lowest first. -/
def split (m : Member) (parts : List (Addr × Word)) (jn : Option Addr) (free : List Nat) : Member :=
  let g := m.cur
  let inner := m.innermost g
  let level := jn.isSome && jn != inner
  let k := parts.length
  let n := if level || g == none then k else k - 1
  if m.serial.isEmpty && n ≤ free.length then
    if level || g == none then
      let m := { (m.modGrp g fun x => { x with st := .parent, stamp := m.nextStamp }) with nextStamp := m.nextStamp + 1 }
      let m := m.addGroups g (if level then jn else none) parts free
      { m with cur := free.head?, lat := [], inRow := 0 }
    else
      match parts with
      | [] => m
      | p1 :: rest =>
        let x := m.grp g
        (m.setGrp g { x with pc := p1.1, mask := p1.2 }).addGroups x.parent x.join rest free
  else m.serialSplit g parts (if level then jn else inner)

/-- Lanes that leave the current group (R161). -/
def leave (m : Member) (ls : Word) : Member :=
  let g := m.cur
  let m := m.setQ 0 (m.q0 &&& ~~~ls)
  let m := m.modGrp g fun x => { x with mask := x.mask &&& ~~~ls }
  if (m.grp g).mask = 0 then (vacate 128 m g).elect else m

/-- Whether a group of a member may be made current now: never inside another group's latch chain or ORD pair, nor in serial mode (R66,
R158, R195). -/
def mayTurn (m : Member) (g : Option Nat) : Bool := m.cur == g || (m.serial.isEmpty && m.chain == 0 && m.ord.isNone)

/-- Whether the current group waits for the accesses of its word and stays current, since that is no wait instruction (R158, log 98). -/
def holdsTurn (m : Member) : Bool :=
  match m.curGrp.wait with
  | some (.access _ _ _ _ _ _ turn) => m.names.contains m.cur && m.curGrp.st == .run && m.curGrp.mask != 0 && !turn
  | _ => false

/-- The current group chosen again when it cannot issue (R158). In serial mode it never changes. When no group can issue, the one that fell
asleep stays current and takes no new stamp until another can (log 87). -/
def repick (m : Member) : Member :=
  if !m.serial.isEmpty || (m.names.contains m.cur && m.canIssue m.cur) || m.holdsTurn then m
  else
    match m.oldest (m.names.filter m.canIssue) with
    | some g => m.switchTo g
    | none => m

/-- A change of group after 1,024 words in a row (R158). -/
def rotate (m : Member) : Member :=
  if !m.serial.isEmpty then m
  else
    match m.oldest ((m.names.filter m.canIssue).filter (· != m.cur)) with
    | some g => m.switchTo g
    | none => { m with inRow := 0 }

/-- The current group yields (R395): the group with the oldest stamp is current next, the yielding one with its new stamp
among them; the latches become invalid. -/
def yield (m : Member) : Member :=
  if !m.serial.isEmpty || m.scalar then m
  else
    let m := { (m.modGrp m.cur fun x => { x with stamp := m.nextStamp }) with nextStamp := m.nextStamp + 1, lat := [], inRow := 0 }
    match m.oldest (m.names.filter m.canIssue) with
    | some g => { m with cur := g }
    | none => m

/-- A member with every live lane asleep, parked or waiting, or whose current group waits for its word (R251). -/
def asleep (m : Member) : Bool := !(m.names.any m.canIssue) || m.holdsTurn

/-- The member's next PC as a halt or an eviction records it (R67, R195). -/
def savedPc (m : Member) : Addr :=
  if m.chain != 0 then m.chainPc
  else match m.ord with
    | some o => o.pc
    | none => m.pc

/-- Latches, chains and ORD pairs discarded and rewound (R67, R195). -/
def rewind (m : Member) : Member := { m.goto m.savedPc with lat := [], chain := 0, ord := none }

end Member
end Sys2Proof.Machine
end

