-- ==== Sys2Proof/Machine/Regions.lean ====
section
/-!
DEFINITION. Machine/Regions.lean: trapeze regions (R216 to R231): the region table of a die, edges and their cycles, aborts
and cascades, the accesses of a region, commit, the solo token, and the writes of every agent as regions see them (R227,
R229).
-/
namespace Sys2Proof.Machine

/-- The new value of an atomic (R210, R211 of R107's W: FADD rounds once in F32, F16 or BF16). -/
def atomF (op : AtomOp) (w : BitVec 2) (old b : Nat) : Nat :=
  let n := 8 * atomBytes op w
  let sgn := w.toNat ≤ 1
  let less (x y : Nat) : Bool := if sgn then sextN x n < sextN y n else x % 2 ^ n < y % 2 ^ n
  match op with
  | .add => (old + b) % 2 ^ n
  | .min => if less b old then b % 2 ^ n else old
  | .max => if less old b then b % 2 ^ n else old
  | .and => old &&& (b % 2 ^ n)
  | .or => old ||| (b % 2 ^ n)
  | .xor => old ^^^ (b % 2 ^ n)
  | .swap => b % 2 ^ n
  | .fadd =>
    let f := Fp.fmtOf (match w.toNat with
      | 0 => Ty.f32
      | 1 => Ty.bf16
      | _ => Ty.f16)
    Fp.add f Fp.rne (Fp.decode f old) (Fp.decode f (b % 2 ^ n))

/-- Whether a held write comes before a later access of some lanes, whatever its word (R194, R197). -/
def HeldWrite.orders (e : HeldWrite) (ls : Word) (ld st : Bool) (rel : Word) : Bool :=
  rel &&& e.lanes != 0 || (st && e.storesAfter &&& ls != 0) || (ld && e.loadsAfter &&& ls != 0)

namespace State

/-- Bytes written to device memory with the tags of their slots cleared and whole poisoned units cleaned (R135, R148). -/
def rawWrite (s : State) (pa : Nat) (bs : List Byte) : State :=
  ((s.setBytes pa bs).clearTags pa bs.length).clearPoison pa bs.length

/-! ### The region table -/

/-- The entry of a lane's region: open, or aborted and waiting for its group to issue. -/
def regionOf (s : State) (d uid lane : Nat) : Option (Nat × Region) :=
  (s.die d).regions.search fun e => e.2.uid == uid && e.2.lane == lane && e.2.st != .deferred


end State

/-- Whether an entry is an open region (R221). -/
def Region.isOpen (r : Region) : Bool := r.st == .run || r.st == .atTre

/-- Whether a region has overwritten whole, by one store, the poisoned 64-bit word of a byte (R148). -/
def Region.healed (r : Region) (b : Nat) : Bool := r.isOpen && r.heals.contains (b / 8)

/-- Whether an entry wrote any byte of a 4-byte word. -/
def Region.wrote (r : Region) (w : Nat) : Bool := FMap.keys r.writes |>.any fun b => b / 4 == w

/-- Whether an entry read a 4-byte word. -/
def Region.hasRead (r : Region) (w : Nat) : Bool := r.reads.any fun p => p.1 == w

/-- The 128-byte lines a region touches (R220). -/
def Region.lines (r : Region) : List Nat :=
  (List.map (fun p : Nat × Option Word => p.1 / 32) r.reads ++ (FMap.keys r.writes).map (· / 128)).eraseDups

/-- Region a is older than region b (R224); a smaller AGE, then cell, form, slot, lane. -/
def Region.olderThan (a b : Region) : Bool :=
  let ka := [a.age, a.cell, b2n a.scal, a.slot, a.lane]
  let kb := [b.age, b.cell, b2n b.scal, b.slot, b.lane]
  decide (ka < kb)

/-- The entries that reach an entry through WAITS and through the edges of held accesses, the entry itself included: its transitive
sources (R223, R224). -/
def sourcesOf (rs : FMap Region) : Nat → List Nat → List Nat
  | 0, seen => seen
  | f + 1, seen =>
    let more := (seen.flatMap fun n => ((FMap.find? rs n).map fun r => r.waits ++ r.hold).getD []).filter fun n => !seen.contains n
    if more.isEmpty then seen else sourcesOf rs f (seen ++ more.eraseDups)

/-- DEPTH of an entry (R223), as the longest chain of sources. -/
def depthOf (rs : FMap Region) : Nat → Nat → Nat
  | 0, _ => 0
  | f + 1, n =>
    match FMap.find? rs n with
    | none => 0
    | some r => r.waits.foldl (fun d x => max d (depthOf rs f x + 1)) 0

/-- The youngest of some entries (R224). -/
def youngest (rs : FMap Region) : List Nat → Option Nat
  | [] => none
  | n :: t =>
    match youngest rs t with
    | none => some n
    | some m =>
      match FMap.find? rs n, FMap.find? rs m with
      | some a, some b => if a.olderThan b then some m else some n
      | _, _ => some m

/-- The region status after an abort with a cause (R217, R225). -/
def rstatAbort (w : Word) (c : Cause) : Word :=
  let x := w.toNat
  let aborts := min 15 (bits x 29 26 + 1)
  BitVec.ofNat 32 (b2n (x.testBit 30) * 2 ^ 30 + aborts * 2 ^ 26 + bits x 23 16 * 2 ^ 16 + 2 * 2 ^ 9 + c.toNat)

/-- The region status after a commit (R226). -/
def rstatCommit (w : Word) : Word :=
  let x := w.toNat
  BitVec.ofNat 32 (b2n (x.testBit 30) * 2 ^ 30 + bits x 23 16 * 2 ^ 16 + 1 * 2 ^ 9)

/-- The status of a lane. -/
def Member.rstatOf (m : Member) (lane : Nat) : Word := FMap.get 0 m.rstat lane

namespace State

/-- The slot key of a member by its uid. -/
def slotOfUid (s : State) (uid : Nat) : Option Nat := (s.members.search fun e => e.2.uid == uid).map Prod.fst

/-- A member changed by its uid, resident or evicted. -/
def modUid (s : State) (uid : Nat) (f : Member → Member) : State :=
  let g (m : Member) : Member := if m.uid == uid then f m else m
  { s with members := FMap.mapVals g s.members, evicted := s.evicted.map g }

/-- A member by its uid, resident or evicted. -/
def byUid (s : State) (uid : Nat) : Option Member :=
  match s.members.search fun e => e.2.uid == uid with
  | some e => some e.2
  | none => s.evicted.find? fun m => m.uid == uid

/-- The solo token returned (R229): what it held may now be performed. -/
def endSolo (s : State) (d : Nat) : State := s.modDie d fun x => { x with soloHolder := none }

/-- A region's entry taken out of the order of every word, with its edges (R225). -/
def Die.dropEdges (x : Die) (n : Nat) : Die :=
  { x with wlog := x.wlog.filter fun p => p.2 != n,
           regions := x.regions.map fun e =>
             (e.1, { e.2 with waits := e.2.waits.filter (· != n), hold := e.2.hold.filter (· != n), fwd := e.2.fwd.filter (· != n) }) }

/-- One region aborted; the regions to which it forwarded are answered with it (R225). -/
def abortOne (s : State) (d n : Nat) (c : Cause) : State × List Nat :=
  match FMap.find? (s.die d).regions n with
  | none => (s, [])
  | some r =>
    if !r.isOpen then (s, [])
    else
      let fed := ((s.die d).regions.filter fun e => e.2.isOpen && e.2.fwd.contains n).map Prod.fst
      let s := s.modDie d fun x =>
        Die.dropEdges { x with regions := FMap.upd x.regions n fun r =>
          { r with st := .aborted, reads := [], writes := [], tags := [], heals := [], waits := [], hold := [], fwd := [] } } n
      let s := s.modUid r.uid fun m => { m with rstat := FMap.put 0 m.rstat r.lane (rstatAbort (m.rstatOf r.lane) c) }
      let s := if (s.die d).soloHolder == some n then s.endSolo d else s
      (s, fed)

/-- Regions aborted one after the other, with the cascades (R225). -/
def abortAll : Nat → State → Nat → List (Nat × Cause) → State
  | 0, s, _, _ => s
  | _ + 1, s, _, [] => s
  | f + 1, s, d, (n, c) :: t =>
    let (s, fed) := s.abortOne d n c
    abortAll f s d (fed.map (fun k => (k, Cause.regionCascade)) ++ t)

/-- A region aborted with a cause, and the cascade (R225). -/
def abortRegion (s : State) (d n : Nat) (c : Cause) : State := abortAll 1024 s d [(n, c)]

/-- The open region of a lane aborted with a cause, if it has one. -/
def abortLane (s : State) (cell uid lane : Nat) (c : Cause) : State :=
  match s.regionOf (dieOfCell cell) uid lane with
  | some (n, _) => s.abortRegion (dieOfCell cell) n c
  | none => s

/-- The open regions of the lanes of a mask aborted. -/
def abortLanes (s : State) (cell uid : Nat) (ls : Word) (c : Cause) : State :=
  (lanesOf ls).foldl (fun s l => s.abortLane cell uid l c) s

/-- Every open region of a member aborted (R231). -/
def abortMember (s : State) (cell uid : Nat) (c : Cause) : State :=
  let d := dieOfCell cell
  ((s.die d).regions.filter fun e => e.2.uid == uid).foldl (fun s e => s.abortRegion d e.1 c) s

/-- The lanes of a member with an open region (R217). -/
def regionLanes (s : State) (cell uid : Nat) : Word :=
  maskOf (((s.die (dieOfCell cell)).regions.filter fun e => e.2.uid == uid && e.2.isOpen).map fun e => e.2.lane)

/-! ### Writes outside regions (R227, R229) -/

/-- The words that n bytes from pa touch, as locations. -/
def wordsAt (s : State) (pa n : Nat) : List Nat :=
  (List.range ((pa + n - 1) / 4 + 1 - pa / 4)).map fun i => s.redirect ((pa / 4 + i) * 4) / 4

/-- The solo region whose read set holds a word that n bytes from pa touch: its die. -/
def soloHolds (s : State) (pa n : Nat) : Option Nat :=
  [0, 1, 2, 3].find? fun d =>
    match (s.die d).soloHolder with
    | none => false
    | some k =>
      match FMap.find? (s.die d).regions k with
      | none => false
      | some r => r.isOpen && r.reads.any fun p => (s.wordsAt pa n).contains (s.redirect (p.1 * 4) / 4)

/-- The open regions that read a word whose value a write has changed; `old` is the state before the write (R227). -/
def staleReaders (old new : State) (pa n : Nat) : List (Nat × Nat) :=
  [0, 1, 2, 3].flatMap fun d =>
    ((new.die d).regions.filter fun e =>
      e.2.isOpen && (new.die d).soloHolder != some e.1 &&
        e.2.reads.any fun p =>
          (new.wordsAt pa n).contains (new.redirect (p.1 * 4) / 4) && old.num (p.1 * 4) 4 != new.num (p.1 * 4) 4).map
      fun e => (d, e.1)

/-- Regions whose read set a write changed aborted at once (R227). -/
def validateReaders (old new : State) (pa n : Nat) : State :=
  (staleReaders old new pa n).foldl (fun s p => s.abortRegion p.1 p.2 Cause.regionValidate) new

/-- Bytes written outside any region, performed: tags, poison, and the readers it makes stale aborted (R135, R148, R227). -/
def put (s : State) (pa : Nat) (bs : List Byte) (tag : Bool := false) (poison : List Nat := []) : State :=
  let t := s.rawWrite pa bs
  let t := if tag then t.setTag pa true else t
  let t := poison.foldl (fun t o => t.setPoison (pa + o) 1) t
  validateReaders s t pa bs.length

/-! ### Writes that wait at their homes (R68, R193 to R198, R229) -/

/-- Whether two ranges of bytes touch a common 4-byte word. -/
def sameWords (s : State) (pa n pb m : Nat) : Bool := (s.wordsAt pa n).any fun w => (s.wordsAt pb m).contains w

/-- Whether an access of an agent to n bytes at pa, which belongs to the lanes `ls` of a thread's member (R191), comes after one of some
held writes of its own: the same word (R193), a later store or load that an earlier access of the agent orders (R194, R197), or a
release (R197); the host's writes all keep their order (R206). -/
def follows (s : State) (hs : List HeldWrite) (uid : Nat) (ls : Word) (job : Option (Nat × Nat)) (pa n : Nat) (ld st : Bool) (rel : Word) :
    Bool :=
  hs.any fun e => e.uid == uid && e.job == job &&
    (e.orders ls ld st rel || (e.lanes &&& ls != 0 && s.sameWords pa n e.pa e.n) || (uid == 0 && job.isNone && st))

/-- Whether a block that a member lends covers a register window address (R68). -/
def windowLent (s : State) (pa : Nat) : Bool :=
  isRegw pa && (match s.member? (waveKey ((pa - regwBase) / 2 ^ 16) (bits (pa - regwBase) 15 12)) with
    | some m => m.lent.any fun b => b.1
    | none => false)

/-- Whether a write of an agent waits at its home (R68, R229). -/
def mustHold (s : State) (hs : List HeldWrite) (uid : Nat) (ls : Word) (job : Option (Nat × Nat)) (pa n : Nat) (ld : Bool) (rel : Word) :
    Bool :=
  (s.soloHolds pa n).isSome || s.windowLent pa || s.follows hs uid ls job pa n ld true rel

/-- A write put among the held ones. -/
def hold (s : State) (h : HeldWrite) : State := { s with heldW := s.heldW ++ [h] }

/-- Whether some lanes of a member have a held write, and whether a job has one. -/
def threadHeld (s : State) (uid : Nat) (ls : Word) : Bool := s.heldW.any fun e => e.uid == uid && e.job.isNone && e.lanes &&& ls != 0
def jobHeld (s : State) (cl key : Nat) : Bool := s.heldW.any fun e => e.job == some (cl, key)

/-- Whether the release of a record has passed a held write of its sender: records on their way wait for it (R25, log 69). -/
def told (s : State) : Bool := s.heldW.any HeldWrite.told

/-- Whether some lanes of a member have a held write, or an effect for their team that waits for one (R207, R229). -/
def lateFor (s : State) (uid : Nat) (ls : Word) : Bool :=
  s.threadHeld uid ls || s.late.any fun e => e.uid == uid && e.lanes &&& ls != 0

/-- Whether a held write touches a word of n bytes at pa. -/
def heldAt (s : State) (pa n : Nat) : Bool := s.heldW.any fun e => s.sameWords pa n e.pa e.n

/-- The atomic of R210 outside any region, on device memory: the old value, and the store. A merge with poison keeps it
(R149). -/
def atomic (s : State) (pa : Nat) (op : AtomOp) (w : BitVec 2) (b : Nat) : State × Nat :=
  let n := atomBytes op w
  let old := s.num pa n
  let p := s.poisoned pa n
  let t := s.rawWrite pa (toBytes n (atomF op w old b))
  let t := if p then t.setPoison pa n else t
  (validateReaders s t pa n, old)

/-- The compare and swap of R210 outside any region: no store when the comparison fails. -/
def compareSwap (s : State) (pa n expected new : Nat) : State × Nat :=
  let old := s.num pa n
  if old = expected % 2 ^ (8 * n) then
    let t := s.rawWrite pa (toBytes n new)
    (validateReaders s t pa n, old)
  else (s, old)

/-! ### The accesses of a region (R219 to R224) -/

/-- What a region's access came to. -/
inductive RegAcc where
  | done (old : Nat)
  | wait (source : Nat)
  | aborted
  deriving DecidableEq, Repr

/-- The newest write of a byte by an open region, in home order (R222). -/
def lastWriter (x : Die) (b : Nat) : Option Nat := (x.wlog.find? fun p => p.1 == b).map Prod.snd

/-- Whether a region has written a byte itself. -/
def ownByte (x : Die) (y b : Nat) : Bool := ((FMap.find? x.regions y).map fun r => (FMap.find? r.writes b).isSome).getD false

/-- A byte as region y sees it (R222): its own last write, or else the last write of an open region, or else memory. -/
def regByte (s : State) (d y b : Nat) : Byte :=
  let from' (n : Nat) : Byte := ((FMap.find? (s.die d).regions n).map fun r => FMap.get (s.byte b) r.writes b).getD (s.byte b)
  if ownByte (s.die d) y b then from' y
  else match lastWriter (s.die d) b with
    | some n => from' n
    | none => s.byte b

/-- The tag of a slot as region y sees it: that of its own last write to the slot, or else of the last write of an open region to
any of its bytes (R135, R222). -/
def regTag (s : State) (d y pa : Nat) : Bool :=
  let x := s.die d
  let has (n : Nat) : Bool := ((FMap.find? x.regions n).map fun r => r.tags.contains (pa / 16)).getD false
  if (List.range 16).any fun i => ownByte x y (pa / 16 * 16 + i) then has y
  else match x.wlog.find? fun p => p.1 / 16 == pa / 16 with
    | some p => has p.2
    | none => s.tagAt pa

/-- Whether an access of a region to n bytes meets poison (R148, R149, R222): a byte of a poisoned sector of memory, which no store of a
region covers, or of a poisoned 64-bit word that neither the region itself nor an open region whose write it would read has overwritten
whole. -/
def regPoisoned (s : State) (d pa n : Nat) : Bool :=
  (List.range n).any fun i =>
    s.sectorPoisoned (pa + i) || (s.bytePoisoned (pa + i) && !(s.die d).regions.any fun e => e.2.healed (pa + i))

/-- The regions from which an access of region y to n bytes needs an edge (R222). A read of bytes that y has written itself needs
none. -/
def edgesFor (x : Die) (y pa n : Nat) (rd wr : Bool) : List Nat :=
  let words := (List.range ((pa + n - 1) / 4 + 1 - pa / 4)).map fun i => pa / 4 + i
  let own (w : Nat) : Bool := (List.range 4).all fun i => w * 4 + i < pa || pa + n ≤ w * 4 + i || ownByte x y (w * 4 + i)
  (x.regions.filter fun e =>
    e.1 != y && e.2.isOpen &&
      words.any fun w => (e.2.wrote w && (wr || (rd && !own w))) || (wr && e.2.hasRead w)).map Prod.fst

/-- Edges recorded one after the other with the checks of R224 and R223; an abort of the accessing region ends them. -/
def addEdges : Nat → State → Nat → Nat → List Nat → State × Option RegAcc
  | 0, s, _, _, _ => (s, none)
  | _ + 1, s, _, _, [] => (s, none)
  | f + 1, s, d, y, n :: t =>
    let rs := (s.die d).regions
    match FMap.find? rs n, FMap.find? rs y with
    | some r, some ry =>
      if !r.isOpen then addEdges f s d y t
      else if !ry.isOpen then (s, some .aborted)
      else if ry.waits.contains n then addEdges f s d y t
      else
        let above := sourcesOf rs 256 [n]
        if above.contains y then
          -- the entries on a path from y to n
          let onPath := above.filter fun z => (sourcesOf rs 256 [z]).contains y
          match youngest rs onPath with
          | some z =>
            let s := s.abortRegion d z Cause.regionCycle
            if z == y then (s, some .aborted) else addEdges f s d y (n :: t)
          | none => addEdges f s d y t
        else
          let far := 4 < depthOf rs 256 n + 1
          let rs' := FMap.upd rs y fun r => if far then { r with hold := r.hold ++ [n] } else { r with waits := r.waits ++ [n] }
          let s' := s.modDie d fun x => { x with regions := rs' }
          if far then (s', some (.wait n)) else addEdges f s' d y t
    | _, _ => addEdges f s d y t

/-- The limits of R220 for an access of a region to a line. -/
def overCapacity (x : Die) (r : Region) (line : Nat) : Bool :=
  let own := (line :: r.lines).eraseDups
  let all := ((x.regions.filter fun e => e.2.isOpen && e.2.cell == r.cell).flatMap fun e => e.2.lines)
  32 < own.length || 256 < (line :: all).eraseDups.length

/-- The newest write of a 4-byte word by an open region other than y, in home order (R222). -/
def wordWriter (x : Die) (y w : Nat) : Option Nat := (x.wlog.find? fun p => p.1 / 4 == w && p.2 != y).map Prod.snd

/-- The access of a region performed at the home: reads recorded, writes logged (R222). The value is taken byte by byte; a read of bytes that
the region has not written itself marks FWD for their writers and for the last writer of their word (log 84). A word read with any
forwarding is recorded without a value, since R226 checks the others alone. -/
def regPerform (s : State) (d y pa n : Nat) (rd : Bool) (wr : Nat → Option Nat) (tag : Bool) : State × Nat :=
  let words := (List.range ((pa + n - 1) / 4 + 1 - pa / 4)).map fun i => pa / 4 + i
  let x := s.die d
  let old := ofBytes ((List.range n).map fun i => s.regByte d y (pa + i))
  -- the bytes of a word that the access reads from elsewhere than its own writes
  let outer (w : Nat) : List Nat := ((List.range 4).map fun i => w * 4 + i).filter fun b => pa ≤ b && b < pa + n && !ownByte x y b
  let src (w : Nat) : List Nat :=
    if (outer w).isEmpty then [] else ((outer w).filterMap (lastWriter x) ++ (wordWriter x y w).toList).eraseDups
  let r := (FMap.find? x.regions y)
  match r with
  | none => (s, old)
  | some r =>
    let r :=
      if rd then
        words.foldl (fun r w =>
          let fw := src w
          let r := { r with fwd := r.fwd ++ fw.filter fun k => !r.fwd.contains k }
          let v : Option Word := if fw.isEmpty && !(outer w).isEmpty then some (BitVec.ofNat 32 (s.num (w * 4) 4)) else none
          if r.reads.any fun p => p.1 == w && (p.2.isSome || v.isNone) then r
          else { r with reads := (r.reads.filter fun p => p.1 != w) ++ [(w, v)] }) r
      else r
    match wr old with
    | none => ({ s with dies := FMap.put Die.init s.dies d { x with regions := FMap.ins x.regions y r } }, old)
    | some v =>
      let bs := toBytes n v
      let slots := r.tags.filter fun k => !(pa / 16 ≤ k && k ≤ (pa + n - 1) / 16)
      let r := { r with writes := (List.range n).foldl (fun m i => FMap.ins m (pa + i) (bs.getD i 0)) r.writes,
                        tags := if tag then pa / 16 :: slots else slots,
                        heals := if rd then r.heals else
                          r.heals ++ (List.range ((pa + n) / 8 - (pa + 7) / 8)).map fun i => (pa + 7) / 8 + i }
      let wl := ((List.range n).map fun i => (pa + i, y)) ++
        x.wlog.filter fun p => !(p.2 == y && pa ≤ p.1 && p.1 < pa + n)
      ({ s with dies := FMap.put Die.init s.dies d { x with regions := FMap.ins x.regions y r, wlog := wl } }, old)

/-- One access of a lane's region to HBM on its die: capacity, edges, then the access. `wr` gives the value stored for the old
one, none for a load. -/
def regAccess (s : State) (d y pa n : Nat) (rd isWr : Bool) (wr : Nat → Option Nat) (tag : Bool) : State × RegAcc :=
  match FMap.find? (s.die d).regions y with
  | none => (s, .aborted)
  | some r =>
    if overCapacity (s.die d) r (pa / 128) then (s.abortRegion d y Cause.regionCapacity, .aborted)
    else
      let (s, e) := addEdges 1024 s d y (edgesFor (s.die d) y pa n rd isWr)
      match e with
      | some a => (s, a)
      | none =>
        match FMap.find? (s.die d).regions y with
        | some r' =>
          if r'.isOpen then
            let (s, old) := regPerform s d y pa n rd wr tag
            (s, .done old)
          else (s, .aborted)
        | none => (s, .aborted)

/-! ### Commit (R226) -/

/-- Whether every word read without forwarding still holds its value. -/
def readsHold (s : State) (r : Region) : Bool :=
  r.reads.all fun p =>
    match p.2 with
    | some v => s.num (p.1 * 4) 4 == v.toNat
    | none => true

/-- The region of a die that can commit now: AT_TRE without sources, and with no held write of its lane left (R228), the oldest
first (R226). -/
def committable (s : State) (d : Nat) : Option Nat :=
  let es := (s.die d).regions.filter fun e => e.2.st == .atTre && e.2.waits.isEmpty &&
    !(s.heldW.any fun h => h.uid == e.2.uid && h.job.isNone && h.lanes.getLsbD e.2.lane)
  es.foldl (fun b e =>
    match b with
    | none => some e.1
    | some k =>
      match FMap.find? (s.die d).regions k with
      | some r => if e.2.olderThan r then some e.1 else b
      | none => some e.1) none

end State
end Sys2Proof.Machine
end

