-- ==== Sys2Proof/Machine/Coherence.lean ====
section
/-!
DEFINITION. Machine/Coherence.lean: what the homes and the L1 caches record of a line (R233 to R248). Device memory holds the
newest value of every byte; a DIR or UNC load returns it, and a LEASE copy holds the bytes it took (R240). An access of a thread
runs its whole transaction in one step, and the message rows run the transactions of prefetches, write-backs and the host.
-/
namespace Sys2Proof.Machine

/-- The slice of a die that is the home of an HBM address (R233). -/
def homeSlice (pa : Nat) : Nat :=
  let o := pa % hbmDie
  bits o 10 7 ^^^ bits o 14 11 ^^^ bits o 18 15

/-- The stack of its die that holds an HBM address, and the address inside the stack (R233). -/
def stackOf (pa : Nat) : Nat := pa % hbmDie / 4096 % 3
def stackAddr (pa : Nat) : Nat := pa % hbmDie / 12288 * 4096 + pa % hbmDie % 4096

/-- Lines that a cell's L1 and a slice hold (R9; 4 MiB of L2 in each slice). -/
def l1Lines : Nat := 2560
def sliceLines : Nat := 32768

/-- The words of one line that n bytes from pa touch. -/
def spanOf (pa n : Nat) : Word :=
  maskOf ((List.range 32).filter fun i => pa % 128 / 4 ≤ i && i ≤ (min (pa % 128 + n) 128 - 1) / 4)

/-- The words of the sectors that n bytes from pa touch (R235). -/
def sectorSpan (pa n : Nat) : Word :=
  maskOf ((List.range 32).filter fun i => pa % 128 / 32 ≤ i / 8 && i / 8 ≤ (min (pa % 128 + n) 128 - 1) / 32)

/-- The later of two stamps. -/
def smax (a b : BitVec 16) : BitVec 16 := if ltS a b then b else a

/-- The halves of a line that a span meets, as HOWN bits (R247). -/
def halvesOf (span : Word) : BitVec 2 :=
  BitVec.ofBool (span.extractLsb' 16 16 != 0) ++ BitVec.ofBool (span.extractLsb' 0 16 != 0)

/-- The sharer bit of a cell's cluster (R234). -/
def sharerBit (cell : Nat) : DWord := BitVec.ofNat 64 (2 ^ clusterOfCell cell)

namespace State

def line (s : State) (n : Nat) : Line := FMap.get Line.init s.coh.lines n
def setLine (s : State) (n : Nat) (l : Line) : State :=
  { s with coh := { s.coh with lines := FMap.put Line.init s.coh.lines n l } }
def modLine (s : State) (n : Nat) (f : Line → Line) : State := s.setLine n (f (s.line n))
def setL1 (s : State) (cell n : Nat) (l : L1Line) : State :=
  { s with coh := { s.coh with l1 := FMap.put L1Line.init s.coh.l1 (l1Key cell n) l } }
def modL1 (s : State) (cell n : Nat) (f : L1Line → L1Line) : State := s.setL1 cell n (f (s.l1 cell n))

/-! ### Lease clocks (R240, R241) -/

/-- A stamp met on a die, which TMAX follows. -/
def stamp (s : State) (d : Nat) (t : BitVec 16) : State := s.modDie d fun x => { x with tmax := smax x.tmax t }

/-- The clock of a cell moved; copies more than 16,383 ticks behind it are dropped (R241). -/
def setPts (s : State) (cell : Nat) (p : BitVec 16) : State :=
  let s := s.stamp (dieOfCell cell) p
  let s := s.modCell cell fun c => { c with pts := p }
  let l1 := s.coh.l1.filterMap fun e =>
      if e.1 / 2 ^ 46 == cell then
        match e.2.lease with
        | some c =>
          if ltS c.exp p && 16383 < (p - c.exp).toNat then
            let e' := { e.2 with lease := none }
            if e' == L1Line.init then none else some (e.1, e')
          else some e
        | none => some e
      else some e
  { s with coh := { s.coh with l1 := l1 } }

/-- The clock moved forward to a stamp. -/
def raisePts (s : State) (cell : Nat) (t : BitVec 16) : State :=
  if ltS (s.pts cell) t then s.setPts cell t else s

/-- MTS of a slice (R240). -/
def mts (s : State) (d n : Nat) : BitVec 16 := FMap.get 0xFFF0 (s.die d).mts n

/-- A LEASE line leaves its slice (R240); what waits for the line stays with its home (R239). -/
def leaveLease (s : State) (n : Nat) : State :=
  let pa := n * 128
  let d := dieOfPa pa
  let t := smax (s.mts d (homeSlice pa)) (s.line n).rts
  (s.modDie d fun x => { x with mts := FMap.put 0xFFF0 x.mts (homeSlice pa) t }).modLine n fun l => { Line.init with tx := l.tx, queue := l.queue }

/-- Whether every clock of a die has passed a stamp (R246). -/
def allPast (s : State) (d : Nat) (t : BitVec 16) : Bool :=
  (List.range 128).all fun i => ltS t (s.pts (d * 128 + i))

/-! ### DIR (R235 to R237, R247) -/

/-- Words recalled from their owners other than one cell, kept clean there or invalidated (SNS, SNI). A cluster that keeps
clean words has its SHARERS bit set, so that R236 holds (log 20). -/
def recallLine (s : State) (n : Nat) (span : Word) (except : Option Nat) (inv : Bool) : State :=
  let l := s.line n
  let hit := l.owners.filter fun o => some o.1 != except && o.2 &&& span != 0
  let s := hit.foldl (fun s o =>
    let c := o.2 &&& span
    s.modL1 o.1 n fun x => { x with dirty := x.dirty &&& ~~~c, valid := if inv then x.valid &&& ~~~c else x.valid }) s
  s.modLine n fun l =>
    { l with owners := (l.owners.map fun o => if some o.1 != except then (o.1, o.2 &&& ~~~span) else o).filter (·.2 != 0),
             sharers := if inv then l.sharers else hit.foldl (fun b o => b ||| sharerBit o.1) l.sharers }

/-- Clean words invalidated in every cell of the sharing clusters but one cell and the owners (INV). -/
def invalidate (s : State) (n : Nat) (span : Word) (except : Option Nat) : State :=
  let l := s.line n
  let l1 := s.coh.l1.filterMap fun e =>
      let c := e.1 / 2 ^ 46
      if e.1 % 2 ^ 46 == n && some c != except && l.sharers.getLsbD (clusterOfCell c) then
        let own := ((l.owners.find? fun o => o.1 == c).map Prod.snd).getD 0
        let e' := { e.2 with valid := e.2.valid &&& (~~~span ||| own) }
        if e' == L1Line.init then none else some (e.1, e')
      else some e
  { s with coh := { s.coh with l1 := l1 } }

/-- Host halves that a span meets recalled (R247). -/
def recallHost (s : State) (n : Nat) (span : Word) : State :=
  s.modLine n fun l => { l with hown := l.hown &&& ~~~(halvesOf span) }

/-- A DIR line with no owner, sharer or host half returns to no mode (R246). -/
def settle (s : State) (n : Nat) : State :=
  s.modLine n fun l =>
    if l.mode == .dir && l.owners.isEmpty && l.sharers == 0 && l.hown == 0 && l.tx.isNone && l.queue.isEmpty then Line.init else l

/-- Whether a transaction, or a change of protocol, holds a line BUSY (R234, R239, R246). -/
def busy (s : State) (n : Nat) : Bool := (s.line n).tx.isSome || (s.line n).conv.isSome

/-- Every copy of a DIR line recalled, host halves among them (R233, R246). -/
def recallAll (s : State) (n : Nat) : State :=
  ((s.recallLine n 0xFFFFFFFF none true).invalidate n 0xFFFFFFFF none).modLine n fun l => { l with sharers := 0, hown := 0 }

/-- A line leaves its slice (R233, R240). -/
def leaveSlice (s : State) (n : Nat) : State :=
  match (s.line n).mode with
  | .dir => (s.recallAll n).setLine n Line.init
  | .lease => s.leaveLease n
  | _ => s.setLine n Line.init

/-- Room for the record of a line in its slice: when the slice is full, its lowest line that is not BUSY leaves (log 65). -/
def roomSlice (s : State) (n : Nat) : State :=
  let home (k : Nat) : Nat × Nat := (dieOfPa (k * 128), homeSlice (k * 128))
  let held := s.coh.lines.filter fun e => home e.1 == home n && e.1 != n
  if held.length < sliceLines then s
  else match held.find? fun e => !s.busy e.1 && e.2.queue.isEmpty with
    | some e => s.leaveSlice e.1
    | none => s

/-- The line's protocol set by the access that meets it (R246). -/
def convert (s : State) (n : Nat) (m : LineMode) : State :=
  let l := s.line n
  if l.mode == m then s
  else
    let s := match l.mode with
      | .dir => s.recallAll n
      | .lease => s.leaveLease n
      | .empty => s.roomSlice n
      | .unc => s
    let t := s.mts (dieOfPa (n * 128)) (homeSlice (n * 128))
    s.modLine n fun l =>
      { l with mode := m, wts := if m == .lease then t else 0xFFF0, rts := if m == .lease then t else 0xFFF0, conv := none }

/-- The SHARERS bit of a cluster cleared once no cell of it holds a word of the line (R236, EVN). -/
def noteGone (s : State) (cluster n : Nat) : State :=
  if (List.range 8).any fun i => (s.l1 (cluster * 8 + i) n).valid != 0 then s
  else (s.modLine n fun l => { l with sharers := l.sharers &&& ~~~(BitVec.ofNat 64 (2 ^ cluster)) }).settle n

/-- Dirty words written back and, for .INV, the held words dropped (R322). -/
def writeBack (s : State) (cell n : Nat) (span : Word) (inv : Bool) : State :=
  let s := s.modLine n fun l =>
    { l with owners := (l.owners.map fun o => if o.1 == cell then (o.1, o.2 &&& ~~~span) else o).filter (·.2 != 0),
             sharers := if inv then l.sharers else l.sharers ||| sharerBit cell }
  s.modL1 cell n fun x =>
    { x with dirty := x.dirty &&& ~~~span, valid := if inv then x.valid &&& ~~~span else x.valid,
             lease := if inv then none else x.lease }

/-- A line leaves a cell's L1: its dirty words are written back and its copy is dropped. -/
def evictL1 (s : State) (cell n : Nat) : State :=
  ((s.writeBack cell n 0xFFFFFFFF true).setL1 cell n L1Line.init).noteGone (clusterOfCell cell) n

/-- Room in a cell's L1 for one more line: when 2,560 are held, the one that came first leaves, and one that .STR marked before it
(R9, R381, log 65). -/
def roomL1 (s : State) (cell n : Nat) : State :=
  let held := s.coh.l1.filter fun e => e.1 / 2 ^ 46 == cell && e.1 % 2 ^ 46 != n
  if held.length < l1Lines then s
  else match held.foldl (fun (b : Option (Nat × L1Line)) e =>
      match b with
      | none => some e
      | some x => if e.2.place < x.2.place then some e else b) none with
    | some e => s.evictL1 cell (e.1 % 2 ^ 46)
    | none => s

/-- What a cell's L1 holds of a line changed by an access that places it: HINT 1 is .STR (R350, R381). -/
def fillL1 (s : State) (cell n hint : Nat) (f : L1Line → L1Line) : State :=
  let s := s.roomL1 cell n
  s.modL1 cell n fun x => f { x with place := if hint == 1 then 0 else if x == L1Line.init then s.clk + 1 else x.place }

/-- A read of a span by a cell at its home: owners keep the words clean, and the cell's cluster is a sharer (R237). -/
def dirFetch (s : State) (cell n : Nat) (span : Word) : State :=
  (((s.convert n .dir).recallHost n span).recallLine n span (some cell) false).modLine n fun l =>
    { l with sharers := l.sharers ||| sharerBit cell }

/-- A read of a span by a cell served, and the words kept (R237). -/
def dirRead (s : State) (cell n : Nat) (span : Word) (hint : Nat := 0) : State :=
  (s.dirFetch cell n span).fillL1 cell n hint fun x => { x with valid := x.valid ||| span }

/-- Ownership of a span entered for a cell; where it needs a fifth entry, the whole mask of the oldest is recalled first (R236). -/
def enterOwner (s : State) (n cell : Nat) (span : Word) : State :=
  let l := s.line n
  let s :=
    if l.owners.any (·.1 == cell) || l.owners.length < 4 then s
    else match l.owners with
      | o :: _ => s.recallLine n o.2 (some cell) true
      | [] => s
  s.modLine n fun l =>
    if l.owners.any (·.1 == cell) then
      { l with owners := l.owners.map fun o => if o.1 == cell then (o.1, o.2 ||| span) else o }
    else { l with owners := l.owners ++ [(cell, span)] }

/-- Ownership of a span granted to a cell (R236, R237). -/
def dirOwn (s : State) (cell n : Nat) (span : Word) (hint : Nat := 0) : State :=
  let s := ((s.convert n .dir).recallHost n span).recallLine n span (some cell) true
  let s := (s.invalidate n span (some cell)).enterOwner n cell span
  s.fillL1 cell n hint fun x => { x with valid := x.valid ||| span, dirty := x.dirty ||| span }

/-- Words taken back to the home for an access that the home performs itself (R237: an atomic; a read or write of an engine or
the host). -/
def dirHome (s : State) (n : Nat) (span : Word) (write : Bool) : State :=
  if (s.line n).mode == .dir then
    let s := (s.recallHost n span).recallLine n span none write
    if write then s.invalidate n span none else s
  else s

/-! ### LEASE (R240, R245) -/

/-- The 128 bytes of a line as the home holds them. -/
def lineBytes (s : State) (n : Nat) : List Byte := s.bytes (n * 128) 128

/-- The tags of the eight capability slots of a line (R135). -/
def lineTags (s : State) (n : Nat) : BitVec 8 :=
  BitVec.ofNat 8 ((List.range 8).foldl (fun x i => x + b2n (s.tagAt (n * 128 + 16 * i)) * 2 ^ i) 0)

/-- The poisoned 64-bit words of a line (R148). -/
def linePoison (s : State) (n : Nat) : BitVec 16 :=
  BitVec.ofNat 16 ((List.range 16).foldl (fun x i => x + b2n (s.bytePoisoned (n * 128 + 8 * i)) * 2 ^ i) 0)

/-- The LEASE copies of a cell, but for those of some lines, dropped by an acquire of one of its threads: a later load fetches the line, and
so returns no value older than one that is ob-before it (R197 to R204, log 66). A reply on its way to the cell still raises its clock and
leaves no copy. -/
def acquire (s : State) (cell : Nat) (keep : List Nat := []) : State :=
  let l1 := s.coh.l1.filterMap fun e =>
    if e.1 / 2 ^ 46 == cell && e.2.lease.isSome && !keep.contains (e.1 % 2 ^ 46) then
      (if e.2.valid == 0 && e.2.dirty == 0 then none else some (e.1, { e.2 with lease := none }))
    else some e
  let stale (m : Msg) : Msg := if m.kind == .data && m.cell == cell then { m with op := some (m.op.getD .load) } else m
  { s with coh := { s.coh with l1 := l1, net := s.coh.net.map stale } }

/-- LRD served (R240): stamps moved, the clock raised, and a copy kept unless the hint is .NA. -/
def leaseFetch (s : State) (cell n len hint : Nat) : State :=
  let s := s.convert n .lease
  let l := s.line n
  let p2 := smax (s.pts cell) l.wts
  let e := p2 + BitVec.ofNat 16 len
  let d := dieOfPa (n * 128)
  let s := (s.modLine n fun l => { l with rts := smax l.rts e }).stamp d e
  let s := s.raisePts cell p2
  if hint == 2 then s else s.fillL1 cell n hint fun x => { x with lease := some ⟨l.wts, e, s.lineBytes n, s.lineTags n, s.linePoison n⟩ }

/-- The stamps of a write or an atomic of a cell at the home (R240); the copy is kept by a store, but not under .NA. -/
def leaseWrite (s : State) (cell n hint : Nat) : State :=
  let s := s.convert n .lease
  let t := smax (s.pts cell) ((s.line n).rts + 1)
  let s := (s.modLine n fun l => { l with wts := t, rts := t }).stamp (dieOfPa (n * 128)) t
  let s := s.raisePts cell t
  if hint == 2 then s.modL1 cell n fun x => { x with lease := none }
  else s.fillL1 cell n hint fun x => { x with lease := some ⟨t, t, s.lineBytes n, s.lineTags n, s.linePoison n⟩ }

/-- The stamps of an access without a clock (R245). -/
def leaseBare (s : State) (n : Nat) (write : Bool) : State :=
  let s := s.convert n .lease
  if write then
    let t := (s.line n).rts + 1
    (s.modLine n fun l => { l with wts := t, rts := t }).stamp (dieOfPa (n * 128)) t
  else s

/-- The acquire rule of R243: the clock raised to the stamp of the value read. -/
def leaseAcquire (s : State) (cell n : Nat) (hit : Option LeaseCopy) : State :=
  s.raisePts cell ((hit.map LeaseCopy.wts).getD (s.line n).wts)

/-! ### Accesses of a thread to an HBM line -/

/-- The protocol that a page's COH field names (R144). -/
def cohMode (coh : Nat) : LineMode :=
  match coh with
  | 0 => .dir
  | 1 => .lease
  | _ => .unc

/-- Whether an access must wait before the line's protocol can serve it: a line that is BUSY, or a LEASE line that another
protocol names before every clock has passed its stamp (R239, R246). -/
def lineWaits (s : State) (pa : Nat) (coh : Option LineMode) : Bool :=
  let l := s.line (pa / 128)
  isHbm pa && (FMap.find? s.mapped (pa / 128)).isNone &&
    (s.busy (pa / 128) || (l.mode == .lease && (coh.map (· != .lease)).getD false && !s.allPast (dieOfPa pa) l.rts))

/-- The home of a LEASE line that an access of another protocol has reached: BUSY from here on (R246). -/
def markConv (s : State) (n : Nat) (m : Option LineMode) : State :=
  match m with
  | none => s
  | some m =>
    let l := s.line n
    if l.mode == .lease && m != .lease && !s.busy n && (FMap.find? s.mapped n).isNone then s.modLine n fun l => { l with conv := some m } else s

/-- Whether a cell's L1 serves n bytes of a page at an HBM address without its home: words that it holds for a load, or owns for a store
(R236, R237), or a LEASE copy for a load (R240). -/
def l1Serves (s : State) (cell : Nat) (lf : Leaf) (n : Nat) (op : AccOp) : Bool :=
  let x := s.l1 cell (lf.pa / 128)
  let span := spanOf lf.pa n
  match op with
  | .load => if lf.coh == 0 then x.valid &&& span == span else (s.copyFor cell (.dev lf.pa (some lf))).isSome
  | .store .. => lf.coh == 0 && x.dirty &&& span == span
  | _ => false

/-- An access that meets a line that makes it wait noted: the step that made it is taken back and tried again (R239, R246). -/
def noteLine (s : State) (pa : Nat) (coh : Option LineMode) : State :=
  if s.lineWaits pa coh then { s with lineQ := s.lineQ ++ [(pa / 128, coh)] } else s

/-- The lines of a die whose change of protocol every clock now allows (R246). -/
def finishConvs (s : State) (d : Nat) : State :=
  s.coh.lines.foldl (fun s e =>
    match e.2.conv with
    | some m => if dieOfPa (e.1 * 128) == d && s.allPast d e.2.rts then (s.convert e.1 m).settle e.1 else s
    | none => s) s

/-- A load of n bytes by a cell: its transaction, its value, and the tag of its slot (R135, R237, R240, R244, R245). A mapped
line's home forwards the access (R143). HINT 2 is .NA, and `acq` is set under an acquire. -/
def loadHbm (s : State) (cell : Nat) (lf : Leaf) (n hint : Nat) (acq : Bool) : State × Nat × Bool :=
  let pa := lf.pa
  let k := pa / 128
  if !isHbm pa || (FMap.find? s.mapped k).isSome then (s, s.num pa n, s.tagAt pa)
  else
    match lf.coh with
    | 0 =>
      let span := sectorSpan pa n
      let miss := span &&& ~~~(s.l1 cell k).valid
      if (s.l1 cell k).valid &&& spanOf pa n == spanOf pa n then (s, s.num pa n, s.tagAt pa)
      else if hint == 2 then (s.dirFetch cell k miss, s.num pa n, s.tagAt pa)
      else (s.dirRead cell k miss hint, s.num pa n, s.tagAt pa)
    | 1 =>
      if dieOfCell cell != dieOfPa pa then (s.leaseBare k false, s.num pa n, s.tagAt pa)
      else
        match s.leaseHit cell k with
        | some c =>
          let s := if acq then s.leaseAcquire cell k (some c) else s
          (s, ofBytes ((c.data.drop (pa % 128)).take n), c.tags.getLsbD (pa % 128 / 16))
        | none =>
          let s := s.leaseFetch cell k lf.lease hint
          let s := if acq then s.leaseAcquire cell k none else s
          (s, s.num pa n, s.tagAt pa)
    | _ => (s.convert k .unc, s.num pa n, s.tagAt pa)

/-- The transaction of a store, after its bytes are in place. HINT 2 is .NA. -/
def storeHbm (s : State) (cell : Nat) (lf : Leaf) (n hint : Nat) : State :=
  let pa := lf.pa
  let k := pa / 128
  if !isHbm pa || (FMap.find? s.mapped k).isSome then s
  else
    match lf.coh with
    | 0 =>
      let s := s.dirOwn cell k (spanOf pa n) hint
      if hint == 2 then (s.writeBack cell k (spanOf pa n) true).noteGone (clusterOfCell cell) k else s
    | 1 => if dieOfCell cell != dieOfPa pa then s.leaseBare k true else s.leaseWrite cell k hint
    | _ => s.convert k .unc

/-- The transaction of an atomic, a CAS that fails among them (R211, R237, R240, R244, R245). -/
def atomHbm (s : State) (cell : Nat) (lf : Leaf) (n : Nat) : State :=
  let pa := lf.pa
  let k := pa / 128
  if !isHbm pa || (FMap.find? s.mapped k).isSome then s
  else
    match lf.coh with
    | 0 => (s.convert k .dir).dirHome k (spanOf pa n) true |>.settle k
    | 1 =>
      if dieOfCell cell != dieOfPa pa then s.leaseBare k true
      else s.leaseWrite cell k 2
    | _ => s.convert k .unc

/-- What the homes do for n bytes that an engine or the host reads or writes at pa, line by line (R237, R244 to R247). `coh` is
the protocol of an engine's page; the host names none. An access without a clock takes no lease (R245), and an engine job has
none (log 67). A line that makes the access wait is noted. -/
def touchHome (s : State) (pa n : Nat) (write : Bool) (coh : Option LineMode := none) : State :=
  if !isHbm pa || n == 0 then s
  else
    (List.range ((pa + n - 1) / 128 + 1 - pa / 128)).foldl (fun s i =>
      let k := pa / 128 + i
      let a := max pa (k * 128)
      let m := min (pa + n) (k * 128 + 128) - a
      if (FMap.find? s.mapped k).isSome then s
      else if s.lineWaits a coh then s.noteLine a coh
      else
        let s := match coh with
          | some c => s.convert k c
          | none => s
        match (s.line k).mode with
        | .dir => (s.dirHome k (spanOf a m) write).settle k
        | .lease => s.leaseBare k write
        | _ => s) s

/-- A write of a job, a controller or the host that waits at its home. -/
def homeHeld (job : Option (Nat × Nat)) (pa : Nat) (bs : List Byte) (tag : Bool) (poison : List Nat) (page : Option Leaf) : HeldWrite :=
  { uid := 0, job := job, lane := 0, lanes := 1, cell := 0, ctx := 0, va := 0, pa := pa, n := bs.length, op := .store (ofBytes bs) tag,
    dst := .none, page := page, hint := 0, acq := false, rel := 0, poison := poison, storesAfter := 0, loadsAfter := 0, told := false,
    way := none }

/-- Whether a line that n bytes from pa touch makes an access wait (R239, R246). -/
def linesWait (s : State) (pa n : Nat) (coh : Option LineMode) : Bool :=
  (List.range ((pa + n - 1) / 128 + 1 - pa / 128)).any fun i => s.lineWaits ((pa / 128 + i) * 128) coh

/-- Bytes written outside any region by a job (`job`), a controller of the device, or the host (no job): held at their home (R68,
R229), or performed there. `poison` lists the bytes made from poisoned data (R149). -/
def homeWrite (s : State) (job : Option (Nat × Nat)) (pa : Nat) (bs : List Byte) (tag : Bool := false) (poison : List Nat := [])
    (page : Option Leaf := none) : State :=
  if s.mustHold s.heldW 0 1 job pa bs.length false 0 then s.hold (homeHeld job pa bs tag poison page)
  else (s.put pa bs tag poison).touchHome pa bs.length true (page.map fun l => cohMode l.coh)

/-- The controllers of the device as an agent of held writes. -/
def ctlAgent : Option (Nat × Nat) := some (64, 0)

/-- Bytes that a controller of the device writes to its memory (R244): performed, or held at their home, behind a line that is BUSY among
others (R239). -/
def devWrite (s : State) (pa : Nat) (bs : List Byte) (tag : Bool := false) : State :=
  if s.linesWait pa bs.length none then s.hold (homeHeld ctlAgent pa bs tag [] none) else s.homeWrite ctlAgent pa bs tag

/-- A step taken back because some lines made it wait: their homes change protocol first (R246). -/
def markAll (s : State) (q : List (Nat × Option LineMode)) : State := q.foldl (fun s p => s.markConv p.1 p.2) s

/-- A step of an engine or of the host, which waits when one of its lines does (R239, R246). -/
def unlessBusy (s : State) (f : State → State) : State :=
  let t := f s
  if t.lineQ.isEmpty then t else s.markAll t.lineQ

end State
end Sys2Proof.Machine
end

