-- ==== Sys2Proof/Machine/Ops.lean ====
section
/-!
DEFINITION. Machine/Ops.lean: operations that every family shares: logs (R258, R298, R299), members leaving their slots (R33,
R37, R54, R161, R183), barriers (R261), the end of a team (R255), taking a trap (R251 to R254, R257), the return from one
(R255), and the frame in which an instruction word executes for its enabled lanes (R61, R219).
-/
namespace Sys2Proof.Machine

/-- What `exec` answers. -/
abbrev Out := Host.Outcome State Fault Refusal

/-- The issuing member, its current group, and the lanes enabled for the word (R61). -/
structure Iss where
  k : Nat
  m : Member
  g : Option Nat
  en : Word
  deriving DecidableEq, Repr

namespace Iss

def cell (i : Iss) : Nat := cellOf i.k
def dieNo (i : Iss) : Nat := dieOfCell i.cell
def ctx (i : Iss) : Nat := i.m.ctx
def pc (i : Iss) : Addr := (i.m.grp i.g).pc
def lanes (i : Iss) : List Nat := lanesOf i.en
def mask (i : Iss) : Word := (i.m.grp i.g).mask

end Iss

/-- The lanes in which a guard is true (R100). -/
def Member.guard (m : Member) (h : Hdr) : Word := if h.pn then ~~~(m.qmask h.pq.toNat) else m.qmask h.pq.toNat

/-- The lanes of the current group enabled under a guard (R61). -/
def Member.enabled (m : Member) (h : Hdr) : Word := m.curGrp.mask &&& m.q0 &&& m.guard h

/-- The member index (R251). -/
def Member.memberIdx (m : Member) : Nat := if m.scalar then 16 + m.idx else m.idx

/-- An outstanding counter (R168). -/
def Member.count (m : Member) (cls : Nat) : Nat := FMap.get 0 m.cnt cls
def Member.setCount (m : Member) (cls n : Nat) : Member := { m with cnt := FMap.put 0 m.cnt cls n }
def Member.bump (m : Member) (cls : Nat) : Member := m.setCount cls (m.count cls + 1)
def Member.drop (m : Member) (cls : Nat) : Member := m.setCount cls (m.count cls - 1)

/-- The barriers of a team after an arrival or a fall of the live count (R261). -/
def Team.settleBars (t : Team) : Team :=
  { t with bars := FMap.mapVals (fun b => if b.arr != 0 && t.live ≤ b.arr then ⟨b.ph + 1, 0⟩ else b) t.bars }

/-- A barrier of a team. -/
def Team.bar (t : Team) (b : Nat) : Barrier := FMap.get ⟨0, 0⟩ t.bars b

/-- Arrivals added to a barrier, and the phase advanced when they reach the live count (R261). -/
def Team.arriveBar (t : Team) (b n : Nat) : Team :=
  Team.settleBars { t with bars := FMap.put ⟨0, 0⟩ t.bars b { t.bar b with arr := (t.bar b).arr + n } }

/-- Entries put into a mailbox channel of a team (R356). -/
def Team.postBox (t : Team) (ch : Nat) (ws : List Word) : Team := { t with mail := FMap.put [] t.mail ch (FMap.get [] t.mail ch ++ ws) }

/-- What a record sent to a handler says of the sender's team. -/
def originOf : Option Team → Origin
  | some t => ⟨t.lid, t.tdesc, t.acap, t.args, t.count, t.level, t.prio⟩
  | none => Origin.none

/-- Whether a continuation record belongs to a team. -/
def Rec.ofTeam (r : Rec) (ctx h : Nat) : Bool := r.owner == ctx && r.team.toNat == h

namespace State

/-! ### Logs -/

/-- The bytes of four 64-bit words. -/
def wordBytes (ws : List Nat) : List Byte := ws.flatMap (toBytes 8)

/-- An entry written to a ring (R298, R299): the ring afterwards and the state with the entry's bytes and the vector. -/
def ringWrite (s : State) (r : LogRing) (ws : List Nat) : State × LogRing :=
  if !r.en then (s, r)
  else if (r.tail - r.head).toNat < 2 ^ r.logsize.toNat then
    let a := r.base.toNat % 2 ^ 63 + 32 * (r.tail.toNat % 2 ^ r.logsize.toNat)
    let s := if r.base.getLsbD 63 then s.setExtBytes false a (wordBytes ws) else s.devWrite a (wordBytes ws)
    ({ s with host := { s.host with msix := r.vec.toNat :: s.host.msix } }, { r with tail := r.tail + 1 })
  else (s, { r with ovf := true })

/-- An entry of a context's fault log (R258). -/
structure LogEntry where
  launch : Nat := 0xFFFFFFFF
  cause2 : Nat := 0
  code : Nat := 0
  oex : Bool := false
  imp : Bool := false
  evt : Bool := false
  cause : Cause
  pc : Nat := 0
  addr : Nat := 0
  team : Nat := 0
  ctx : Nat
  die : Nat := 0
  cell : Nat := 0
  member : Nat := 0

/-- The four words of an entry (R258). -/
def LogEntry.words (e : LogEntry) : List Nat :=
  [e.launch * 2 ^ 32 + e.cause2 * 2 ^ 23 + e.code * 2 ^ 12 + b2n e.oex * 2 ^ 11 + b2n e.imp * 2 ^ 10 + b2n e.evt * 2 ^ 9
      + e.cause.toNat,
   e.pc % 2 ^ 57, e.addr,
   e.team * 2 ^ 40 + e.ctx * 2 ^ 34 + e.die * 2 ^ 32 + e.cell * 2 ^ 25 + e.member * 2 ^ 19]

/-- An entry written to the fault log of a context (R298). -/
def logFaultIn (s : State) (x : Nat) (e : LogEntry) : State :=
  let (s, r) := s.ringWrite (s.ctx x).log e.words
  s.modCtx x fun c => { c with log := r }

/-- An entry written to the fault log of the context that it names. -/
def logFault (s : State) (e : LogEntry) : State := s.logFaultIn e.ctx e

/-- An entry of the device event log (R299). -/
def logEvent (s : State) (ev die detail addr : Nat) : State :=
  let (s, r) := s.ringWrite s.host.ev [ev * 2 ^ 56 + die * 2 ^ 54 + detail, addr, 0, 0]
  { s with host := { s.host with ev := r } }

/-- A die moved to a state, with event 4 (R291, R299). -/
def setDieSt (s : State) (d : Nat) (st : DieSt) (v : Nat) : State :=
  (s.modDie d fun x => { x with st := st }).logEvent 4 d v 0

/-! ### Members -/

/-- The record sent on its way to where it re-enters (R29, R30, R54). -/
def sendRec (s : State) (dst : PoolTarget) (r : Rec) : State :=
  match dst with
  | .carousel c => s.modCluster c fun x => { x with inbound := x.inbound ++ [r] }
  | .ready c => s.modCell c fun x => { x with inbound := x.inbound ++ [r] }
  | .handler d => s.modDie d fun x => { x with hin := x.hin ++ [⟨r, Origin.none, 0⟩] }

/-- Where an evicted member's steal mailbox stands in its cell. -/
def evictedBox (uid : Nat) : Nat := 64 + uid

/-- The steal requests of a mailbox of a cell answered empty (R54): the requester is dispatched with its own arguments and
predicate 0. -/
def answerEmpty (s : State) (c box : Nat) : State :=
  let reqs := FMap.get [] (s.cell c).steal box
  let s := s.modCell c fun x => { x with steal := FMap.put [] x.steal box [] }
  reqs.foldl (fun s q => s.sendRec q.dst { q.rcd with setq := some (q.qd, false) }) s

/-- A wave taken out of its team's baton ring (R183): the holder passes on; the last member disarms the ring. -/
def batonLeave (ring : Option (List Nat × Nat)) (idx : Nat) : Option (List Nat × Nat) :=
  match ring with
  | none => none
  | some (ms, h) =>
    let rest := ms.filter (· != idx)
    match rest with
    | [] => none
    | r :: _ =>
      if h == idx then
        -- the member after idx in ring order
        let after := (ms.dropWhile (· != idx)).drop 1
        some (rest, after.headD r)
      else some (rest, h)

/-- The region entries of some members dropped. -/
def dropRegions (s : State) (uids : List Nat) : State :=
  { s with dies := FMap.mapVals (fun x : Die => { x with regions := x.regions.filter fun e => !uids.contains e.2.uid }) s.dies }

/-- A member without live lanes leaves its slot once its counters are zero and nothing it lent is held (R33, R68). -/
def reap (s : State) (k : Nat) : State :=
  match s.member? k with
  | some m => if m.q0 == 0 && m.cnt.isEmpty && m.lent.isEmpty then (s.dropMember k).dropRegions [m.uid] else s
  | none => s

/-- What follows when a member's last lane has left (R33, R37, R54, R177, R183). -/
def departed (s : State) (k : Nat) : State :=
  match s.member? k with
  | none => s
  | some m =>
    if m.q0 != 0 then s
    else
      let s := s.answerEmpty (cellOf k) (slotOf k)
      let s := if m.scalar then s else s.modTeam m.ctx m.team fun t => { t with baton := batonLeave t.baton m.idx }
      (s.modMember k fun m => { m with alatch := none, lat := [], chain := 0, ord := none }).reap k

/-- Lanes leave the current group of a member by EXIT or suspension (R161). -/
def leaveLanes (s : State) (k : Nat) (ls : Word) : State := (s.modMember k fun m => m.leave ls).departed k

/-- The live count of a team lowered (R38, R261). -/
def dropLive (s : State) (ctx h n : Nat) : State :=
  s.modTeam ctx h fun t => Team.settleBars { t with live := t.live - n }

/-- What a lane does for its team (R161, R261, R356). -/
def applyLate (s : State) (ctx h : Nat) : LateEff → State
  | .arrive b n => s.modTeam ctx h fun t => t.arriveBar b n
  | .post ch ws => s.modTeam ctx h fun t => t.postBox ch ws
  | .leave n => s.dropLive ctx h n

/-- The same for lanes of a member, once their held writes have been performed (R207, R229, log 69). -/
def forLanes (s : State) (m : Member) (ls : Word) (eff : LateEff) : State :=
  if s.lateFor m.uid ls then { s with late := s.late ++ [⟨m.uid, ls, m.ctx, m.team, eff⟩] } else s.applyLate m.ctx m.team eff

/-- The same for the enabled lanes of a word. -/
def forTeam (s : State) (i : Iss) (eff : LateEff) : State := s.forLanes i.m i.en eff

/-- Every effect for a team whose lanes have no held write left takes place, in the order of its lanes' words. -/
def settleLate (s : State) : State :=
  s.late.foldl (fun s e =>
    if s.lateFor e.uid e.lanes then { s with late := s.late ++ [e] } else s.applyLate e.ctx e.team e.eff) { s with late := [] }

def raiseLive (s : State) (ctx h n : Nat) : State := s.modTeam ctx h fun t => { t with live := t.live + n }

/-- The keys of a team's resident members. -/
def teamSlots (s : State) (ctx h : Nat) : List Nat :=
  (s.members.filter fun e => e.2.ctx == ctx && e.2.team == h).map Prod.fst

/-- The records of a team discarded everywhere (R255). -/
def dropRecords (s : State) (ctx h : Nat) : State :=
  let keep (r : Rec) : Bool := !Rec.ofTeam r ctx h
  let cl (c : Cluster) : Cluster :=
    { c with buckets := c.buckets.filter fun b => !(b.ctx == ctx && b.team == h), inbound := c.inbound.filter keep }
  let ce (c : Cell) : Cell :=
    { c with ready := c.ready.filter keep, inbound := c.inbound.filter keep,
             steal := (FMap.mapVals (fun q => q.filter fun r => keep r.rcd) c.steal).filter fun q => !q.2.isEmpty }
  let s := { s with clusters := FMap.mapVals cl s.clusters, cells := FMap.mapVals ce s.cells }
  let stays (p : Spilled) : Bool := p.team != h || (match p.tgt with
    | .handler _ => true
    | _ => false)
  s.modCtx ctx fun c => { c with gwaits := c.gwaits.filter (fun g => keep g.2.2), spilled := c.spilled.filter stays }

/-- Every member of a team leaves, its records are discarded and its live count becomes 0 (R255). Imprecise causes that it still holds
go to the log when it has retired (R257). -/
def endTeam (s : State) (ctx h : Nat) : State :=
  let ks := s.teamSlots ctx h
  let uids := (((FMap.vals s.members) ++ s.evicted).filter fun m => m.ctx == ctx && m.team == h).map Member.uid
  let s := ks.foldl (fun s k =>
    match s.member? k with
    | some m =>
      let s := s.abortMember (cellOf k) m.uid Cause.regionHalt
      (s.modMember k fun m => { (m.setQ 0 0) with
        root := { m.root with mask := 0, wait := none, st := .run }, subs := [], cur := none, serial := [], serialG := none,
        run := .run, trapLanes := 0 }).departed k
    | none => s) s
  let s := s.evicted.foldl (fun s m =>
    if m.ctx == ctx && m.team == h then s.answerEmpty (((s.team? ctx h).map Team.cell).getD 0) (evictedBox m.uid) else s) s
  let s := { s with evicted := s.evicted.filter fun m => !(m.ctx == ctx && m.team == h) }
  let s := (s.dropRegions uids).dropRecords ctx h
  let s := { s with late := s.late.filter fun e => !(e.ctx == ctx && e.team == h) }
  s.modTeam ctx h fun t => { t with live := 0, bars := [], mail := [], baton := none }

/-- A launch marked failed. -/
def failLaunch (s : State) (ctx lid : Nat) : State := s.modLaunch ctx lid fun l => { l with failed := true }

/-! ### Taking a trap -/

/-- A log entry that describes a trap of a team (R254, R255, R258). -/
def trapLog (t : Team) (cause : Cause) (cause2 : Nat) (a : TrapArea) : LogEntry :=
  { launch := t.lid, cause2 := cause2, code := a.code.toNat, oex := a.oex, imp := a.imp, cause := cause, pc := a.tfpc.toNat,
    addr := a.taddr.toNat, team := t.handle, ctx := t.ctx, die := t.die, cell := t.cell % 128, member := a.member.toNat }

/-- One member stopped by a halt (R251): its stop record. -/
def stopRec (m : Member) (skid : Nat) : Nat × Nat × Addr := (m.memberIdx, skid, m.savedPc)

/-- A member stopped where it stands, its record kept in its team's trap area (R251, R252); a region it opened since aborts
(R231). -/
def stopMember (s : State) (k : Nat) (skid : Nat) : State :=
  match s.member? k with
  | none => s
  | some m =>
    let s := s.abortMember (cellOf k) m.uid Cause.regionHalt
    let s := s.modTeam m.ctx m.team fun t => { t with trap := { t.trap with tsib := t.trap.tsib ++ [stopRec m skid] } }
    s.modMember k fun m => { m.rewind with run := .stopped }

/-- The members of a team but one told to halt (R251): sleepers stop at once, the others after at most four more words. Open
regions abort (R231). Evicted members are recorded where they are. -/
def haltTeam (s : State) (ctx h : Nat) (except : Nat) : State :=
  let ks := s.teamSlots ctx h
  let s := ks.foldl (fun s k =>
    match s.member? k with
    | none => s
    | some m =>
      let s := s.abortMember (cellOf k) m.uid Cause.regionHalt
      if m.uid == except || m.q0 == 0 then s
      else
        let n := if m.asleep then 0 else Config.skidOf s.fresh
        let s := { s with fresh := s.fresh + 1 }
        if n == 0 then s.stopMember k 0 else s.modMember k fun m => { m with run := .halting n 0 }) s
  let ev := s.evicted.filter fun m => m.ctx == ctx && m.team == h && m.uid != except
  let s := s.modTeam ctx h fun t => { t with trap := { t.trap with tsib := t.trap.tsib ++ ev.map (stopRec · 0) } }
  let stop (m : Member) : Member :=
    if m.ctx == ctx && m.team == h && m.uid != except then { m with run := .stopped } else m
  { s with evicted := s.evicted.map stop }

/-- The group of a member that an asynchronous trap interrupts: the current one, or else the first that runs or sleeps. -/
def interruptible (m : Member) : Option Nat :=
  if (m.curGrp.st == .run && m.curGrp.mask != 0) || !m.serial.isEmpty then m.cur
  else ((m.names.find? fun g => (m.grp g).st == .run && (m.grp g).mask != 0)).getD m.cur

/-- The faulting group sent to the handler with the same lanes (R254). -/
def enterHandler (m : Member) (handler : Addr) : Member :=
  let g := interruptible m
  ({ m with cur := g, lat := [], chain := 0, ord := none, run := .run, trapLanes := (m.grp g).mask }).modGrp g fun x =>
    { x with pc := handler, wait := none }

/-- The aborts of a member's handler lanes put off until its ERET (R225, R254, log 77), or made due again. -/
def deferAborts (s : State) (uid : Nat) (ls : Word) : State :=
  let f (r : Region) : Region := if r.uid == uid && ls.getLsbD r.lane && r.st == .aborted then { r with st := .deferred } else r
  { s with dies := FMap.mapVals (fun x : Die => { x with regions := FMap.mapVals f x.regions }) s.dies }

def dueAborts (s : State) (uid : Nat) : State :=
  let f (r : Region) : Region := if r.uid == uid && r.st == .deferred then { r with st := .aborted } else r
  { s with dies := FMap.mapVals (fun x : Die => { x with regions := FMap.mapVals f x.regions }) s.dies }

/-- A trap of a team at the member `uid` with the area filled (R251 to R254): the team halts and the member's group enters the
handler; without a handler, or while a trap is being handled, the team ends; CAUSE2 then holds the cause that was raised, and the
other fields describe that cause (R258, log 75). A halted member's own cause stops it at its word (R253). -/
def deliver (s : State) (uid : Nat) (a : TrapArea) : State :=
  match s.byUid uid with
  | none => s
  | some m =>
    match s.team? m.ctx m.team with
    | none => s
    | some t =>
      if m.run != .run then
        match s.slotOfUid uid, m.run with
        | some k, .halting _ done => s.stopMember k done
        | _, _ => s
      else if t.trap.v then
        let s := s.endTeam t.ctx t.handle
        let s := s.failLaunch t.ctx t.lid
        s.logFault (trapLog t Cause.handlerFault a.cause.toNat a)
      else if t.handler == 0 then
        let s := s.endTeam t.ctx t.handle
        let s := s.failLaunch t.ctx t.lid
        s.logFault (trapLog t Cause.noHandler a.cause.toNat a)
      else
        let s := s.modTeam t.ctx t.handle fun t => { t with trap := { a with tsib := [] } }
        let s := s.haltTeam t.ctx t.handle uid
        let s := s.deferAborts uid (m.grp (interruptible m)).mask
        s.modUid uid fun m => enterHandler m t.handler

/-- The trap of a cause that a word raises, with no lane having an effect (R108, R136, R252, R254): TPC is the chain's or
the ORD's first word where the word belongs to one, and the next word for TRAP and BKPT. -/
def raise (s : State) (i : Iss) (e : Exn) : State :=
  let lane := e.lane.getD (lowest i.en)
  let tpc := if e.cause == Cause.trapInstr || e.cause == Cause.breakpoint then nextPc i.pc else i.m.savedPc
  s.deliver i.m.uid
    { v := true, imp := false, oex := false, lane := BitVec.ofNat 6 lane, member := BitVec.ofNat 6 i.m.memberIdx,
      code := e.code, cause := e.cause, tpc := tpc, taddr := BitVec.ofNat 64 e.addr, tfpc := i.pc, tsib := [] }

/-- What an imprecise fault of a member's lane reports (R252, R257). -/
def faultOf (s : State) (m : Member) (cell : Nat) (pc : Addr) (cause : Cause) (lane addr : Nat) : ImpFault :=
  { cause := cause, pc := pc, addr := BitVec.ofNat 64 addr, lane := lane, uid := m.uid, member := m.memberIdx, ctx := m.ctx, team := m.team,
    lid := ((s.team? m.ctx m.team).map Team.lid).getD 0, die := dieOfCell cell, cell := cell, adrift := false }

/-- The same for a word that issues. -/
def faultAt (s : State) (i : Iss) (cause : Cause) (lane addr : Nat) : ImpFault := s.faultOf i.m i.cell i.pc cause lane addr

/-- An imprecise fault put in the store queue's fault list (R147, R257). -/
def queueFault (s : State) (i : Iss) (cause : Cause) (lane addr : Nat) : State :=
  { s with impFaults := s.impFaults ++ [s.faultAt i cause lane addr] }

/-- The return from a trap (R255): the issuing group goes on at TPC, the halted members at their stop points, and the causes
held meanwhile arrive. -/
def eret (s : State) (i : Iss) (t : Team) : State :=
  let s := s.modTeam t.ctx t.handle fun t =>
    { t with trap := { t.trap with v := false, tsib := [] }, held := [] }
  let go (m : Member) : Member := if m.ctx == t.ctx && m.team == t.handle then { m with run := .run, trapLanes := 0 } else m
  let s := { s with impFaults := t.held ++ s.impFaults, members := FMap.mapVals go s.members, evicted := s.evicted.map go }
  (s.dueAborts i.m.uid).modMember i.k fun m => m.modGrp i.g fun x => { x with pc := t.trap.tpc }

/-! ### Words -/

/-- The issuing member with the lanes enabled under a guard, none when no member issues. -/
def iss (s : State) (h : Hdr) : Option Iss :=
  match s.issuer with
  | none => none
  | some k =>
    match s.member? k with
    | none => none
    | some m => some ⟨k, m, m.cur, m.enabled h⟩

/-- The issuer after earlier stages of the word have changed its member: the lanes still enabled stay. -/
def reIss (s : State) (i : Iss) (en : Word) : Iss := { i with m := (s.member? i.k).getD i.m, en := en }

/-- The group that issued a word goes on at the next one. -/
def next (s : State) (i : Iss) : State :=
  s.modMember i.k fun m => m.modGrp i.g fun x => { x with pc := nextPc x.pc }

/-- The current group of the issuer chosen again (R158). -/
def repick (s : State) (k : Nat) : State := s.modMember k Member.repick

end State

/-- How a word behaves in lanes with an open region (R219): forbidden with a cause, without effect, decided by the word's own
rule, as usual, as a word that acts once, or as one that combines its enabled lanes. In the last three, a cause that a lane alone would
raise aborts its region. -/
inductive InRegion where
  | forbid (c : Cause)
  | skip
  | own
  | usual
  | once
  | apart
  deriving DecidableEq, Repr

/-- The lanes with an open region that a word would raise a cause in, aborted with it, and the others. -/
def abortAlone (body : Iss → State → Chk State) (i : Iss) (rl : Word) (s : State) : State × Word :=
  (lanesOf rl).foldl (fun (a : State × Word) l =>
    match body { i with en := laneMask l } s with
    | .ok _ => (a.1, a.2 ||| laneMask l)
    | .error e => (a.1.abortLanes i.cell i.m.uid (laneMask l) e.cause, a.2)) (s, 0)

/-- The first stage of R219: the state after it and the lanes enabled for the second. A word that acts once leaves its action to the
lanes without a region when one is enabled; one that combines lanes acts in both stages. -/
def regionStage (use : InRegion) (body : Iss → State → Chk State) (i : Iss) (s : State) : State × Word :=
  let rl := s.regionLanes i.cell i.m.uid &&& i.en
  let others := i.en &&& ~~~rl
  if rl == 0 then (s, i.en)
  else
    match use with
    | .forbid c => (s.abortLanes i.cell i.m.uid rl c, others)
    | .skip => (s, others)
    | .own => (s, i.en)
    | .usual =>
      let (s1, good) := abortAlone body i rl s
      (s1, others ||| good)
    | .once =>
      let (s1, good) := abortAlone body i rl s
      (s1, if others == 0 then good else others)
    | .apart =>
      let (s1, good) := abortAlone body i rl s
      if others == 0 || good == 0 then (s1, others ||| good)
      else
        match body (s1.reIss i good) s1 with
        | .ok s2 => (s2.modMember i.k fun m => m.modGrp i.g fun x => { x with pc := i.pc }, others)
        | .error _ => (s1, others)

/-- A word executed for its enabled lanes: its effect, or the trap of its cause. `body` leaves the PC where the word sends it.
Without an issuer nothing happens. -/
def runWord (use : InRegion) (h : Hdr) (body : Iss → State → Chk State) (s : State) : Out :=
  match s.iss h with
  | none => .next s
  | some i =>
    let (s1, en) := regionStage use body i s
    let j := s1.reIss i en
    match body j s1 with
    | .ok t => .next (t.repick i.k)
    | .error e => .next (s1.raise j e)

/-- A word whose group goes on at the next word. -/
def stepWord (use : InRegion) (h : Hdr) (body : Iss → State → Chk State) (s : State) : Out :=
  runWord use h (fun i s => (body i s).map fun t => t.next i) s

/-- A word that acts once, when at least one lane is enabled. -/
def onceWord (use : InRegion) (h : Hdr) (body : Iss → State → Chk State) (s : State) : Out :=
  stepWord use h (fun i s => if i.en == 0 then .ok s else body i s) s

/-- A cause that a word raises whatever lanes it enables (R28, R108, R195): lanes of the group with an open region abort with
it, and it traps for a group that holds any other lane (R219). This takes in ORD_FORM, where R219 also gives ORD and FENCE no effect in region
lanes (log 95). -/
def State.raiseAny (s : State) (i : Iss) (e : Exn) : State :=
  let rl := s.regionLanes i.cell i.m.uid &&& i.mask
  let s := s.abortLanes i.cell i.m.uid rl e.cause
  if rl != 0 && rl == i.mask then s else s.raise (s.reIss i i.en) e

/-- A wave-only word (R28): a scalar thread raises WAVE_ONLY whatever its lanes. -/
def waveWord (h : Hdr) (run : State → Out) (s : State) : Out :=
  match s.iss h with
  | some i => if i.m.scalar then .next (s.raiseAny i { cause := Cause.waveOnly }) else run s
  | none => .next s

end Sys2Proof.Machine
end

