-- ==== Sys2Proof/Machine/Operands.lean ====
section
/-!
DEFINITION. Machine/Operands.lean: reading sources and writing destinations (R59, R60), memory operand addresses (R72), the
latches (R65), and the frame of the pure ALU words.
-/
namespace Sys2Proof.Machine

/-- The number that n bits hold under a type: signed for I types (R341). -/
def tyVal (t : Ty) (x : Nat) : Int := if t.isI then sextN x t.bits else ((x % 2 ^ t.bits : Nat) : Int)

/-- A result of a type extended to a register of `w` bits: I types by sign, others with zeros (R59). -/
def extendTo (t : Ty) (w x : Nat) : Nat :=
  if t.isI then modN (sextN x t.bits) w else x % 2 ^ t.bits

/-- The width of the vector register or pair that a type occupies (R59). -/
def regBits (t : Ty) : Nat := if t.is64 then 64 else 32

/-- An immediate at a type's width: sign-extended, or the float of the integer it holds (R59). -/
def immBits (t : Ty) (i : BitVec 6) : Nat :=
  if t.isF then Fp.round (Fp.fmtOf t) Fp.rne (Fp.ofInt (sextN i.toNat 6)) else modN (sextN i.toNat 6) t.bits

namespace Member

/-- A uniform register. -/
def sreg (m : Member) (n : Nat) : DWord := FMap.get 0 m.s n
def setS (m : Member) (n : Nat) (x : DWord) : Member := { m with s := FMap.put 0 m.s n x, ps := FMap.put false m.ps n false }
/-- A capability register. -/
def creg (m : Member) (n : Nat) : Cap := FMap.get Cap.null m.c n
def setC (m : Member) (n : Nat) (x : Cap) : Member :=
  { m with c := FMap.put Cap.null m.c n x, pk := FMap.put false (FMap.put false m.pk (2 * n) false) (2 * n + 1) false }
/-- An index register of a lane. -/
def xreg (m : Member) (lane k : Nat) : XReg := FMap.get XReg.zero m.x (lane * 4 + k)
def setX (m : Member) (lane k : Nat) (x : XReg) : Member := { m with x := FMap.put XReg.zero m.x (lane * 4 + k) x }

/-- A vector operand: a register, or the even pair of a 64-bit type (R59). -/
def vval (m : Member) (t : Ty) (lane n : Nat) : Nat :=
  if t.is64 then (m.vreg lane n).toNat + 2 ^ 32 * (m.vreg lane (n + 1)).toNat else (m.vreg lane n).toNat % 2 ^ t.bits

/-- The poison of a lane's register pair cleared by a write of all 64 bits (R148). -/
def healPair (m : Member) (lane n : Nat) : Member := { m with pv := FMap.put false m.pv (lane * 32 + n / 2) false }

/-- A vector destination written with a result of a type (R59). -/
def setVal (m : Member) (t : Ty) (lane n x : Nat) : Member :=
  if t.is64 then
    ((m.healPair lane n).setV lane n (BitVec.ofNat 32 x)).setV lane (n + 1) (BitVec.ofNat 32 (x / 2 ^ 32))
  else m.setV lane n (BitVec.ofNat 32 (extendTo t 32 x))

/-- A latch of a lane (R65). -/
def latch (m : Member) (k lane : Nat) : DWord := FMap.get 0 (m.lat.getD k []) lane

/-- A source operand of a type in a lane (R59). -/
def src (m : Member) (t : Ty) (a : Src) (lane : Nat) : Nat :=
  match a with
  | .v n => m.vval t lane n.toNat
  | .lat k => (m.latch k.toNat lane).toNat % 2 ^ t.bits
  | .s n => (m.sreg n.toNat).toNat % 2 ^ t.bits
  | .imm i => immBits t i

/-- A source read as 32 unsigned bits. -/
def src32 (m : Member) (a : Src) (lane : Nat) : Nat := m.src .n32 a lane

/-- A uniform or immediate source as 64 bits, an immediate sign-extended (R59). -/
def src64 (m : Member) (a : Src) : Nat := m.src .n64 a 0

/-- The index of a memory operand as a signed number (R72). -/
def idxVal (m : Member) (a : Src) (lane : Nat) : Int :=
  match a with
  | .v n => sextN (m.vreg lane n.toNat).toNat 32
  | .lat _ => 0
  | .s n => (m.sreg n.toNat).toNat
  | .imm i => sextN i.toNat 6

/-- The address of a memory operand in a lane: cursor + idx * scale + off, mod 2^64 (R72). -/
def addr (m : Member) (o : MemOp) (lane : Nat) : Nat :=
  modN ((m.creg o.cap.toNat).cursor.toNat + m.idxVal o.idx lane * 2 ^ o.scale.toNat + sextN o.off.toNat 8) 64

/-- A vector destination written in each of some lanes. -/
def setLanes (m : Member) (t : Ty) (d : Nat) (lanes : List Nat) (f : Nat → Nat) : Member :=
  lanes.foldl (fun m l => m.setVal t l d (f l)) m

/-- The latches shifted (R65). -/
def shiftLat (m : Member) (l0 : FMap DWord) : Member := { m with lat := (l0 :: m.lat).take 4 }

/-- The write-back of a pure ALU word: D and the latches, D unless NW (R59, R60, R65, R66). `val` gives each lane's result,
of type `t`. With U the one result goes to L0 of every lane, even where no lane is enabled; a predicate that it reads is then lane
0's (log 64). -/
def aluWrite (m : Member) (w : Alu) (t : Ty) (en : Word) (val : Nat → Nat) : Member :=
  if w.u then
    let r : DWord := BitVec.ofNat 64 (extendTo t 64 (val (lowest en)))
    let m := m.shiftLat ((List.range 32).foldl (fun l k => FMap.put 0 l k r) [])
    if w.nw || en == 0 then m else m.setS w.d.toNat r
  else
    let m' := m.shiftLat ((lanesOf en).foldl (fun l k => FMap.put 0 l k (BitVec.ofNat 64 (extendTo t (regBits t) (val k)))) [])
    if w.nw then m' else m'.setLanes t w.d.toNat (lanesOf en) val

end Member

/-- A pure ALU word that raises nothing: in each enabled lane, D := f (R65). -/
def aluWord (w : Alu) (t : Ty) (f : Member → Nat → Nat) (s : State) : Out :=
  stepWord (if w.u then .once else .usual) w.h (fun i s => .ok (s.modMember i.k fun m => m.aluWrite w t i.en (f i.m))) s

/-- A pure ALU word with one source of the type. -/
def alu1 (w : Alu) (a : Src) (f : Nat → Nat) (s : State) : Out :=
  aluWord w w.t (fun m l => f (m.src w.t a l)) s

/-- A pure ALU word with two sources of the type. -/
def alu2 (w : Alu) (a b : Src) (f : Nat → Nat → Nat) (s : State) : Out :=
  aluWord w w.t (fun m l => f (m.src w.t a l) (m.src w.t b l)) s

/-- A pure ALU word with three sources of the type. -/
def alu3 (w : Alu) (a b c : Src) (f : Nat → Nat → Nat → Nat) (s : State) : Out :=
  aluWord w w.t (fun m l => f (m.src w.t a l) (m.src w.t b l) (m.src w.t c l)) s

/-- The lanes of a mask with an address each. -/
def Iss.addrs (i : Iss) (o : MemOp) : List (Nat × Nat) := i.lanes.map fun l => (l, i.m.addr o l)

end Sys2Proof.Machine
end

