-- ==== Sys2Proof/Machine/Flags.lean ====
section
/-!
DEFINITION. Machine/Flags.lean: predicates (R61): the conditions of compares (R344), the carry (R342), saturation (R341), and
writing a predicate in the enabled lanes.
-/
namespace Sys2Proof.Machine

/-- The condition of ICMP (R344) on two numbers of a type. -/
def icmpCond (cond : BitVec 3) (a b : Int) : Bool :=
  match cond.toNat with
  | 0 => a == b
  | 1 => a != b
  | 2 => decide (a < b)
  | 3 => decide (a ≤ b)
  | 4 => decide (b < a)
  | _ => decide (b ≤ a)

/-- The largest and smallest number of an integer type. -/
def tyMax (t : Ty) : Int := if t.isI then 2 ^ (t.bits - 1) - 1 else 2 ^ t.bits - 1
def tyMin (t : Ty) : Int := if t.isI then -(2 ^ (t.bits - 1)) else 0

/-- An exact integer clamped to a type's range. -/
def clampTo (t : Ty) (x : Int) : Int := min (max x (tyMin t)) (tyMax t)

/-- An exact integer result reduced modulo 2^n, or clamped under .SAT (R341). -/
def intRes (t : Ty) (sat : Bool) (x : Int) : Nat := modN (if sat then clampTo t x else x) t.bits

/-- The carry out of an addition of unsigned n-bit values (R342). -/
def carryOut (n a b c : Nat) : Bool := 2 ^ n ≤ a % 2 ^ n + b % 2 ^ n + c

namespace Member

/-- A predicate written in the lanes of a mask with the bits of another; q7 ignores it (R58, R61). -/
def writeQ (m : Member) (k : Nat) (en val : Word) : Member := m.setQ k ((m.qmask k &&& ~~~en) ||| (val &&& en))

/-- A predicate written in each lane of a mask from a function. -/
def predLanes (m : Member) (k : Nat) (en : Word) (f : Nat → Bool) : Member :=
  m.writeQ k en (maskOf ((lanesOf en).filter f))

end Member

/-- A word that writes a predicate per lane and raises nothing. -/
def predWord (h : Hdr) (qd : BitVec 3) (f : Member → Nat → Bool) (s : State) : Out :=
  stepWord .usual h (fun i s => .ok (s.modMember i.k fun m => m.predLanes qd.toNat i.en (f i.m))) s

end Sys2Proof.Machine
end

