-- ==== Sys2Proof/Machine/FloatWords.lean ====
section
/-!
DEFINITION. Machine/FloatWords.lean: the float group (R328, R334 to R337) and the conversions (R114, R121, R122, R326, R367,
R387).
-/
namespace Sys2Proof.Machine

/-- A source of a float type in a lane as a value: an immediate is the exact integer it holds (R59). -/
def Member.fsrc (m : Member) (t : Ty) (a : Src) (lane : Nat) : Fp.FVal :=
  match a with
  | .imm i => Fp.ofInt (sextN i.toNat 6)
  | _ => Fp.decode (Fp.fmtOf t) (m.src t a lane)

/-- A float word of one, two and three operand values, rounded once (R334). -/
def float1 (w : Alu) (a : Src) (f : Fp.FVal → Nat) (s : State) : Out := aluWord w w.t (fun m l => f (m.fsrc w.t a l)) s
def float2 (w : Alu) (a b : Src) (f : Fp.FVal → Fp.FVal → Nat) (s : State) : Out :=
  aluWord w w.t (fun m l => f (m.fsrc w.t a l) (m.fsrc w.t b l)) s
def float3 (w : Alu) (a b c : Src) (f : Fp.FVal → Fp.FVal → Fp.FVal → Nat) (s : State) : Out :=
  aluWord w w.t (fun m l => f (m.fsrc w.t a l) (m.fsrc w.t b l) (m.fsrc w.t c l)) s

def execFadd (w : Alu) (a b : Src) (rm : BitVec 2) (s : State) : Out := float2 w a b (Fp.add (Fp.fmtOf w.t) rm) s
def execFsub (w : Alu) (a b : Src) (rm : BitVec 2) (s : State) : Out :=
  float2 w a b (fun x y => Fp.add (Fp.fmtOf w.t) rm x y.neg) s
def execFmul (w : Alu) (a b : Src) (rm : BitVec 2) (s : State) : Out :=
  float2 w a b (fun x y => Fp.round (Fp.fmtOf w.t) rm (Fp.mul x y)) s
def execFfma (w : Alu) (a b c : Src) (rm : BitVec 2) (s : State) : Out := float3 w a b c (Fp.fma (Fp.fmtOf w.t) rm) s
def execFmin (w : Alu) (a b : Src) (s : State) : Out := alu2 w a b (Fp.minmax (Fp.fmtOf w.t) false) s
def execFmax (w : Alu) (a b : Src) (s : State) : Out := alu2 w a b (Fp.minmax (Fp.fmtOf w.t) true) s
def execFdiv (w : Alu) (a b : Src) (rm : BitVec 2) (s : State) : Out := float2 w a b (Fp.div (Fp.fmtOf w.t) rm) s
def execFsqrt (w : Alu) (a : Src) (rm : BitVec 2) (s : State) : Out := float1 w a (Fp.sqrt (Fp.fmtOf w.t) rm) s
def execFrcp (w : Alu) (a : Src) (rm : BitVec 2) (s : State) : Out :=
  float1 w a (Fp.div (Fp.fmtOf w.t) rm (Fp.ofInt 1)) s
def execFrsq (w : Alu) (a : Src) (rm : BitVec 2) (s : State) : Out := float1 w a (Fp.rsqrt (Fp.fmtOf w.t) rm) s
def execFrnd (w : Alu) (a : Src) (rm : BitVec 2) (s : State) : Out := float1 w a (Fp.roundInt (Fp.fmtOf w.t) rm) s
def execFexp2 (w : Alu) (a : Src) (s : State) : Out := alu1 w a Fp.exp2 s
def execFlog2 (w : Alu) (a : Src) (s : State) : Out := alu1 w a Fp.log2 s
def execFsin (w : Alu) (a : Src) (s : State) : Out := alu1 w a Fp.sin s
def execFcos (w : Alu) (a : Src) (s : State) : Out := alu1 w a Fp.cos s
def execFtanh (w : Alu) (a : Src) (s : State) : Out := alu1 w a Fp.tanh s

/-- FCLASS (R336): the mask is a 32-bit result for every type. -/
def execFclass (w : Alu) (a : Src) (s : State) : Out :=
  aluWord w .n32 (fun m l => Fp.fclass (Fp.fmtOf w.t) (m.src w.t a l)) s

def execFcmp (h : Hdr) (t : Ty) (qd : BitVec 3) (a b : Src) (cond : BitVec 3) (s : State) : Out :=
  predWord h qd (fun m l => Fp.fcmp (Fp.fmtOf t) cond (m.src t a l) (m.src t b l)) s

/-- The exact dot product of R328: c plus the products of p elements of w bits, rounded once into F32. -/
def dotRes (t : Ty) (rm : BitVec 2) (a b : Nat) (c : Fp.FVal) : Nat :=
  let n := t.bits
  let el (x k : Nat) : Fp.FVal := Fp.decode (Fp.fmtOf t) (x / 2 ^ (n * k) % 2 ^ n)
  Fp.round Fp.f32 rm (Fp.sum rm (c :: (List.range (32 / n)).map fun k => Fp.mul (el a k) (el b k)))

def execDot2 (w : Alu) (a b c : Src) (rm : BitVec 2) (s : State) : Out :=
  aluWord w .n32 (fun m l => dotRes w.t rm (m.src32 a l) (m.src32 b l) (m.fsrc .f32 c l)) s
def execDot4 (w : Alu) (a b c : Src) (rm : BitVec 2) (s : State) : Out :=
  aluWord w .n32 (fun m l => dotRes w.t rm (m.src32 a l) (m.src32 b l) (m.fsrc .f32 c l)) s

/-! ### Conversions -/

/-- A conversion between two types (R114, R326). -/
def convert (dst src : Ty) (rm : BitVec 2) (x : Fp.FVal) (n : Int) : Nat :=
  if src.isF then
    if dst.isF then Fp.round (Fp.fmtOf dst) rm x
    else
      match x with
      | .nan => 0
      | .inf neg => modN (if neg then tyMin dst else tyMax dst) dst.bits
      | _ => modN (clampTo dst (Fp.toInt rm x)) dst.bits
  else if dst.isF then Fp.round (Fp.fmtOf dst) rm (Fp.ofInt n)
  else modN (clampTo dst n) dst.bits

def execCvt (w : Alu) (src : Ty) (a : Src) (rm : BitVec 2) (s : State) : Out :=
  aluWord w w.t (fun m l =>
    convert w.t src rm (if src.isF then m.fsrc src a l else .nan) (tyVal src (m.src src a l))) s

/-- The codebook of a format entry as values (R118). -/
def FmtEntry.cb (f : FmtEntry) : List Fp.FVal := f.codebook.map (Fp.decode (Fp.fmtOf .bf16))

/-- The codebook of the slot that a uniform register names, FORMAT_SLOT unless its format is CB4 (R122, R367). An element
format without a codebook needs none. -/
def State.codebook (s : State) (i : Iss) (sf : Option (BitVec 6)) : Chk (List Fp.FVal) :=
  match sf with
  | none => .ok []
  | some r =>
    let f := s.fmtEntry i.ctx ((i.m.sreg r.toNat).toNat % 256)
    if f.efmt == 14 then .ok f.cb else .error { cause := Cause.formatSlot }

/-- A word that reads a codebook first, and acts once with U (R60, R219). With no lane enabled it raises no cause (R108), and its one result, which L0 of every lane
receives (R65), is made from the codebook when the slot holds one. -/
def cbWord (h : Hdr) (u : Bool) (sf : Option (BitVec 6)) (f : Iss → List Fp.FVal → Member → Member) (s : State) : Out :=
  stepWord (if u then .once else .usual) h (fun i s =>
    match s.codebook i sf with
    | .ok cb => .ok (s.modMember i.k (f i cb))
    | .error e => if i.en == 0 then .ok (s.modMember i.k (f i [])) else .error e) s

/-- CVTQ (R121). -/
def execCvtq (h : Hdr) (t : Ty) (d : BitVec 6) (a sc : Src) (sf : Option (BitVec 6)) (rm : BitVec 2) (s : State) : Out :=
  cbWord h false sf (fun i cb m => m.setLanes .n32 d.toNat i.lanes fun l =>
    let c := i.m.src32 sc l % 256
    if c == 255 then (if t == .cb4 then 0 else (Fp.fmtOf t).nan)
    else Fp.quantise t cb rm (i.m.fsrc .f32 a l) (some (Fp.sc8 c))) s

/-- The value of CVTD (R121). -/
def cvtdRes (t : Ty) (cb : List Fp.FVal) (code c : Nat) : Nat :=
  if c == 255 then Fp.f32.nan else Fp.round Fp.f32 Fp.rne (Fp.mul (Fp.element t cb (code % 256)) (Fp.sc8 c))

def execCvtd (h : Hdr) (t : Ty) (d : BitVec 6) (code sc : Src) (sf : Option (BitVec 6)) (s : State) : Out :=
  cbWord h false sf (fun i cb m => m.setLanes .n32 d.toNat i.lanes fun l =>
    cvtdRes t cb (i.m.src32 code l) (i.m.src32 sc l % 256)) s

/-- The word of PACK (R367). -/
def packRes (t : Ty) (cb : List Fp.FVal) (x : Fp.FVal) (b pos : Nat) : Nat :=
  let w := t.bits
  let e := Fp.quantise t cb Fp.rne x none
  b - b / 2 ^ (w * pos) % 2 ^ w * 2 ^ (w * pos) + e * 2 ^ (w * pos)

def execPack (w : Alu) (a b : Src) (m : BitVec 3) (sf : Option (BitVec 6)) (s : State) : Out :=
  cbWord w.h w.u sf (fun i cb mm => mm.aluWrite w .n32 i.en fun l =>
    packRes w.t cb (i.m.fsrc .f32 a l) (i.m.src32 b l) m.toNat) s

/-- The value of UNPK (R387). -/
def unpkRes (t : Ty) (cb : List Fp.FVal) (a pos : Nat) : Nat :=
  Fp.round Fp.f32 Fp.rne (Fp.element t cb (a / 2 ^ (t.bits * pos) % 2 ^ t.bits))

def execUnpk (w : Alu) (a : Src) (m : BitVec 3) (sf : Option (BitVec 6)) (s : State) : Out :=
  cbWord w.h w.u sf (fun i cb mm => mm.aluWrite w .n32 i.en fun l => unpkRes w.t cb (i.m.src32 a l) m.toNat) s

end Sys2Proof.Machine
end

