-- ==== Sys2Proof/Machine/Mem.lean ====
section
/-!
DEFINITION. Machine/Mem.lean: the accesses of threads (R136 to R149, R209 to R215, R219, R223, R349, R381): one access at its
target, its destination, the accesses of region lanes, requests over the host link, and the frame of the memory words.
-/
namespace Sys2Proof.Machine

/-- The type of an atomic's operand (R107, R209). -/
def atomTy (op : AtomOp) (w : BitVec 2) : Ty :=
  match op, w.toNat with
  | .fadd, 0 => .f32
  | .fadd, 1 => .bf16
  | .fadd, _ => .f16
  | _, 0 => .i32
  | _, 1 => .i64
  | _, 2 => .n32
  | _, _ => .n64

/-- Spaces that LD, ST, atomics and WAITADR accept (R137). -/
def threadSpaces : List Nat := [spGlobal, spSpad, spSpadw, spHost, spPeer]

/-- An acquire by the ORD that precedes the word (R195, R243). -/
def Iss.acq (i : Iss) : Bool :=
  match i.m.ord with
  | some o => o.order != .rel
  | none => false

/-- An SC order by the ORD that precedes the word (R200). -/
def Iss.sc (i : Iss) : Bool := (i.m.ord.map OrdPend.order) == some .sc

/-- The lanes that a release by the ORD that precedes the word covers (R195, R197). -/
def Iss.rel (i : Iss) : Word :=
  match i.m.ord with
  | some o => if o.order != .acq then i.en else 0
  | none => 0

namespace LoadDst

/-- The vector registers that a load's destination names. -/
def regs : LoadDst → List Nat
  | .vec t d => if t.is64 then [d, d + 1] else [d]
  | .decoded _ d _ _ _ => [d]
  | _ => []

/-- Whether a destination is one register for all lanes (R191). -/
def single : LoadDst → Bool
  | .uni .. | .cap .. => true
  | _ => false

/-- LDF's destination once its scale code is known (R352). -/
def scaled (d : LoadDst) (c : Nat) : LoadDst :=
  match d with
  | .decoded t r slot hi _ => .decoded t r slot hi (some c)
  | x => x

end LoadDst

/-- The access that follows a held one with its value: the element of an LDF after its scale (R352). -/
def HeldAcc.follow (a : HeldAcc) (x : Nat) : Option HeldAcc :=
  a.next.map fun e => { a with va := e.1, pa := e.2.1, n := e.2.2.1, page := e.2.2.2, dst := a.dst.scaled x, next := none }

/-- Whether an access consumes no poison: a RED (R149). -/
def HeldAcc.quiet (a : HeldAcc) : Bool :=
  match a.op with
  | .atom .. => a.dst == .none
  | _ => false

/-- The loads of an access that waits: itself, and the element of an LDF after its scale. -/
def HeldAcc.parts (a : HeldAcc) : List HeldAcc := a :: (a.follow 0).toList

namespace AccOp

/-- Whether an access reads the old value, and whether it may write (R145, R214). -/
def reads : AccOp → Bool
  | .store .. => false
  | _ => true

def writes : AccOp → Bool
  | .load => false
  | _ => true

/-- The value that an access stores over an old one, none for no store (R210). -/
def newVal (n : Nat) (o : AccOp) (old : Nat) : Option Nat :=
  match o with
  | .load => none
  | .store x _ => some x
  | .atom op w b => some (atomF op w old b)
  | .cas e x => if old == e % 2 ^ (8 * n) then some x else none

def tag : AccOp → Bool
  | .store _ t => t
  | _ => false

end AccOp

/-- The 64-bit words of some registers of a lane poisoned (R148). -/
def Member.poisonRegs (m : Member) (lane : Nat) (rs : List Nat) : Member :=
  { m with pv := rs.foldl (fun p r => FMap.put false p (lane * 32 + r / 2) true) m.pv }

namespace State

/-- The value that a load returned written to its destination in a lane (R59, R60, R349 to R352). -/
def setDst (s : State) (uid lane : Nat) (dst : LoadDst) (x : Nat) (tag : Bool) : State :=
  match dst with
  | .none => s
  | .vec t d => s.modUid uid fun m => m.setVal t lane d x
  | .uni t d => s.modUid uid fun m => m.setS d (BitVec.ofNat 64 (extendTo t 64 x))
  | .cap cd =>
    let c := Cap.ofNat128 tag x
    s.modUid uid fun m => m.setC cd { c with tag := c.tag && c.eOk && c.space.toNat ≤ 7 }
  | .decoded t d slot hi scale =>
    match s.byUid uid with
    | none => s
    | some m =>
      let f := s.fmtEntry m.ctx slot
      match Ty.ofNat? f.efmt with
      | none => s
      | some ft =>
        let code := if ft == .cb4 then (if hi then x / 16 % 16 else x % 16) else x
        let v := Fp.element ft f.cb code
        let v := match scale with
          | some c => if c == 255 then .nan else Fp.mul v (Fp.sc8 c)
          | none => v
        s.modUid uid fun m => m.setVal t lane d (Fp.round (Fp.fmtOf t) Fp.rne v)

/-- The links of the way from a cell to a place in the device, none within its die (R7). -/
def wayTo (s : State) (cell pa : Nat) : List Nat := (s.pathLinks (dieOfCell cell) (dieOfPa pa)).map Prod.fst

/-- A load or an atomic of a lane to another die noted as in flight on the links of its way, with the fault that their failure gives it (R248,
R249, log 83). -/
def fly (s : State) (uid lane cell va : Nat) (t : Target) : State :=
  match t, s.byUid uid with
  | .dev pa _, some m =>
    let way := s.wayTo cell pa
    if way.isEmpty then s
    else
      let s := s.countTrip (dieOfCell cell) (dieOfPa pa)
      let who := s.faultOf m cell m.pc Cause.linkLost lane va
      { s with coh := { s.coh with flights := s.coh.flights ++ [⟨pa / 128, way, who⟩] } }
  | _, _ => s

/-- One access of a cell's thread outside regions performed, at a place that passed its checks: the transaction, the value read,
and the tag of its slot. HINT 2 keeps no copy. A line that makes the access wait is noted, and the word is taken back (R239); what the
cell's L1 serves does not wait for its home (R236, R240). -/
def access (s : State) (cell ctx va n : Nat) (t : Target) (hint : Nat) (acq : Bool) (op : AccOp) : State × Nat × Bool :=
  match t with
  | .ext peer a =>
    let old := ofBytes (s.extBytes peer a n)
    match op.newVal n old with
    | some x => (s.setExtBytes peer a (toBytes n x), old, false)
    | none => (s, old, false)
  | .dev pa lf =>
    let s := match lf with
      | some l => if s.l1Serves cell l n op then s.fillTlb cell ctx va l else (s.fillTlb cell ctx va l).noteLine pa (some (cohMode l.coh))
      | none => s
    let home (s : State) : State :=
      match lf with
      | some l => s.atomHbm cell l n
      | none => s
    match op with
    | .load =>
      match lf with
      | some l => s.loadHbm cell l n hint acq
      | none => (s, s.num pa n, s.tagAt pa)
    | .store x tg =>
      let s := s.put pa (toBytes n x) tg
      match lf with
      | some l => (s.storeHbm cell l n hint, 0, false)
      | none => (s, 0, false)
    | .atom aop w b =>
      let (s, old) := s.atomic pa aop w b
      (home s, old, false)
    | .cas e x =>
      let (s, old) := s.compareSwap pa n e x
      (home s, old, false)

/-- A write of a thread's lane as it waits at its home: an atomic's later stores, and after an acquire every later access, come after it
(R194, R197). `rel` gives the lanes whose earlier accesses a release covers. -/
def heldOf (s : State) (i : Iss) (lane : Nat) (ls : Word) (va n : Nat) (pa : Nat) (page : Option Leaf) (hint : Nat) (op : AccOp)
    (dst : LoadDst) (rel : Word) : HeldWrite :=
  { uid := i.m.uid, job := none, lane := lane, lanes := ls, cell := i.cell, ctx := i.ctx, va := va, pa := pa, n := n, op := op,
    dst := dst, page := page, hint := hint, acq := i.acq && dst != .none, rel := rel, poison := [],
    storesAfter := if dst == .none then 0 else if i.acq then i.en else ls,
    loadsAfter := if i.acq && dst != .none then i.en else 0, told := false,
    way := if dst == .none && !(s.wayTo i.cell pa).isEmpty then some (s.wayTo i.cell pa, s.clk, s.faultAt i Cause.linkLost lane va) else none }

/-- A write of a thread's lane at its place in the device: performed, with the old value, or held, none, at its home (R229) or, a store or
RED to another die, on its way there (R248). -/
def submit (s : State) (i : Iss) (lane : Nat) (ls : Word) (va n : Nat) (pa : Nat) (page : Option Leaf) (hint : Nat) (op : AccOp)
    (dst : LoadDst) : State × Option (Nat × Bool) :=
  let h := s.heldOf i lane ls va n pa page hint op dst i.rel
  if s.mustHold s.heldW i.m.uid ls none pa n (dst != .none) i.rel || h.way.isSome then
    ((if h.way.isSome then s.countTrip i.dieNo (dieOfPa pa) else s).hold h, none)
  else
    let (s, x, tg) := (s.fly i.m.uid lane i.cell va (.dev pa page)).access i.cell i.ctx va n (.dev pa page) hint h.acq op
    (s, some (x, tg))

/-- A load performed: its value and its tag written to its destination, and the value. -/
def loadValue (s : State) (uid cell ctx : Nat) (a : HeldAcc) : State × Nat :=
  let t : Target := .dev a.pa a.page
  let (s, x, tg) := (s.fly uid a.lane cell a.va t).access cell ctx a.va a.n t a.hint a.acq a.op
  (s.setDst uid a.lane a.dst x tg, x)

/-- A load performed; the scale of an LDF is followed by its element (R352). -/
def loadNow (s : State) (uid cell ctx : Nat) (a : HeldAcc) : State :=
  match a.next with
  | none => (s.loadValue uid cell ctx a).1
  | some _ =>
    let (s, x) := s.loadValue uid cell ctx { a with dst := .none }
    match a.follow x with
    | some b => (s.loadValue uid cell ctx b).1
    | none => s

/-- Whether a load that belongs to some lanes of a thread's member waits behind their own held writes (R191, R193, R197, R229). -/
def loadWaits (s : State) (uid : Nat) (ls : Word) (pa n : Nat) (rel : Word) : Bool :=
  s.follows s.heldW uid ls none pa n true false rel

/-- The loads of a word performed, or all of them held when one must wait: a cause that one meets then still leaves every lane unwritten
(R149). An acquire keeps the copies that it read (R240). -/
def loadAll (s : State) (i : Iss) (accs : List HeldAcc) : State × List HeldAcc :=
  let parts := accs.flatMap HeldAcc.parts
  if parts.any fun a => s.loadWaits i.m.uid a.lanes a.pa a.n a.rel then (s, accs)
  else
    let t := accs.foldl (fun s a => s.loadNow i.m.uid i.cell i.ctx a) s
    (if i.acq then t.acquire i.cell (parts.map fun a => a.pa / 128) else t, [])

/-- Whether a block that a member has lent holds one of some registers (R68). -/
def lentHit (m : Member) (rs : List Nat) : Bool := m.lent.any fun b => rs.any fun r => decide (32 ≤ r) == b.1

/-! ### Held writes performed (R68, R229) -/

/-- The bytes of a held write put in memory. -/
def writeHeld (s : State) (e : HeldWrite) : State :=
  match e.op.newVal e.n (s.num e.pa e.n) with
  | some x => s.rawWrite e.pa (toBytes e.n x)
  | none => s

/-- Memory as it stands once some of the held writes have been performed: what an access that comes after them finds. -/
def afterHeld (s : State) (p : HeldWrite → Bool) : State := (s.heldW.filter p).foldl writeHeld s

/-- Whether a held write belongs to an enabled lane of a word. -/
def ownHeld (i : Iss) (e : HeldWrite) : Bool := e.uid == i.m.uid && e.job.isNone && e.lanes &&& i.en != 0

/-- Whether a held write can be performed, `before` being those that came before it and stay: an atomic's destination must not be lent
either (R68), and one on its way has had time to arrive (log 83). -/
def heldGoes (s : State) (before : List HeldWrite) (h : HeldWrite) : Bool :=
  !s.mustHold before h.uid h.lanes h.job h.pa h.n (h.dst != .none) h.rel && !(before.any fun e => s.sameWords h.pa h.n e.pa e.n) &&
    !s.linesWait h.pa h.n (h.page.map fun l => cohMode l.coh) && !((s.byUid h.uid).any fun m => lentHit m h.dst.regs) &&
    h.way.all fun w => w.2.1 < s.clk

/-- A held write performed: a thread's runs its transaction and returns its old value; a job's or the host's goes through the
home. An ATOM or CAS that meets poison by then stores nothing, and its destination takes the poison (R148, R149, log 97). -/
def performHeld (s : State) (h : HeldWrite) : State :=
  if h.uid == 0 then
    match h.op with
    | .store x tg => (s.put h.pa (toBytes h.n x) tg h.poison).touchHome h.pa h.n true (h.page.map fun l => cohMode l.coh)
    | _ => s
  else
    let t : Target := .dev h.pa h.page
    if h.dst == .none then (s.access h.cell h.ctx h.va h.n t h.hint false h.op).1
    else if s.poisoned h.pa h.n then s.modUid h.uid fun m => m.poisonRegs h.lane h.dst.regs
    else
      let (s, x, tg) := (s.fly h.uid h.lane h.cell h.va t).access h.cell h.ctx h.va h.n t h.hint h.acq h.op
      (if h.acq then s.acquire h.cell [h.pa / 128] else s).setDst h.uid h.lane h.dst x tg

/-- Every held write that can be performed is, in the order in which they came; one that stays asks for the protocol of its page
(R246). Then what their lanes have done for their teams takes place (R207). -/
def drainHeld (s : State) : State :=
  let r := s.heldW.foldl (fun (a : State × List HeldWrite) h =>
    if a.1.heldGoes a.2 h then (a.1.performHeld h, a.2)
    else (if isHbm h.pa then a.1.markConv (h.pa / 128) (h.page.map fun l => cohMode l.coh) else a.1, a.2 ++ [h])) (s, [])
  ({ r.1 with heldW := r.2 }).settleLate

/-! ### Region lanes (R219) -/

/-- The words of a region's access brought into its cell's L1 (R220, R237). -/
def cellReads (s : State) (cell pa n : Nat) : State :=
  if (s.l1 cell (pa / 128)).valid &&& spanOf pa n == spanOf pa n then s
  else s.dirRead cell (pa / 128) (sectorSpan pa n &&& ~~~(s.l1 cell (pa / 128)).valid)

/-- One access of a lane's open region y to a GLOBAL address whose capability steps have passed: tracked by the region, held, or the region
aborted. A RED (`quiet`) consumes no poison (R149). A CAS makes the edges of a write whatever it finds (log 103). -/
def regionAt (s : State) (i : Iss) (y a n : Nat) (op : AccOp) (quiet : Bool) : State × RegAcc :=
  let d := i.dieNo
  let ab (c : Cause) : State × RegAcc := (s.abortRegion d y c, .aborted)
  match s.locate i.ctx i.cell spGlobal a op.reads op.writes with
  | .error c => ab c
  | .ok (.dev pa (some l)) =>
    if dieOfPa pa != d || !isHbm pa then ab Cause.regionRemote
    else if l.coh != 0 then ab Cause.regionMemory
    else if op.reads && !quiet && s.regPoisoned d pa n then ab Cause.poison
    else
      regAccess ((s.fillTlb i.cell i.ctx a l).noteLine pa (some .dir) |>.cellReads i.cell pa n) d y pa n op.reads op.writes (op.newVal n) op.tag
  | .ok _ => ab Cause.regionMemory

/-- One access of a lane with an open region through a capability: checked, and then made. The causes of R219 stand in the order of log 104. -/
def regionLane (s : State) (i : Iss) (c : Cap) (spaces : List Nat) (perm : BitVec 8) (n lane a : Nat) (op : AccOp) (quiet : Bool) :
    State × RegAcc :=
  match s.regionOf i.dieNo i.m.uid lane with
  | none => (s, .aborted)
  | some (y, _) =>
    let ab (c : Cause) : State × RegAcc := (s.abortRegion i.dieNo y c, .aborted)
    match s.capCheck i.ctx i.cell c spaces perm n n [(lane, a)] with
    | .error e => ab e.cause
    | .ok _ =>
      let sp := c.space.toNat
      if sp == spHost || sp == spPeer then ab Cause.regionRemote
      else if sp != spGlobal then ab Cause.regionMemory
      else s.regionAt i y a n op quiet

/-- The physical address of a region lane's access that waits. -/
def paOf (s : State) (i : Iss) (c : Cap) (a : Nat) : Nat :=
  match s.locate i.ctx i.cell c.space.toNat a false false with
  | .ok t => t.pa
  | .error _ => 0

/-- The region lanes of a word taken in increasing order; the accesses held are answered. `dst` gives each lane's
destination. -/
def regionLanesAcc (s : State) (i : Iss) (c : Cap) (spaces : List Nat) (perm : BitVec 8) (n : Nat) (op : Nat → AccOp)
    (dst : Nat → LoadDst) (lanes : List (Nat × Nat)) (quiet : Bool := false) : State × List HeldAcc :=
  lanes.foldl (fun (acc : State × List HeldAcc) p =>
    let (s, held) := acc
    let o := op p.1
    let (s, r) := s.regionLane i c spaces perm n p.1 p.2 o quiet
    match r with
    | .done old =>
      let tg := match s.regionOf i.dieNo i.m.uid p.1 with
        | some (y, _) => regTag s i.dieNo y (s.paOf i c p.2)
        | none => false
      (if o.reads then s.setDst i.m.uid p.1 (dst p.1) old tg else s, held)
    | .wait src => (s, held ++ [⟨p.1, laneMask p.1, s.paOf i c p.2, n, src, true, o, dst p.1, none, p.2, 0, false, 0, none⟩])
    | .aborted => (s, held)) (s, [])

/-- The region lanes of a load that acts once (R191, R219): its register takes the value of the lowest lane whose access is performed. A lane
whose access is held keeps the register for itself, and writes it last. -/
def regionOnce (s : State) (i : Iss) (c : Cap) (spaces : List Nat) (perm : BitVec 8) (n : Nat) (dst : LoadDst) (lanes : List (Nat × Nat)) :
    State × List HeldAcc :=
  let r := lanes.foldl (fun (acc : (State × List HeldAcc) × LoadDst) p =>
    let (s', h) := acc.1.1.regionLanesAcc i c spaces perm n (fun _ => .load) (fun _ => acc.2) [p]
    let alive := (s'.regionLanes i.cell i.m.uid).getLsbD p.1
    ((s', acc.1.2 ++ h), if alive && h.isEmpty then .none else acc.2)) ((s, []), dst)
  r.1

/-! ### The frame -/

/-- Whether the solo region of a cell's die belongs to a lane of a member (R229). -/
def soloMember (s : State) (cell uid : Nat) : Bool :=
  ((s.die (dieOfCell cell)).soloHolder.bind fun n => FMap.find? (s.die (dieOfCell cell)).regions n).any fun r => r.uid == uid

/-- Whether another group of a member may be current while a group waits for some accesses of its word: one of them is held for a region
(R223, R230), or the solo region behind which they wait belongs to the member (R229, log 98). -/
def turnFor (s : State) (cell uid : Nat) (held : List HeldAcc) : Bool :=
  held.any HeldAcc.inRegion || (!held.isEmpty && s.soloMember cell uid)

/-- The group of a word put to sleep. -/
def sleep (s : State) (i : Iss) (w : Wait) : State := s.modMember i.k fun m => m.modGrp i.g fun x => { x with wait := some w }

end State

/-- A memory word that loads or is atomic, in the lanes outside regions (R136, R147, R149, R212, R215): checked over all lanes,
and then performed lane by lane. The group waits for HOST and PEER requests, and for loads of which one must wait behind a held write of its
thread: then all of them wait, since a cause that one meets leaves every lane unwritten (R149). An atomic that is held waits at its home
(R229). The accesses that wait are answered. -/
def normalLanes (i : Iss) (c : Cap) (spaces : List Nat) (perm : BitVec 8) (n hint : Nat) (op : Nat → AccOp)
    (dst : Nat → LoadDst) (lanes : List (Nat × Nat)) (s : State) (once : Bool := false) : Chk (State × List HeldAcc × Nat) := do
  if lanes.isEmpty then return (s, [], 0)
  let own (l : Nat) : Word := if once then i.en else laneMask l
  let o0 := op (lanes.headD (0, 0)).1
  let sp := c.space.toNat
  s.capCheck i.ctx i.cell c spaces perm n n lanes
  if sp == spHost || sp == spPeer then
    -- one request per lane, in increasing order (R212, R300)
    let reqs := lanes.map fun p =>
      { uid := i.m.uid, group := i.g, lane := p.1, peer := sp == spPeer, addr := p.2, n := n, op := op p.1, posted := false,
        pc := i.pc, who := s.faultAt i Cause.atomicType p.1 p.2 : PcieReq }
    return ({ s with pcie := s.pcie ++ reqs }, [], reqs.length)
  else
    -- an SC load uses no copy that the cell took before (R200, log 66)
    let s := if i.sc && !o0.writes then s.acquire i.cell else s
    s.lateCheck i.ctx i.cell sp n o0.reads o0.writes true lanes
    let place (a : Nat) : Except Cause Target := s.reach i.ctx i.cell sp a n o0.reads o0.writes
    let accs : List HeldAcc := lanes.filterMap fun p =>
      match place p.2 with
      | .ok (.dev pa page) => some ⟨p.1, own p.1, pa, n, 0, false, op p.1, dst p.1, page, p.2, hint, i.acq, i.rel, none⟩
      | _ => none
    if !o0.writes then
      let r := s.loadAll i accs
      return (r.1, r.2, 0)
    let t := accs.foldl (fun s a =>
      match s.submit i a.lane a.lanes a.va n a.pa a.page hint a.op a.dst with
      | (s, some (x, tg)) => s.setDst i.m.uid a.lane a.dst x tg
      | (s, none) => s) s
    return (if i.acq then t.acquire i.cell (accs.map fun a => a.pa / 128) else t, [], 0)

/-- A store or RED in the lanes outside regions (R147, R381): capability and cursor checks are precise; a lane that fails a
later step queues its fault and writes nothing, and the other lanes are performed, or held at their homes (R229). -/
def storeLanes (i : Iss) (c : Cap) (spaces : List Nat) (perm : BitVec 8) (n : Nat) (rd : Bool) (hint : Nat) (op : Nat → AccOp)
    (lanes : List (Nat × Nat)) (pre : Chk Unit) (s : State) (once : Bool := false) : Chk State := do
  if lanes.isEmpty then return s
  let sp := c.space.toNat
  s.capCheck i.ctx i.cell c spaces perm n n lanes
  pre
  return lanes.foldl (fun s p =>
    match s.reach i.ctx i.cell sp p.2 n rd true with
    | .error e => s.queueFault i e p.1 p.2
    | .ok t =>
      match op p.1, t with
      | .atom aop w b, .ext peer a =>
        { s with pcie := s.pcie ++ [⟨i.m.uid, i.g, p.1, peer, a, n, .atom aop w b, true, i.pc, s.faultAt i Cause.atomicType p.1 p.2⟩] }
      | .store x _, .ext true a =>
        { s with pcie := s.pcie ++ [⟨i.m.uid, i.g, p.1, true, a, n, .store x false, true, i.pc, s.faultAt i Cause.atomicType p.1 p.2⟩] }
      | o, .dev pa page => (s.submit i p.1 (if once then i.en else laneMask p.1) p.2 n pa page hint o .none).1
      | o, t => (s.access i.cell i.ctx p.2 n t hint false o).1) s

/-- The frame of a memory word (R219): region lanes take their own accesses, the others act as outside regions; the group goes
on at the next word once no access waits. -/
def memWord (h : Hdr) (region : Iss → List Nat → State → State × List HeldAcc)
    (normal : Iss → State → Chk (State × List HeldAcc × Nat)) (dst : LoadDst) (s : State) : Out :=
  match s.iss h with
  | none => .next s
  | some i =>
    let rl := s.regionLanes i.cell i.m.uid &&& i.en
    let (s1, held1) := if rl == 0 then (s, []) else region { i with en := rl } (lanesOf rl) s
    let j := s1.reIss i (i.en &&& ~~~rl)
    match normal j s1 with
    | .error e => .next (s1.raise j e)
    | .ok (t, held2, left) =>
      let held := held1 ++ held2
      if held.isEmpty && left == 0 then .next ((t.next j).repick j.k)
      else .next ((t.sleep j (.access dst j.m.ord.isSome left [] none held (t.turnFor j.cell j.m.uid held))).repick j.k)

/-- A per-lane load or atomic word. -/
def perLaneAccess (h : Hdr) (o : MemOp) (spaces : List Nat) (perm : BitVec 8) (n hint : Nat)
    (op : Iss → Nat → AccOp) (dst : LoadDst) (pre : Iss → Chk Unit) (s : State) : Out :=
  memWord h
    (fun i ls s => s.regionLanesAcc i (i.m.creg o.cap.toNat) spaces perm n (op i) (fun _ => dst)
      (ls.map fun l => (l, i.m.addr o l)))
    (fun i s => do
      let c := i.m.creg o.cap.toNat
      if i.lanes.isEmpty then return (s, [], 0)
      s.capCheck i.ctx i.cell c spaces perm n n (i.addrs o)
      pre i
      normalLanes i c spaces perm n hint (op i) (fun _ => dst) (i.addrs o) s) dst s

/-- A load that acts once, for the lowest enabled lane's address; every region lane's region reads it too (R191). Its register is
written in the second stage when a lane without a region is enabled (R219). -/
def onceLoad (h : Hdr) (o : MemOp) (spaces : List Nat) (perm : BitVec 8) (n hint : Nat) (dst : LoadDst) (s : State) : Out :=
  memWord h
    (fun i ls s => s.regionOnce i (i.m.creg o.cap.toNat) spaces perm n (if i.m.enabled h == i.en then dst else .none)
      (ls.map fun l => (l, i.m.addr o l)))
    (fun i s =>
      normalLanes i (i.m.creg o.cap.toNat) spaces perm n hint (fun _ => .load) (fun _ => dst) ((i.addrs o).take 1) s true) dst s

end Sys2Proof.Machine
end

