-- ==== Sys2Proof/Machine/Control.lean ====
section
/-!
DEFINITION. Machine/Control.lean: branches, calls, joins and exits (R153 to R164, R317, R319, R333, R345, R363, R374, R395).
-/
namespace Sys2Proof.Machine

/-- A PC-relative target of a signed word count (R97). -/
def relTarget (pc : Addr) (n w : Nat) : Addr := BitVec.ofNat 57 (modN (pc.toNat + 8 * sextN n w) 57)

/-- The join a word count names, none for 0 (R156, R164). -/
def joinTarget (pc : Addr) (n w : Nat) : Option Addr := if n % 2 ^ w == 0 then none else some (relTarget pc n w)

namespace State

/-- The free entries of a cell's split table, lowest first (R153). -/
def freeSplits (s : State) (cell : Nat) : List Nat :=
  let used := (s.members.filter fun e => cellOf e.1 == cell).flatMap fun e => FMap.keys e.2.subs
  (List.range 64).filter fun n => !used.contains n

/-- The current group of a member split into parts in service order (R157). -/
def splitCur (s : State) (k : Nat) (parts : List (Addr × Word)) (jn : Option Addr) : State :=
  let free := s.freeSplits (cellOf k)
  s.modMember k fun m => m.split parts jn free

/-- The current group's PC set. -/
def gotoCur (s : State) (k : Nat) (a : Addr) : State := s.modMember k fun m => m.goto a

end State

/-- BRA (R156). -/
def execBra (h : Hdr) (tgt : BitVec 20) (join : BitVec 16) (s : State) : Out :=
  runWord .usual h (fun i s =>
    let t := relTarget i.pc tgt.toNat 20
    let j := joinTarget i.pc join.toNat 16
    if i.en == i.mask then .ok (s.gotoCur i.k t)
    else if i.en == 0 then .ok (s.next i)
    else .ok (s.splitCur i.k [(nextPc i.pc, i.mask &&& ~~~i.en), (t, i.en)] j)) s

/-- The parts of a BRX in service order (R157, R164): lanes that stay at the next word first, then the targets by the smallest
index that names them. `ts` holds lane, index and target. -/
def brxParts (i : Iss) (ts : List (Nat × Nat × Addr)) : List (Addr × Word) :=
  let stay := i.mask &&& ~~~i.en
  let next := nextPc i.pc
  let lanesTo (a : Addr) : Word := maskOf ((ts.filter fun t => t.2.2 == a).map Prod.fst)
  let order := ((List.range 64).flatMap fun n => (ts.filter fun t => t.2.1 == n).map fun t => t.2.2).eraseDups
  let first := stay ||| lanesTo next
  (if first == 0 then [] else [(next, first)]) ++ ((order.filter (· != next)).map fun a => (a, lanesTo a))

/-- The index of a lane in a BRX, and the address of its table entry (R164). -/
def brxIndex (i : Iss) (idx : Src) (l : Nat) : Int := sextN (modN (i.m.idxVal idx l) 32) 32
def brxAddr (i : Iss) (cap : BitVec 4) (idx : Src) (off : BitVec 8) (l : Nat) : Nat :=
  modN ((i.m.creg cap.toNat).cursor.toNat + 8 * brxIndex i idx l + sextN off.toNat 8) 64

/-- BRX (R164). The address reported with a misaligned target is the target's (log 68). -/
def execBrx (h : Hdr) (n : BitVec 6) (cap : BitVec 4) (idx : Src) (off : BitVec 8) (join : BitVec 8) (s : State) : Out :=
  runWord .usual h (fun i s => do
    if i.en == 0 then return s.next i
    let ix := brxIndex i idx
    match i.lanes.find? fun l => decide (ix l < 0) || decide ((n.toNat : Int) < ix l) with
    | some l => throw { cause := Cause.brxIndex, lane := some l }
    | none => pure ()
    let c := i.m.creg cap.toNat
    let lanes := i.lanes.map fun l => (l, brxAddr i cap idx off l)
    s.capCheck i.ctx i.cell c [spGlobal] permX 8 8 lanes
    s.lateCheck i.ctx i.cell spGlobal 8 true false true lanes
    let r := lanes.foldl (fun (acc : State × List (Nat × Nat × Addr)) p =>
      let (s, ts) := acc
      match s.reach i.ctx i.cell spGlobal p.2 8 true false with
      | .error _ => (s, ts)
      | .ok t =>
        let (s, x, _) := (s.fly i.m.uid p.1 i.cell p.2 t).access i.cell i.ctx p.2 8 t 0 false .load
        (s, ts ++ [(p.1, (ix p.1).toNat, BitVec.ofNat 57 x)])) (s, [])
    match r.2.find? fun t => t.2.2.toNat % 8 != 0 with
    | some t => throw { cause := Cause.pcAlign, lane := some t.1, addr := t.2.2.toNat }
    | none => pure ()
    match brxParts i r.2 with
    | [] => return r.1
    | [(a, _)] => return r.1.gotoCur i.k a
    | ps => return r.1.splitCur i.k ps (joinTarget i.pc join.toNat 8)) s

/-- CALL (R319): the whole group goes, when any lane is enabled. -/
def execCall (h : Hdr) (sd : BitVec 6) (tgt : BitVec 20) (s : State) : Out :=
  runWord .usual h (fun i s =>
    if i.en == 0 then .ok (s.next i)
    else .ok ((s.modMember i.k fun m => m.setS sd.toNat ((nextPc i.pc).setWidth 64)).gotoCur i.k (relTarget i.pc tgt.toNat 20))) s

/-- RET (R374). -/
def execRet (h : Hdr) (sa : BitVec 6) (s : State) : Out :=
  runWord .usual h (fun i s =>
    if i.en == 0 then .ok (s.next i)
    else
      let t : Addr := (i.m.sreg sa.toNat).setWidth 57
      if t.toNat % 8 != 0 then .error { cause := Cause.pcAlign }
      else .ok (s.gotoCur i.k t)) s

/-- JOIN (R159). A scalar thread passes. -/
def execJoin (ec : BitVec 2) (s : State) : Out :=
  runWord .usual ⟨ec, false, 7⟩ (fun i s =>
    .ok ((s.modMember i.k fun m => if m.scalar then m.advance else m.joinAt).departed i.k)) s

/-- Whether a team has a live child launch: posted and not read, or not yet retired (R38, R392). -/
def State.hasChildren (s : State) (ctx h : Nat) : Bool :=
  (s.launches.any fun l => l.ctx == ctx && l.parent == some h) || s.posted.any fun p => p.ctx == ctx && p.parent == h

/-- Lanes of the current group leave by EXIT (R161): q0, the group, the live count, which falls after an arrival of theirs that waits
(R207). -/
def State.exitLanes (s : State) (k : Nat) (m : Member) (ls : Word) : State :=
  (if s.late.any fun e => e.uid == m.uid && e.lanes &&& ls != 0 then s.forLanes m ls (.leave (laneCount ls))
   else s.dropLive m.ctx m.team (laneCount ls)).leaveLanes k ls

/-- EXIT (R161, R333). When the count would reach zero with children still live, the last thread parks (R38): the lanes below it
leave and it sleeps. -/
def execExit (h : Hdr) (s : State) : Out :=
  runWord (.forbid Cause.regionForbidden) h (fun i s =>
    let s1 := s.next i
    if i.en == 0 then .ok s1
    else
      let live := ((s.team? i.ctx i.m.team).map Team.live).getD 0
      if live ≤ laneCount i.en && s.hasChildren i.ctx i.m.team then
        let last := laneMask (i.lanes.getLastD 0)
        let others := i.en &&& ~~~last
        let s2 := if others == 0 then s else s.exitLanes i.k i.m others
        .ok (s2.sleep i (.exitPark last))
      else .ok (s1.exitLanes i.k i.m i.en)) s

/-- EXIT.TEAM (R255): once. While a trap is being handled the launch is marked failed and the trap logged. -/
def execExitTeam (h : Hdr) (s : State) : Out :=
  runWord (.forbid Cause.regionForbidden) h (fun i s =>
    let s1 := s.next i
    if i.en == 0 then .ok s1
    else
      match s.team? i.ctx i.m.team with
      | none => .ok s1
      | some t =>
        let s2 := s1.endTeam t.ctx t.handle
        if t.trap.v then .ok ((s2.failLaunch t.ctx t.lid).logFault (State.trapLog t t.trap.cause 0 t.trap))
        else .ok s2) s

/-- NOP (R363). -/
def execNop (h : Hdr) (s : State) : Out := stepWord .usual h (fun _ s => .ok s) s

/-- YLD (R395): the group stops being current and takes a new stamp; in serial mode it stays. The rotation over members serves another slot
next, and the cell remembers the slot that yielded. -/
def execYld (h : Hdr) (s : State) : Out :=
  runWord (.forbid Cause.regionForbidden) h (fun i s =>
    let s := s.next i
    if i.en == 0 then .ok s
    else
      let s := { s.modMember i.k Member.yield with turn := i.k + 1 }
      .ok (s.modCell i.cell fun c => { c with yielded := slotOf i.k :: c.yielded })) s

end Sys2Proof.Machine
end

