-- ==== Sys2Proof/Machine/Send.lean ====
section
/-!
DEFINITION. Machine/Send.lean: continuation records (R19 to R23): their bytes, where they arrive (R29, R30, R284), the record
pool (R30), and whether a record that an instruction sends finds room.
-/
namespace Sys2Proof.Machine

/-- The two header words of a record (R19). -/
def Rec.word0 (r : Rec) : Nat :=
  r.entry.toNat * 2 ^ 16 + r.depth.toNat * 2 ^ 12 + r.kind.toNat * 2 ^ 8 + r.rsv.toNat * 4 + b2n r.spill * 2 + b2n r.ldr
def Rec.word1 (r : Rec) : Nat := r.team.toNat * 2 ^ 40 + r.ctx.toNat * 2 ^ 34 + r.seq.toNat

/-- The 64 bytes of a record (R19). -/
def Rec.bytes (r : Rec) : List Byte :=
  toBytes 8 r.word0 ++ toBytes 8 r.word1 ++ (List.range 12).flatMap fun n => toBytes 4 ((r.a.getD n 0).toNat)

/-- The record that 64 bytes hold, with what the device keeps beside them (R19). -/
def Rec.ofBytes (bs : List Byte) (owner : Nat) (setq : Option (BitVec 3 × Bool)) : Rec :=
  let w0 := Sys2Proof.ofBytes (bs.take 8)
  let w1 := Sys2Proof.ofBytes ((bs.drop 8).take 8)
  { entry := BitVec.ofNat 48 (w0 / 2 ^ 16), depth := BitVec.ofNat 4 (w0 / 2 ^ 12), kind := BitVec.ofNat 4 (w0 / 2 ^ 8),
    rsv := BitVec.ofNat 6 (w0 / 4), spill := w0.testBit 1, ldr := w0.testBit 0, team := BitVec.ofNat 24 (w1 / 2 ^ 40),
    ctx := BitVec.ofNat 6 (w1 / 2 ^ 34), seq := BitVec.ofNat 34 w1,
    a := (List.range 12).map fun n => BitVec.ofNat 32 (Sys2Proof.ofBytes ((bs.drop (16 + 4 * n)).take 4)), owner := owner, setq := setq }

/-- The entry address of a record. -/
def Rec.pc (r : Rec) : Addr := BitVec.ofNat 57 (r.entry.toNat * 8)

/-- ENTRY of a target address (R19). -/
def entryOf (a : Nat) : BitVec 48 := BitVec.ofNat 48 (a / 8)

/-- A SEQ comes before another by serial-number arithmetic (R21). -/
def seqLt (a b : BitVec 34) : Bool := a != b && (b - a).toNat < 2 ^ 33

/-- The spilled record with the lowest SEQ (R29). -/
def lowestSeq : List Spilled → Option Spilled
  | [] => none
  | p :: t =>
    match lowestSeq t with
    | some q => if seqLt q.seq p.seq then some q else some p
    | none => some p

/-- A record inserted ahead of the first newer one of its team (R30). -/
def insertBySeq (r : Rec) : List Rec → List Rec
  | [] => [r]
  | x :: t => if x.owner == r.owner && x.team == r.team && seqLt r.seq x.seq then r :: x :: t else x :: insertBySeq r t

/-- A bucket's key. -/
def Bucket.hasKey (b : Bucket) (r : Rec) : Bool := b.ctx == r.owner && b.team == r.team.toNat && b.entry == r.entry

/-- Buckets with a record added to the first one that has its key and room; none when there is no such bucket. -/
def joinBucket (r : Rec) : List Bucket → Option (List Bucket)
  | [] => none
  | b :: t =>
    if Bucket.hasKey b r && b.recs.length < 32 then
      let b := { b with recs := b.recs ++ [r] }
      some ({ b with ready := b.ready || b.recs.length == 32 } :: t)
    else (joinBucket r t).map (b :: ·)

/-- A new bucket for a record at a time. -/
def newBucket (r : Rec) (clk : Nat) : Bucket := ⟨r.owner, r.team.toNat, r.entry, [r], clk, false⟩

namespace State

/-! ### The pool -/

/-- The physical address of a pool slot of a context, none where entry 255 or its pages do not give one (R30, log 27). -/
def poolPa (s : State) (ctx slot : Nat) : Option Nat :=
  let c := s.capEntry ctx 255
  if !c.tag || c.space.toNat != spGlobal then none
  else
    match s.walk 64 ctx (c.base + 64 * (slot + 1)) walkLevels (tableAddr (s.ctx ctx).root) with
    | .ok l => if isHbm l.pa && l.w then some l.pa else none
    | .error _ => none

/-- Slots of the pool of a context (R30, R298). -/
def poolSlots (s : State) (ctx : Nat) : Nat := (s.ctx ctx).poolsz.toNat / 64 - 1

/-- The lowest free slot, if its memory is there. -/
def freePool (s : State) (ctx : Nat) : Option (Nat × Nat) :=
  match firstFree (min (s.poolSlots ctx) ((s.ctx ctx).spilled.length + 1)) fun n => (s.ctx ctx).spilled.any fun p => p.slot == n with
  | none => none
  | some n => (s.poolPa ctx n).map fun pa => (n, pa)

/-- A record written to the pool with SPILL set (R29, R30); none when the pool is full. A solo region that has read the slot holds the write
(R229). -/
def spillRec (s : State) (dst : PoolTarget) (r : Rec) (o : Origin) : Option State :=
  let x := r.owner
  match s.freePool x with
  | none => none
  | some (n, pa) =>
    let s := s.devWrite pa { r with spill := true }.bytes
    let p : Spilled :=
      { slot := n, tgt := dst, seq := r.seq, setq := r.setq, team := r.team.toNat, orig := o }
    some (s.modCtx x fun c => { c with spilled := c.spilled ++ [p] })

/-- A spilled record read back, its slot freed (R30). -/
def unspill (s : State) (ctx : Nat) (p : Spilled) : State × Rec :=
  let bs := match s.poolPa ctx p.slot with
    | some pa => s.bytes pa 64
    | none => []
  (s.modCtx ctx fun c => { c with spilled := c.spilled.filter fun q => q.slot != p.slot }, Rec.ofBytes bs ctx p.setq)

/-- Whether the write of a spilled record is still held at its home (R229). -/
def slotHeld (s : State) (ctx slot : Nat) : Bool :=
  match s.poolPa ctx slot with
  | some pa => s.heldW.any fun e => s.sameWords pa 64 e.pa e.n
  | none => false

/-- Whether an arrival at a place waits: for a held write that the record's sender has released (R25, log 69), or for the held write of a
spilled record bound for the place, which comes first (R29, R30). -/
def arrivalWaits (s : State) (dst : PoolTarget) : Bool :=
  !s.heldW.isEmpty && (s.told || s.ctxs.any fun e : Nat × Ctx => e.2.spilled.any fun p => p.tgt == dst && s.slotHeld e.1 p.slot)

/-- The spilled records of a context bound for a place that can be read back. -/
def spilledOf (s : State) (ctx : Nat) (dst : PoolTarget) : List Spilled :=
  (s.ctx ctx).spilled.filter fun p => p.tgt == dst && (s.heldW.isEmpty || !s.slotHeld ctx p.slot)

/-- The spilled records bound for a place, with their contexts. -/
def spilledFor (s : State) (dst : PoolTarget) : List (Nat × List Spilled) :=
  (s.ctxs.map fun e : Nat × Ctx => (e.1, s.spilledOf e.1 dst)).filter fun e => !e.2.isEmpty

/-- The first context after another, in turn. -/
def nextInTurn (last : Nat) (l : List (Nat × List Spilled)) : Option (Nat × List Spilled) :=
  match l.find? fun e => last < e.1 with
  | some e => some e
  | none => l.head?

/-! ### Arrivals -/

/-- A free bucket of a cluster filled with spilled records: the contexts in turn, the lowest SEQ first, and with it the records of
its key (R29). -/
def refillBucket (s : State) (c : Nat) : Option State :=
  let k := s.cluster c
  if 64 ≤ k.buckets.length then none
  else
    match nextInTurn k.lastPool (s.spilledFor (.carousel c)) with
    | none => none
    | some (x, ps) =>
      match lowestSeq ps with
      | none => none
      | some p =>
        let (s, r) := s.unspill x p
        let s := s.modCluster c fun k => { k with buckets := k.buckets ++ [newBucket r s.clk], lastPool := x }
        -- records of the same key follow in SEQ order
        some ((List.range 31).foldl (fun s _ =>
          let more := (s.spilledOf x (.carousel c)).filter fun q =>
            Bucket.hasKey (newBucket r 0) (s.unspill x q).2
          match lowestSeq more with
          | none => s
          | some q =>
            let (s', r') := s.unspill x q
            match joinBucket r' (s'.cluster c).buckets with
            | some bs => s'.modCluster c fun k => { k with buckets := bs }
            | none => s) s)

/-- Free buckets filled while spilled records wait for them. -/
def settleCarousel : Nat → State → Nat → State
  | 0, s, _ => s
  | f + 1, s, c =>
    match s.refillBucket c with
    | some s' => settleCarousel f s' c
    | none => s

/-- A record arrives at a Carousel (R29); none when it must spill to a full pool. -/
def arriveCarousel (s : State) (c : Nat) (r : Rec) : Option State :=
  let s := settleCarousel 64 s c
  match joinBucket r (s.cluster c).buckets with
  | some bs => some (s.modCluster c fun k => { k with buckets := bs })
  | none =>
    if (s.cluster c).buckets.length < 64 then
      some (s.modCluster c fun k => { k with buckets := k.buckets ++ [newBucket r s.clk] })
    else s.spillRec (.carousel c) r Origin.none

/-- A spilled record comes back to a ready queue with room (R30): the lowest-numbered context that waits comes first (log 71). -/
def refillReady (s : State) (cell : Nat) : Option State :=
  if 128 ≤ (s.cell cell).ready.length then none
  else
    match s.spilledFor (.ready cell) with
    | [] => none
    | (x, ps) :: _ =>
      match lowestSeq ps with
      | none => none
      | some p =>
        let (s, r) := s.unspill x p
        some (s.modCell cell fun c => { c with ready := insertBySeq r c.ready })

def settleReady : Nat → State → Nat → State
  | 0, s, _ => s
  | f + 1, s, c =>
    match s.refillReady c with
    | some s' => settleReady f s' c
    | none => s

/-- A record arrives at a scalar ready queue (R30). -/
def arriveReady (s : State) (cell : Nat) (r : Rec) : Option State :=
  let s := settleReady 128 s cell
  if (s.cell cell).ready.length < 128 then some (s.modCell cell fun c => { c with ready := c.ready ++ [r] })
  else s.spillRec (.ready cell) r Origin.none

/-- A spilled handler record comes back to its die's queue (R284). -/
def refillHandler (s : State) (d : Nat) : Option State :=
  if 1024 ≤ (s.die d).hq.length then none
  else
    match s.spilledFor (.handler d) with
    | [] => none
    | (x, ps) :: _ =>
      match lowestSeq ps with
      | none => none
      | some p =>
        let (s, r) := s.unspill x p
        some (s.modDie d fun k => { k with hq := k.hq ++ [⟨r, p.orig, 0⟩] })

def settleHandler : Nat → State → Nat → State
  | 0, s, _ => s
  | f + 1, s, d =>
    match s.refillHandler d with
    | some s' => settleHandler f s' d
    | none => s

/-- One message of a member delivered: its MSG count falls, and a member that only waited for that leaves (R33, R168). -/
def msgDone (s : State) (uid : Nat) : State :=
  let s := s.modUid uid fun m => m.drop 4
  match s.slotOfUid uid with
  | some k => s.reap k
  | none => s

/-- A handler record is queued, or spilled; the MSG count of its sender falls either way (R284, R286). -/
def arriveHandler (s : State) (d : Nat) (h : HandlerRec) : Option State :=
  let s := settleHandler 1024 s d
  let done (s : State) : State := s.msgDone h.uid
  if (s.die d).hq.length < 1024 then some (done (s.modDie d fun k => { k with hq := k.hq ++ [h] }))
  else (s.spillRec (.handler d) h.rcd h.orig).map done

/-- A record arrives where it re-enters. -/
def arrive (s : State) (dst : PoolTarget) (r : Rec) : Option State :=
  match dst with
  | .carousel c => s.arriveCarousel c r
  | .ready c => s.arriveReady c r
  | .handler d => s.arriveHandler d ⟨r, Origin.none, 0⟩

/-- Every record on its way, and every record waiting in a steal mailbox, arrived: what a later record will find. R30 does not say whether a
requester's record that still waits for its answer takes room; it counts here as arrived (log 86). -/
def afterFlight (s : State) : State :=
  let go (s : State) (dst : PoolTarget) (r : Rec) : State := (s.arrive dst r).getD s
  let s := s.clusters.foldl (fun s e => e.2.inbound.foldl (fun s r => go s (.carousel e.1) r) s) s
  let s := s.cells.foldl (fun s e => e.2.inbound.foldl (fun s r => go s (.ready e.1) r) s) s
  let s := s.cells.foldl (fun s e => e.2.steal.foldl (fun s q => q.2.foldl (fun s r => go s r.dst r.rcd) s) s) s
  s.dies.foldl (fun s e => e.2.hin.foldl (fun s h => (s.arriveHandler e.1 h).getD s) s) s

/-- Whether a record that is sent now finds room (R30, R284). -/
def hasRoom (s : State) (dst : PoolTarget) (r : Rec) : Bool := (s.afterFlight.arrive dst r).isSome

/-! ### Making a record -/

/-- The next SEQ of a context (R21). -/
def takeSeq (s : State) (ctx : Nat) : State × BitVec 34 :=
  (s.modCtx ctx fun c => { c with seq := c.seq + 1 }, (s.ctx ctx).seq)

/-- The record of a lane (R23, R32). -/
def laneRec (s : State) (i : Iss) (lane : Nat) (entry : Nat) (kind : Nat) (ldr : Bool) : State × Rec :=
  let (s, q) := s.takeSeq i.ctx
  let depth := ((s.team? i.ctx i.m.team).map Team.depth).getD 0
  (s, { entry := entryOf entry, depth := BitVec.ofNat 4 depth, kind := BitVec.ofNat 4 kind, rsv := 0, spill := false, ldr := ldr,
        team := BitVec.ofNat 24 i.m.team, ctx := BitVec.ofNat 6 i.ctx, seq := q,
        a := (List.range 12).map fun n => i.m.vreg lane n, owner := i.ctx, setq := none })

/-- Where the threads of a member re-enter: its cluster's Carousel, or its cell's ready queue (R54). -/
def homeOf (i : Iss) (scalar : Bool) : PoolTarget := if scalar then .ready i.cell else .carousel (clusterOfCell i.cell)

/-- A member's lane that leaves gives up LDR with its record. -/
def clearLdr (s : State) (k : Nat) (ls : Word) : State := s.modMember k fun m => { m with ldr := m.ldr &&& ~~~ls }

end State
end Sys2Proof.Machine
end

