-- ==== Sys2Proof/Machine/Spawn.lean ====
section
/-!
DEFINITION. Machine/Spawn.lean: SPAWN, GATHER, MIGR and SUSP (R32, R33, R340, R357, R379, R384), STEAL (R54, R380, R383), ENQ
(R55, R330, R331), REFILL (R162, R163, R372, R373), LAUNCH and WAITCH (R35, R348, R392).
-/
namespace Sys2Proof.Machine

/-- Trap of a word that has had part of its effect: the failing lanes stay at the word (R33). -/
def State.raiseHere (s : State) (i : Iss) (en : Word) (e : Exn) : State := s.raise (s.reIss i en) e

/-- What a loop over lanes that send records has done: the lanes sent, and the lane that met a full pool. -/
structure Sent where
  s : State
  sent : Word := 0
  failed : Option Nat := none

/-- Lanes taken in order until one meets a full pool: `one` answers none for that lane. -/
def sendLoop (one : State → Nat → Option State) (lanes : List Nat) (s : State) : Sent :=
  lanes.foldl (fun a l =>
    match a.failed with
    | some _ => a
    | none =>
      match one a.s l with
      | some s' => { a with s := s', sent := a.sent ||| laneMask l }
      | none => { a with failed := some l }) { s := s }

/-- The end of a word whose lanes leave with their records (R33): the rest goes on at pc + 8, or traps at the word. -/
def leaveSent (i : Iss) (a : Sent) (leaves : Bool) : State :=
  match a.failed with
  | some l =>
    let s := if leaves && a.sent != 0 then (a.s.clearLdr i.k a.sent).leaveLanes i.k a.sent else a.s
    s.raiseHere i (i.en &&& ~~~a.sent) { cause := Cause.poolExhausted, lane := some l }
  | none =>
    let s := a.s.next i
    if leaves then (s.clearLdr i.k a.sent).leaveLanes i.k a.sent else s

/-! ### SPAWN, GATHER, MIGR, SUSP -/

/-- The check of a target's mark (R32). -/
def markCheck (s : State) (ctx : Nat) (target : Nat) (accepted : List Nat) : Chk Nat :=
  match s.markKind ctx target with
  | none => .error { cause := Cause.unmarkedTarget }
  | some k => if accepted.contains k then .ok k else .error { cause := Cause.targetKind }

/-- The region stage of a suspending word (R26, R32): its target's mark is checked first. -/
def suspendUse (c : Chk Nat) : InRegion :=
  match c with
  | .ok _ => .forbid Cause.suspendInRegion
  | .error e => .forbid e.cause

/-- The oldest steal request of a scalar thread's slot taken (R54). -/
def State.takeThief (s : State) (k : Nat) : Option (State × StealReq) :=
  match FMap.get [] (s.cell (cellOf k)).steal (slotOf k) with
  | [] => none
  | q :: rest => some (s.modCell (cellOf k) fun c => { c with steal := FMap.put [] c.steal (slotOf k) rest }, q)

/-- One lane's SPAWN (R54, R379): a thief takes the record's arguments, or a record is delivered and the live count rises. -/
def spawnLane (i : Iss) (entry : Nat) (dst : PoolTarget) (s : State) (l : Nat) : Option State :=
  match s.takeThief i.k with
  | some (s', q) =>
    some (s'.sendRec q.dst { q.rcd with a := (List.range 12).map fun n => i.m.vreg l n, setq := some (q.qd, true) })
  | none =>
    let (s', r) := s.laneRec i l entry 1 false
    if s.hasRoom dst r then some ((s'.sendRec dst r).raiseLive i.ctx i.m.team 1) else none

/-- One lane's record that leaves with it. -/
def suspendLane (i : Iss) (entry kind : Nat) (dst : PoolTarget) (s : State) (l : Nat) : Option State :=
  let (s', r) := s.laneRec i l entry kind (i.m.ldr.getLsbD l)
  if s.hasRoom dst r then some (s'.sendRec dst r) else none

/-- The frame of SPAWN, GATHER and MIGR (R32). -/
def targetWord (h : Hdr) (tgt : BitVec 20) (accepted : List Nat) (leaves : Bool)
    (one : Iss → Nat → Nat → State → Nat → Option State) (s : State) : Out :=
  match s.iss h with
  | none => .next s
  | some i0 =>
    let t := (relTarget i0.pc tgt.toNat 20).toNat
    let chk := markCheck s i0.ctx t accepted
    runWord (suspendUse chk) h (fun i s => do
      if i.en == 0 then return s.next i
      let k ← chk
      return leaveSent i (sendLoop (one i t k) i.lanes s) leaves) s

/-- SPAWN (R32, R379). -/
def execSpawn (h : Hdr) (tgt : BitVec 20) (s : State) : Out :=
  targetWord h tgt [1, 2, 3] false (fun i t k => spawnLane i t (State.homeOf i (k != 1))) s

/-- GATHER (R32, R340). -/
def execGather (h : Hdr) (tgt : BitVec 20) (s : State) : Out :=
  targetWord h tgt [1, 3] true (fun i t _ => suspendLane i t 3 (State.homeOf i false)) s

/-- MIGR (R32, R357). -/
def execMigr (h : Hdr) (tgt : BitVec 20) (s : State) : Out :=
  targetWord h tgt [2, 3] true (fun i t _ => suspendLane i t 2 (State.homeOf i true)) s

/-- SUSP (R384). -/
def execSusp (h : Hdr) (s : State) : Out :=
  runWord (.forbid Cause.suspendInRegion) h (fun i s =>
    if i.en == 0 then .ok (s.next i)
    else .ok (leaveSent i (sendLoop (suspendLane i (nextPc i.pc).toNat 6 (State.homeOf i i.m.scalar)) i.lanes s) true)) s

/-! ### STEAL -/

/-- The victim's slot key that sV names, none where the request is answered empty at once (R383); a slot whose thread has left and
that only waits for its jobs counts as free. -/
def stealVictim (s : State) (i : Iss) (x : Nat) : Option Nat :=
  let cell := i.dieNo * 128 + bits x 6 0
  let k := scalKey cell (bits x 11 7)
  if 2 ^ 12 ≤ x || !s.clusterOn (clusterOfCell cell) || k == i.k then none
  else
    match s.member? k with
    | none => none
    | some m =>
      if m.ctx == i.ctx && m.q0 != 0 && (FMap.get [] (s.cell cell).steal (slotOf k)).length < 4 then some k else none

/-- One lane's STEAL (R54, R383). -/
def stealLane (i : Iss) (qd : BitVec 3) (x : Nat) (s : State) (l : Nat) : Option State :=
  let (s', r) := s.laneRec i l (nextPc i.pc).toNat 6 (i.m.ldr.getLsbD l)
  let dst := State.homeOf i i.m.scalar
  if !s.hasRoom dst r then none
  else
    match stealVictim s i x with
    | none => some (s'.sendRec dst { r with setq := some (qd, false) })
    | some k =>
      some (s'.modCell (cellOf k) fun c =>
        { c with steal := FMap.put [] c.steal (slotOf k) (FMap.get [] c.steal (slotOf k) ++ [⟨r, qd, dst⟩]) })

/-- STEAL (R383). -/
def execSteal (h : Hdr) (qd : BitVec 3) (sv : Src) (s : State) : Out :=
  runWord (.forbid Cause.suspendInRegion) h (fun i s =>
    if i.en == 0 then .ok (s.next i)
    else .ok (leaveSent i (sendLoop (stealLane i qd (i.m.src64 sv)) i.lanes s) true)) s

/-! ### ENQ -/

/-- A work-graph node (R331). -/
structure Node where
  rsvOk : Bool
  ring : Nat
  entry : BitVec 48
  tdesc : Nat
  ctx : Nat
  level : Nat
  batch : Nat
  logcap : Nat
  head : Nat
  tail : Nat
  deriving DecidableEq, Repr

/-- The node that 64 bytes hold (R331). -/
def Node.ofBytes (bs : List Byte) : Node :=
  let w (n : Nat) : Nat := Sys2Proof.ofBytes ((bs.drop (8 * n)).take 8)
  { rsvOk := bits (w 0) 63 57 == 0 && bits (w 1) 3 0 == 0 && bits (w 2) 63 30 == 0 && bits (w 2) 19 14 == 0 && bits (w 2) 7 5 == 0 &&
      w 4 == 0 && w 5 == 0 && w 6 == 0 && w 7 == 0,
    ring := bits (w 0) 56 0, entry := BitVec.ofNat 48 (w 1 / 2 ^ 16), tdesc := bits (w 1) 15 4, ctx := bits (w 2) 29 24,
    level := bits (w 2) 23 20, batch := bits (w 2) 13 8, logcap := bits (w 2) 4 0, head := bits (w 3) 31 0,
    tail := bits (w 3) 63 32 }

/-- Elements in the ring. -/
def Node.count (n : Node) : Nat := (n.tail + 2 ^ 32 - n.head) % 2 ^ 32

/-- The node check of ENQ (R330). A ring that is not 64-byte aligned fails it too (log 72). -/
def Node.ok (n : Node) (ctx : Nat) : Bool :=
  n.rsvOk && n.logcap ≤ 20 && 1 ≤ n.batch && n.batch ≤ 32 && n.ctx == ctx && n.ring % 64 == 0

/-- Free places of a node's ring (R330). -/
def Node.free (n : Node) : Nat := 2 ^ n.logcap - n.count

/-- The address of a ring slot. -/
def Node.slot (n : Node) (index : Nat) : Nat := n.ring + 64 * (index % 2 ^ n.logcap)

/-- The bytes of a header in a space as their home holds them for an operation that writes 4 of them at an offset, 0 where it cannot be
reached: it comes after the held writes of its own lanes and of the word that it writes (R193, R229). -/
def State.homeBytes (s : State) (i : Iss) (sp a n off : Nat) : List Byte :=
  match s.reach i.ctx i.cell sp a n true false with
  | .ok t => (s.afterHeld fun e => State.ownHeld i e || s.sameWords (t.pa + off) 4 e.pa e.n).bytes t.pa n
  | .error _ => List.replicate n 0

/-- One indivisible operation of a cell's thread at the home of n bytes, which writes 4 of them at an offset (R162, R330): performed, or held
there (R229). `rel` gives the lanes whose earlier accesses it releases. -/
def State.homeUpdate (s : State) (i : Iss) (sp a n off x : Nat) (rel : Word) : State :=
  match s.reach i.ctx i.cell sp a n true true with
  | .ok (.dev pa page) =>
    if s.mustHold s.heldW i.m.uid i.en none (pa + off) 4 false rel then
      s.hold { s.heldOf i (lowest i.en) i.en (a + off) 4 (pa + off) (page.map fun l => { l with pa := l.pa + off }) 0 (.atom .swap 0 x) .none rel
               with way := none }
    else
      let s := s.fly i.m.uid (lowest i.en) i.cell a (.dev pa page)
      let s := match page with
        | some l => s.noteLine pa (some (cohMode l.coh))
        | none => s
      let s := s.put (pa + off) (toBytes 4 x)
      match page with
      | some l => (s.fillTlb i.cell i.ctx a l).atomHbm i.cell l n
      | none => s
  | _ => s

/-- Bytes at a GLOBAL address written as a lane of a cell's thread writes them. -/
def State.gwrite (s : State) (i : Iss) (lane va n x : Nat) : State :=
  match s.reach i.ctx i.cell spGlobal va n false true with
  | .ok (.dev pa page) => (s.submit i lane (laneMask lane) va n pa page 0 (.store x false) .none).1
  | _ => s

/-- One lane's element written to its slot (R55, R330). -/
def State.putElement (s : State) (i : Iss) (va l : Nat) : State :=
  let bs := ((List.range 12).flatMap fun n => toBytes 4 (i.m.vreg l n).toNat) ++ toBytes 16 0
  (List.range 4).foldl (fun s q => s.gwrite i l (va + 16 * q) 16 (ofBytes ((bs.drop (16 * q)).take 16))) s

/-- The checks of ENQ, and the node they found (R330). -/
def enqCheck (i : Iss) (m : MemOp) (s : State) : Chk (Nat × Node) := do
  let d := i.m.addr m (lowest i.en)
  let c := i.m.creg m.cap.toNat
  need (i.lanes.all fun l => i.m.addr m l == d) Cause.graphNode
  need (d % 64 == 0) Cause.misaligned (some (lowest i.en)) d
  s.regionCheck i.ctx i.cell c [spGlobal] (permR ||| permW ||| permAT) d 64 64
  s.lateRegion i.ctx i.cell spGlobal d 64 true true true
  let n := Node.ofBytes (s.homeBytes i spGlobal d 64 28)
  need (n.ok i.ctx) Cause.graphNode (some (lowest i.en)) d
  let lv := ((s.team? i.ctx i.m.team).map Team.level).getD 16
  need (n.level < lv) Cause.graphLevel (some (lowest i.en)) d
  let take := min n.free (laneCount i.en)
  (List.range take).foldl (fun a k => do
    a
    s.lateRegion i.ctx i.cell spGlobal (n.slot (n.tail + k)) 64 false true false) (.ok ())
  return (d, n)

/-- ENQ (R330): the first lanes append, and TAIL moves at the node's home after their elements are there; the rest suspend at the ENQ and
wait on the node. -/
def execEnq (h : Hdr) (m : MemOp) (s : State) : Out :=
  runWord (.forbid Cause.suspendInRegion) h (fun i s => do
    if i.en == 0 then return s.next i
    let (d, n) ← enqCheck i m s
    let take := min n.free (laneCount i.en)
    let s := ((i.lanes.take take).zipIdx).foldl (fun s p => s.putElement i (n.slot (n.tail + p.2)) p.1) s
    let s := s.homeUpdate i spGlobal d 64 28 ((n.tail + take) % 2 ^ 32) i.en
    let s := s.modCtx i.ctx fun c => { c with nodes := if c.nodes.contains d then c.nodes else c.nodes ++ [d] }
    let rest := i.lanes.drop take
    let s := rest.foldl (fun s l =>
      let (s, r) := s.laneRec i l i.pc.toNat 6 (i.m.ldr.getLsbD l)
      s.modCtx i.ctx fun c => { c with gwaits := c.gwaits ++ [(d, State.homeOf i i.m.scalar, r)] }) s
    let s := s.next i
    if rest.isEmpty then return s
    else return (s.clearLdr i.k (maskOf rest)).leaveLanes i.k (maskOf rest)) s

/-! ### REFILL -/

/-- A lane filled with a new thread (R23, R162): the group it joins is the current one. -/
def Member.fillLane (m : Member) (l : Nat) (a : List Word) (ldr : Bool) : Member :=
  let m := (List.range 64).foldl (fun m r => m.setV l r (a.getD r 0)) m
  let m := (List.range 6).foldl (fun m k => m.setQ (k + 1) (m.qmask (k + 1) &&& ~~~(laneMask l))) m
  let m := m.setQ 0 (m.q0 ||| laneMask l)
  let m := (List.range 4).foldl (fun m k => m.setX l k XReg.zero) m
  let m := { m with pv := m.pv.filter fun e => e.1 / 32 != l, rstat := FMap.put 0 m.rstat l 0, ldr := if ldr then m.ldr ||| laneMask l else m.ldr &&& ~~~(laneMask l) }
  m.modGrp m.cur fun g => { g with mask := g.mask ||| laneMask l }

/-- The idle lanes below n (R162). -/
def idleLanes (m : Member) (n : Nat) : List Nat := (List.range (min n 32)).filter fun l => !m.q0.getLsbD l

/-- The header of a record queue (R163). -/
structure QueueHdr where
  ok : Bool
  head : Nat
  tail : Nat
  log2 : Nat
  deriving DecidableEq, Repr

/-- The header that 24 bytes hold, and whether R163 accepts it. -/
def QueueHdr.ofBytes (bs : List Byte) : QueueHdr :=
  let w (n : Nat) : Nat := Sys2Proof.ofBytes ((bs.drop (8 * n)).take 8)
  let h := bits (w 0) 31 0
  let t := bits (w 1) 31 0
  let g := bits (w 2) 4 0
  { ok := bits (w 0) 63 32 == 0 && bits (w 1) 63 32 == 0 && bits (w 2) 63 5 == 0 && g ≤ 20 && (t + 2 ^ 32 - h) % 2 ^ 32 ≤ 2 ^ g,
    head := h, tail := t, log2 := g }

/-- Bytes in a space as a cell's thread reads them, in quarters of 16 bytes, after the held writes of its lanes (R193). -/
def State.sread (s : State) (i : Iss) (sp a : Nat) : Nat → State × List Byte
  | 0 => (s, [])
  | n + 1 =>
    let (s, bs) := s.sread i sp a n
    match s.reach i.ctx i.cell sp (a + 16 * n) 16 true false with
    | .ok t =>
      let own (e : HeldWrite) : Bool := State.ownHeld i e && s.sameWords t.pa 16 e.pa e.n
      let (s', x, _) := (s.fly i.m.uid (lowest i.en) i.cell (a + 16 * n) t).access i.cell i.ctx (a + 16 * n) 16 t 0 false .load
      (s', bs ++ if s.heldW.any own then (s.afterHeld own).bytes t.pa 16 else toBytes 16 x)
    | .error _ => (s, bs ++ toBytes 16 0)

/-- The checks of REFILL.Q, and the header they found at its home (R162); words 3 to 7 are not read (R163). -/
def refillCheck (i : Iss) (m : MemOp) (take : QueueHdr → Nat) (s : State) : Chk (Nat × QueueHdr) := do
  let c := i.m.creg m.cap.toNat
  let a := i.m.addr m (lowest i.en)
  let sp := c.space.toNat
  let spaces := [spGlobal, spSpad, spSpadw]
  let perm := permR ||| permW ||| permAT
  s.regionCheck i.ctx i.cell c spaces perm a 64 64
  s.lateRegion i.ctx i.cell sp a 64 true true false
  s.lateRegion i.ctx i.cell sp a 24 true true true
  let q := QueueHdr.ofBytes (s.homeBytes i sp a 24 0)
  need q.ok Cause.refillQueue (some (lowest i.en)) a
  let n := 64 * (2 ^ q.log2 + 1)
  s.regionCheck i.ctx i.cell c spaces perm a n 64
  s.lateRegion i.ctx i.cell sp a n true false false
  (List.range (take q)).foldl (fun acc k => do
    acc
    s.lateRegion i.ctx i.cell sp (a + 64 + 64 * ((q.head + k) % 2 ^ q.log2)) 48 true false true) (.ok ())
  return (a, q)

/-- REFILL.Q (R162). -/
def execRefillQ (h : Hdr) (d : BitVec 6) (m : MemOp) (n : Src) (s : State) : Out :=
  waveWord h (onceWord (.forbid Cause.regionForbidden) h (fun i s => do
    let idle := idleLanes i.m (i.m.src64 n)
    let take (q : QueueHdr) : Nat := min idle.length ((q.tail + 2 ^ 32 - q.head) % 2 ^ 32)
    let (a, q) ← refillCheck i m take s
    let sp := (i.m.creg m.cap.toNat).space.toNat
    let t := take q
    let s := (s.homeUpdate i sp a 24 0 ((q.head + t) % 2 ^ 32) 0).acquire i.cell
    let got := idle.take t
    let s := got.zipIdx.foldl (fun s p =>
      let (s, bs) := s.sread i sp (a + 64 + 64 * ((q.head + p.2) % 2 ^ q.log2)) 3
      s.modMember i.k fun m => m.fillLane p.1 ((chunks 4 12 bs).map fun b => BitVec.ofNat 32 (ofBytes b)) false) s
    let s := s.modMember i.k fun m => m.setLanes .n32 d.toNat (i.lanes ++ got) fun _ => t
    return s.raiseLive i.ctx i.m.team t)) s

/-- A record that R22 refuses. -/
def recFaulty (s : State) (r : Rec) : Bool :=
  r.rsv != 0 || r.depth == 0 || 10 < r.depth.toNat || 6 < r.kind.toNat || r.ctx.toNat != r.owner ||
    (match s.team? r.owner r.team.toNat with
    | some t => t.depth != r.depth.toNat
    | none => true)

/-- The trap of a faulty record in the thread that received it (R22, R162). -/
def State.recordTrap (s : State) (uid member : Nat) (lane : Nat) (pc : Addr) : State :=
  s.deliver uid
    { v := true, imp := false, oex := false, lane := BitVec.ofNat 6 lane, member := BitVec.ofNat 6 member, code := 0,
      cause := Cause.recordFormat, tpc := pc, taddr := 0, tfpc := pc, tsib := [] }

/-- Records put into lanes of a member (R23, R162): arguments, LDR, and the answer of a steal. -/
def State.fillRecords (s : State) (k : Nat) (ls : List (Nat × Rec)) : State :=
  ls.foldl (fun s p => s.modMember k fun m =>
    let m := m.fillLane p.1 p.2.a p.2.ldr
    match p.2.setq with
    | some (q, v) => m.writeQ q.toNat (laneMask p.1) (if v then laneMask p.1 else 0)
    | none => m) s

/-- REFILL.BKT (R162, R373); the records taken are acquired (R25). Of two buckets with the key, the first gives its records (log 94). -/
def execRefillBkt (h : Hdr) (d : BitVec 6) (n : Src) (s : State) : Out :=
  waveWord h (runWord (.forbid Cause.regionForbidden) h (fun i s => do
    if i.en == 0 then return s.next i
    let e := nextPc i.pc
    let _ ← markCheck s i.ctx e.toNat [1, 3]
    let c := clusterOfCell i.cell
    let idle := idleLanes i.m (i.m.src64 n)
    let key (b : Bucket) : Bool := b.ctx == i.ctx && b.team == i.m.team && b.entry == entryOf e.toNat
    let recs := ((s.cluster c).buckets.find? key).map Bucket.recs |>.getD []
    let t := min idle.length recs.length
    let rest := recs.drop t
    -- the first bucket with the key gives up its oldest records
    let rec cut : List Bucket → List Bucket
      | [] => []
      | b :: bs => if key b then (if rest.isEmpty then bs else { b with recs := rest } :: bs) else b :: cut bs
    let s := s.modCluster c fun x => { x with buckets := if t == 0 then x.buckets else cut x.buckets }
    let got := (idle.take t).zip recs
    let s := (if t == 0 then s else s.acquire i.cell).fillRecords i.k got
    let s := (s.modMember i.k fun m => m.setLanes .n32 d.toNat (i.lanes ++ got.map Prod.fst) fun _ => t).next i
    match got.find? fun p => recFaulty s p.2 with
    | some p => return s.recordTrap i.m.uid i.m.memberIdx p.1 e
    | none => return s)) s

/-! ### LAUNCH and WAITCH -/

/-- The physical place of packet i of a queue (R41, R42): host memory or device memory. -/
def Queue.packetAt (q : Queue) (i : Nat) : Bool × Nat :=
  (q.base.getLsbD 63, q.base.toNat % 2 ^ 63 + 128 * (i % 2 ^ q.logsize.toNat))

/-- Packets posted and not yet read (R42). -/
def Queue.pending (q : Queue) : Nat := (q.tail - q.head).toNat

/-- The checks of a packet's entry and shape for the launches of a context (R35, R348); a TDESC that names no descriptor passes. -/
def packetCheck (s : State) (ctx : Nat) (bs : List Byte) : Chk Unit :=
  let w0 := ofBytes (bs.take 8)
  let mk := s.markKind ctx (w0 / 2 ^ 16 * 8)
  match s.desc? ctx (bits w0 15 4) with
  | none => need mk.isSome Cause.launchEntry
  | some d => do
    need (entryFits mk d.waves d.threads) Cause.launchEntry
    need d.shapeOk Cause.teamShape

/-- The checks of LAUNCH made before any packet is read (R35, R348). -/
def launchCheck (i : Iss) (m : MemOp) (sq : BitVec 6) (s : State) : Chk Unit := do
  let c := i.m.creg m.cap.toNat
  need (i.en &&& ~~~i.m.ldr == 0) Cause.notLeader
  need (((s.team? i.ctx i.m.team).map Team.depth).getD 0 != 10) Cause.launchDepth
  stepLanes (i.addrs m) fun a => if a % 128 == 0 then none else some Cause.misaligned
  s.capCheck i.ctx i.cell c [spGlobal, spSpad, spSpadw] permR 128 128 (i.addrs m)
  s.lateCheck i.ctx i.cell c.space.toNat 128 true false true (i.addrs m)
  let q := (i.m.sreg sq.toNat).toNat
  let x := s.queue (q % 256)
  need (q < 256 && x.en && x.dev && x.ctx.toNat == i.ctx && x.pending + laneCount i.en ≤ 2 ^ x.logsize.toNat) Cause.launchQueue

/-- LAUNCH (R348): each lane's packet is posted, and becomes a child of the team. -/
def execLaunch (h : Hdr) (m : MemOp) (sq : BitVec 6) (s : State) : Out :=
  onceWord (.forbid Cause.regionForbidden) h (fun i s => do
    launchCheck i m sq s
    let sp := (i.m.creg m.cap.toNat).space.toNat
    let (s, pkts) := (i.addrs m).foldl (fun (a : State × List (Nat × List Byte)) p =>
      let (s, bs) := a.1.sread { i with en := laneMask p.1 } sp p.2 8
      (s, a.2 ++ [(p.1, bs)])) (s, [])
    pkts.foldl (fun acc p => do
      acc
      (packetCheck s i.ctx p.2).mapError fun e => { e with lane := some p.1 }) (.ok ())
    let qn := (i.m.sreg sq.toNat).toNat % 256
    let depth := ((s.team? i.ctx i.m.team).map Team.depth).getD 0
    return pkts.foldl (fun s p =>
      let q := s.queue qn
      let (host, a) := q.packetAt q.tail.toNat
      let s := if host then s.setExtBytes false a p.2 else s.devWrite a p.2
      let s := s.setQueue qn { q with tail := q.tail + 1 }
      { s with posted := s.posted ++ [⟨i.ctx, qn, q.tail, i.m.team, depth + 1⟩] }) s) s

/-- WAITCH (R392); its return acquires. -/
def execWaitch (h : Hdr) (s : State) : Out :=
  runWord (.forbid Cause.regionForbidden) h (fun i s =>
    if i.en == 0 then .ok (s.next i)
    else if !s.hasChildren i.ctx i.m.team then .ok ((s.acquire i.cell).next i) else .ok (s.sleep i .child)) s

end Sys2Proof.Machine
end

