-- ==== Sys2Proof/Machine/System.lean ====
section
/-!
DEFINITION. Machine/System.lean: TRAP, BKPT and ERET (R255, R316, R332, R386), CSRR and CSRW (R324, R325), and the scratchpad
mapping entries (R142, R143).
-/
namespace Sys2Proof.Machine

/-! ### Traps -/

/-- TRAP (R255, R386). -/
def execTrap (h : Hdr) (code : BitVec 8) (s : State) : Out :=
  onceWord (.forbid Cause.regionForbidden) h (fun _ _ => .error { cause := Cause.trapInstr, code := code }) s

/-- BKPT (R255, R316). -/
def execBkpt (h : Hdr) (code : BitVec 8) (s : State) : Out :=
  onceWord (.forbid Cause.regionForbidden) h (fun _ _ => .error { cause := Cause.breakpoint, code := code }) s

/-- ERET (R255). -/
def execEret (h : Hdr) (s : State) : Out :=
  runWord (.forbid Cause.regionForbidden) h (fun i s =>
    if i.en == 0 then .ok (s.next i)
    else
      match s.team? i.ctx i.m.team with
      | none => .error { cause := Cause.eretState }
      | some t =>
        if !t.trap.v then .error { cause := Cause.eretState }
        else if t.trap.tpc.toNat % 8 != 0 then .error { cause := Cause.pcAlign }
        else .ok (s.eret i t)) s

/-! ### CSRs -/

/-- DIECFG of a die (R16). -/
def Die.cfg (x : Die) : Nat :=
  x.sitesRetired.toNat * 2 ^ 32 + x.sparesLeft.toNat * 2 ^ 28 + (FMap.get 0 x.chret 0) * 2 ^ 22 + (FMap.get 0 x.chret 1) * 2 ^ 24 +
    (FMap.get 0 x.chret 2) * 2 ^ 26 + x.chx.toNat * 2 ^ 19 + x.clmask.toNat

/-- TCAUSE (R252). -/
def TrapArea.tcause (a : TrapArea) : Nat :=
  b2n a.v * 2 ^ 63 + b2n a.imp * 2 ^ 62 + b2n a.oex * 2 ^ 61 + a.lane.toNat * 2 ^ 48 + a.member.toNat * 2 ^ 42 + a.code.toNat * 2 ^ 12 +
    a.cause.toNat

/-- TSIB n (R252). -/
def TrapArea.tsibWord (a : TrapArea) (n : Nat) : Nat :=
  match a.tsib.find? fun r => r.1 == n with
  | some r => 2 ^ 63 + r.2.1 * 2 ^ 60 + r.2.2.toNat
  | none => 0

/-- The copy tags of a cell that a context owns and that pass a test, as a mask (R150). -/
def State.tagMask (s : State) (cell ctx : Nat) (p : CopyTag → Bool) : Nat :=
  (s.cell cell).tag.foldl (fun w e => if e.2.owner == ctx && p e.2 then w + 2 ^ e.1 else w) 0

/-- The mapping entry n of a cell as a team sees it (R142). -/
def State.spEntry (s : State) (cell n : Nat) : SpMap := FMap.get SpMap.zero (s.cell cell).spmap n

/-- Whether a mapping entry belongs to another team (R142). -/
def SpMap.foreign (e : SpMap) (ctx team : Nat) : Bool := e.v && !(e.ctx == ctx && e.team == team)

/-- SPMAPB of an entry (R142). -/
def SpMap.bWord (e : SpMap) : Nat := b2n e.v * 2 ^ 63 + e.len.toNat * 2 ^ 18 + e.spoff.toNat

/-- The value of a CSR as its reader sees it, none for an unassigned number (R324, R325). -/
def State.csrVal (s : State) (i : Iss) (n : Nat) : Option Nat :=
  let area := ((s.team? i.ctx i.m.team).map Team.trap).getD TrapArea.zero
  if 0xC0 ≤ n ∧ n ≤ 0xC3 then some (s.die (n - 0xC0)).cfg
  else if n = 0x100 then some (s.tagMask i.cell i.ctx CopyTag.done)
  else if n = 0x101 then some (s.tagMask i.cell i.ctx fun t => t.done && t.err)
  else if n = 0x102 then some i.m.jlast.toNat
  else if n = 0x103 then some (FMap.get 0 (s.ctx i.ctx).budget i.dieNo)
  else if n = 0x104 then some i.m.engst.toNat
  else if n = 0x105 then some ((s.die i.dieNo).floor.toNat * 2 ^ 16 + (s.cell i.cell).pts.toNat)
  else if 0x110 ≤ n ∧ n ≤ 0x12F then
    let e := s.spEntry i.cell ((n - 0x110) / 2)
    some (if e.foreign i.ctx i.m.team then 0 else if n % 2 == 0 then e.gva.toNat else e.bWord)
  else if n = 0x140 then some area.tcause
  else if n = 0x141 then some area.tpc.toNat
  else if n = 0x142 then some area.taddr.toNat
  else if n = 0x143 then some area.tfpc.toNat
  else if 0x150 ≤ n ∧ n ≤ 0x17F then some (area.tsibWord (n - 0x150))
  else none

/-- CSRR (R324). -/
def execCsrr (h : Hdr) (d : BitVec 6) (csr : BitVec 12) (s : State) : Out :=
  onceWord .once h (fun i s =>
    match s.csrVal i csr.toNat with
    | none => .error { cause := Cause.csrAccess }
    | some x => .ok (s.modMember i.k fun m => m.setS d.toNat (BitVec.ofNat 64 x))) s

/-! ### Scratchpad mappings (R142, R143) -/

/-- Line `off` bytes into a range leaves the scratchpad for HBM: bytes, poison, and the tags of capabilities with GL. -/
def State.unmapLine (s : State) (k q : Nat) : State :=
  let bs := s.bytes q 128
  let tg := (List.range 8).filter fun j => s.tagAt (q + 16 * j) && (Cap.ofNat128 true (s.num (q + 16 * j) 16)).has permGL
  let ps := (List.range 16).filter fun j => s.poisoned (q + 8 * j) 8
  let s := { s with mapped := FMap.del s.mapped k }
  let s := s.rawWrite (k * 128) bs
  let s := tg.foldl (fun s j => s.setTag (k * 128 + 16 * j) true) s
  let s := ps.foldl (fun s j => s.setPoison (k * 128 + 8 * j) 8) s
  (s.modLine k fun l => { l with owners := [] }).settle k

/-- An entry deregistered: every line written back (R143). -/
def State.deregister (s : State) (cell n : Nat) : State :=
  let e := s.spEntry cell n
  if !e.v then s
  else
    let lo := spadBase + cell * 2 ^ 18 + e.spoff.toNat
    let ls := s.mapped.filter fun p => lo ≤ p.2 && p.2 < lo + e.len.toNat * 256
    let s := ls.foldl (fun s p => s.unmapLine p.1 p.2) s
    s.modCell cell fun c => { c with spmap := FMap.put SpMap.zero c.spmap n { e with v := false } }

/-- Every mapping of a team deregistered (R143). -/
def State.dropMappings (s : State) (cell ctx team : Nat) : State :=
  (s.cell cell).spmap.foldl (fun s e => if e.2.v && e.2.ctx == ctx && e.2.team == team then s.deregister cell e.1 else s) s

/-- The HBM lines of a global range, none when a page is not GLOBAL DIR with W, or a line is registered (R142). -/
def State.mapLines (s : State) (cell ctx va n : Nat) : Option (List Nat) :=
  (List.range (n / 128)).mapM fun j =>
    match s.translate cell ctx (va + 128 * j) with
    | .ok l =>
      if l.coh == 0 && l.w && isHbm l.pa && va + n ≤ 2 ^ 57 && (FMap.find? s.mapped (l.pa / 128)).isNone then some (l.pa / 128) else none
    | .error _ => none

/-- A line registered to a scratchpad address: its owner at the home is the cell (R142). -/
def State.mapLine (s : State) (cell k q : Nat) : State :=
  let s := ((s.convert k .dir).dirHome k 0xFFFFFFFF true).modLine k fun l =>
    { l with sharers := 0, hown := 0, owners := [(cell, 0xFFFFFFFF)] }
  let t := { s with mapped := FMap.ins s.mapped k q }
  State.validateReaders s t (k * 128) 128

/-- A write of SPMAPB by a team (R142, R143). -/
def State.writeSpmapB (s : State) (i : Iss) (n : Nat) (x : DWord) : Chk State :=
  let e := s.spEntry i.cell n
  if e.foreign i.ctx i.m.team then .error { cause := Cause.csrAccess }
  else
    let w := x.toNat
    let len := bits w 28 18
    let off := bits w 17 0
    let e' : SpMap := { e with len := BitVec.ofNat 11 len, spoff := BitVec.ofNat 18 off }
    if !w.testBit 63 then
      let s := s.deregister i.cell n
      .ok (s.modCell i.cell fun c => { c with spmap := FMap.put SpMap.zero c.spmap n { e' with v := false, ctx := 0, team := 0 } })
    else
      let t? := s.team? i.ctx i.m.team
      let inside := match t? with
        | some t => t.spbase ≤ off && off + len * 256 ≤ t.spbase + t.splen
        | none => false
      if e.v || bits w 62 29 != 0 || len == 0 || 1024 < len || off % 256 != 0 || e.gva.toNat % 256 != 0 || !inside then
        .error { cause := Cause.spadMap }
      else
        match s.mapLines i.cell i.ctx e.gva.toNat (len * 256) with
        | none => .error { cause := Cause.spadMap }
        | some ks =>
          if hasDup ks then .error { cause := Cause.spadMap }
          else
            let base := spadBase + i.cell * 2 ^ 18 + off
            let s := (ks.foldl (fun (a : State × Nat) k => (a.1.mapLine i.cell k a.2, a.2 + 128)) (s, base)).1
            .ok (s.modCell i.cell fun c =>
              { c with spmap := FMap.put SpMap.zero c.spmap n { e' with v := true, ctx := i.ctx, team := i.m.team } })

/-- A CSR takes a value under its own rule (R324, R325). -/
def State.csrWrite (s : State) (i : Iss) (n : Nat) (x : DWord) : Chk State :=
  if n = 0x104 then
    .ok (s.modMember i.k fun m => { m with engst := BitVec.ofNat 64 (bits x.toNat 63 39 * 2 ^ 39 + bits x.toNat 4 0) })
  else if n = 0x141 then
    .ok (s.modTeam i.ctx i.m.team fun t => { t with trap := { t.trap with tpc := x.setWidth 57 } })
  else if 0x110 ≤ n ∧ n ≤ 0x12F then
    let j := (n - 0x110) / 2
    let e := s.spEntry i.cell j
    if n % 2 = 1 then s.writeSpmapB i j x
    else if e.foreign i.ctx i.m.team then .error { cause := Cause.csrAccess }
    else if e.v then .error { cause := Cause.spadMap }
    else .ok (s.modCell i.cell fun c => { c with spmap := FMap.put SpMap.zero c.spmap j { e with gva := x.setWidth 57 } })
  else .error { cause := Cause.csrAccess }

/-- CSRW (R324). -/
def execCsrw (h : Hdr) (csr : BitVec 12) (src : Src) (s : State) : Out :=
  onceWord (.forbid Cause.regionForbidden) h (fun i s => s.csrWrite i csr.toNat (BitVec.ofNat 64 (i.m.src64 src))) s

/-- SPMAP_REGISTER: the registration that a CSRW of SPMAPB n asks for, with V set in the value written (R142). -/
def execSpmapRegister (n : Nat) (val : DWord) (s : State) : Out :=
  onceWord (.forbid Cause.regionForbidden) ⟨0, false, 7⟩ (fun i s => s.writeSpmapB i (n % 16) (val ||| 0x8000000000000000)) s

/-- SPMAP_DEREGISTER: the write of SPMAPB n with V clear (R143). -/
def execSpmapDeregister (n : Nat) (val : DWord) (s : State) : Out :=
  onceWord (.forbid Cause.regionForbidden) ⟨0, false, 7⟩ (fun i s => s.writeSpmapB i (n % 16) (val &&& 0x7FFFFFFFFFFFFFFF)) s

end Sys2Proof.Machine
end

