-- ==== Sys2Proof/Machine/Sync.lean ====
section
/-!
DEFINITION. Machine/Sync.lean: barriers (R261, R310), WAITC, WAITANY, WAITALL and FFR (R203, R204), WAITADR (R389), SIG and AMSG
(R286 to R289, R306, R378), and the team's mailbox (R355, R356).
-/
namespace Sys2Proof.Machine

/-! ### Barriers -/

/-- The phase of a barrier of the issuer's team. -/
def State.phase (s : State) (ctx team b : Nat) : BitVec 16 := ((s.team? ctx team).map fun t => (t.bar b).ph).getD 0

/-- The token of a barrier in a phase (R261). -/
def barToken (b : Nat) (ph : BitVec 16) : Nat := b * 2 ^ 16 + ph.toNat

/-- BAR.ARV (R310); an arrival comes after the earlier accesses of its lanes (R207). -/
def execBarArv (h : Hdr) (d : BitVec 6) (b : BitVec 3) (s : State) : Out :=
  stepWord (.forbid Cause.regionForbidden) h (fun i s =>
    let tok := barToken b.toNat (s.phase i.ctx i.m.team b.toNat)
    let s := if i.en == 0 then s else s.forTeam i (.arrive b.toNat (laneCount i.en))
    .ok (s.modMember i.k fun m => m.setLanes .n32 d.toNat i.lanes fun _ => tok)) s

/-- The distance of a token from the present phase of its barrier; none for a malformed token or a future phase (R261). -/
def tokenAge (s : State) (i : Iss) (tok : Nat) : Option Nat :=
  let d := (s.phase i.ctx i.m.team (bits tok 18 16) - BitVec.ofNat 16 (bits tok 15 0)).toNat
  if bits tok 31 19 != 0 || 32767 < d then none else some d

/-- BAR.WAIT (R261, R310); passing it acquires (R207). -/
def execBarWait (h : Hdr) (qd : BitVec 3) (tok : Src) (s : State) : Out :=
  runWord (.forbid Cause.regionForbidden) h (fun i s => do
    let age (l : Nat) : Option Nat := tokenAge s i (i.m.src32 tok l)
    match i.lanes.find? fun l => (age l).isNone with
    | some l => throw { cause := Cause.barToken, lane := some l }
    | none => pure ()
    let stale := maskOf (i.lanes.filter fun l => 2 ≤ (age l).getD 0)
    let now := i.lanes.filter fun l => age l == some 0
    if now.isEmpty then return ((s.acquire i.cell).modMember i.k fun m => m.writeQ qd.toNat i.en stale).next i
    else
      let toks := (now.map fun l => let t := i.m.src32 tok l; (bits t 18 16, bits t 15 0)).eraseDups
      return s.sleep i (.bar (some qd) i.en stale toks)) s

/-- BAR.SYNC (R310): arrivals first, then the wait on their phase. -/
def execBarSync (h : Hdr) (b : BitVec 3) (s : State) : Out :=
  runWord (.forbid Cause.regionForbidden) h (fun i s =>
    if i.en == 0 then .ok (s.next i)
    else
      let ph := s.phase i.ctx i.m.team b.toNat
      let s := s.forTeam i (.arrive b.toNat (laneCount i.en))
      if s.phase i.ctx i.m.team b.toNat == ph then .ok (s.sleep i (.bar none i.en 0 [(b.toNat, ph.toNat)]))
      else .ok ((s.acquire i.cell).next i)) s

/-! ### Counters and tags -/

/-- WAITC (R203). -/
def execWaitc (h : Hdr) (cls : BitVec 3) (t : BitVec 8) (s : State) : Out :=
  runWord (.forbid Cause.regionForbidden) h (fun i s =>
    if i.en == 0 then .ok (s.next i)
    else if i.m.count cls.toNat ≤ t.toNat then .ok ((s.acquire i.cell).next i) else .ok (s.sleep i (.cnt cls.toNat t.toNat))) s

/-- The done set of a mask (R204). -/
def State.doneSet (s : State) (cell ctx : Nat) (mask : Nat) : Nat := s.tagMask cell ctx CopyTag.done &&& mask

/-- The lowest index of a done set, 64 when it is empty (R204). -/
def lowestTag (w : Nat) : Nat := ((List.range 64).find? w.testBit).getD 64

/-- WAITANY (R204). -/
def execWaitany (h : Hdr) (d : BitVec 6) (mask : Src) (s : State) : Out :=
  runWord (.forbid Cause.regionForbidden) h (fun i s =>
    let k := i.m.src64 mask
    let w := s.doneSet i.cell i.ctx k
    if i.en == 0 then .ok (s.next i)
    else if w != 0 || k == 0 then
      .ok (((s.acquire i.cell).modMember i.k fun m => m.setLanes .n32 d.toNat i.lanes fun _ => lowestTag w).next i)
    else .ok (s.sleep i (.anyTag d.toNat (BitVec.ofNat 64 k) i.en))) s

/-- WAITALL (R204). -/
def execWaitall (h : Hdr) (mask : Src) (s : State) : Out :=
  runWord (.forbid Cause.regionForbidden) h (fun i s =>
    let k := i.m.src64 mask
    if i.en == 0 then .ok (s.next i)
    else if s.doneSet i.cell i.ctx k == k then .ok ((s.acquire i.cell).next i) else .ok (s.sleep i (.allTags (BitVec.ofNat 64 k)))) s

/-- FFR (R204): never waits. -/
def execFfr (h : Hdr) (d : BitVec 6) (mask : Src) (s : State) : Out :=
  onceWord .once h (fun i s =>
    let w := s.doneSet i.cell i.ctx (i.m.src64 mask)
    .ok ((if w == 0 then s else s.acquire i.cell).modMember i.k fun m => m.setLanes .n32 d.toNat i.lanes fun _ => lowestTag w)) s

/-! ### WAITADR -/

/-- Whether a value meets the condition of WAITADR (R389). -/
def adrHolds (eq : Bool) (x val : Nat) : Bool := if eq then x == val else x != val

/-- Whether a read of some lanes at PEER addresses meets a completion with an error status: the first such lane, and the draws made (R300,
log 88). -/
def State.adrPoison (s : State) (c : Cap) (lanes : List (Nat × Nat × Nat)) : State × Option (Nat × Nat) :=
  if c.space.toNat != spPeer then (s, none)
  else
    let bad := (lanes.zip (List.range lanes.length)).find? fun p => Config.peerFails (s.fresh + p.2)
    ({ s with fresh := s.fresh + lanes.length }, bad.map fun p => (p.1.1, p.1.2.1))

/-- One read of every lane of a WAITADR: what each lane read, with the state after the reads, which acquire under an ORD (R389). -/
def State.adrRead (s : State) (i : Iss) (c : Cap) (n : Nat) (lanes : List (Nat × Nat × Nat)) : State × List (Nat × Nat × Nat) :=
  let place (a : Nat) : Except Cause Target := s.reach i.ctx i.cell c.space.toNat a n true false
  let r := lanes.foldl (fun (a : State × List (Nat × Nat × Nat)) p =>
    match place p.2.1 with
    | .ok t =>
      let (s, x, _) := (a.1.fly i.m.uid p.1 i.cell p.2.1 t).access i.cell i.ctx p.2.1 n t 0 i.acq .load
      (s, a.2 ++ [(p.1, x, p.2.2)])
    | .error _ => a) (s, [])
  (if i.acq then r.1.acquire i.cell (lanes.filterMap fun p => (place p.2.1).toOption.map fun t => t.pa / 128) else r.1, r.2)

/-- The writes of a WAITADR whose lanes all hold (R389). -/
def Member.adrWrite (m : Member) (t : Ty) (d : Nat) (xs : List (Nat × Nat × Nat)) : Member :=
  xs.foldl (fun m p => m.setVal t p.1 d p.2.1) m

/-- WAITADR (R389). An error of a peer raises POISON (R300). -/
def execWaitadr (h : Hdr) (t : Ty) (d : BitVec 6) (m : MemOp) (val : Src) (s : State) : Out :=
  runWord (.forbid Cause.regionForbidden) h (fun i s => do
    if i.en == 0 then return s.next i
    let c := i.m.creg m.cap.toNat
    let eq := m.hint == 1
    s.capCheck i.ctx i.cell c threadSpaces permR t.bytes t.bytes (i.addrs m)
    let s := if i.sc then s.acquire i.cell else s
    s.lateCheck i.ctx i.cell c.space.toNat t.bytes true false true (i.addrs m)
    let lanes := i.lanes.map fun l => (l, i.m.addr m l, i.m.src t val l)
    let (s, bad) := s.adrPoison c lanes
    if let some p := bad then return s.raise i { cause := Cause.poison, lane := some p.1, addr := p.2 }
    let (s, xs) := s.adrRead i c t.bytes lanes
    if xs.all fun p => adrHolds eq p.2.1 p.2.2 then
      return (s.modMember i.k fun m => m.adrWrite t d.toNat xs).next i
    else
      let set := (i.m.ord.map OrdPend.set).getD 0
      return s.sleep i (.adr t.is64 eq d.toNat set i.sc c lanes)) s

/-! ### Messages -/

/-- The checks of AMSG (R286, R306). -/
def amsgCheck (i : Iss) (die : BitVec 2) (m : MemOp) (sh : BitVec 6) (s : State) : Chk Nat := do
  let e := bits (i.m.sreg sh.toNat).toNat 56 0
  let _ ← markCheck s i.ctx e [2, 3]
  need ((s.die die.toNat).hNow != 0 && s.trusted die.toNat && s.reaches i.dieNo die.toNat) Cause.amsgTarget
  let c := i.m.creg m.cap.toNat
  stepLanes (i.addrs m) fun a => if a % 16 == 0 then none else some Cause.misaligned
  s.capCheck i.ctx i.cell c [spGlobal, spSpad, spSpadw] permR 48 16 (i.addrs m)
  s.lateCheck i.ctx i.cell c.space.toNat 16 true false true
    ((i.addrs m).flatMap fun p => (List.range 3).map fun q => (p.1, p.2 + 16 * q))
  return e

/-- One lane's AMSG (R286): the record is on its way to the die, counted in MSG. -/
def amsgLane (i : Iss) (die e : Nat) (m : MemOp) (s : State) (l : Nat) : Option State :=
  let sp := (i.m.creg m.cap.toNat).space.toNat
  let (s1, bs) := s.sread { i with en := laneMask l } sp (i.m.addr m l) 3
  let (s2, r) := s1.laneRec i l e 5 false
  let r := { r with a := (chunks 4 12 bs).map fun b => BitVec.ofNat 32 (ofBytes b) }
  let t := s.team? i.ctx i.m.team
  let hr : HandlerRec := ⟨r, originOf t, i.m.uid⟩
  if (s.afterFlight.arriveHandler die hr).isNone then none
  else some (((s2.countWay i.dieNo die).modDie die fun x => { x with hin := x.hin ++ [hr] }).modMember i.k fun m => m.bump 4)

/-- AMSG (R286, R306): when a lane meets a full pool, no lane sends. -/
def execAmsg (h : Hdr) (die : BitVec 2) (m : MemOp) (sh : BitVec 6) (s : State) : Out :=
  runWord (.forbid Cause.regionForbidden) h (fun i s => do
    if i.en == 0 then return s.next i
    let e ← amsgCheck i die m sh s
    let a := sendLoop (amsgLane i die.toNat e m) i.lanes s
    match a.failed with
    | some l => throw { cause := Cause.poolExhausted, lane := some l }
    | none => return a.s.next i) s

/-- The counter word of SIG: index, die, decrement; none when it is malformed (R288). -/
def sigWord (x : Nat) : Option (Nat × Nat × Nat) :=
  if bits x 15 14 != 0 || bits x 63 32 != 0 || bits x 31 16 == 0 then none else some (bits x 11 0, bits x 13 12, bits x 31 16)

/-- SIG (R288, R378): a lane whose store passes its checks sends a decrement. -/
def execSig (h : Hdr) (sd : BitVec 6) (m : MemOp) (data : Src) (s : State) : Out :=
  onceWord (.forbid Cause.regionForbidden) h (fun i s => do
    let c := i.m.creg m.cap.toNat
    match sigWord (i.m.sreg sd.toNat).toNat with
    | none => throw { cause := Cause.sigCounter }
    | some (index, die, d) =>
      need (s.trusted die && s.reaches i.dieNo die) Cause.homeDieUnavailable
      let good := (i.addrs m).filter fun p =>
        match s.reach i.ctx i.cell c.space.toNat p.2 4 false true with
        | .ok _ => true
        | .error _ => false
      let s ← storeLanes i c threadSpaces permW 4 false 0 (fun l => .store (i.m.src32 data l) false) (i.addrs m) (.ok ()) s
      let t := s.team? i.ctx i.m.team
      let msg (l : Nat) : SigMsg :=
        { index := index, d := d, ctx := i.ctx, team := i.m.team, orig := originOf t, depth := (t.map Team.depth).getD 0,
          uid := i.m.uid, lane := l, member := i.m.memberIdx, pc := i.pc, cell := i.cell, senderDie := i.dieNo }
      let s := (good.foldl (fun s _ => s.countWay i.dieNo die) s).modDie die fun x => { x with sigs := x.sigs ++ good.map fun p => msg p.1 }
      return s.modMember i.k fun m => m.setCount 4 (m.count 4 + good.length)) s

/-! ### Mailbox -/

/-- Entries of a channel that lanes have sent and whose earlier writes are still held (R356). -/
def State.boxLate (s : State) (ctx team ch : Nat) : Nat :=
  (s.late.map fun e => if e.ctx == ctx && e.team == team then (match e.eff with
    | .post c ws => if c == ch then ws.length else 0
    | _ => 0) else 0).sum

/-- MBXS (R356); entries whose lanes have held writes take their place in the channel now and stand there once those are performed. -/
def execMbxs (h : Hdr) (qd : BitVec 3) (src : Src) (ch : BitVec 3) (s : State) : Out :=
  stepWord (.forbid Cause.regionForbidden) h (fun i s =>
    let box := ((s.team? i.ctx i.m.team).map fun t => FMap.get [] t.mail ch.toNat).getD []
    let fit := i.lanes.take (32 - (box.length + s.boxLate i.ctx i.m.team ch.toNat))
    let s := s.forTeam i (.post ch.toNat (fit.map fun l => BitVec.ofNat 32 (i.m.src32 src l)))
    .ok (s.modMember i.k fun m => m.writeQ qd.toNat i.en (maskOf fit))) s

/-- MBXR (R356): a lane that takes an entry acquires. -/
def execMbxr (h : Hdr) (d : BitVec 6) (ch : BitVec 3) (s : State) : Out :=
  stepWord (.forbid Cause.regionForbidden) h (fun i s =>
    let box := ((s.team? i.ctx i.m.team).map fun t => FMap.get [] t.mail ch.toNat).getD []
    let got := i.lanes.zip box
    let rest := i.lanes.drop box.length
    let s := (if got.isEmpty then s else s.acquire i.cell).modTeam i.ctx i.m.team fun t =>
      { t with mail := FMap.put [] t.mail ch.toNat (box.drop i.lanes.length) }
    .ok (s.modMember i.k fun m =>
      let m := got.foldl (fun m p => ((m.healPair p.1 d.toNat).setV p.1 d.toNat p.2).setV p.1 (d.toNat + 1) 1) m
      rest.foldl (fun m l => m.setV l (d.toNat + 1) 0) m)) s

end Sys2Proof.Machine
end

