-- ==== Sys2Proof/Machine/Engines.lean ====
section
/-!
DEFINITION. Machine/Engines.lean: engine commands at issue (R166 to R190, R305, R313, R323, R329, R358, R359, R365, R396): the
checks in their order, the job accepted, the operand map and the A latch; the baton (R183, R311); JPOLL and JWAIT (R170, R346);
KCM (R130, R131).
-/
namespace Sys2Proof.Machine

/-! ### Accepting a job -/

/-- Counter classes (R168). -/
abbrev clsCopy : Nat := 0
abbrev clsMatrix : Nat := 1
abbrev clsBase : Nat := 2
abbrev clsBeam : Nat := 3
abbrev clsMsg : Nat := 4

/-- A job as it is accepted. -/
def Iss.job (i : Iss) (key id cls : Nat) (op : JobOp) (acc : Option Nat) : Job :=
  { key := key, id := id, cls := cls, uid := i.m.uid, ctx := i.ctx, team := i.m.team, cell := i.cell, op := op, st := .queued, status := none,
    accepted := acc, landed := [], slots := [] }

/-- The next job ID taken by a command of a cluster (R167). -/
def State.takeJob (s : State) (i : Iss) : State × Nat :=
  let c := clusterOfCell i.cell
  let id := (s.cluster c).nextJob
  ((s.modCluster c fun x => { x with nextJob := id + 1, accepted := x.accepted + 1 }).modMember i.k fun m => { m with jlast := id },
    id.toNat)

/-- A job put at the end of its cluster's list under the next key, and its counter raised (R168). -/
def State.addJob (s : State) (i : Iss) (id cls : Nat) (op : JobOp) (acc : Option Nat) : State :=
  (s.modCluster (clusterOfCell i.cell) fun x =>
    { x with jobs := x.jobs ++ [i.job x.nextKey id cls op acc], nextKey := x.nextKey + 1 }).modMember i.k fun m => m.bump cls

/-- A command accepted (R167, R168). The ID is answered. -/
def State.acceptJob (s : State) (i : Iss) (cls : Nat) (op : JobOp) : State × Nat :=
  let n := (s.cluster (clusterOfCell i.cell)).accepted
  let (s, id) := s.takeJob i
  (s.addJob i id cls op (some n), id)

/-- An engine word that makes one job: its checks answer the job (R396), and `after` has its key. -/
def engineWord (h : Hdr) (cls : Nat) (chk : Iss → State → Chk JobOp) (after : Iss → JobOp → Nat → State → State) (s : State) : Out :=
  onceWord (.forbid Cause.regionForbidden) h (fun i s => do
    let op ← chk i s
    return after i op (s.cluster (clusterOfCell i.cell)).nextKey (s.acceptJob i cls op).1) s

/-! ### Operands -/

/-- Spaces of engine operands. -/
def spadSpaces : List Nat := [spSpad, spSpadw]
def memSpaces : List Nat := [spGlobal, spSpad, spSpadw]
def drainSpaces : List Nat := [spGlobal, spSpad, spSpadw, spRegw, spAccw]
def allSpaces : List Nat := [spGlobal, spSpad, spSpadw, spRegw, spAccw, spHost, spPeer]

/-- K for the wider of two formats (R173). -/
def mmaK (a b : Ty) : Nat :=
  match max a.bits b.bits with
  | 32 => 32
  | 16 => 64
  | 8 => 128
  | _ => 256

/-- The fields of a stride word (R175). -/
def strideBytes (w : DWord) : Nat := 32 * bits w.toNat 12 0
def strideType (w : DWord) : Option Ty := (Ty.ofNat? (bits w.toNat 17 13)).filter Ty.isMma
def strideSlot (w : DWord) : Nat := bits w.toNat 27 20

/-- The format of B in an operand map. -/
def OMap.bType (o : OMap) : Ty := (strideType o.stride).getD .f32

/-- FORMAT_SLOT for a slot that must be of a format; a slot of 0 passes where the format needs no codebook (R175). -/
def State.slotOk (s : State) (ctx slot : Nat) (t : Ty) : Bool :=
  if slot == 0 then t != .cb4 else (s.fmtEntry ctx slot).efmt == t.code.toNat

/-- ACC_OWNER unless a tile belongs to the issuer's context (R171). -/
def State.ownsTile (s : State) (i : Iss) (tile : Nat) : Bool := FMap.find? (s.cluster (clusterOfCell i.cell)).acc tile == some i.ctx

/-- The B region and its scales (R174, R176): K rows from the origin, and four bytes a row at SOFS. -/
def bCheck (i : Iss) (s : State) (o : OMap) (k : Nat) : Chk Unit := do
  let a := o.cap.cursor.toNat
  s.regionCheck i.ctx i.cell o.cap spadSpaces (permR ||| permEN) a ((k - 1) * strideBytes o.stride + 16 * o.bType.bits) 1
  if (s.fmtEntry i.ctx (strideSlot o.stride)).scaled && strideSlot o.stride != 0 then
    s.regionCheck i.ctx i.cell o.cap spadSpaces (permR ||| permEN) (modN (a + sextN o.sofs.toNat 64) 64) (4 * k) 1

/-- NO_OPERAND_MAP, and the map (R176). -/
def needMap (i : Iss) : Chk OMap :=
  match i.m.omap with
  | some o => .ok o
  | none => .error { cause := Cause.noOperandMap }

/-! ### Matrix engine -/

/-- OMAP's map (R175, R365). -/
def omapCheck (i : Iss) (m : MemOp) (sn : BitVec 6) (s : State) : Chk OMap := do
  let w := i.m.sreg sn.toNat
  let c := i.m.creg m.cap.toNat
  let a := i.m.addr m (lowest i.en)
  match strideType w with
  | none => throw { cause := Cause.operandMap }
  | some t =>
    need (bits w.toNat 63 28 == 0 && bits w.toNat 19 18 == 0) Cause.operandMap
    need (s.slotOk i.ctx (strideSlot w) t) Cause.formatSlot
    (s.capCheck i.ctx i.cell c spadSpaces (permR ||| permEN) 1 32 [(lowest i.en, a)])
    return { cap := { c with cursor := BitVec.ofNat 64 a }, stride := w, sofs := i.m.sreg (sn.toNat + 1) }

/-- OMAP (R175, R365). -/
def execOmap (h : Hdr) (m : MemOp) (sn : BitVec 6) (s : State) : Out :=
  onceWord (.forbid Cause.regionForbidden) h (fun i s => do
    let o ← omapCheck i m sn s
    return s.modMember i.k fun x => { x with omap := some o }) s

/-- The A latch as an MMA finds it (R177): whether A comes from the latch, or A_LATCH. -/
def latchCheck (m : Member) (hi : Bool) (t : Ty) : Chk Bool :=
  match m.alatch with
  | none => .ok false
  | some (b, u) => if b == hi && u == t then .ok true else .error { cause := Cause.aLatch }

/-- MMA's checks (R176, R396). -/
def mmaCheck (t : Ty) (tile : BitVec 6) (hi : Bool) (sf : Option (BitVec 6)) (i : Iss) (s : State) : Chk JobOp := do
  need (s.ownsTile i tile.toNat) Cause.accOwner
  let o ← needMap i
  let slot := (sf.map fun r => bits (i.m.sreg r.toNat).toNat 7 0).getD 0
  need (t != .cb4 || s.slotOk i.ctx slot t) Cause.formatSlot
  need (s.slotOk i.ctx (strideSlot o.stride) o.bType) Cause.formatSlot
  bCheck i s o (mmaK t o.bType)
  let l ← latchCheck i.m hi t
  return .mma t tile.toNat i.en hi l slot o

/-- MMA (R176, R177, R358, R359): the block is lent unless A comes from the latch. -/
def execMma (h : Hdr) (t : Ty) (tile : BitVec 6) (hi : Bool) (sf : Option (BitVec 6)) (r : Bool) (s : State) : Out :=
  waveWord h (engineWord h clsMatrix (mmaCheck t tile hi sf) (fun i op key s =>
    s.modMember i.k fun m =>
      { m with alatch := if r then some (hi, t) else none,
               lent := match op with
                 | .mma _ _ _ _ true _ _ => m.lent
                 | _ => m.lent ++ [(hi, key)] })) s

/-- MMAS's checks: the A region from a capability, an address and a stride (R178, R182). -/
def mmasRegions (i : Iss) (s : State) (t : Ty) (acap : Cap) (a stride : Nat) (o : OMap) : Chk Unit := do
  let k := mmaK t o.bType
  s.regionCheck i.ctx i.cell acap spadSpaces (permR ||| permEN) a (31 * stride + k * t.bits / 8) 32
  bCheck i s o k

/-- MMAS's checks (R178, R396). -/
def mmasCheck (t : Ty) (tile : BitVec 6) (m : MemOp) (sn : BitVec 6) (i : Iss) (s : State) : Chk JobOp := do
  let w := i.m.sreg sn.toNat
  let slot := if t == .cb4 then strideSlot w else 0
  need (s.ownsTile i tile.toNat) Cause.accOwner
  let o ← needMap i
  need (bits w.toNat 63 28 == 0 && bits w.toNat 19 18 == 0) Cause.operandMap
  need (t != .cb4 || s.slotOk i.ctx slot t) Cause.formatSlot
  need (s.slotOk i.ctx (strideSlot o.stride) o.bType) Cause.formatSlot
  let c := i.m.creg m.cap.toNat
  let a := i.m.addr m (lowest i.en)
  mmasRegions i s t c a (strideBytes w) o
  return .mmas { t := t, tile := tile.toNat, acap := c, aaddr := a, astride := strideBytes w, aslot := slot, omap := o }

/-- MMAS (R178, R358). -/
def execMmas (h : Hdr) (t : Ty) (tile : BitVec 6) (m : MemOp) (sn : BitVec 6) (s : State) : Out :=
  engineWord h clsMatrix (mmasCheck t tile m sn) (fun _ _ _ s => s) s

/-- DRAIN's checks (R179, R329, R396). -/
def drainCheck (t : Ty) (tile : BitVec 6) (m : MemOp) (sn : BitVec 6) (i : Iss) (s : State) : Chk JobOp := do
  let w (n : Nat) : DWord := i.m.sreg (sn.toNat + n)
  let p := (w 3).toNat
  let dstride := bits (w 0).toNat 63 32
  let rstride := bits p 63 32
  let slot := bits p 23 16
  let rcap := i.m.creg (bits p 11 8)
  let qcap := i.m.creg (bits p 15 12)
  need (s.ownsTile i tile.toNat) Cause.accOwner
  need (bits p 31 25 == 0 && bits p 7 3 == 0 && (!p.testBit 2 || t.isQuant) && dstride % 32 == 0 && rstride % 4 == 0 &&
    (t == .cb4 || slot == 0)) Cause.drainParam
  need (t != .cb4 || s.slotOk i.ctx slot t) Cause.formatSlot
  let a := i.m.addr m (lowest i.en)
  let c := i.m.creg m.cap.toNat
  s.regionCheck i.ctx i.cell c drainSpaces (permW ||| permEN) a (31 * dstride + 16 * t.bits) 32
  if p.testBit 0 then
    s.regionCheck i.ctx i.cell rcap memSpaces (permR ||| permEN) rcap.cursor.toNat (31 * rstride + 512) 1
  if p.testBit 2 then s.regionCheck i.ctx i.cell qcap memSpaces (permR ||| permEN) qcap.cursor.toNat 128 1
  return .drain t tile.toNat c a (w 0) (w 1) (w 2) (w 3) rcap qcap

/-- DRAIN (R179, R329). -/
def execDrain (h : Hdr) (t : Ty) (tile : BitVec 6) (m : MemOp) (sn : BitVec 6) (s : State) : Out :=
  engineWord h clsMatrix (drainCheck t tile m sn) (fun _ _ _ s => s) s

/-- The contents of a tile lost (R171, log 10): free bytes, and no poison. -/
def State.loseTile (s : State) (c tile : Nat) : State :=
  { s.rawWrite (accBase + c * 2 ^ 20 + tile * 2 ^ 14) ((List.range 16384).map fun b => Config.accByte s.fresh b) with
    fresh := s.fresh + 1 }

/-- A tile taken by a context: its bytes are not what an earlier owner left (R171). -/
def State.takeTile (s : State) (c ctx tile : Nat) : State :=
  if (FMap.find? (s.cluster c).acc tile).isSome then s
  else (s.loseTile c tile).modCluster c fun x => { x with acc := FMap.ins x.acc tile ctx }

/-- ACCZ (R172, R305). -/
def execAccz (h : Hdr) (tile n : BitVec 6) (s : State) : Out :=
  engineWord h clsMatrix (fun i s => do
    let k := n.toNat + 1
    need (tile.toNat + k ≤ 64) Cause.accRange
    need ((List.range k).all fun j =>
      match FMap.find? (s.cluster (clusterOfCell i.cell)).acc (tile.toNat + j) with
      | some x => x == i.ctx
      | none => true) Cause.accOwner
    return .accz tile.toNat k) (fun i op _ s =>
      match op with
      | .accz t k => (List.range k).foldl (fun s j => s.takeTile (clusterOfCell i.cell) i.ctx (t + j)) s
      | _ => s) s

/-! ### Copies -/

/-- Whether two ranges of n bytes meet in one space (R181). -/
def overlap (a b : Cap) (x y n : Nat) : Bool := a.space == b.space && x < y + n && y < x + n

/-- CPY's own checks up to its parameters: LEN and the tag (R181). -/
def copyLen (w : DWord) : Chk (Nat × Option Nat) := do
  let n := bits w.toNat 31 0
  need (bits w.toNat 63 39 == 0 && n != 0 && n % 32 == 0 && n ≤ 2 ^ 31) Cause.copyLength
  return (n, if w.getLsbD 38 then some (bits w.toNat 37 32) else none)

/-- TAG_BUSY for a tag that a copy may not take (R150). -/
def State.tagFree (s : State) (i : Iss) (tag : Option Nat) : Bool :=
  match tag with
  | none => true
  | some t =>
    match FMap.find? (s.cell i.cell).tag t with
    | none => true
    | some x => x.done && x.owner == i.ctx

/-- A copy's regions (R181). -/
def copyRegions (i : Iss) (s : State) (dcap : Cap) (a : Nat) (scap : Cap) (n : Nat) : Chk Unit := do
  s.regionCheck i.ctx i.cell dcap allSpaces (permW ||| permEN) a n 32
  s.regionCheck i.ctx i.cell scap allSpaces (permR ||| permEN) scap.cursor.toNat n 32

/-- A copy's checks after its regions (R181, R396). -/
def copyLast (i : Iss) (s : State) (dcap : Cap) (a : Nat) (scap : Cap) (n : Nat) (tag : Option Nat) : Chk Unit := do
  need (!overlap dcap scap a scap.cursor.toNat n) Cause.copyOverlap
  need (s.tagFree i tag) Cause.tagBusy

/-- A copy's tag taken (R150). -/
def State.takeTag (s : State) (i : Iss) (op : JobOp) : State :=
  match op with
  | .cpy _ _ _ _ (some t) => s.modCell i.cell fun c => { c with tag := FMap.ins c.tag t ⟨false, i.ctx, false⟩ }
  | _ => s

/-- CPY's checks (R181). -/
def cpyCheck (m : MemOp) (cs : BitVec 4) (sn : BitVec 6) (i : Iss) (s : State) : Chk JobOp := do
  let (n, tag) ← copyLen (i.m.sreg sn.toNat)
  let c := i.m.creg m.cap.toNat
  let sc := i.m.creg cs.toNat
  let a := i.m.addr m (lowest i.en)
  copyRegions i s c a sc n
  copyLast i s c a sc n tag
  return .cpy c a sc n tag

/-- CPY (R181, R323). -/
def execCpy (h : Hdr) (m : MemOp) (cs : BitVec 4) (sn : BitVec 6) (s : State) : Out :=
  engineWord h clsCopy (cpyCheck m cs sn) (fun i op _ s => s.takeTag i op) s

/-- CPYM's checks: the copy and its follow-on (R182, R396). -/
def cpymCheck (m : MemOp) (cs : BitVec 4) (sn : BitVec 6) (i : Iss) (s : State) : Chk (JobOp × MmasOp) := do
  let w := (i.m.sreg (sn.toNat + 1)).toNat
  let tile := bits w 5 0
  need (s.ownsTile i tile) Cause.accOwner
  let o ← needMap i
  let (n, tag) ← copyLen (i.m.sreg sn.toNat)
  match (Ty.ofNat? (bits w 16 12)).filter Ty.isMma with
  | none => throw { cause := Cause.operandMap }
  | some t =>
    need (bits w 63 45 == 0 && bits w 31 28 == 0 && bits w 19 17 == 0 && bits w 7 6 == 0) Cause.operandMap
    let slot := if t == .cb4 then bits w 27 20 else 0
    need (t != .cb4 || s.slotOk i.ctx slot t) Cause.formatSlot
    need (s.slotOk i.ctx (strideSlot o.stride) o.bType) Cause.formatSlot
    let c := i.m.creg m.cap.toNat
    let sc := i.m.creg cs.toNat
    let a := i.m.addr m (lowest i.en)
    let acap := i.m.creg (bits w 11 8)
    let st := 32 * bits w 44 32
    copyRegions i s c a sc n
    mmasRegions i s t acap acap.cursor.toNat st o
    copyLast i s c a sc n tag
    return (.cpy c a sc n tag,
      { t := t, tile := tile, acap := acap, aaddr := acap.cursor.toNat, astride := st, aslot := slot, omap := o })

/-- CPYM (R182, R323): one job ID for the copy and its follow-on, which is accepted when the copy lands; its key follows that of the
copy. -/
def execCpym (h : Hdr) (m : MemOp) (cs : BitVec 4) (sn : BitVec 6) (s : State) : Out :=
  onceWord (.forbid Cause.regionForbidden) h (fun i s => do
    let (op, f) ← cpymCheck m cs sn i s
    let (s, id) := s.acceptJob i clsCopy op
    return (s.addJob i id clsMatrix (.mmas f) none).takeTag i op) s

/-! ### Base-die commands -/

/-- BGATH's checks (R187): the index list, the table, the destination. -/
def bgathCheck (m : MemOp) (cs : BitVec 4) (sn : BitVec 6) (i : Iss) (s : State) : Chk JobOp := do
  let w := (i.m.sreg sn.toNat).toNat
  let n := bits w 31 0
  let icap := i.m.creg (bits w 35 32)
  let tcap := i.m.creg cs.toNat
  let c := i.m.creg m.cap.toNat
  let a := i.m.addr m (lowest i.en)
  need (bits w 63 36 == 0 && 1 ≤ n && n ≤ 2 ^ 20) Cause.baseParam
  s.regionCheck i.ctx i.cell icap [spGlobal] (permR ||| permEN) icap.cursor.toNat (4 * n) 4
  need tcap.tag Cause.capTag
  need (tcap.space.toNat == spGlobal) Cause.capSpace
  need (tcap.has (permR ||| permEN)) Cause.capPerm
  need (tcap.cursor.toNat % 64 == 0) Cause.misaligned none tcap.cursor.toNat
  s.regionCheck i.ctx i.cell c memSpaces (permW ||| permEN) a (64 * n) 64
  return .bgath c a tcap icap n

/-- BGATH (R187, R313). -/
def execBgath (h : Hdr) (m : MemOp) (cs : BitVec 4) (sn : BitVec 6) (s : State) : Out :=
  engineWord h clsBase (bgathCheck m cs sn) (fun _ _ _ s => s) s

/-- BRED's checks (R188). -/
def bredCheck (t : Ty) (m : MemOp) (cs : BitVec 4) (sn : BitVec 6) (i : Iss) (s : State) : Chk JobOp := do
  let n := bits (i.m.sreg sn.toNat).toNat 31 0
  let sc := i.m.creg cs.toNat
  let c := i.m.creg m.cap.toNat
  let a := i.m.addr m (lowest i.en)
  need (n % (64 / t.bytes) == 0) Cause.baseParam
  s.regionCheck i.ctx i.cell c [spGlobal] (permR ||| permW ||| permAT ||| permEN) a (n * t.bytes) 64
  s.regionCheck i.ctx i.cell sc memSpaces (permR ||| permEN) sc.cursor.toNat (n * t.bytes) 64
  return .bred t c a sc n

/-- BRED (R188, R313). -/
def execBred (h : Hdr) (t : Ty) (m : MemOp) (cs : BitVec 4) (sn : BitVec 6) (s : State) : Out :=
  engineWord h clsBase (bredCheck t m cs sn) (fun _ _ _ s => s) s

/-- The format entry of the page of a GLOBAL address, none where no walk finds one that BCVT accepts (R189). -/
def State.pageFmt (s : State) (cell ctx va : Nat) : Option (FmtEntry × Ty) :=
  match s.translate cell ctx va with
  | .error _ => none
  | .ok l =>
    let f := s.fmtEntry ctx l.fmt
    match Ty.ofNat? f.efmt with
    | some t => if l.fmt != 0 && (t.isF || t == .cb4) then some (f, t) else none
    | none => none

/-- One operand of BCVT at issue (R189): its bounds and its place at the start of a block, as far as the page names a format. -/
def bcvtRegion (i : Iss) (s : State) (c : Cap) (a n : Nat) (perm : BitVec 8) : Chk Unit :=
  match s.pageFmt i.cell i.ctx a with
  | some (f, t) =>
    s.regionCheckBy i.ctx i.cell c [spGlobal] perm a (n * t.bits / 8) fun b => (b + 2 ^ 64 - f.tbase) % (4 * t.bits) == 0
  | none => s.regionCheck i.ctx i.cell c [spGlobal] perm a 0 1

/-- BCVT's checks (R189, R396): the source first. -/
def bcvtCheck (m : MemOp) (cs : BitVec 4) (sn : BitVec 6) (i : Iss) (s : State) : Chk JobOp := do
  let w := i.m.sreg sn.toNat
  let n := bits w.toNat 31 0
  let sc := i.m.creg cs.toNat
  let c := i.m.creg m.cap.toNat
  let a := i.m.addr m (lowest i.en)
  need (bits w.toNat 63 35 == 0 && n % 32 == 0) Cause.baseParam
  bcvtRegion i s sc sc.cursor.toNat n (permR ||| permEN)
  bcvtRegion i s c a n (permW ||| permEN)
  return .bcvt c a sc n (w.extractLsb' 32 2) (w.getLsbD 34)

/-- BCVT (R189, R313). -/
def execBcvt (h : Hdr) (m : MemOp) (cs : BitVec 4) (sn : BitVec 6) (s : State) : Out :=
  engineWord h clsBase (bcvtCheck m cs sn) (fun _ _ _ s => s) s

/-! ### Baton -/

/-- The indices that BATON.RING names (R311). -/
def ringOf (w : DWord) (n : BitVec 4) : List Nat := (List.range (n.toNat + 1)).map fun j => w.toNat / 2 ^ (4 * j) % 16

/-- A team wave index that a wave of the team with live lanes holds, resident or evicted (R33, R37). -/
def State.isWave (s : State) (ctx team idx : Nat) : Bool :=
  ((FMap.vals s.members) ++ s.evicted).any fun m => m.ctx == ctx && m.team == team && !m.scalar && m.q0 != 0 && m.idx == idx

/-- A change of the team's ring by a baton word. -/
def batonWord (h : Hdr) (f : State → Iss → Option (List Nat × Nat) → Chk (Option (List Nat × Nat))) (s : State) : Out :=
  waveWord h (onceWord (.forbid Cause.regionForbidden) h (fun i s => do
    let r ← f s i (((s.team? i.ctx i.m.team).map Team.baton).getD none)
    return s.modTeam i.ctx i.m.team fun t => { t with baton := r })) s

/-- BATON.RING (R183). -/
def execBatonRing (h : Hdr) (sl : BitVec 6) (n : BitVec 4) (s : State) : Out :=
  batonWord h (fun s i r => do
    let ms := ringOf (i.m.sreg sl.toNat) n
    need (r.isNone && ms.all (fun x => s.isWave i.ctx i.m.team x) && !hasDup ms) Cause.batonState
    return some (ms, ms.headD 0)) s

/-- The member after the holder in ring order, wrapping round (R183). -/
def ringNext (ms : List Nat) (h : Nat) : Nat := ((ms.dropWhile (· != h)).drop 1).headD (ms.headD h)

/-- BATON.PASS (R183). -/
def execBatonPass (h : Hdr) (s : State) : Out :=
  batonWord h (fun _ i r =>
    match r with
    | some (ms, x) => if x == i.m.idx then .ok (some (ms, ringNext ms x)) else .error { cause := Cause.batonState }
    | none => .error { cause := Cause.batonState }) s

/-- BATON.END (R183). -/
def execBatonEnd (h : Hdr) (s : State) : Out :=
  batonWord h (fun _ i r =>
    match r with
    | some (_, x) => if x == i.m.idx then .ok none else .error { cause := Cause.batonState }
    | none => .error { cause := Cause.batonState }) s

/-! ### Polling and KCM -/

/-- Whether an unfinished job of a cluster has an ID (R170): engine jobs and beam jobs share the IDs. -/
def State.jobOpen (s : State) (c id : Nat) : Bool :=
  ((s.cluster c).jobs.any fun j : Job => j.id == id && j.st != .done) || (s.cluster c).beams.any fun j => j.id == id

/-- JPOLL (R170, R346). -/
def execJpoll (h : Hdr) (qd : BitVec 3) (sj : BitVec 6) (s : State) : Out :=
  stepWord .usual h (fun i s =>
    let free := !s.jobOpen (clusterOfCell i.cell) (bits (i.m.sreg sj.toNat).toNat 15 0)
    .ok ((if free && i.en != 0 then s.acquire i.cell else s).modMember i.k fun m => m.writeQ qd.toNat i.en (if free then i.en else 0))) s

/-- JWAIT (R170, R346). -/
def execJwait (h : Hdr) (sj : BitVec 6) (s : State) : Out :=
  runWord (.forbid Cause.regionForbidden) h (fun i s =>
    let id := bits (i.m.sreg sj.toNat).toNat 15 0
    if i.en == 0 then .ok (s.next i)
    else if !s.jobOpen (clusterOfCell i.cell) id then .ok ((s.acquire i.cell).next i) else .ok (s.sleep i (.job id))) s

/-- KCM (R130, R131). -/
def execKcm (h : Hdr) (u : Bool) (d : BitVec 6) (r c : Src) (sk : BitVec 6) (s : State) : Out :=
  stepWord (if u then .once else .usual) h (fun i s =>
    let key := i.m.sreg sk.toNat
    let st : Word := (i.m.sreg (sk.toNat + 1)).setWidth 32
    let f (l : Nat) : Nat := (Fp.kcm (BitVec.ofNat 32 (i.m.src32 r l)) (BitVec.ofNat 32 (i.m.src32 c l)) st key).toNat
    .ok (s.modMember i.k fun m =>
      if u then (if i.en == 0 then m else m.setS d.toNat (BitVec.ofNat 64 (f (lowest i.en))))
      else m.setLanes .n32 d.toNat i.lanes f)) s

end Sys2Proof.Machine
end

