-- ==== Sys2Proof/Machine/EngineMem.lean ====
section
/-!
DEFINITION. Machine/EngineMem.lean: how the engines read and write memory for a job (R70, R136, R149, R169, R181), and how a job
ends and reports (R38, R168, R169).
-/
namespace Sys2Proof.Machine

/-! ### Memory of a job -/

namespace State

/-- The bytes of n bytes at an address of a space for a job, or the cause that one of its pages meets (R181). -/
def engRead (s : State) (j : Job) (sp a n : Nat) : Except Cause (List Byte) :=
  (pieces a n).foldlM (fun acc p =>
    match s.reach j.ctx j.cell sp p.1 p.2 true false with
    | .error c => .error c
    | .ok (.dev pa _) => .ok (acc ++ s.bytes pa p.2)
    | .ok (.ext peer b) => .ok (acc ++ s.extBytes peer b p.2)) []

/-- Whether any of n bytes that a job reads is poisoned. -/
def engPoison (s : State) (j : Job) (sp a n : Nat) : Bool :=
  (pieces a n).any fun p =>
    match s.reach j.ctx j.cell sp p.1 p.2 true false with
    | .ok (.dev pa _) => s.poisoned pa p.2
    | _ => false

/-- What the homes do for n bytes that a job reads (R237, R244, R245). -/
def engTouch (s : State) (j : Job) (sp a n : Nat) : State :=
  (pieces a n).foldl (fun s p =>
    match s.reach j.ctx j.cell sp p.1 p.2 true false with
    | .ok (.dev pa page) => (s.countTrip (dieOfCell j.cell) (dieOfPa pa)).touchHome pa p.2 false (page.map fun l => cohMode l.coh)
    | _ => s) s

/-- The wave slot of a register window address. -/
def windowSlot (pa : Nat) : Nat := waveKey ((pa - regwBase) / 2 ^ 16) (bits (pa - regwBase) 15 12)

/-- Whether a register window belongs to a resident wave of a context (R70). -/
def windowOf (s : State) (ctx pa : Nat) : Option Member := (s.member? (windowSlot pa)).filter fun m => m.ctx == ctx && m.q0 != 0

/-- Bytes that a job writes to device memory, poisoned where they are made from poisoned data (R149), or held (R68, R229). -/
def engStore (s : State) (j : Job) (pa : Nat) (bs : List Byte) (poison : Nat → Bool) (page : Option Leaf) : State :=
  s.homeWrite (some (clusterOfCell j.cell, j.key)) pa bs false ((List.range bs.length).filter poison) page

/-- Bytes that a job writes at an address of a space: a piece that meets a cause is not written (R181). A register window without
a wave of the job's context drops its bytes with REGW_GONE (R70). -/
def engWrite (s : State) (j : Job) (sp a : Nat) (bs : List Byte) (poison : Nat → Bool) : State × Option Cause :=
  (pieces a bs.length).foldl (fun (acc : State × Option Cause) p =>
    let (s, e) := acc
    let part := (bs.drop (p.1 - a)).take p.2
    match s.reach j.ctx j.cell sp p.1 p.2 false true with
    | .error c => (s, e.orElse fun _ => some c)
    | .ok (.ext peer b) => (s.setExtBytes peer b part, e)
    | .ok (.dev pa page) =>
      if isRegw pa && (s.windowOf j.ctx pa).isNone then (s, e.orElse fun _ => some Cause.regwGone)
      else ((s.countTrip (dieOfCell j.cell) (dieOfPa pa)).engStore j pa part (fun o => poison (p.1 - a + o)) page, e)) (s, none)

end State

/-! ### Ends of jobs -/

/-- ENGST after an error (R169). -/
def engstAfter (w : DWord) (cls id : Nat) (c : Cause) : DWord :=
  let x := w.toNat
  let first := bits x 4 0 == 0
  let cl := (BitVec.ofNat 5 (bits x 4 0) ||| BitVec.ofNat 5 (2 ^ cls)).toNat
  BitVec.ofNat 64 ((if first then c.toNat * 2 ^ 55 + id * 2 ^ 39 else bits x 63 39 * 2 ^ 39) + cl)

namespace State

/-- A job reports to its issuer's counter (R168); the issuer leaves its slot when that was the last thing it waited for. -/
def report (s : State) (j : Job) : State :=
  let s := s.modUid j.uid fun m => m.drop j.cls
  match s.slotOfUid j.uid with
  | some k => s.reap k
  | none => s

/-- The first complete job that no older job of the same issuer and class precedes, with the list without it. -/
def nextReport : List Job → List Job → Option (Job × List Job)
  | _, [] => none
  | before, j :: t =>
    if j.st == .done && !(before.any fun b => b.uid == j.uid && b.cls == j.cls) then some (j, before ++ t)
    else nextReport (before ++ [j]) t

/-- Every report that is due made. -/
def reportJobs : Nat → State → Nat → State
  | 0, s, _ => s
  | f + 1, s, c =>
    match nextReport [] (s.cluster c).jobs with
    | none => s
    | some (j, rest) => reportJobs f ((s.modCluster c fun x => { x with jobs := rest }).report j) c

/-- A job changed, by its key. -/
def modJob (s : State) (c key : Nat) (f : Job → Job) : State :=
  s.modCluster c fun x => { x with jobs := x.jobs.map fun j => if j.key == key then f j else j }

/-- The unfinished job of a key. -/
def job? (s : State) (c key : Nat) : Option Job := (s.cluster c).jobs.find? fun j => j.key == key && j.st != .done

/-- A job complete, with its status: ENGST records an error (R169), and the reports that are due follow. -/
def finishJob (s : State) (c key : Nat) (status : Option Cause) : State :=
  match s.job? c key with
  | none => s
  | some j =>
    let s := s.modJob c key fun j => { j with st := .done, status := status }
    let s := match status with
      | some e => s.modUid j.uid fun m => { m with engst := engstAfter m.engst j.cls j.id e }
      | none => s
    reportJobs ((s.cluster c).jobs.length + 1) s c

/-- A job at its end: complete, or waiting for its writes that are held at their homes (R68, R229). -/
def endJob (s : State) (c key : Nat) (status : Option Cause) : State :=
  if s.jobHeld c key then s.modJob c key fun j => { j with st := .ending, status := status } else s.finishJob c key status

/-- Whether a job may start: what its issuer wrote before it has been performed (R201, R229). -/
def mayStart (s : State) (j : Job) : Bool := !s.threadHeld j.uid 0xFFFFFFFF

/-- The queued job of some kinds that was accepted first (R166). -/
def firstQueued (s : State) (c : Nat) (p : Job → Bool) : Option Job :=
  ((s.cluster c).jobs.filter fun j => p j && j.st == .queued && j.accepted.isSome).foldl (fun (b : Option Job) j =>
    match b with
    | none => some j
    | some x => if j.accepted.getD 0 < x.accepted.getD 0 then some j else b) none

end State
end Sys2Proof.Machine
end

