-- ==== Sys2Proof/Machine/MatrixJobs.lean ====
section
/-!
DEFINITION. Machine/MatrixJobs.lean: the matrix engine at work (R123 to R125, R166, R172 to R180, R202): a job starts in acceptance
order and latches A; at its completion it reads its operands and writes its tile or its rows.
-/
namespace Sys2Proof.Machine

/-- A matrix operand element by its bytes (R117, R174): element n of a row. -/
def rowElem (t : Ty) (cb : List Fp.FVal) (row : List Byte) (n : Nat) : Fp.FVal :=
  if t == .cb4 then Fp.element t cb ((row.getD (n / 2) 0).toNat / (if n % 2 == 0 then 1 else 16) % 16)
  else Fp.element t cb (ofBytes ((row.drop (n * t.bytes)).take t.bytes))

/-- The scale of a code: 1 when none is given, NaN for code 0xFF (R117). -/
def scaleVal (c : Option Nat) : Fp.FVal :=
  match c with
  | none => Fp.ofInt 1
  | some c => if c == 255 then .nan else Fp.sc8 c

/-- One element of a tile after a job (R123, R124): groups of 16 k, each summed exactly and rounded once. -/
def mmaElem (k : Nat) (a b : Nat → Fp.FVal) (acc : Nat) : Nat :=
  (List.range (k / 16)).foldl (fun acc g =>
    let s := Fp.sum Fp.rne ((List.range 16).map fun n => Fp.mul (a (16 * g + n)) (b (16 * g + n)))
    Fp.add Fp.f32 Fp.rne (Fp.decode Fp.f32 acc) s) acc

/-- The address of a tile of a cluster (R140, R141). -/
def tileAddr (c tile : Nat) : Nat := accBase + c * 2 ^ 20 + tile * 2 ^ 14

namespace State

/-- The codebook of a slot. -/
def slotCb (s : State) (ctx slot : Nat) : List Fp.FVal := (s.fmtEntry ctx slot).cb

/-- The rows of B with the codes of their scales (R174). -/
structure BRows where
  rows : List (List Byte)
  scales : List (Option (List Byte))

/-- B as a job reads it: K rows from the origin. -/
def readB (s : State) (j : Job) (o : OMap) (k : Nat) : Except Cause BRows := do
  let t := o.bType
  let sp := o.cap.space.toNat
  let a := o.cap.cursor.toNat
  let f := s.fmtEntry j.ctx (strideSlot o.stride)
  let scaled := f.scaled && strideSlot o.stride != 0
  let rows ← (List.range k).mapM fun r => s.engRead j sp (a + r * strideBytes o.stride) (16 * t.bits)
  let scales ← (List.range k).mapM fun r =>
    if scaled then (s.engRead j sp (modN (a + sextN o.sofs.toNat 64) 64 + 4 * r) 4).map some else .ok none
  return ⟨rows, scales⟩

/-- Whether column c of B, or the scales of its block, is poisoned. -/
def poisonB (s : State) (j : Job) (o : OMap) (k c : Nat) : Bool :=
  let t := o.bType
  let sp := o.cap.space.toNat
  let a := o.cap.cursor.toNat
  let f := s.fmtEntry j.ctx (strideSlot o.stride)
  (List.range k).any fun r =>
    s.engPoison j sp (a + r * strideBytes o.stride + c * t.bits / 8) t.bytes ||
      (f.scaled && strideSlot o.stride != 0 && s.engPoison j sp (modN (a + sextN o.sofs.toNat 64) 64 + 4 * r + c / 32) 1)

/-- The product of an A operand, row by row, with the mapped B added to a tile for some rows (R123). The status is POISON when any
operand was poisoned. -/
def multiply (s : State) (j : Job) (c tile : Nat) (t : Ty) (aslot : Nat) (rowsEn : Word) (row : Nat → List Byte) (poisonA : Nat → Bool)
    (o : OMap) : State × Option Cause :=
  let k := mmaK t o.bType
  match s.readB j o k with
  | .error e => (s, some e)
  | .ok b =>
    let acb := s.slotCb j.ctx aslot
    let bt := o.bType
    let bcb := s.slotCb j.ctx (strideSlot o.stride)
    let base := tileAddr c tile
    let bval (r n : Nat) : Fp.FVal :=
      Fp.mul (rowElem bt bcb (b.rows.getD r []) n) (scaleVal ((b.scales.getD r none).map fun l => (l.getD (n / 32) 0).toNat))
    let dirty := !s.poisonW.isEmpty || !s.poisonS.isEmpty || (lanesOf rowsEn).any poisonA
    let badB := if dirty then (List.range 128).filter (s.poisonB j o k) else []
    let old := s
    (lanesOf rowsEn).foldl (fun (acc : State × Option Cause) i =>
      let avals := (List.range k).map (rowElem t acb (row i))
      let out := (List.range 128).map fun n => mmaElem k (fun x => avals.getD x .nan) (fun x => bval x n) (old.num (base + 512 * i + 4 * n) 4)
      let bad := if dirty then (List.range 128).filter fun n => poisonA i || badB.contains n || old.poisoned (base + 512 * i + 4 * n) 4 else []
      let s := acc.1.rawWrite (base + 512 * i) (out.flatMap (toBytes 4))
      (bad.foldl (fun s n => s.setPoison (base + 512 * i + 4 * n) 4) s, if bad.isEmpty then acc.2 else some Cause.poison)) (s, none)

/-- The A row of a lane in the latch, and its poison mark. -/
def latchRow (lt : FMap Word) (i : Nat) : List Byte := (List.range 32).flatMap fun r => toBytes 4 (FMap.get 0 lt (i * 32 + r)).toNat

/-- A block of a member as the engine latches it: registers by lane*32 + register of the block, and 1024 + lane set to 1 for a lane
with poison in the first n registers, which hold its row of A (R174). A later MMA that takes more elements of A from the latch, its map having
changed, takes them from the whole block, and the marks stay those of the first row (log 89). -/
def latchBlock (m : Member) (hi : Bool) (n : Nat) : FMap Word :=
  let lo := if hi then 32 else 0
  let regs := (List.range 32).flatMap fun l => (List.range 32).map fun r => (l * 32 + r, m.vreg l (lo + r))
  let marks := (List.range 32).filterMap fun l =>
    if (List.range ((n + 1) / 2)).any fun p => FMap.get false m.pv (l * 32 + lo / 2 + p) then some (1024 + l, (1 : Word)) else none
  (regs ++ marks).filter fun e => e.2 != 0

/-- A matrix job starts (R68, R177): an MMA that takes A from its block latches it and gives the block back, with the writes that were
held for it. -/
def startMatrix (s : State) (c : Nat) (j : Job) : State :=
  let s := s.modJob c j.key fun x => { x with st := .started }
  match j.op with
  | .mma t _ _ hi false _ o =>
    match s.byUid j.uid with
    | none => s
    | some m =>
      let s := s.modCluster c fun x => { x with alatch := FMap.ins x.alatch j.uid (latchBlock m hi (mmaK t o.bType * t.bits / 32)) }
      let s := s.modUid j.uid fun m => { m with lent := m.lent.filter fun b => !(b.1 == hi && b.2 == j.key) }
      let s := s.drainHeld
      match s.slotOfUid j.uid with
      | some k => s.reap k
      | none => s
  | _ => s

/-! ### DRAIN (R179, R180) -/

/-- One element of DRAIN before the narrowing, with its divisor (R180). -/
def drainElem (alpha acc : Fp.FVal) (resid : Option Fp.FVal) (drop : Option (Word × Word)) (scale : Option Nat) : Fp.FVal × Fp.FVal :=
  let x := Fp.mul alpha acc
  let x := match resid with
    | some r => Fp.sum Fp.rtz [x, r]
    | none => x
  let (x, d) := match drop with
    | some (h, keep) =>
      if h.toNat < keep.toNat then (x, Fp.FVal.fin false keep.toNat (-32)) else (Fp.mul x (.fin false 0 0), Fp.ofInt 1)
    | none => (x, Fp.ofInt 1)
  match scale with
  | some 255 => (.nan, d)
  | some c => (x, Fp.mul d (Fp.sc8 c))
  | none => (x, d)

/-- Elements of w bits packed into bytes (R117). -/
def packRow (w : Nat) (es : List Nat) : List Byte :=
  if w == 4 then (chunks 2 (es.length + 1) es).map fun p => BitVec.ofNat 8 (p.getD 0 0 + 16 * p.getD 1 0)
  else es.flatMap (toBytes (w / 8))

/-- Everything a DRAIN reads beside its tile: the residual rows and the scales (R180). -/
def drainInputs (s : State) (j : Job) (rcap qcap : Cap) (p rstride : Nat) : Except Cause (List (List Byte) × List Byte) := do
  let res ← if p.testBit 0 then
      (List.range 32).mapM fun i => s.engRead j rcap.space.toNat (rcap.cursor.toNat + i * rstride) 512
    else .ok []
  let sc ← if p.testBit 2 then s.engRead j qcap.space.toNat qcap.cursor.toNat 128 else .ok []
  return (res, sc)

/-- A DRAIN job (R180). -/
def drainJob (s : State) (j : Job) (c : Nat) (t : Ty) (tile : Nat) (dcap : Cap) (daddr : Nat) (w0 w1 w2 w3 : DWord) (rcap qcap : Cap) :
    State × Option Cause :=
  let p := w3.toNat
  let rstride := bits p 63 32
  let dstride := bits w0.toNat 63 32
  match s.drainInputs j rcap qcap p rstride with
  | .error e => (s, some e)
  | .ok (res, sc) =>
    let alpha := Fp.decode Fp.f32 (bits w0.toNat 31 0)
    let keep : Word := w1.extractLsb' 32 32
    let step : Word := w1.extractLsb' 0 32
    let cb := s.slotCb j.ctx (bits p 23 16)
    let base := tileAddr c tile
    let dirty := !s.poisonW.isEmpty || !s.poisonS.isEmpty
    let old := s
    let s := if p.testBit 0 then
        (List.range 32).foldl (fun s i => s.engTouch j rcap.space.toNat (rcap.cursor.toNat + i * rstride) 512) s else s
    let s := if p.testBit 2 then s.engTouch j qcap.space.toNat qcap.cursor.toNat 128 else s
    let r := (List.range 32).foldl (fun (acc : State × Option Cause) i =>
      let elem (n : Nat) : Nat :=
        let resid := if p.testBit 0 then
            some (Fp.decode Fp.f32 (ofBytes (((res.getD i []).drop (4 * n)).take 4))) else none
        let drop := if p.testBit 1 then some (Fp.kcm (BitVec.ofNat 32 i) (BitVec.ofNat 32 n) step w2, keep) else none
        let scale := if p.testBit 2 then some (sc.getD (4 * i + n / 32) 0).toNat else none
        let x := drainElem alpha (Fp.decode Fp.f32 (old.num (base + 512 * i + 4 * n) 4)) resid drop scale
        Fp.quantise t cb Fp.rtz x.1 (some x.2)
      let bad (n : Nat) : Bool := dirty && (old.poisoned (base + 512 * i + 4 * n) 4 ||
        (p.testBit 0 && old.engPoison j rcap.space.toNat (rcap.cursor.toNat + i * rstride + 4 * n) 4) ||
        (p.testBit 2 && old.engPoison j qcap.space.toNat (qcap.cursor.toNat + 4 * i + n / 32) 1))
      -- the row in sectors: 256 / w elements each
      let per := 256 / t.bits
      (List.range (128 / per)).foldl (fun (acc : State × Option Cause) q =>
        let ns := (List.range per).map fun x => q * per + x
        let bs := packRow t.bits (ns.map elem)
        let poison := ns.any bad
        let from8 (o : Nat) : Bool := if t.bits == 4 then bad (q * per + 2 * o) || bad (q * per + 2 * o + 1) else bad (q * per + o / t.bytes)
        let (s, e) := acc.1.engWrite j dcap.space.toNat (daddr + i * dstride + 32 * q) bs from8
        (s, (acc.2.orElse fun _ => e).orElse fun _ => if poison then some Cause.poison else none)) acc) (s, none)
    let s := if p.testBit 24 then r.1.rawWrite base (List.replicate 16384 0) else r.1
    (s, r.2)

/-! ### Completion -/

/-- The effect of a matrix job with its status. -/
def matrixEffect (s : State) (c : Nat) (j : Job) : State × Option Cause :=
  match j.op with
  | .mma t tile rows _ _ aslot o =>
    let lt := FMap.get [] (s.cluster c).alatch j.uid
    s.multiply j c tile t aslot rows (latchRow lt) (fun i => FMap.get 0 lt (1024 + i) == 1) o
  | .mmas op =>
    let n := mmaK op.t op.omap.bType * op.t.bits / 8
    let at' (i : Nat) : Nat := op.aaddr + i * op.astride
    match (List.range 32).mapM fun i => s.engRead j op.acap.space.toNat (at' i) n with
    | .error e => (s, some e)
    | .ok rows =>
      s.multiply j c op.tile op.t op.aslot 0xFFFFFFFF (fun i => rows.getD i []) (fun i => s.engPoison j op.acap.space.toNat (at' i) n) op.omap
  | .accz tile n =>
    ((List.range n).foldl (fun s k => s.rawWrite (tileAddr c (tile + k)) (List.replicate 16384 0)) s, none)
  | .drain t tile dcap daddr w0 w1 w2 w3 rcap qcap => s.drainJob j c t tile dcap daddr w0 w1 w2 w3 rcap qcap
  | _ => (s, none)

/-- The matrix job that runs on a cluster. -/
def runningMatrix (s : State) (c : Nat) : Option Job :=
  (s.cluster c).jobs.find? fun j => j.cls == clsMatrix && (j.st == .started || j.st == .ending)

end State

/-- MATRIX_JOB_START: the matrix engine takes the next job in acceptance order, one at a time (R166), after every access of the one
before it (R202). -/
def execMatrixJobStart (cluster : Nat) (s : State) : Out :=
  match s.runningMatrix cluster with
  | some _ => .next s
  | none =>
    match s.firstQueued cluster fun j => j.cls == clsMatrix with
    | some j => .next (if s.mayStart j then s.startMatrix cluster j else s)
    | none => .next s

/-- MATRIX_JOB_COMPLETE: the running job has its effect, and completes once its writes have been performed. -/
def execMatrixJobComplete (cluster : Nat) (s : State) : Out :=
  match s.runningMatrix cluster with
  | some j =>
    if j.st == .ending then .next (s.endJob cluster j.key j.status)
    else .next (s.unlessBusy fun s =>
      let (s, e) := s.matrixEffect cluster j
      s.endJob cluster j.key e)
  | none => .next s

end Sys2Proof.Machine
end

