-- ==== Sys2Proof/Machine/CopyJobs.lean ====
section
/-!
DEFINITION. Machine/CopyJobs.lean: the copy unit and the base dies at work (R70, R150, R166, R181, R182, R186 to R189), and the
power tokens (R185, R294).
-/
namespace Sys2Proof.Machine

namespace State

/-! ### Copies -/

/-- A running copy and its operands. -/
structure CopyRun where
  job : Job
  dcap : Cap
  daddr : Nat
  scap : Cap
  len : Nat
  tag : Option Nat

/-- The started copy of a key. -/
def copyRun? (s : State) (c key : Nat) : Option CopyRun :=
  match s.job? c key with
  | some j =>
    match j.op with
    | .cpy dcap daddr scap len tag => if j.st == .started then some ⟨j, dcap, daddr, scap, len, tag⟩ else none
    | _ => none
  | none => none

/-- The wave that a copy found in a register-window slot at its first sector there, if the slot still holds it (R70): the slots
recorded, and whether the sector is good. -/
def windowCheck (s : State) (j : Job) (pa : Nat) : FMap (Option Nat) × Bool :=
  let k := windowSlot pa
  let now := (s.windowOf j.ctx pa).map Member.uid
  match FMap.find? j.slots k with
  | none => (FMap.ins j.slots k now, now.isSome)
  | some u => if u.isSome && u == now then (j.slots, true) else (FMap.ins j.slots k none, false)

/-- What a sector of a copy reads: the bytes, whether each 64-bit word is poisoned, the slots recorded, the cause it met. -/
structure SectorRead where
  bytes : List Byte
  poison : List Bool
  slots : FMap (Option Nat)
  cause : Option Cause
  ok : Bool

/-- The read of sector m (R70, R181): a slot without a wave of the context reads as zero, and a PEER read that fails returns poisoned data
(R300). -/
def readSector (s : State) (r : CopyRun) (m : Nat) : SectorRead :=
  let sp := r.scap.space.toNat
  let a := r.scap.cursor.toNat + 32 * m
  match s.reach r.job.ctx r.job.cell sp a 32 true false with
  | .error c => ⟨[], [], r.job.slots, some c, false⟩
  | .ok (.ext peer b) =>
    let bad := peer && Config.peerFails s.fresh
    ⟨s.extBytes peer b 32, List.replicate 4 bad, r.job.slots, if bad then some Cause.poison else none, true⟩
  | .ok (.dev pa _) =>
    let ps := (List.range 4).map fun k => s.poisoned (pa + 8 * k) 8
    let bad := if ps.any id then some Cause.poison else none
    if isRegw pa then
      let (slots, good) := s.windowCheck r.job pa
      if good then ⟨s.bytes pa 32, ps, slots, bad, true⟩ else ⟨List.replicate 32 0, [], slots, some Cause.regwGone, true⟩
    else ⟨s.bytes pa 32, ps, r.job.slots, bad, true⟩

/-- The write of a sector; none while the block that it would write is lent (R68). A posted write to a peer that fails is dropped with event 6
(R300). -/
def writeSector (s : State) (r : CopyRun) (m : Nat) (x : SectorRead) : Option (State × FMap (Option Nat) × Option Cause) :=
  if !x.ok then some (s, x.slots, none)
  else
    let j := { r.job with slots := x.slots }
    match s.reach j.ctx j.cell r.dcap.space.toNat (r.daddr + 32 * m) 32 false true with
    | .error c => some (s, x.slots, some c)
    | .ok (.ext peer b) =>
      some (if peer && Config.peerFails (s.fresh + 1) then s.logEvent 6 0 0 b else s.setExtBytes peer b x.bytes, x.slots, none)
    | .ok (.dev pa page) =>
      let put (s : State) : State := s.engStore j pa x.bytes (fun o => x.poison.getD (o / 8) false) page
      if isRegw pa then
        let (slots, good) := s.windowCheck j pa
        if !good then some (s, slots, some Cause.regwGone)
        else if ((s.windowOf j.ctx pa).map fun w => w.lent.any fun b => b.1).getD false then none
        else some (put s, slots, none)
      else some (put s, x.slots, none)

/-- Sector m of a copy read and written, or dropped. -/
def landSector (s : State) (c : Nat) (r : CopyRun) (m : Nat) : State :=
  let x := s.readSector r m
  match s.writeSector r m x with
  | none => s
  | some (s, slots, e) =>
    let s := if r.scap.space.toNat == spPeer || r.dcap.space.toNat == spPeer then { s with fresh := s.fresh + 2 } else s
    let s := if x.ok then s.engTouch r.job r.scap.space.toNat (r.scap.cursor.toNat + 32 * m) 32 else s
    s.modJob c r.job.key fun j =>
      { j with slots := slots, landed := FMap.ins j.landed m true, status := (j.status.orElse fun _ => x.cause).orElse fun _ => e }

/-- The tag of a copy DONE (R150). -/
def endTag (s : State) (r : CopyRun) : State :=
  match r.tag with
  | none => s
  | some t => s.modCell r.job.cell fun x => { x with tag := FMap.upd x.tag t fun g => { g with done := true, err := r.job.status.isSome } }

/-- The follow-on of a CPYM accepted, or cancelled with an error status (R182, R202). It takes no wait for a place in the job queue,
which may so hold one more (log 73). -/
def followOn (s : State) (c : Nat) (r : CopyRun) : State :=
  match s.job? c (r.job.key + 1) with
  | some f =>
    if f.id != r.job.id || f.accepted.isSome then s
    else if r.job.status.isSome then s.finishJob c f.key (some Cause.followOnCancelled)
    else
      let n := (s.cluster c).accepted
      (s.modCluster c fun x => { x with accepted := n + 1 }).modJob c f.key fun j => { j with accepted := some n }
  | none => s

end State

/-- COPY_JOB_START: the next copy in acceptance order starts when fewer than 16 run (R166). -/
def execCopyJobStart (cluster : Nat) (s : State) : Out :=
  if 16 ≤ ((s.cluster cluster).jobs.filter fun j => j.cls == clsCopy && j.st == .started).length then .next s
  else
    match s.firstQueued cluster fun j => j.cls == clsCopy with
    | some j => .next (if s.mayStart j then s.modJob cluster j.key fun x => { x with st := .started } else s)
    | none => .next s

/-- COPY_SECTOR_LAND: a sector of a running copy that has not landed yet (R181). -/
def execCopySectorLand (cluster job sector : Nat) (s : State) : Out :=
  match s.copyRun? cluster job with
  | some r =>
    if sector < r.len / 32 && (FMap.find? r.job.landed sector).isNone then .next (s.unlessBusy fun s => s.landSector cluster r sector)
    else .next s
  | none => .next s

/-- COPY_JOB_COMPLETE: the last sector has landed or been dropped, and none is held at its home (R150, R182, R229). -/
def execCopyJobComplete (cluster job : Nat) (s : State) : Out :=
  match s.copyRun? cluster job with
  | some r =>
    if r.job.landed.length < r.len / 32 || s.jobHeld cluster r.job.key then .next s
    else .next (((s.endTag r).finishJob cluster r.job.key r.job.status).followOn cluster r)
  | none => .next s

/-! ### Base-die commands -/

namespace State

/-- A granule written by a base-die job from bytes that it computed, or left alone after a cause. -/
def baseWrite (acc : State × Option Cause) (j : Job) (sp a : Nat) (bs : List Byte) (poison : Nat → Bool) :
    State × Option Cause :=
  let (s, e) := acc.1.engWrite j sp a bs poison
  (s, (acc.2.orElse fun _ => e).orElse fun _ => if (List.range bs.length).any poison then some Cause.poison else none)

/-- BGATH (R187). -/
def bgathJob (s : State) (j : Job) (dcap : Cap) (daddr : Nat) (tcap icap : Cap) (count : Nat) : State × Option Cause :=
  (List.range count).foldl (fun (acc : State × Option Cause) g =>
    let s := acc.1
    let fail (c : Cause) : State × Option Cause := (s, acc.2.orElse fun _ => some c)
    let ia := icap.cursor.toNat + 4 * g
    match s.engRead j spGlobal ia 4 with
    | .error c => fail c
    | .ok ix =>
      let a := tcap.cursor.toNat + 64 * ofBytes ix
      if !tcap.inBounds a 64 then fail Cause.capBounds
      else if 2 ^ 57 < a + 64 then fail Cause.addrRange
      else
        match s.engRead j spGlobal a 64 with
        | .error c => fail c
        | .ok bs =>
          let all := s.engPoison j spGlobal ia 4
          let bad (o : Nat) : Bool := all || s.engPoison j spGlobal (a + o) 1
          let s := (s.engTouch j spGlobal ia 4).engTouch j spGlobal a 64
          baseWrite (s, acc.2) j dcap.space.toNat (daddr + 64 * g) bs bad) (s, none)

/-- Whether the page of a BRED destination is raw or of the type (R188). -/
def bredFmtOk (s : State) (j : Job) (t : Ty) (a : Nat) : Bool :=
  match s.translate j.cell j.ctx a with
  | .ok l => l.fmt == 0 || (s.fmtEntry j.ctx l.fmt).efmt == t.code.toNat
  | .error _ => true

/-- BRED (R188), by granules of 64 bytes. -/
def bredJob (s : State) (j : Job) (t : Ty) (dcap : Cap) (daddr : Nat) (scap : Cap) (count : Nat) : State × Option Cause :=
  let n := count * t.bytes
  if !((pieces daddr n).all fun p => s.bredFmtOk j t p.1) then (s, some Cause.formatSlot)
  else
    (List.range (n / 64)).foldl (fun (acc : State × Option Cause) g =>
      let s := acc.1
      let fail (c : Cause) : State × Option Cause := (s, acc.2.orElse fun _ => some c)
      let da := daddr + 64 * g
      let sa := scap.cursor.toNat + 64 * g
      match s.engRead j dcap.space.toNat da 64, s.engRead j scap.space.toNat sa 64 with
      | .error c, _ => fail c
      | _, .error c => fail c
      | .ok d, .ok x =>
        let f := Fp.fmtOf t
        let el (l : List Byte) (k : Nat) : Fp.FVal := Fp.decode f (ofBytes ((l.drop (k * t.bytes)).take t.bytes))
        let out := (List.range (64 / t.bytes)).flatMap fun k => toBytes t.bytes (Fp.add f Fp.rne (el d k) (el x k))
        let bad (o : Nat) : Bool := s.engPoison j dcap.space.toNat (da + o) 1 || s.engPoison j scap.space.toNat (sa + o) 1
        baseWrite (s.engTouch j scap.space.toNat sa 64, acc.2) j dcap.space.toNat da out bad) (s, none)

/-- The address of the scale of the block at an address of a scaled tensor (R92). -/
def blockScale (f : FmtEntry) (t : Ty) (a : Nat) : Nat := f.sbase + (a - f.tbase) / (4 * t.bits)

/-- The magnitude of a value. -/
def fabs : Fp.FVal → Fp.FVal
  | .fin _ m e => .fin false m e
  | .inf _ => .inf false
  | .nan => .nan

/-- The largest of some magnitudes. -/
def maxAbs (xs : List Fp.FVal) : Fp.FVal :=
  xs.foldl (fun a x => if Fp.cmp a (fabs x) < 0 then fabs x else a) (.fin false 0 0)

/-- M of R189. -/
def fmtLimit (t : Ty) (cb : List Fp.FVal) : Fp.FVal :=
  if t == .cb4 then maxAbs cb else Fp.decode (Fp.fmtOf t) (Fp.fmtOf t).maxFin

/-- The scale that BCVT computes for a block (R189). -/
def chooseScale (t : Ty) (cb xs : List Fp.FVal) : Nat :=
  if xs.any Fp.FVal.isNan then 0xFF
  else
    let top := maxAbs xs
    ((List.range 0xFF).find? fun c => Fp.cmp top (Fp.mul (fmtLimit t cb) (Fp.sc8 c)) ≤ 0).getD 0xFE

/-- One block of BCVT (R189). -/
def bcvtBlock (acc : State × Option Cause) (j : Job) (da sa : Nat) (rm : BitVec 2) (scalc : Bool) : State × Option Cause :=
  let s := acc.1
  let fail (c : Cause) : State × Option Cause := (s, acc.2.orElse fun _ => some c)
  match s.pageFmt j.cell j.ctx da, s.pageFmt j.cell j.ctx sa with
  | some (df, dt), some (sf, st) =>
    let rd (f : FmtEntry) (t : Ty) (a : Nat) : Except Cause (Option Nat) :=
      if f.scaled then (s.engRead j spGlobal (blockScale f t a) 1).map fun b => some (ofBytes b) else .ok none
    match s.engRead j spGlobal sa (4 * st.bits), rd sf st sa, (if scalc then .ok none else rd df dt da) with
    | .error c, _, _ => fail c
    | _, .error c, _ => fail c
    | _, _, .error c => fail c
    | .ok src, .ok ssc, .ok dsc =>
      let xs := (List.range 32).map fun n => Fp.mul (rowElem st sf.cb src n) (scaleVal ssc)
      -- poison of the elements that byte o of the block holds, and of the scales
      let scaleBad := (sf.scaled && s.engPoison j spGlobal (blockScale sf st sa) 1) ||
        (df.scaled && (if scalc then s.engPoison j spGlobal sa (4 * st.bits) else s.engPoison j spGlobal (blockScale df dt da) 1))
      let elemBad (n : Nat) : Bool := s.engPoison j spGlobal (sa + n * st.bits / 8) (max 1 (st.bits / 8))
      let bad (o : Nat) : Bool := scaleBad || elemBad (8 * o / dt.bits) || (dt.bits == 4 && elemBad (2 * o + 1))
      let sc := if scalc && df.scaled then some (chooseScale dt df.cb xs) else dsc
      let out := xs.map fun x =>
        match sc with
        | some 255 => Fp.quantise dt df.cb rm .nan none
        | some c => Fp.quantise dt df.cb rm x (some (Fp.sc8 c))
        | none => Fp.quantise dt df.cb rm x none
      let touch (s : State) (b : Bool) (f : FmtEntry) (t : Ty) (a : Nat) : State := if b then s.engTouch j spGlobal (blockScale f t a) 1 else s
      let acc := (touch (touch (s.engTouch j spGlobal sa (4 * st.bits)) sf.scaled sf st sa) (df.scaled && !scalc) df dt da, acc.2)
      let acc := if scalc && df.scaled then
          baseWrite acc j spGlobal (blockScale df dt da) (toBytes 1 (sc.getD 0)) (fun _ => scaleBad) else acc
      baseWrite acc j spGlobal da (packRow dt.bits out) bad
  | _, _ =>
    match s.translate j.cell j.ctx da, s.translate j.cell j.ctx sa with
    | .error c, _ => fail c
    | _, .error c => fail c
    | _, _ => fail Cause.formatSlot

/-- BCVT (R189), block by block. The blocks are laid out by the format of each operand's first page, and a block on a page of another format is
read or written in that format (log 90). -/
def bcvtJob (s : State) (j : Job) (dcap : Cap) (daddr : Nat) (scap : Cap) (count : Nat) (rm : BitVec 2) (scalc : Bool) :
    State × Option Cause :=
  let step (a : Nat) : Nat := 4 * ((s.pageFmt j.cell j.ctx a).map fun p => p.2.bits).getD 8
  let dstep := step daddr
  let sstep := step scap.cursor.toNat
  (List.range (count / 32)).foldl (fun acc b =>
    let da := daddr + b * dstep
    let sa := scap.cursor.toNat + b * sstep
    if !dcap.inBounds da dstep || !scap.inBounds sa sstep then (acc.1, acc.2.orElse fun _ => some Cause.capBounds)
    else bcvtBlock acc j da sa rm scalc) (s, none)

/-- The effect of a base-die job with its status. -/
def baseEffect (s : State) (j : Job) : State × Option Cause :=
  match j.op with
  | .bgath dcap daddr tcap icap n => s.bgathJob j dcap daddr tcap icap n
  | .bred t dcap daddr scap n => s.bredJob j t dcap daddr scap n
  | .bcvt dcap daddr scap n rm scalc => s.bcvtJob j dcap daddr scap n rm scalc
  | _ => (s, none)

end State

/-- A BRED waits for words that a solo region holds, or whose last write is held: each update is indivisible (R188, R229). -/
def State.bredWaits (s : State) (j : Job) : Bool :=
  match j.op with
  | .bred t dcap daddr _ count =>
    (pieces daddr (count * t.bytes)).any fun p =>
      match s.reach j.ctx j.cell dcap.space.toNat p.1 p.2 true true with
      | .ok t => (s.soloHolds t.pa p.2).isSome || s.heldW.any fun e => s.sameWords t.pa p.2 e.pa e.n
      | .error _ => false
  | _ => false

/-- BASE_JOB_COMPLETE: every part of a base-die job, and its completion once its writes have been performed (R186, R229). -/
def execBaseJobComplete (cluster job : Nat) (s : State) : Out :=
  match (s.job? cluster job).filter fun j => j.cls == clsBase with
  | some j =>
    if j.st == .ending then .next (s.endJob cluster job j.status)
    else if !s.mayStart j || s.bredWaits j then .next s
    else .next (s.unlessBusy fun s =>
      let (s, e) := s.baseEffect j
      s.endJob cluster job e)
  | none => .next s

/-! ### Budget and power -/

namespace State

/-- The contexts with a team bound to a die. -/
def ctxsOn (s : State) (d : Nat) : List Nat := ((s.teams.filter fun t => t.die == d).map Team.ctx).eraseDups

/-- WEIGHT as the device reads it: 0 stands for 16 (R298). -/
def weightOf (s : State) (x : Nat) : Nat := if (s.ctx x).weight == 0 then 16 else (s.ctx x).weight.toNat

/-- The share of a context in a refill of a die: its weight's part of the allotment (R185). -/
def shareOf (s : State) (d x : Nat) : Nat :=
  let total := ((s.ctxsOn d).map s.weightOf).foldl (· + ·) 0
  if total == 0 then 0 else (s.die d).tokens * s.weightOf x / total

end State

/-- BUDGET_REFILL (R184, R185): every stalled word of the die may try again. -/
def execBudgetRefill (die : Nat) (s : State) : Out :=
  .next ((s.ctxsOn die).foldl (fun s' x =>
    let share := s.shareOf die x
    s'.modCtx x fun c =>
      { c with budget := FMap.put 0 c.budget die (min (2 ^ 32 - 1) (min (FMap.get 0 c.budget die + share) (2 * share))),
               stalled := FMap.put false c.stalled die false }) s)

/-- The share of a die within 520 W, lowered while a heat-flux sensor of the die reads above 250 W/cm² (R294, log 35). -/
def limitShare (fresh d share : Nat) : Nat :=
  let x := min share Config.dieTokens
  if Config.hotDie (fresh + d) then min x (Config.cooled (fresh + d)) else x

/-- POWER_TOKEN_DIVISION (R185, R294): the tokens of PWRLIM among the dies in proportion to their activity counters. -/
def execPowerTokenDivision (activity : List Nat) (s : State) : Out :=
  let total := (activity.take 4).foldl (· + ·) 0
  let pot := Config.powerTokens s.host.pwrlim.toNat
  .next ([0, 1, 2, 3].foldl (fun s d =>
    if total == 0 then s else s.modDie d fun x => { x with tokens := limitShare s.fresh d (pot * activity.getD d 0 / total) })
    { s with fresh := s.fresh + 4 })

end Sys2Proof.Machine
end

