-- ==== Sys2Proof/Machine/Beam.lean ====
section
/-!
DEFINITION. Machine/Beam.lean: BEAM and BRES (R276, R278), and the beam unit at work: query records (R265, R266), nodes and
leaves (R268 to R270), steps and split records (R274, R275), results (R273), status (R277), saves and restorations (R279 to
R281).
-/
namespace Sys2Proof.Machine

/-! ### Issue -/

/-- Spaces of a query record. -/
def beamSpaces : List Nat := [spGlobal, spSpad, spSpadw]

/-- BEAM's checks over the enabled lanes (R276). -/
def beamCheck (i : Iss) (m : MemOp) (s : State) : Chk Unit := do
  let c := i.m.creg m.cap.toNat
  s.capCheck i.ctx i.cell c beamSpaces (permR ||| permW ||| permLC ||| permEN) 128 128 (i.addrs m)

/-- One lane's beam job accepted (R167, R168, R276). -/
def beamLane (i : Iss) (d : Nat) (m : MemOp) (piece : Nat → Option (Word × Word × Word)) (s : State) (l : Nat) : State :=
  let c := clusterOfCell i.cell
  let key := (s.cluster c).nextKey
  let (s, id) := s.acceptJob i clsBeam .beam
  let prio := ((s.team? i.ctx i.m.team).map Team.prio).getD 0
  let j : BeamJob :=
    { key := key, id := id, uid := i.m.uid, ctx := i.ctx, team := i.m.team, cell := i.cell, prio := prio, cap := i.m.creg m.cap.toNat,
      addr := i.m.addr m l, piece := piece l, st := .waiting, q := none, frames := [], beams := [], splits := 0, limit := false,
      preempted := false }
  (s.modCluster c fun x => { x with beams := x.beams ++ [j] }).modMember i.k fun m => m.setVal .n32 l d id

/-- BEAM (R276): one job per enabled lane. -/
def beamWord (h : Hdr) (d : BitVec 6) (m : MemOp) (piece : Iss → Nat → Option (Word × Word × Word)) (s : State) : Out :=
  onceWord (.forbid Cause.regionForbidden) h (fun i s => do
    beamCheck i m s
    return i.lanes.foldl (beamLane i d.toNat m (piece i)) s) s

/-- BEAM.QUERY. -/
def execBeamQuery (h : Hdr) (d : BitVec 6) (m : MemOp) (s : State) : Out := beamWord h d m (fun _ _ => none) s

/-- BEAM.RESUME: the piece stands in vP to vP+2. -/
def execBeamResume (h : Hdr) (d : BitVec 6) (m : MemOp) (p : BitVec 6) (s : State) : Out :=
  beamWord h d m (fun i l => some (i.m.vreg l p.toNat, i.m.vreg l (p.toNat + 1), i.m.vreg l (p.toNat + 2))) s

/-- The answer of BRES for a job ID (R278): the unfinished job of the ID before those remembered (log 112). -/
def State.beamStatus (s : State) (c ctx id : Nat) : Nat :=
  match (s.cluster c).beams.find? fun j => j.id == id with
  | some j => if j.ctx == ctx then 0 else 2 ^ 30
  | none =>
    match (s.cluster c).beamDone.find? fun e => e.1 == id with
    | some e => if e.2.1 == ctx then e.2.2.toNat else 2 ^ 30
    | none => 2 ^ 30

/-- BRES (R278): a status with DONE acquires. -/
def execBres (h : Hdr) (d : BitVec 6) (j : Src) (s : State) : Out :=
  stepWord .usual h (fun i s =>
    let st (l : Nat) : Nat := s.beamStatus (clusterOfCell i.cell) i.ctx (i.m.src32 j l % 2 ^ 16)
    let s' := if i.lanes.any fun l => (st l).testBit 31 then s.acquire i.cell else s
    .ok (s'.modMember i.k fun m => m.setLanes .n32 d.toNat i.lanes st)) s

/-! ### Fields of a query -/

namespace Query

def anyHit (q : Query) : Bool := q.ctl.getLsbD 13
def spawn (q : Query) : Bool := q.ctl.getLsbD 12
def g1 (q : Query) : Nat := bits q.ctl.toNat 7 4 + 1
def g2 (q : Query) : Nat := bits q.ctl.toNat 11 8 + 1
def kind (q : Query) : Nat := bits q.ctl.toNat 15 14
/-- The handler entry as a byte address (R19). -/
def hpc (q : Query) : Nat := bits q.ctl.toNat 63 16 * 8
def span (q : Query) : Beam.Span := ⟨Beam.gridVal q.tmin.toNat, if q.tmax == 0x7F800000 then none else some (Beam.gridVal q.tmax.toNat)⟩
def origin (q : Query) : Beam.Vec := Beam.vecOf (q.apex.map BitVec.toNat)
def dir (q : Query) (u v : Nat) : List Nat := Beam.direction q.kind q.g1 q.g2 u v (q.dirs.map BitVec.toNat)

/-- The query that the 128 bytes of a record and the tags of its first three slots give (R265). -/
def ofBytes (bs : List Byte) (tags : List Bool) : Query :=
  let num (a n : Nat) : Nat := Sys2Proof.ofBytes ((bs.drop a).take n)
  let cap (k : Nat) : Cap :=
    let c := Cap.ofNat128 (tags.getD k false) (num (16 * k) 16)
    { c with tag := c.tag && c.eOk && c.space.toNat ≤ 7 }
  let f (a : Nat) : Word := BitVec.ofNat 32 (num a 4)
  { bvh := cap 0, res := cap 1, save := cap 2, ctl := BitVec.ofNat 64 (num 48 8), apex := [f 56, f 60, f 64], tmin := f 68, tmax := f 72,
    dirs := (List.range 12).map fun k => f (76 + 4 * k) }

end Query

/-- The index of a job's save area, 0 for a query (R280). -/
def BeamJob.area (j : BeamJob) : Nat := match j.piece with
  | some (_, _, k) => k.toNat + 1
  | none => 0

/-- The rectangle that a piece names (R275). -/
def pieceItem (a0 a1 : Word) : BeamItem :=
  let x := a1.toNat
  { node := a0.toNat, next := bits x 2 0, col := bits x 7 4, row := bits x 11 8, ncol := bits x 15 12 + 1, nrow := bits x 19 16 + 1,
    leaf := false, lvl := 0 }

/-- Whether a rectangle lies in the grid. -/
def rectOk (q : Query) (r : BeamItem) : Bool := r.col + r.ncol ≤ q.g1 && r.row + r.nrow ≤ q.g2

/-- The rays of a rectangle as columns and rows. -/
def raysOf (r : BeamItem) : List (Nat × Nat) :=
  (List.range r.nrow).flatMap fun v => (List.range r.ncol).map fun u => (r.col + u, r.row + v)

/-- A job of the unit as the memory helpers of the engines see it. -/
def BeamJob.asJob (j : BeamJob) : Job :=
  { key := j.key, id := j.id, cls := clsBeam, uid := j.uid, ctx := j.ctx, team := j.team, cell := j.cell, op := .beam, st := .started, status := none,
    accepted := none, landed := [], slots := [] }

/-! ### Reading -/

namespace State

/-- Bytes that the unit reads, or the cause it meets: a cursor step of R137, the walk, poison among them (R270). -/
def beamRead (s : State) (j : BeamJob) (sp a n : Nat) : Except Cause (List Byte) :=
  match s.cursorCheck j.ctx j.cell sp a n with
  | some c => .error c
  | none =>
    match s.engRead j.asJob sp a n with
    | .error c => .error c
    | .ok bs => if s.engPoison j.asJob sp a n then .error Cause.poison else .ok bs

/-- Bytes that the unit writes, or the cause it meets: the cursor steps of R137 stand before the walk. -/
def beamWrite (s : State) (j : BeamJob) (sp a : Nat) (bs : List Byte) : State × Option Cause :=
  match s.cursorCheck j.ctx j.cell sp a bs.length with
  | some c => (s, some c)
  | none => s.engWrite j.asJob sp a bs (fun _ => false)

/-- The tag of the slot at an address of a space. -/
def beamTag (s : State) (j : BeamJob) (sp a : Nat) : Bool :=
  match s.reach j.ctx j.cell sp a 16 true false with
  | .ok (.dev pa _) => s.tagAt pa
  | _ => false

/-- The query record of a job (R265). -/
def readQuery (s : State) (j : BeamJob) : Except Cause Query := do
  let sp := j.cap.space.toNat
  let bs ← s.beamRead j sp j.addr 128
  return Query.ofBytes bs ((List.range 3).map fun k => s.beamTag j sp (j.addr + 16 * k))

/-- SAVECAP as R280 demands it. -/
def saveOk (q : Query) (j : BeamJob) : Bool :=
  let a := q.save.cursor.toNat
  q.save.tag && beamSpaces.contains q.save.space.toNat && q.save.has (permR ||| permW ||| permEN) && a % 64 == 0 &&
    q.save.inBounds a 512 && (!q.spawn || q.save.inBounds a 33280) && q.save.inBounds (a + 512 * j.area) 512

/-- The checks of R266. A component -0 counts as zero (log 110). -/
def queryOk (s : State) (q : Query) (j : BeamJob) : Bool :=
  let d := q.dirs.map BitVec.toNat
  let zero (k : Nat) : Bool := (List.range 3).all fun a => d.getD (3 * k + a) 0 % 2 ^ 31 == 0
  let tmin := q.tmin.toNat
  let tmax := q.tmax.toNat
  bits q.ctl.toNat 3 0 == 0 && q.kind != 3 &&
    (q.kind != 0 || (q.g1 == 1 && q.g2 == 1 && zero 1 && zero 2 && zero 3)) && (q.kind != 2 || zero 3) &&
    (q.apex.all fun x => Beam.finite x.toNat) && (d.all Beam.finite) &&
    Beam.finite tmin && 0 ≤ Beam.gridVal tmin && (Beam.finite tmax || q.tmax == 0x7F800000) && Beam.gridVal tmin ≤ Beam.gridVal tmax &&
    q.bvh.tag && q.bvh.space.toNat == spGlobal && q.bvh.has (permR ||| permEN) && q.bvh.cursor.toNat % 128 == 0 &&
    q.res.tag && beamSpaces.contains q.res.space.toNat && q.res.has (permW ||| permEN) && q.res.cursor.toNat % 16 == 0 &&
    q.res.inBounds q.res.cursor.toNat (q.g1 * q.g2 * 16) && saveOk q j &&
    (!(q.spawn && j.piece.isNone) || (s.markKind j.ctx q.hpc).isSome)

end State

/-- An inner node (R268). -/
structure BvhNode where
  origin : Beam.Vec
  ex : List Int
  cmask : Nat
  innerBase : Nat
  leafBase : Nat
  leafMask : Nat
  qlo : List Nat
  qhi : List Nat

/-- The node of 128 bytes, BEAM_NODE when it breaks R270. -/
def BvhNode.ofBytes (bs : List Byte) : Except Cause BvhNode :=
  let num (a n : Nat) : Nat := Sys2Proof.ofBytes ((bs.drop a).take n)
  let byte (a : Nat) : Nat := num a 1
  let cm := byte 15
  let lo := (List.range 24).map fun k => byte (32 + k)
  let hi := (List.range 24).map fun k => byte (56 + k)
  let crossed := (List.range 24).any fun k => cm.testBit (k / 3) && hi.getD k 0 < lo.getD k 0
  if num 25 7 != 0 || num 80 48 != 0 || crossed || !((List.range 3).all fun k => Beam.finite (num (4 * k) 4)) then .error Cause.beamNode
  else .ok { origin := Beam.vecOf [num 0 4, num 4 4, num 8 4], ex := (List.range 3).map fun k => sextN (byte (12 + k)) 8, cmask := cm,
             innerBase := num 16 4, leafBase := num 20 4, leafMask := byte 24, qlo := lo, qhi := hi }

/-- The box of a child (R268). -/
def BvhNode.box (n : BvhNode) (c : Nat) : Beam.Box :=
  let side (o : Rat) (q a : Nat) : Rat := o + (q : Rat) * Beam.ratPow2 (n.ex.getD a 0)
  { lo := ⟨side n.origin.x (n.qlo.getD (3 * c) 0) 0, side n.origin.y (n.qlo.getD (3 * c + 1) 0) 1, side n.origin.z (n.qlo.getD (3 * c + 2) 0) 2⟩,
    hi := ⟨side n.origin.x (n.qhi.getD (3 * c) 0) 0, side n.origin.y (n.qhi.getD (3 * c + 1) 0) 1, side n.origin.z (n.qhi.getD (3 * c + 2) 0) 2⟩ }

/-- The offset of a child, in 32-byte units and not cut to 32 bits (R268, log 109). -/
def BvhNode.child (n : BvhNode) (c : Nat) : Nat :=
  let leaf := n.leafMask.testBit c
  let k := ((List.range c).filter fun i => n.cmask.testBit i && n.leafMask.testBit i == leaf).length
  if leaf then n.leafBase + 5 * k else n.innerBase + 4 * k

/-- A triangle of a leaf with its ID. -/
structure Tri where
  id : Nat
  v0 : Beam.Vec
  v1 : Beam.Vec
  v2 : Beam.Vec

/-- COUNT and TRIBASE of a leaf's first 16 bytes (R269, R270). -/
def leafHead (bs : List Byte) : Except Cause (Nat × Nat) :=
  let w := ofBytes (bs.take 8)
  let n := bits w 34 32
  if bits w 63 35 != 0 || ofBytes (bs.drop 8) != 0 || n == 0 || 4 < n then .error Cause.beamNode else .ok (n, bits w 31 0)

/-- The first n triangles of a leaf in their 36 bytes each (R269, R270). -/
def leafTris (n base : Nat) (bs : List Byte) : Except Cause (List Tri) :=
  let num (a : Nat) : Nat := ofBytes ((bs.drop a).take 4)
  if !((List.range (9 * n)).all fun k => Beam.finite (num (4 * k))) then .error Cause.beamNode
  else .ok ((List.range n).map fun k =>
    let v (c : Nat) : Beam.Vec := Beam.vecOf ((List.range 3).map fun a => num (36 * k + 12 * c + 4 * a))
    ⟨(base + k) % 2 ^ 32, v 0, v 1, v 2⟩)

namespace State

/-- The address of a node or leaf of n bytes of the BVH, BEAM_NODE when it leaves the bounds (R268, R270). -/
def bvhAddr (q : Query) (off n : Nat) : Except Cause Nat :=
  let a := q.bvh.cursor.toNat + 32 * off
  if !q.bvh.inBounds a n then .error Cause.beamNode else .ok a

def readNode (s : State) (j : BeamJob) (q : Query) (off : Nat) : Except Cause BvhNode := do
  BvhNode.ofBytes (← s.beamRead j spGlobal (← bvhAddr q off 128) 128)

/-- The triangles of a leaf: those that COUNT leaves out are not read (R269). -/
def readLeaf (s : State) (j : BeamJob) (q : Query) (off : Nat) : Except Cause (List Tri) := do
  let a ← bvhAddr q off 160
  let (n, base) ← leafHead (← s.beamRead j spGlobal a 16)
  leafTris n base (← s.beamRead j spGlobal (a + 16) (36 * n))

/-- What the homes do for the bytes of the BVH that a step reads (R237). -/
def touchBvh (s : State) (j : BeamJob) (q : Query) (off n : Nat) : State :=
  s.engTouch j.asJob spGlobal (q.bvh.cursor.toNat + 32 * off) n

/-! ### Ends of beam jobs -/

/-- The status word (R277). -/
def statusWord (j : BeamJob) (c : Option Cause) : Word :=
  BitVec.ofNat 32 (2 ^ 31 + b2n j.limit * 2 ^ 29 + b2n j.preempted * 2 ^ 28 + b2n c.isSome * 2 ^ 27 + j.splits * 2 ^ 16 +
    ((c.map BitVec.toNat).getD 0))

/-- A 32-bit word that the unit writes at byte 124 of the record (R265, R277). -/
def writeStatus (s : State) (j : BeamJob) (w : Word) : State × Option Cause :=
  if j.piece.isSome then (s, none) else s.beamWrite j j.cap.space.toNat (j.addr + 124) (toBytes 4 w.toNat)

/-- A beam job changed, by its key. -/
def modBeam (s : State) (c key : Nat) (f : BeamJob → BeamJob) : State :=
  s.modCluster c fun x => { x with beams := x.beams.map fun j => if j.key == key then f j else j }

def beam? (s : State) (c key : Nat) : Option BeamJob := (s.cluster c).beams.find? fun j => j.key == key

/-- A beam job complete: its place among the 64 remembered, the report (R168, R278). -/
def completeBeam (s : State) (c : Nat) (j : BeamJob) (e : Option Cause) : State :=
  let s := s.modCluster c fun x =>
    { x with beams := x.beams.filter fun b => b.key != j.key, beamDone := ((j.id, j.ctx, statusWord j e) :: x.beamDone).take 64 }
  s.finishJob c j.key e

/-- A beam job ends: STATUS last (R277), dropped where its write meets a fault (log 108); the job completes once its writes have been
performed (R229). -/
def endBeam (s : State) (c : Nat) (j : BeamJob) (e : Option Cause) : State :=
  let s := (s.writeStatus j (statusWord j e)).1
  if s.jobHeld c j.key then
    (s.modBeam c j.key fun _ => { j with st := .ending }).modJob c j.key fun x => { x with st := .ending, status := e }
  else s.completeBeam c j e

/-! ### Results -/

/-- The bytes of a slot (R273). -/
def slotBytes (t id b1 b2 : Nat) : List Byte := toBytes 4 t ++ toBytes 4 id ++ toBytes 4 b1 ++ toBytes 4 b2

/-- The best hit of a ray among some triangles (R272). -/
def bestHit (q : Query) (u v : Nat) (ts : List Tri) : Option (Nat × Nat × Nat × Nat) :=
  let d := Beam.vecOf (q.dir u v)
  ts.foldl (fun (b : Option (Nat × Nat × Nat × Nat)) t =>
    match Beam.hit q.origin d t.v0 t.v1 t.v2 q.span with
    | none => b
    | some (x, b1, b2) =>
      match b with
      | none => some (x, t.id, b1, b2)
      | some o => if x < o.1 || (x == o.1 && t.id < o.2.1) then some (x, t.id, b1, b2) else b) none

/-- A ray's hit merged into its slot (R273). -/
def mergeHit (s : State) (j : BeamJob) (q : Query) (u v : Nat) (ts : List Tri) : Except Cause State :=
  match bestHit q u v ts with
  | none => .ok s
  | some h =>
    let h := if q.anyHit then (0, 0, 0, 0) else h
    let sp := q.res.space.toNat
    let a := q.res.cursor.toNat + 16 * (v * q.g1 + u)
    match s.beamRead j sp a 16 with
    | .error c => .error c
    | .ok bs =>
      let t := ofBytes (bs.take 4)
      let id := ofBytes ((bs.drop 4).take 4)
      if h.1 < t || (h.1 == t && h.2.1 < id) then
        match s.beamWrite j sp a (slotBytes h.1 h.2.1 h.2.2.1 h.2.2.2) with
        | (s, none) => .ok s
        | (_, some c) => .error c
      else .ok s

/-- The miss value in every slot (R273). -/
def writeMisses (s : State) (j : BeamJob) (q : Query) : State × Option Cause :=
  (List.range (q.g1 * q.g2)).foldl (fun (acc : State × Option Cause) k =>
    let (s, e) := acc.1.beamWrite j q.res.space.toNat (q.res.cursor.toNat + 16 * k) (slotBytes 0x7F800000 0xFFFFFFFF 0 0)
    (s, acc.2.orElse fun _ => e)) (s, none)

/-! ### Steps -/

/-- The non-empty quadrants of a rectangle, in order (R274). -/
def quadrants (r : BeamItem) : List BeamItem :=
  let wl := (r.ncol + 1) / 2
  let hl := (r.nrow + 1) / 2
  [{ r with ncol := wl, nrow := hl }, { r with col := r.col + wl, ncol := r.ncol - wl, nrow := hl },
   { r with row := r.row + hl, ncol := wl, nrow := r.nrow - hl },
   { r with col := r.col + wl, row := r.row + hl, ncol := r.ncol - wl, nrow := r.nrow - hl }].filter fun x => x.ncol != 0 && x.nrow != 0

/-- The split record of a rectangle (R275). -/
def splitRec (s : State) (j : BeamJob) (q : Query) (p n : Nat) (r : BeamItem) : State × Rec :=
  let (s, seq) := s.takeSeq j.ctx
  let depth := ((s.team? j.ctx j.team).map Team.depth).getD 0
  let a1 := (r.nrow - 1) * 2 ^ 16 + (r.ncol - 1) * 2 ^ 12 + r.row * 2 ^ 8 + r.col * 2 ^ 4 + n
  (s, { entry := entryOf q.hpc, depth := BitVec.ofNat 4 depth, kind := 4, rsv := 0, spill := false, ldr := false,
        team := BitVec.ofNat 24 j.team, ctx := BitVec.ofNat 6 j.ctx, seq := seq,
        a := [p, a1, j.splits, j.addr % 2 ^ 32, j.addr / 2 ^ 32, 0, 0, 0, 0, 0, 0, 0].map (BitVec.ofNat 32), owner := j.ctx,
        setq := none })

/-- A split record delivered, none when the pool is full (R275). -/
def deliverSplit (s : State) (j : BeamJob) (q : Query) (p n : Nat) (r : BeamItem) : Option State :=
  let dst := if s.markKind j.ctx q.hpc == some 2 then PoolTarget.ready j.cell else .carousel (clusterOfCell j.cell)
  let (s', rc) := s.splitRec j q p n r
  if s.hasRoom dst rc then some ((s'.sendRec dst rc).raiseLive j.ctx j.team 1) else none

/-- What a step comes to: the state, the job, and the cause that ends it. -/
abbrev BeamOut := State × BeamJob × Option Cause

/-- A child pushed as a frame (R274). -/
def pushFrame (s : State) (j : BeamJob) (node : BvhNode) (n : Nat) (r : BeamItem) : BeamOut :=
  if j.frames.length == 32 then (s, j, some Cause.beamNode)
  else
    let f : BeamItem := { r with node := node.child n, next := 0, leaf := node.leafMask.testBit n, lvl := 0 }
    (s, { j with frames := j.frames ++ [f] }, none)

/-- handle of R274 for child n of node p. -/
def handle (s : State) (j : BeamJob) (q : Query) (p n : Nat) (r : BeamItem) : BeamOut :=
  match s.readNode j q p with
  | .error e => (s, j, some e)
  | .ok node =>
    match Beam.classify q.origin ((raysOf r).map fun u => q.dir u.1 u.2) (node.box n) q.span with
    | .allOut => (s, j, none)
    | .allIn => s.pushFrame j node n r
    | .mixed =>
      if r.ncol * r.nrow ≤ 1 then s.pushFrame j node n r
      else
        match if q.spawn && j.piece.isNone && j.splits < 64 then s.deliverSplit j q p n r else none with
        | some s => (s, { j with splits := j.splits + 1 }, none)
        | none =>
          let j := if q.spawn && j.piece.isNone then { j with limit := true } else j
          let qs := (quadrants r).map fun x => { x with node := p, next := n, leaf := false, lvl := j.frames.length }
          if j.beams.length + qs.length ≤ 16 then (s, { j with beams := j.beams ++ qs.reverse }, none) else s.pushFrame j node n r

/-- The rays of a leaf frame merged one after the other, up to one that meets a cause. -/
def mergeRays (s : State) (j : BeamJob) (q : Query) (ts : List Tri) (rays : List (Nat × Nat)) : State × Option Cause :=
  rays.foldl (fun (acc : State × Option Cause) u =>
    match acc.2 with
    | some _ => acc
    | none =>
      match acc.1.mergeHit j q u.1 u.2 ts with
      | .ok s => (s, none)
      | .error e => (acc.1, some e)) (s, none)

/-- A step on the top frame (R274). -/
def frameStep (s : State) (j : BeamJob) (q : Query) (f : BeamItem) : BeamOut :=
  let popped := { j with frames := j.frames.dropLast }
  if f.leaf then
    match s.readLeaf j q f.node with
    | .error e => (s, j, some e)
    | .ok ts =>
      let (s, e) := (s.touchBvh j q f.node (16 + 36 * ts.length)).mergeRays j q ts (raysOf f)
      (s, popped, e)
  else if f.next == 8 then (s, popped, none)
  else
    let j := { j with frames := j.frames.dropLast ++ [{ f with next := f.next + 1 }] }
    match s.readNode j q f.node with
    | .error e => (s, j, some e)
    | .ok node => if node.cmask.testBit f.next then (s.touchBvh j q f.node 128).handle j q f.node f.next f else (s, j, none)

/-- One step of a job (R274): a beam of the present level first, and the top frame otherwise. A restored beam whose level the frames have
passed leaves nothing to do (log 111). -/
def beamAdvance (s : State) (j : BeamJob) (q : Query) : BeamOut :=
  match j.beams.getLast?, j.frames.getLast? with
  | some b, f? =>
    if b.lvl == j.frames.length then (s.touchBvh j q b.node 128).handle { j with beams := j.beams.dropLast } q b.node b.next b
    else
      match f? with
      | some f => s.frameStep j q f
      | none => (s, j, none)
  | none, some f => s.frameStep j q f
  | none, none => (s, j, none)

/-! ### Starting -/

/-- Running places taken. -/
def beamsRunning (s : State) (c : Nat) : Nat := ((s.cluster c).beams.filter fun j => j.st == .running).length

/-- Whether the member that issued a job is resident, or has left and not been evicted. -/
def issuerHere (s : State) (j : BeamJob) : Bool := !(s.evicted.any fun m => m.uid == j.uid)

/-- The job that may take a running place next: the highest PRIO, saved jobs ahead of waiting ones, then acceptance (R279). -/
def nextBeam (s : State) (c : Nat) : Option BeamJob :=
  let js := (s.cluster c).beams.filter fun j => j.st == .waiting || (j.st == .saved && s.issuerHere j)
  let key (j : BeamJob) : Nat := 2 * j.prio + b2n (j.st == .saved)
  js.foldl (fun (b : Option BeamJob) j =>
    match b with
    | none => some j
    | some x => if key x < key j then some j else b) none

/-- Whether a RESUME claims the record and split of another job that has started (R281): one with the same context, space and cursor
(log 107). -/
def beamClash (s : State) (c : Nat) (j : BeamJob) : Bool :=
  j.piece.isSome && (s.cluster c).beams.any fun b =>
    b.key != j.key && b.st != .waiting && b.ctx == j.ctx && b.addr == j.addr && b.cap.space == j.cap.space &&
      (b.cell == j.cell || j.cap.space.toNat != spSpad) && b.area == j.area

/-- A job starts: a RESUME that clashes, a record that cannot be read or fails, or a piece that fails completes at once (R266, R276,
R281); otherwise STATUS and the miss values are written for a QUERY, and the job runs (R274). -/
def startBeam (s : State) (c : Nat) (j : BeamJob) : State :=
  if s.beamClash c j then s.endBeam c j (some Cause.beamSave)
  else
    match s.readQuery j with
    | .error e => s.endBeam c j (some e)
    | .ok q =>
      if !s.queryOk q j then s.endBeam c j (some Cause.beamQuery)
      else
        match j.piece with
        | none =>
          let (s, e1) := (s.engTouch j.asJob j.cap.space.toNat j.addr 128).writeStatus j 0
          let (s, e2) := s.writeMisses j q
          match e1.orElse fun _ => e2 with
          | some e => s.endBeam c j (some e)
          | none =>
            let f : BeamItem := { node := 0, next := 0, col := 0, row := 0, ncol := q.g1, nrow := q.g2, leaf := false, lvl := 0 }
            s.modBeam c j.key fun j => { j with st := .running, q := some q, frames := [f], beams := [] }
        | some (a0, a1, a2) =>
          let it := pieceItem a0 a1
          if bits a1.toNat 31 20 != 0 || a1.getLsbD 3 || !rectOk q it || 63 < a2.toNat then s.endBeam c j (some Cause.beamQuery)
          else
            match s.readNode j q a0.toNat with
            | .error e => s.endBeam c j (some e)
            | .ok n =>
              if !n.cmask.testBit it.next then s.endBeam c j (some Cause.beamQuery)
              else s.modBeam c j.key fun j => { j with st := .running, q := some q, frames := [], beams := [it] }

/-! ### Saving and restoring (R279 to R281) -/

/-- The 8 bytes of a frame or a beam (R280). -/
def itemWord (b : BeamItem) (frame : Bool) : Nat :=
  b.node * 2 ^ 32 + b.next * 2 ^ 28 + b.col * 2 ^ 24 + b.row * 2 ^ 20 + (b.ncol - 1) * 2 ^ 16 + (b.nrow - 1) * 2 ^ 12 +
    (if frame then b2n b.leaf * 2 ^ 11 else b.lvl / 32 * 2 ^ 11 + b.lvl % 32 * 2 ^ 6)

/-- The frame or beam of a word, none when it breaks R281; `sp` bounds a beam's level. -/
def itemOf (q : Query) (w : Nat) (frame : Bool) (sp : Nat) : Option BeamItem :=
  let lvl := if frame then 0 else bits w 11 11 * 32 + bits w 10 6
  let b : BeamItem :=
    { node := bits w 63 32, next := bits w 31 28, col := bits w 27 24, row := bits w 23 20, ncol := bits w 19 16 + 1,
      nrow := bits w 15 12 + 1, leaf := frame && w.testBit 11, lvl := lvl }
  if bits w 5 0 != 0 || (frame && bits w 10 6 != 0) || (if frame then 8 else 7) < b.next || !rectOk q b || sp < lvl then none else some b

/-- Word 0 of a save area (R280). -/
def saveWord (c : Nat) (j : BeamJob) : Nat :=
  2 ^ 63 + j.splits * 2 ^ 48 + j.frames.length * 2 ^ 42 + j.beams.length * 2 ^ 37 + b2n j.limit * 2 ^ 36 + c * 2 ^ 16 + j.id

/-- The address of a job's save area. -/
def areaAddr (q : Query) (j : BeamJob) : Nat := q.save.cursor.toNat + 512 * j.area

/-- A running job saved; a write that fails ends it (R280). -/
def saveBeam (s : State) (c : Nat) (j : BeamJob) (q : Query) : State :=
  let sp := q.save.space.toNat
  let a := areaAddr q j
  let ws := ((a, saveWord c j) :: j.beams.zipIdx.map fun p => (a + 64 + 8 * p.2, itemWord p.1 false)) ++
    j.frames.zipIdx.map fun p => (a + 192 + 8 * p.2, itemWord p.1 true)
  let (s, e) := ws.foldl (fun (acc : State × Option Cause) w =>
    let (s, e) := acc.1.beamWrite j sp w.1 (toBytes 8 w.2)
    (s, acc.2.orElse fun _ => e)) (s, none)
  match e with
  | some e => s.endBeam c j (some e)
  | none => s.modBeam c j.key fun j => { j with st := .saved, q := none, frames := [], beams := [], preempted := true }

/-- Items read back from an area. -/
def readItems (s : State) (j : BeamJob) (q : Query) (a n : Nat) (frame : Bool) (sp : Nat) : Except Cause (List BeamItem) :=
  (List.range n).mapM fun k => do
    let w := ofBytes (← s.beamRead j q.save.space.toNat (a + 8 * k) 8)
    match itemOf q w frame sp with
    | some b => .ok b
    | none => .error Cause.beamSave

/-- The state that an area holds (R281). -/
def loadArea (s : State) (c : Nat) (j : BeamJob) (q : Query) : Except Cause BeamJob := do
  let a := areaAddr q j
  let head ← s.beamRead j q.save.space.toNat a 64
  let tail ← s.beamRead j q.save.space.toNat (a + 448) 64
  let w := ofBytes (head.take 8)
  let sp := bits w 47 42
  let nb := bits w 41 37
  if !w.testBit 63 || bits w 21 16 != c || bits w 15 0 != j.id || 32 < sp || 16 < nb || bits w 62 56 != 0 || bits w 35 22 != 0 ||
      ofBytes (head.drop 8) != 0 || ofBytes tail != 0 then throw Cause.beamSave
  let beams ← s.readItems j q (a + 64) nb false sp
  let frames ← s.readItems j q (a + 192) sp true sp
  return { j with st := .running, q := some q, frames := frames, beams := beams, splits := bits w 55 48, limit := w.testBit 36 }

/-- A saved job restored: the record is checked again, then the area (R281). -/
def restoreBeam (s : State) (c : Nat) (j : BeamJob) : State :=
  match s.readQuery j with
  | .error e => s.endBeam c j (some e)
  | .ok q =>
    if !s.queryOk q j then s.endBeam c j (some Cause.beamQuery)
    else
      match s.loadArea c j q with
      | .error e => s.endBeam c j (some e)
      | .ok j' =>
        let (s, e) := s.beamWrite j q.save.space.toNat (areaAddr q j) (toBytes 8 0)
        match e with
        | some e => s.endBeam c j' (some e)
        | none => s.modBeam c j.key fun _ => j'

/-- Whether a running job is to be saved now (R279): for a waiting job of higher PRIO that has not started (log 106), or since its member has
left. -/
def mustSave (s : State) (c : Nat) (j : BeamJob) : Bool :=
  let run := (s.cluster c).beams.filter fun b => b.st == .running
  let waits := (s.cluster c).beams.any fun b => b.st == .waiting && j.prio < b.prio
  let victim := run.foldl (fun (b : Option BeamJob) x =>
    match b with
    | none => some x
    | some y => if x.prio ≤ y.prio then some x else b) none
  !s.issuerHere j || (8 ≤ run.length && waits && victim.map BeamJob.key == some j.key)

/-- Whether a merge of a leaf's rays must wait: a solo region has read a slot, or a write to it is held (R229, R273). -/
def mergeWaits (s : State) (j : BeamJob) (q : Query) (f : BeamItem) : Bool :=
  f.leaf && (raysOf f).any fun u =>
    match s.reach j.ctx j.cell q.res.space.toNat (q.res.cursor.toNat + 16 * (u.2 * q.g1 + u.1)) 16 false true with
    | .ok t => (s.soloHolds t.pa 16).isSome || s.heldW.any fun e => s.sameWords t.pa 16 e.pa e.n
    | .error _ => false

end State

/-- BEAM_JOB_START: a waiting job takes a free running place in its turn (R274, R279). -/
def execBeamJobStart (cluster : Nat) (s : State) : Out :=
  if 8 ≤ s.beamsRunning cluster then .next s
  else
    match s.nextBeam cluster with
    | some j =>
      if j.st == .waiting && s.mayStart j.asJob then .next (s.unlessBusy fun s => s.startBeam cluster j) else .next s
    | none => .next s

/-- BEAM_STEP: one step of a running job; it ends when nothing is left, or on a cause (R270, R274). A job to be saved takes no
further step (R279), and none goes on before its writes have been performed (R229). -/
def execBeamStep (cluster job : Nat) (s : State) : Out :=
  match s.beam? cluster job with
  | some j =>
    match j.st, j.q with
    | .running, some q =>
      if s.mustSave cluster j || s.jobHeld cluster job || (j.frames.getLast?.map (s.mergeWaits j q)).getD false then .next s
      else
        .next (s.unlessBusy fun s =>
          match s.beamAdvance j q with
          | (s', j', some e) => s'.endBeam cluster j' (some e)
          | (s', j', none) =>
            if j'.frames.isEmpty && j'.beams.isEmpty then s'.endBeam cluster j' none
            else s'.modBeam cluster job fun _ => j')
    | .ending, _ =>
      if s.jobHeld cluster job then .next s
      else .next (s.completeBeam cluster j (((s.job? cluster job).map Job.status).getD none))
    | _, _ => .next s
  | none => .next s

/-- BEAM_JOB_SAVE (R279). -/
def execBeamJobSave (cluster job : Nat) (s : State) : Out :=
  match s.beam? cluster job with
  | some j =>
    match j.st, j.q with
    | .running, some q =>
      if s.mustSave cluster j && !s.jobHeld cluster job then .next (s.unlessBusy fun s => s.saveBeam cluster j q) else .next s
    | _, _ => .next s
  | none => .next s

/-- BEAM_JOB_RESTORE: a saved job takes a free place in its turn (R279, R281). -/
def execBeamJobRestore (cluster job : Nat) (s : State) : Out :=
  if 8 ≤ s.beamsRunning cluster then .next s
  else
    match s.nextBeam cluster with
    | some j =>
      if j.key == job && j.st == .saved && !s.jobHeld cluster job then .next (s.unlessBusy fun s => s.restoreBeam cluster j)
      else .next s
    | none => .next s

end Sys2Proof.Machine
end

