-- ==== Sys2Proof/Machine/Checks.lean ====
section
/-!
DEFINITION. Machine/Checks.lean: what the decode steps of R108 demand of an instruction term, step by step: `assigned`
(step 2, R106, R107), `reservedOk` (step 3), `kindsOk` (step 4) and the banks of a pair (step 5, R104). The decoder and
well-formedness both call them. The rows of the table that are not words pass every check.
-/
namespace Sys2Proof

/-- Types of the members of the integer and bit group that take SUB 2, 3, 6 and 7 only, and of the other groups (R106). -/
def Instr.assigned : Instr → Bool
  | .iadd w .. | .isub w .. | .imul w .. | .imad w .. | .imin w .. | .imax w .. | .iabs w .. | .ineg w .. | .and w ..
  | .or w .. | .xor w .. | .not w .. | .shl w .. | .shr w .. | .sar w .. | .popc w .. | .clz w .. | .ctz w ..
  | .brev w .. => w.t.isInt
  | .iaddc w .. | .imulh w .. | .idiv w .. | .irem w .. | .rot w .. | .bfx w .. | .bfi w .. => w.t.isWide
  | .icmp _ t .. => t.isInt
  | .sel w .. | .mov w .. => w.t.code.toNat ≤ 11
  | .fadd w .. | .fsub w .. | .fmul w .. | .ffma w .. | .fmin w .. | .fmax w .. | .frnd w .. | .fclass w .. =>
    8 ≤ w.t.code.toNat && w.t.code.toNat ≤ 11
  | .fdiv w .. | .fsqrt w .. => w.t == .f32 || w.t == .f64
  | .frcp w .. | .frsq w .. | .fexp2 w .. | .flog2 w .. | .fsin w .. | .fcos w .. | .ftanh w .. => w.t == .f32
  | .fcmp _ t .. => 8 ≤ t.code.toNat && t.code.toNat ≤ 11
  | .dot2 w .. => w.t == .f16 || w.t == .bf16
  | .dot4 w .. => w.t == .e4m3 || w.t == .e5m2
  | .cvt w .. => w.t.code.toNat ≤ 13
  | .cvtq _ t _ _ _ sf _ | .cvtd _ t _ _ _ sf => t.isQuant && (sf.isSome == (t == .cb4))
  | .pack w _ _ _ sf | .unpk w _ _ sf => w.t.isPack && (sf.isSome == (w.t == .cb4))
  | .lred _ t .. | .lscan _ t .. => t.isWide || t == .f32 || t == .f64
  | .bcast _ t .. => t == .n32 || t == .n64
  | .movi w .. => w.t == .i32 || w.t == .i64
  | .movh w .. => w.t == .n32 || w.t == .n64
  | .ld _ t .. | .st _ t .. => t.code.toNat ≤ 11
  | .ldf _ t .. => t == .f16 || t == .bf16 || t == .f32
  | .atom _ op w .. => !(op == .fadd && w == 3)
  | .red _ op w .. => !(op == .swap) && !(op == .fadd && w == 3)
  | .cas _ t .. | .waitadr _ t .. => t == .n32 || t == .n64
  | .mma _ t _ _ sf _ => t.isMma && (sf.isSome == (t == .cb4))
  | .mmas _ t .. | .drain _ t .. => t.isMma
  | .bred _ t .. => t == .bf16 || t == .f32
  | _ => true

/-- An NW word names no destination (R66). -/
def Alu.dOk (w : Alu) : Bool := !w.nw || w.d == 0

/-- Fields a half must leave at 0 (R102). -/
def Half.reservedOk (h : Half) : Bool :=
  match h.op with
  | .nop => h.d == 0 && h.src == .v 0 && h.k == 0
  | .movi => h.src == .v 0
  | .imad | .ffma => true
  | _ => h.k == 0

/-- Values that step 3 of R108 refuses in the fields an instruction reads. -/
def Instr.reservedOk : Instr → Bool
  | .iadd w .. | .iaddc w .. | .isub w .. | .imul w .. | .imulh w .. | .imad w .. | .idiv w .. | .irem w ..
  | .imin w .. | .imax w .. | .iabs w .. | .ineg w .. | .and w .. | .or w .. | .xor w .. | .not w .. | .shl w ..
  | .shr w .. | .sar w .. | .rot w .. | .bfx w .. | .bfi w .. | .popc w .. | .clz w .. | .ctz w .. | .brev w ..
  | .sel w .. | .fadd w .. | .fsub w .. | .fmul w .. | .ffma w .. | .fmin w .. | .fmax w .. | .fdiv w .. | .fsqrt w ..
  | .frcp w .. | .frsq w .. | .frnd w .. | .fexp2 w .. | .flog2 w .. | .fsin w .. | .fcos w .. | .ftanh w ..
  | .fclass w .. | .dot2 w .. | .dot4 w .. | .mov w .. | .movi w .. => w.dOk
  | .cvt w s _ _ => w.dOk && s.code.toNat ≤ 13
  | .movh w _ sh => w.dOk && sh.toNat ≤ w.t.bits - 20
  | .pack w _ _ m _ | .unpk w _ m _ => w.dOk && m.toNat < 32 / w.t.bits
  | .icmp _ _ _ _ _ cond => cond.toNat ≤ 5
  | .shfl _ _ _ _ _ w => w.toNat ≤ 5
  | .vote _ m d _ => m == .ballot || d.toNat < 8
  | .lred _ t _ _ _ op | .lscan _ t _ _ op _ => op.toNat ≤ if t.isF then 2 else 5
  | .capincM _ _ _ _ w => w.toNat ≤ 18
  | .waitc _ cls _ => cls.toNat ≤ 4
  | .ld _ _ _ _ m | .ldCap _ _ _ m | .st _ _ m _ | .stCap _ m _ | .pref _ m => m.hint != 3
  | .ldf _ _ _ m | .cflush _ m | .waitadr _ _ _ m _ => m.hint.toNat ≤ 1
  | .refillQ _ _ m _ | .launch _ m _ | .enq _ m | .atom _ _ _ _ m _ | .red _ _ _ m _ | .cas _ _ _ m _ | .sig _ _ m _
  | .amsg _ _ m _ | .mmas _ _ _ m _ | .drain _ _ _ m _ | .omap _ m _ | .cpy _ m _ _ | .cpym _ m _ _ | .bgath _ m _ _
  | .bred _ _ m _ _ | .bcvt _ m _ _ | .beamQuery _ _ m | .beamResume _ _ m _ => m.hint == 0
  | .pairWord a b => a.reservedOk && b.reservedOk
  | _ => true

/-- Kinds of the destination and sources of a pure ALU word, of width `dw` and `sw` above 32 or not (R59, R60). -/
def Alu.kindsOk (w : Alu) (dw : Bool) (srcs : List (Bool × Src)) : Bool :=
  (!dw || w.u || even6 w.d) && srcs.all fun p => if w.u then p.2.uni else p.2.any p.1

/-- The index of a memory operand (R72). -/
def MemOp.kindsOk (m : MemOp) : Bool := m.idx.noLat false

/-- Operand kinds of a half (R103): a latch up to L3 passes here and is stale later. -/
def Half.kindsOk (h : Half) : Bool := h.src.any false

/-- Step 4 of R108. -/
def Instr.kindsOk : Instr → Bool
  | .iadd w a b _ | .isub w a b _ | .imul w a b | .imulh w a b | .idiv w a b | .irem w a b | .imin w a b | .imax w a b
  | .and w a b | .or w a b | .xor w a b | .shl w a b | .shr w a b | .sar w a b | .rot w a b | .bfx w a b
  | .sel w a b _ | .fadd w a b _ | .fsub w a b _ | .fmul w a b _ | .fmin w a b | .fmax w a b | .fdiv w a b _ =>
    w.kindsOk w.t.is64 [(w.t.is64, a), (w.t.is64, b)]
  | .iaddc w a b k => w.kindsOk w.t.is64 [(w.t.is64, a), (w.t.is64, b)] && k != 0
  | .imad w a b c | .bfi w a b c | .ffma w a b c _ =>
    w.kindsOk w.t.is64 [(w.t.is64, a), (w.t.is64, b), (w.t.is64, c)]
  | .iabs w a _ | .ineg w a _ | .not w a | .popc w a | .clz w a | .ctz w a | .brev w a | .fsqrt w a _ | .frcp w a _
  | .frsq w a _ | .frnd w a _ | .fexp2 w a | .flog2 w a | .fsin w a | .fcos w a | .ftanh w a | .mov w a =>
    w.kindsOk w.t.is64 [(w.t.is64, a)]
  | .fclass w a => w.kindsOk false [(w.t.is64, a)]
  | .cvt w s a _ => w.kindsOk w.t.is64 [(s.is64, a)]
  | .dot2 w a b c _ | .dot4 w a b c _ => w.kindsOk false [(false, a), (false, b), (false, c)]
  | .pack w a b _ _ => w.kindsOk false [(false, a), (false, b)]
  | .unpk w a _ _ => w.kindsOk false [(false, a)]
  | .movi w _ | .movh w _ _ => w.kindsOk w.t.is64 []
  | .icmp _ t qd a b _ | .fcmp _ t qd a b _ => qd != 0 && a.any t.is64 && b.any t.is64
  | .cvtq _ _ _ a sc _ _ | .cvtd _ _ _ a sc _ => a.any false && sc.any false
  | .shfl _ _ _ _ b _ => b.noLat false
  | .vote _ m d _ => m == .ballot || d != 0
  | .lred _ t u d a _ => (u || !t.is64 || even6 d) && a.any t.is64
  | .lscan _ t d a _ _ => (!t.is64 || even6 d) && a.any t.is64
  | .bcast _ t u d a l => (u || !t.is64 || even6 d) && (!t.is64 || even6 a) && l.uni
  | .plop _ qd _ _ _ _ => qd != 0
  | .pmovFromv _ s _ | .movxWrite _ _ _ s | .xsetSet _ _ s _ _ | .xsetAdd _ _ s => s.noLat false
  | .brx _ _ _ idx _ _ => idx.noLat false
  | .refillQ _ _ m n => m.idx.uni && n.uni
  | .refillBkt _ _ n => n.uni
  | .launch _ m _ | .enq _ m | .pref _ m | .cflush _ m | .amsg _ _ m _ | .mmas _ _ _ m _ | .cpy _ m _ _ | .bgath _ m _ _
  | .bred _ _ m _ _ | .bcvt _ m _ _ | .beamQuery _ _ m => m.kindsOk
  | .steal _ qd sv => qd != 0 && sv.uni
  | .ld _ t u d m => if u then m.idx.uni else m.kindsOk && (!t.is64 || even6 d)
  | .ldCap _ _ _ m | .stCap _ m _ => m.idx.uni
  | .st _ t m x => m.kindsOk && x.noLat t.is64
  | .ldf _ _ _ m => m.kindsOk
  | .atom _ op w d m b => m.kindsOk && b.noLat (atomBytes op w == 8) && (atomBytes op w != 8 || even6 d)
  | .red _ op w m b => m.kindsOk && b.noLat (atomBytes op w == 8)
  | .cas _ t d m n | .waitadr _ t d m n => m.kindsOk && n.noLat t.is64 && (!t.is64 || even6 d)
  | .capset _ _ _ l | .capinc _ _ _ l | .capincM _ _ _ l _ | .capperm _ _ _ l => l.uni
  | .capget _ _ u d _ => u || even6 d
  | .capchk _ qd _ r => qd != 0 && r.uni
  | .barWait _ qd t => qd != 0 && t.noLat false
  | .waitany _ _ m | .waitall _ m | .ffr _ _ m => m.uni
  | .sig _ _ m x => m.kindsOk && x.noLat false
  | .mbxs _ qd x _ => qd != 0 && x.noLat false
  | .mbxr _ d _ => even6 d
  | .drain _ _ _ m sn => m.kindsOk && sn.toNat % 4 == 0
  | .omap _ m sn | .cpym _ m _ sn => m.kindsOk && even6 sn
  | .jpoll _ qd _ => qd != 0
  | .kcm _ u _ r c sk => even6 sk && (if u then r.uni && c.uni else r.any false && c.any false)
  | .beamResume _ _ m p => m.kindsOk && p.toNat ≤ 61
  | .bres _ _ j => j.noLat false
  | .csrw _ _ s => s.uni
  | .pairWord a b => a.kindsOk && b.kindsOk
  | _ => true

/-- The bank of a register (R104). -/
def bankOf (n : BitVec 6) : Nat := n.toNat % 4

/-- R104: banks of the destinations, of two vector sources and of two uniform sources. -/
def pairBankOk (a b : Half) : Bool :=
  a.op == .nop || b.op == .nop ||
    (bankOf a.d != bankOf b.d &&
      (a.op == .movi || b.op == .movi ||
        match a.src, b.src with
        | .v m, .v n => bankOf m != bankOf n
        | .s m, .s n => bankOf m != bankOf n
        | _, _ => true))

/-- Step 5 of R108. -/
def Instr.banksOk : Instr → Bool
  | .pairWord a b => pairBankOk a b
  | _ => true

end Sys2Proof
end

