-- ==== Sys2Proof/WellFormed.lean ====
section
/-!
DEFINITION. WellFormed.lean: the instruction terms that some word stands for. A term is well formed when the decode steps
of R108 that look at one word alone accept it.
-/
namespace Sys2Proof

/-- Assigned types, no reserved value, operands of the kinds the entry accepts, and the banks of a pair. -/
def Instr.wf (i : Instr) : Bool := i.assigned && i.reservedOk && i.kindsOk && i.banksOk

end Sys2Proof
end

