-- ==== Sys2Proof/Decode.lean ====
section
/-!
DEFINITION. Decode.lean: from words to instructions and back. `decode` follows the steps of R108 that look at one word
alone; each refusal is a cause. `encode` lays an instruction out by R96, R101 and the entries of the reference.
-/
namespace Sys2Proof

/-- The fields of a whole word (R96); P is 0. -/
structure Fields where
  ec : BitVec 2
  opc : BitVec 8
  u : Bool
  sub : BitVec 5
  nw : Bool
  d : BitVec 6
  sa : BitVec 8
  sb : BitVec 8
  sc : BitVec 8
  pn : Bool
  pq : BitVec 3
  x12 : BitVec 12
  deriving DecidableEq, Repr

/-- The fields of a word by their bit positions (R96). -/
def Fields.ofWord (w : DWord) : Fields :=
  { ec := w.extractLsb' 61 2, opc := w.extractLsb' 53 8, u := w.getLsbD 52, sub := w.extractLsb' 47 5,
    nw := w.getLsbD 46, d := w.extractLsb' 40 6, sa := w.extractLsb' 32 8, sb := w.extractLsb' 24 8,
    sc := w.extractLsb' 16 8, pn := w.getLsbD 15, pq := w.extractLsb' 12 3, x12 := w.extractLsb' 0 12 }

/-- The word of some fields (R96). -/
def Fields.toWord (f : Fields) : DWord :=
  (0 : BitVec 1) ++ f.ec ++ f.opc ++ BitVec.ofBool f.u ++ f.sub ++ BitVec.ofBool f.nw ++ f.d ++ f.sa ++ f.sb ++ f.sc
    ++ BitVec.ofBool f.pn ++ f.pq ++ f.x12

/-- What an NW bit means for an opcode (R66, R97): a pure ALU word takes it, some entries name it as must-be-zero, and
elsewhere it breaks the chain rule. -/
inductive NwRule where
  | pure | zero | chain
  deriving DecidableEq, Repr

/-- A word that passed the assignment of its opcode: the instruction it would be, whether the fields its entry does not
read hold 0, whether the raw operand fields have a kind the entry accepts, and the rule for NW. -/
structure Parsed where
  i : Instr
  clear : Bool
  kinds : Bool
  nw : NwRule
  deriving DecidableEq, Repr

namespace Fields

def hdr (f : Fields) : Hdr := ⟨f.ec, f.pn, f.pq⟩
def a (f : Fields) : Src := Src.ofByte f.sa
def b (f : Fields) : Src := Src.ofByte f.sb
def c (f : Fields) : Src := Src.ofByte f.sc
def num (x : BitVec 8) : BitVec 6 := x.extractLsb' 0 6
def xb (f : Fields) (lo n : Nat) : BitVec n := f.x12.extractLsb' lo n
def ca (f : Fields) : BitVec 4 := f.sa.extractLsb' 0 4
def cd (f : Fields) : BitVec 4 := f.d.extractLsb' 0 4
def qd (f : Fields) : BitVec 3 := f.d.extractLsb' 0 3
def caOk (f : Fields) : Bool := f.sa.extractLsb' 4 4 == 0
def cdOk (f : Fields) : Bool := f.d.extractLsb' 4 2 == 0
def qdOk (f : Fields) : Bool := f.d.extractLsb' 3 3 == 0
def i20 (f : Fields) : BitVec 20 := f.sc ++ f.x12
def j16 (f : Fields) : BitVec 16 := f.sa ++ f.sb
def mem (f : Fields) : MemOp := ⟨f.ca, f.b, f.xb 10 2, f.xb 8 2, f.xb 0 8⟩
def alu (f : Fields) (t : Ty) : Alu := ⟨f.hdr, t, f.u, f.nw, f.d⟩
def uniC (f : Fields) : Bool := f.c.isS
def uniA (f : Fields) : Bool := f.a.isS
def dz (f : Fields) : Bool := f.d == 0
def az (f : Fields) : Bool := f.sa == 0
def bz (f : Fields) : Bool := f.sb == 0
def cz (f : Fields) : Bool := f.sc == 0
def xz (f : Fields) : Bool := f.x12 == 0

/-- A field that holds sF for a CB4 word and must be 0 otherwise (R121, R176, R367, R387). -/
def sf (t : Ty) (x : BitVec 8) : Option (BitVec 6) := if t = .cb4 then some (num x) else none

/-- Whether that field holds 0 where it must. -/
def sfz (t : Ty) (x : BitVec 8) : Bool := t == .cb4 || x == 0

/-- Whether that field is of uniform kind where it must be. -/
def sfk (t : Ty) (x : BitVec 8) : Bool := t != .cb4 || (Src.ofByte x).isS

/-- A word whose SUB is a type. -/
def ofTy (f : Fields) (k : Ty → Parsed) : Option Parsed := (Ty.ofCode f.sub).map k

/-- A pure ALU word with two sources. -/
def alu2 (f : Fields) (k : Alu → Src → Src → Instr) : Option Parsed :=
  f.ofTy fun t => ⟨k (f.alu t) f.a f.b, f.cz && f.xz, true, .pure⟩

/-- A pure ALU word with two sources and the .SAT bit. -/
def alu2s (f : Fields) (k : Alu → Src → Src → Bool → Instr) : Option Parsed :=
  f.ofTy fun t => ⟨k (f.alu t) f.a f.b (f.x12.getLsbD 0), f.cz && f.xb 1 11 == 0, true, .pure⟩

/-- A pure ALU word with two sources and a rounding mode. -/
def alu2r (f : Fields) (k : Alu → Src → Src → BitVec 2 → Instr) : Option Parsed :=
  f.ofTy fun t => ⟨k (f.alu t) f.a f.b (f.xb 0 2), f.cz && f.xb 2 10 == 0, true, .pure⟩

/-- A pure ALU word with one source. -/
def alu1 (f : Fields) (k : Alu → Src → Instr) : Option Parsed :=
  f.ofTy fun t => ⟨k (f.alu t) f.a, f.bz && f.cz && f.xz, true, .pure⟩

/-- A pure ALU word with one source and the .SAT bit. -/
def alu1s (f : Fields) (k : Alu → Src → Bool → Instr) : Option Parsed :=
  f.ofTy fun t => ⟨k (f.alu t) f.a (f.x12.getLsbD 0), f.bz && f.cz && f.xb 1 11 == 0, true, .pure⟩

/-- A pure ALU word with one source and a rounding mode. -/
def alu1r (f : Fields) (k : Alu → Src → BitVec 2 → Instr) : Option Parsed :=
  f.ofTy fun t => ⟨k (f.alu t) f.a (f.xb 0 2), f.bz && f.cz && f.xb 2 10 == 0, true, .pure⟩

/-- A pure ALU word with three sources. -/
def alu3 (f : Fields) (k : Alu → Src → Src → Src → Instr) : Option Parsed :=
  f.ofTy fun t => ⟨k (f.alu t) f.a f.b f.c, f.xz, true, .pure⟩

/-- A pure ALU word with three sources and a rounding mode. -/
def alu3r (f : Fields) (k : Alu → Src → Src → Src → BitVec 2 → Instr) : Option Parsed :=
  f.ofTy fun t => ⟨k (f.alu t) f.a f.b f.c (f.xb 0 2), f.xb 2 10 == 0, true, .pure⟩

/-- A word that is not pure ALU, does not allow U, and whose entry does not name NW. -/
def plain (f : Fields) (i : Instr) (clear kinds : Bool) : Option Parsed :=
  if f.u then none else some ⟨i, clear, kinds, .chain⟩

/-- A word whose entry names NW as must-be-zero. -/
def strict (f : Fields) (i : Instr) (clear kinds : Bool) : Option Parsed :=
  if f.u then none else some ⟨i, clear, kinds, .zero⟩

/-- The same for an opcode with SUB 0 alone. -/
def plain0 (f : Fields) (i : Instr) (clear kinds : Bool) : Option Parsed :=
  if f.sub = 0 then f.plain i clear kinds else none

def strict0 (f : Fields) (i : Instr) (clear kinds : Bool) : Option Parsed :=
  if f.sub = 0 then f.strict i clear kinds else none

/-- A word whose entry names U itself, beside NW, among the fields that must be 0 (R32, R195, R203, R216, R255): a set U is step 3's
(log 63). -/
def closed (f : Fields) (i : Instr) (clear kinds : Bool) : Option Parsed :=
  some ⟨i, !f.u && clear, kinds, .zero⟩

/-- The same for an opcode with SUB 0 alone, where another SUB is unassigned (R106). -/
def closed0 (f : Fields) (i : Instr) (clear kinds : Bool) : Option Parsed :=
  if f.sub = 0 then f.closed i clear kinds else none

/-- OPC 0x00 to 0x0F. -/
def parse0 (f : Fields) : Nat → Option Parsed
  | 0x0 => f.alu2s .iadd
  | 0x1 => f.ofTy fun t => ⟨.iaddc (f.alu t) f.a f.b (f.xb 0 3), f.cz && f.xb 3 9 == 0, true, .pure⟩
  | 0x2 => f.alu2s .isub
  | 0x3 => f.alu2 .imul
  | 0x4 => f.alu2 .imulh
  | 0x5 => f.alu3 .imad
  | 0x6 => f.alu2 .idiv
  | 0x7 => f.alu2 .irem
  | 0x8 => f.alu2 .imin
  | 0x9 => f.alu2 .imax
  | 0xA => f.alu1s .iabs
  | 0xB => f.alu1s .ineg
  | 0xC => f.alu2 .and
  | 0xD => f.alu2 .or
  | 0xE => f.alu2 .xor
  | _ => f.alu1 .not

/-- OPC 0x10 to 0x1F. -/
def parse1 (f : Fields) : Nat → Option Parsed
  | 0x0 => f.alu2 .shl
  | 0x1 => f.alu2 .shr
  | 0x2 => f.alu2 .sar
  | 0x3 => f.alu2 .rot
  | 0x4 => f.alu2 .bfx
  | 0x5 => f.alu3 .bfi
  | 0x6 => f.alu1 .popc
  | 0x7 => f.alu1 .clz
  | 0x8 => f.alu1 .ctz
  | 0x9 => f.alu1 .brev
  | 0xA => (Ty.ofCode f.sub).bind fun t =>
    f.plain (.icmp f.hdr t f.qd f.a f.b (f.xb 0 3)) (f.qdOk && f.cz && f.xb 3 9 == 0) true
  | 0xB => f.ofTy fun t => ⟨.sel (f.alu t) f.a f.b (f.xb 0 3), f.cz && f.xb 3 9 == 0, true, .pure⟩
  | _ => none

/-- OPC 0x20 to 0x2F. -/
def parse2 (f : Fields) : Nat → Option Parsed
  | 0x0 => f.alu2r .fadd
  | 0x1 => f.alu2r .fsub
  | 0x2 => f.alu2r .fmul
  | 0x3 => f.alu3r .ffma
  | 0x4 => f.alu2 .fmin
  | 0x5 => f.alu2 .fmax
  | 0x6 => f.alu2r .fdiv
  | 0x7 => f.alu1r .fsqrt
  | 0x8 => f.alu1r .frcp
  | 0x9 => f.alu1r .frsq
  | 0xA => f.alu1 .fexp2
  | 0xB => f.alu1 .flog2
  | 0xC => f.alu1 .fsin
  | 0xD => f.alu1 .fcos
  | 0xE => f.alu1 .ftanh
  | _ => f.alu1r .frnd

/-- OPC 0x30 to 0x3F. -/
def parse3 (f : Fields) : Nat → Option Parsed
  | 0x0 => f.alu1 .fclass
  | 0x1 => (Ty.ofCode f.sub).bind fun t =>
    f.plain (.fcmp f.hdr t f.qd f.a f.b (f.xb 0 3)) (f.qdOk && f.cz && f.xb 3 9 == 0) true
  | 0x2 => f.alu3r .dot2
  | 0x3 => f.alu3r .dot4
  | _ => none

/-- OPC 0x40 to 0x4F. CVT keeps the source type in X12[6:2] (R326). -/
def parse4 (f : Fields) : Nat → Option Parsed
  | 0x0 => f.ofTy fun t =>
    ⟨.cvt (f.alu t) ((Ty.ofCode (f.xb 2 5)).getD .sc8) f.a (f.xb 0 2), f.bz && f.cz && f.xb 7 5 == 0, true, .pure⟩
  | 0x1 => (Ty.ofCode f.sub).bind fun t =>
    f.plain (.cvtq f.hdr t f.d f.a f.b (sf t f.sc) (f.xb 0 2)) (sfz t f.sc && f.xb 2 10 == 0) (sfk t f.sc)
  | 0x2 => (Ty.ofCode f.sub).bind fun t =>
    f.plain (.cvtd f.hdr t f.d f.a f.b (sf t f.sc)) (sfz t f.sc && f.xz) (sfk t f.sc)
  | 0x3 => f.ofTy fun t =>
    ⟨.pack (f.alu t) f.a f.b (f.xb 0 3) (sf t f.sc), sfz t f.sc && f.xb 3 9 == 0, sfk t f.sc, .pure⟩
  | 0x4 => f.ofTy fun t =>
    ⟨.unpk (f.alu t) f.a (f.xb 0 3) (sf t f.sc), f.bz && sfz t f.sc && f.xb 3 9 == 0, sfk t f.sc, .pure⟩
  | 0x8 => (ShflMode.ofNat? f.sub.toNat).bind fun m =>
    f.plain (.shfl f.hdr m f.d (num f.sa) f.b (f.xb 0 3)) (f.cz && f.xb 3 9 == 0) f.a.isV
  | 0x9 => (VoteMode.ofNat? f.sub.toNat).bind fun m =>
    f.plain (.vote f.hdr m f.d (f.sa.extractLsb' 0 3)) (f.sa.extractLsb' 3 5 == 0 && f.bz && f.cz && f.xz) true
  | 0xA => f.ofTy fun t =>
    ⟨.lred f.hdr t f.u f.d f.a (f.xb 0 3), f.bz && f.cz && f.xb 3 9 == 0, true, .chain⟩
  | 0xB => (Ty.ofCode f.sub).bind fun t =>
    f.plain (.lscan f.hdr t f.d f.a (f.xb 0 3) (f.x12.getLsbD 3)) (f.bz && f.cz && f.xb 4 8 == 0) true
  | 0xC => f.plain0 (.lidx f.hdr f.d) (f.az && f.bz && f.cz && f.xz) true
  | 0xD => f.ofTy fun t => ⟨.bcast f.hdr t f.u f.d (num f.sa) f.b, f.cz && f.xz, f.a.isV, .chain⟩
  | _ => none

/-- OPC 0x50 to 0x5F. -/
def parse5 (f : Fields) : Nat → Option Parsed
  | 0x0 => f.alu1 .mov
  | 0x1 => f.ofTy fun t => ⟨.movi (f.alu t) f.i20, f.az && f.bz, true, .pure⟩
  | 0x2 => f.ofTy fun t => ⟨.movh (f.alu t) f.i20 f.sa, f.bz, true, .pure⟩
  | 0x3 => f.plain0 (.plop f.hdr f.qd (f.sa.extractLsb' 0 3) (f.sb.extractLsb' 0 3) (f.sc.extractLsb' 0 3) (f.xb 0 8))
      (f.qdOk && f.sa.extractLsb' 3 5 == 0 && f.sb.extractLsb' 3 5 == 0 && f.sc.extractLsb' 3 5 == 0 && f.xb 8 4 == 0)
      true
  | 0x4 => match f.sub.toNat with
    | 0 => f.plain (.pmovTov f.hdr f.d) (f.az && f.bz && f.cz && f.xz) true
    | 1 => f.plain (.pmovFromv f.hdr f.a (f.xb 1 6)) (f.dz && f.bz && f.cz && f.xb 0 1 == 0 && f.xb 7 5 == 0) true
    | _ => none
  | 0x5 => match f.sub.toNat with
    | 0 => f.plain (.movxRead f.hdr f.d (f.xb 6 2) (f.xb 0 6)) (f.az && f.bz && f.cz && f.xb 8 4 == 0) true
    | 1 => f.plain (.movxWrite f.hdr (f.xb 6 2) (f.xb 0 6) f.a) (f.dz && f.bz && f.cz && f.xb 8 4 == 0) true
    | _ => none
  | 0x6 => match f.sub.toNat with
    | 0 => f.plain (.xsetSet f.hdr (f.d.extractLsb' 0 2) f.a (f.xb 0 6) (f.xb 6 6))
        (f.d.extractLsb' 2 4 == 0 && f.bz && f.cz) true
    | 1 => f.plain (.xsetAdd f.hdr (f.d.extractLsb' 0 2) f.a) (f.d.extractLsb' 2 4 == 0 && f.bz && f.cz && f.xz) true
    | _ => none
  | _ => none

/-- OPC 0x60 to 0x6F. -/
def parse6 (f : Fields) : Nat → Option Parsed
  | 0x0 => f.strict0 (.bra f.hdr f.i20 f.j16) f.dz true
  | 0x1 => f.plain0 (.brx f.hdr f.d f.ca f.b (f.xb 0 8) f.sc) (f.xb 10 2 == 3 && f.xb 8 2 == 0) f.caOk
  | 0x2 => f.strict0 (.call f.hdr f.d f.i20) (f.az && f.bz) true
  | 0x3 => f.strict0 (.ret f.hdr (num f.sa)) (f.dz && f.bz && f.cz && f.xz) f.uniA
  -- R159 itself names SUB, all six bits of it (R96)
  | 0x4 => some ⟨.join f.ec, f.sub == 0 && !f.u && f.dz && f.az && f.bz && f.cz && f.xz && !f.pn && f.pq == 7, true, .chain⟩
  | 0x5 => match f.sub.toNat with
    | 0 => f.plain (.exit f.hdr) (f.dz && f.az && f.bz && f.cz && f.xz) true
    | 1 => f.closed (.exitTeam f.hdr) (f.dz && f.az && f.bz && f.cz && f.xz) true
    | _ => none
  | 0x6 => f.strict0 (.nop f.hdr) (f.dz && f.az && f.bz && f.cz && f.xz) true
  | 0x7 => f.strict0 (.yld f.hdr) (f.dz && f.az && f.bz && f.cz && f.xz) true
  | _ => none

/-- OPC 0x70 to 0x7F. -/
def parse7 (f : Fields) : Nat → Option Parsed
  | 0x0 => f.closed (.spawn f.hdr f.i20) (f.sub == 0 && f.dz && f.az && f.bz) true
  | 0x1 => f.closed (.gather f.hdr f.i20) (f.sub == 0 && f.dz && f.az && f.bz) true
  | 0x2 => f.closed (.migr f.hdr f.i20) (f.sub == 0 && f.dz && f.az && f.bz) true
  | 0x3 => f.strict0 (.susp f.hdr) (f.dz && f.az && f.bz && f.cz && f.xz) true
  | 0x4 => match f.sub.toNat with
    | 0 => f.plain (.refillQ f.hdr f.d f.mem f.c) true f.caOk
    | 1 => f.plain (.refillBkt f.hdr f.d f.c) (f.az && f.bz && f.xz) true
    | _ => none
  | 0x5 => f.plain0 (.launch f.hdr f.mem (num f.sc)) f.dz (f.caOk && f.uniC)
  | 0x6 => f.strict0 (.waitch f.hdr) (f.dz && f.az && f.bz && f.cz && f.xz) true
  | 0x7 => f.plain0 (.steal f.hdr f.qd f.a) (f.qdOk && f.bz && f.cz && f.xz) true
  | 0x8 => f.plain0 (.enq f.hdr f.mem) (f.dz && f.cz) f.caOk
  | _ => none

/-- OPC 0x80 to 0x8F. SUB 16 is .CAP (R106). -/
def parse8 (f : Fields) : Nat → Option Parsed
  | 0x0 => if f.sub = 16 then some ⟨.ldCap f.hdr f.u f.cd f.mem, f.cz, f.cdOk && f.caOk, .chain⟩
    else f.ofTy fun t => ⟨.ld f.hdr t f.u f.d f.mem, f.cz, f.caOk, .chain⟩
  | 0x1 => if f.sub = 16 then f.plain (.stCap f.hdr f.mem (f.sc.extractLsb' 0 4)) f.dz (f.caOk && f.sc.extractLsb' 4 4 == 0)
    else (Ty.ofCode f.sub).bind fun t => f.plain (.st f.hdr t f.mem f.c) f.dz f.caOk
  | 0x2 => (Ty.ofCode f.sub).bind fun t => f.plain (.ldf f.hdr t f.d f.mem) f.cz f.caOk
  | 0x3 => f.plain0 (.pref f.hdr f.mem) (f.dz && f.cz) f.caOk
  | 0x4 => f.plain0 (.cflush f.hdr f.mem) (f.dz && f.cz) f.caOk
  | 0x5 => (Order.ofNat? f.sub.toNat).bind fun o =>
    f.closed (.ord f.ec o (f.xb 0 8)) (f.dz && f.az && f.bz && f.cz && f.xb 8 4 == 0 && !f.pn && f.pq == 7) true
  | 0x6 => (Order.ofNat? f.sub.toNat).bind fun o =>
    f.closed (.fence f.hdr o (f.xb 0 8)) (f.dz && f.az && f.bz && f.cz && f.xb 8 4 == 0) true
  | 0x8 => f.plain (.atom f.hdr (.ofCode (f.sub.extractLsb' 2 3)) (f.sub.extractLsb' 0 2) f.d f.mem f.c) true f.caOk
  | 0x9 => f.plain (.red f.hdr (.ofCode (f.sub.extractLsb' 2 3)) (f.sub.extractLsb' 0 2) f.mem f.c) f.dz f.caOk
  | 0xA => (Ty.ofCode f.sub).bind fun t => f.plain (.cas f.hdr t f.d f.mem f.c) true f.caOk
  | _ => none

/-- OPC 0x90 to 0x9F. -/
def parse9 (f : Fields) : Nat → Option Parsed
  | 0x0 => f.plain0 (.capset f.hdr f.cd f.ca f.b) (f.cz && f.xz) (f.cdOk && f.caOk)
  | 0x1 => match f.sub.toNat with
    | 0 => f.plain (.capinc f.hdr f.cd f.ca f.b) (f.cz && f.xz) (f.cdOk && f.caOk)
    | 1 => f.plain (.capincM f.hdr f.cd f.ca f.b (f.xb 0 5)) (f.cz && f.xb 5 7 == 0) (f.cdOk && f.caOk)
    | _ => none
  | 0x2 => (CapField.ofNat? f.sub.toNat).map fun k =>
    ⟨.capget f.hdr k f.u f.d f.ca, f.bz && f.cz && f.xz, f.caOk, .chain⟩
  | 0x3 => f.plain0 (.capperm f.hdr f.cd f.ca f.b) (f.cz && f.xz) (f.cdOk && f.caOk)
  | 0x4 => f.plain0 (.capchk f.hdr f.qd f.ca f.b) (f.qdOk && f.cz && f.xz) f.caOk
  | _ => none

/-- OPC 0xA0 to 0xAF. -/
def parseA (f : Fields) : Nat → Option Parsed
  | 0x0 => match f.sub.toNat with
    | 0 => f.strict (.barArv f.hdr f.d (f.xb 0 3)) (f.az && f.bz && f.cz && f.xb 3 9 == 0) true
    | 1 => f.strict (.barWait f.hdr f.qd f.a) (f.qdOk && f.bz && f.cz && f.xz) true
    | 2 => f.strict (.barSync f.hdr (f.xb 0 3)) (f.dz && f.az && f.bz && f.cz && f.xb 3 9 == 0) true
    | _ => none
  | 0x1 => f.closed0 (.waitc f.hdr (f.xb 8 3) (f.xb 0 8)) (f.dz && f.az && f.bz && f.cz && f.xb 11 1 == 0) true
  | 0x2 => f.plain0 (.waitany f.hdr f.d f.a) (f.bz && f.cz && f.xz) true
  | 0x3 => f.plain0 (.waitall f.hdr f.a) (f.dz && f.bz && f.cz && f.xz) true
  | 0x4 => f.plain0 (.ffr f.hdr f.d f.a) (f.bz && f.cz && f.xz) true
  | 0x5 => (Ty.ofCode f.sub).bind fun t => f.plain (.waitadr f.hdr t f.d f.mem f.c) true f.caOk
  | 0x8 => f.plain0 (.sig f.hdr f.d f.mem f.c) true f.caOk
  | 0x9 => f.plain0 (.amsg f.hdr (f.d.extractLsb' 0 2) f.mem (num f.sc)) (f.d.extractLsb' 2 4 == 0) (f.caOk && f.uniC)
  | 0xA => f.plain0 (.mbxs f.hdr f.qd f.a (f.xb 0 3)) (f.qdOk && f.bz && f.cz && f.xb 3 9 == 0) true
  | 0xB => f.plain0 (.mbxr f.hdr f.d (f.xb 0 3)) (f.az && f.bz && f.cz && f.xb 3 9 == 0) true
  | _ => none

/-- OPC 0xB0 to 0xBF. -/
def parseB (f : Fields) : Nat → Option Parsed
  | 0x0 => (Ty.ofCode f.sub).bind fun t =>
    f.plain (.mma f.hdr t f.d (f.sa == 0x20) (sf t f.sb) (f.x12.getLsbD 0)) (sfz t f.sb && f.cz && f.xb 1 11 == 0)
      ((f.sa == 0 || f.sa == 0x20) && sfk t f.sb)
  | 0x1 => (Ty.ofCode f.sub).bind fun t => f.plain (.mmas f.hdr t f.d f.mem (num f.sc)) true (f.caOk && f.uniC)
  | 0x2 => (Ty.ofCode f.sub).bind fun t => f.plain (.drain f.hdr t f.d f.mem (num f.sc)) true (f.caOk && f.uniC)
  | 0x3 => f.plain0 (.accz f.hdr f.d (f.xb 0 6)) (f.az && f.bz && f.cz && f.xb 6 6 == 0) true
  | 0x4 => f.plain0 (.omap f.hdr f.mem (num f.sc)) f.dz (f.caOk && f.uniC)
  | 0x5 => f.plain0 (.cpy f.hdr f.mem f.cd (num f.sc)) true (f.cdOk && f.caOk && f.uniC)
  | 0x6 => f.plain0 (.cpym f.hdr f.mem f.cd (num f.sc)) true (f.cdOk && f.caOk && f.uniC)
  | 0x7 => match f.sub.toNat with
    | 0 => f.plain (.batonRing f.hdr (num f.sa) (f.xb 0 4)) (f.dz && f.bz && f.cz && f.xb 4 8 == 0) f.uniA
    | 1 => f.plain (.batonPass f.hdr) (f.dz && f.az && f.bz && f.cz && f.xz) true
    | 2 => f.plain (.batonEnd f.hdr) (f.dz && f.az && f.bz && f.cz && f.xz) true
    | _ => none
  | 0x8 => f.plain0 (.jpoll f.hdr f.qd (num f.sa)) (f.qdOk && f.bz && f.cz && f.xz) f.uniA
  | 0x9 => f.plain0 (.jwait f.hdr (num f.sa)) (f.dz && f.bz && f.cz && f.xz) f.uniA
  | 0xA => f.plain0 (.bgath f.hdr f.mem f.cd (num f.sc)) true (f.cdOk && f.caOk && f.uniC)
  | 0xB => (Ty.ofCode f.sub).bind fun t =>
    f.plain (.bred f.hdr t f.mem f.cd (num f.sc)) true (f.cdOk && f.caOk && f.uniC)
  | 0xC => f.plain0 (.bcvt f.hdr f.mem f.cd (num f.sc)) true (f.cdOk && f.caOk && f.uniC)
  | 0xD => if f.sub = 0 then some ⟨.kcm f.hdr f.u f.d f.a f.b (num f.sc), f.xz, f.uniC, .chain⟩ else none
  | _ => none

/-- OPC 0xC0 to 0xCF. -/
def parseC (f : Fields) : Nat → Option Parsed
  | 0x0 => match f.sub.toNat with
    | 0 => f.plain (.beamQuery f.hdr f.d f.mem) f.cz f.caOk
    | 1 => f.plain (.beamResume f.hdr f.d f.mem (num f.sc)) true (f.caOk && f.c.isV)
    | _ => none
  | 0x1 => f.plain0 (.bres f.hdr f.d f.a) (f.bz && f.cz && f.xz) true
  | 0x8 => f.closed (.trb f.hdr f.i20 f.j16) (f.sub == 0 && f.dz) true
  | 0x9 => f.closed (.tre f.hdr) (f.sub == 0 && f.dz && f.az && f.bz && f.cz && f.xz) true
  | 0xA => f.closed (.tra f.hdr (f.xb 0 8)) (f.sub == 0 && f.dz && f.az && f.bz && f.cz && f.xb 8 4 == 0) true
  | 0xB => f.closed (.trs f.hdr f.d) (f.sub == 0 && f.az && f.bz && f.cz && f.xz) true
  | _ => none

/-- OPC 0xF0 to 0xFF. -/
def parseF (f : Fields) : Nat → Option Parsed
  | 0x0 => f.closed0 (.trap f.hdr (f.xb 0 8)) (f.dz && f.az && f.bz && f.cz && f.xb 8 4 == 0) true
  | 0x1 => f.closed0 (.eret f.hdr) (f.dz && f.az && f.bz && f.cz && f.xz) true
  | 0x2 => if f.u && f.sub = 0 then some ⟨.csrr f.hdr f.d f.x12, f.az && f.bz && f.cz, true, .chain⟩ else none
  | 0x3 => f.plain0 (.csrw f.hdr f.x12 f.a) (f.dz && f.bz && f.cz) true
  | 0x4 => f.closed0 (.bkpt f.hdr (f.xb 0 8)) (f.dz && f.az && f.bz && f.cz && f.xb 8 4 == 0) true
  | _ => none

/-- The opcode map (R105). -/
def parse (f : Fields) : Option Parsed :=
  let lo := f.opc.toNat % 16
  match f.opc.toNat / 16 with
  | 0x0 => f.parse0 lo
  | 0x1 => f.parse1 lo
  | 0x2 => f.parse2 lo
  | 0x3 => f.parse3 lo
  | 0x4 => f.parse4 lo
  | 0x5 => f.parse5 lo
  | 0x6 => f.parse6 lo
  | 0x7 => f.parse7 lo
  | 0x8 => f.parse8 lo
  | 0x9 => f.parse9 lo
  | 0xA => f.parseA lo
  | 0xB => f.parseB lo
  | 0xC => f.parseC lo
  | 0xF => f.parseF lo
  | _ => none

end Fields

/-- Steps 2 to 5 of R108, and the part of step 6 that does not depend on the words before: an NW word that is not pure ALU
(R66). A word with NW set holds 0 in D (R66). -/
def Parsed.check (f : Fields) (p : Parsed) : Except Cause Instr :=
  if !p.i.assigned then .error .illegalInstruction
  else if !(p.clear && p.i.reservedOk && !(f.nw && p.nw == .zero) && !(f.nw && f.d != 0)) then .error .reservedField
  else if !(p.kinds && p.i.kindsOk) then .error .operandKind
  else if f.nw && p.nw == .chain then .error .latchChain
  else .ok p.i

/-- A whole word (R96 to R100). -/
def decodeWhole (f : Fields) : Except Cause Instr :=
  match f.parse with
  | none => .error .illegalInstruction
  | some p => p.check f

/-- The half in 31 bits (R101), none for an unassigned OPH. -/
def Half.ofBits (x : BitVec 31) : Option Half :=
  (HalfOp.ofNat? (x.extractLsb' 24 7).toNat).map fun op =>
    ⟨op, x.extractLsb' 18 6, Src.ofByte (x.extractLsb' 10 8), x.extractLsb' 2 8, x.extractLsb' 0 2⟩

/-- The 31 bits of a half (R101). -/
def Half.toBits (h : Half) : BitVec 31 := h.op.code ++ h.d ++ h.src.toByte ++ h.k ++ h.pg

/-- A pair word (R101 to R104). -/
def decodePair (w : DWord) : Except Cause Instr :=
  if w.getLsbD 62 then .error .reservedField
  else match Half.ofBits (w.extractLsb' 31 31), Half.ofBits (w.extractLsb' 0 31) with
    | some a, some b =>
      if !(a.reservedOk && b.reservedOk) then .error .reservedField
      else if !(a.kindsOk && b.kindsOk) then .error .operandKind
      else if !pairBankOk a b then .error .pairBank
      else .ok (.pairWord a b)
    | _, _ => .error .illegalInstruction

/-- The decoder: any 64-bit word gives an instruction or the cause of the first step of R108 that fails. -/
def decode (w : DWord) : Except Cause Instr :=
  if w.getLsbD 63 then decodePair w else decodeWhole (Fields.ofWord w)

/-- The decoder over a word given as a number, for the opcode table (one 64-bit word a row). -/
def decodeTableWord (_nbits w : Nat) : Option Instr :=
  match decode (BitVec.ofNat 64 w) with
  | .ok i => some i
  | .error _ => none

/-! ### The encoder -/

/-- Fields of a word with nothing but its header and opcode. -/
def Fields.base (h : Hdr) (opc : BitVec 8) (sub : BitVec 5) : Fields :=
  { ec := h.ec, opc := opc, u := false, sub := sub, nw := false, d := 0, sa := 0, sb := 0, sc := 0, pn := h.pn,
    pq := h.pq, x12 := 0 }

/-- Fields of a pure ALU word. -/
def Fields.ofAlu (w : Alu) (opc : BitVec 8) : Fields :=
  { Fields.base w.h opc w.t.code with u := w.u, nw := w.nw, d := w.d }

/-- The X12 of a memory operand (R72). -/
def MemOp.x12 (m : MemOp) : BitVec 12 := m.scale ++ m.hint ++ m.off

/-- The SA of a capability register. -/
def capByte (c : BitVec 4) : BitVec 8 := (0 : BitVec 4) ++ c

/-- The D of a capability register. -/
def capD (c : BitVec 4) : BitVec 6 := (0 : BitVec 2) ++ c

/-- The D of a predicate. -/
def predD (q : BitVec 3) : BitVec 6 := (0 : BitVec 3) ++ q

/-- The byte of a uniform register. -/
def uniByte (n : BitVec 6) : BitVec 8 := (2 : BitVec 2) ++ n

/-- The byte of a vector register. -/
def vecByte (n : BitVec 6) : BitVec 8 := (0 : BitVec 2) ++ n

/-- The byte of a CB4 slot register, 0 when absent. -/
def sfByte : Option (BitVec 6) → BitVec 8
  | some n => uniByte n
  | none => 0

/-- Fields of a form M word. -/
def Fields.ofMem (h : Hdr) (opc : BitVec 8) (sub : BitVec 5) (d : BitVec 6) (m : MemOp) (sc : BitVec 8) : Fields :=
  { Fields.base h opc sub with d := d, sa := capByte m.cap, sb := m.idx.toByte, sc := sc, x12 := m.x12 }

/-- The fields of an instruction that is a whole word. -/
def fieldsOf : Instr → Option Fields
  | .iadd w a b s => some { Fields.ofAlu w 0x00 with sa := a.toByte, sb := b.toByte, x12 := (0 : BitVec 11) ++ BitVec.ofBool s }
  | .iaddc w a b k => some { Fields.ofAlu w 0x01 with sa := a.toByte, sb := b.toByte, x12 := (0 : BitVec 9) ++ k }
  | .isub w a b s => some { Fields.ofAlu w 0x02 with sa := a.toByte, sb := b.toByte, x12 := (0 : BitVec 11) ++ BitVec.ofBool s }
  | .imul w a b => some { Fields.ofAlu w 0x03 with sa := a.toByte, sb := b.toByte }
  | .imulh w a b => some { Fields.ofAlu w 0x04 with sa := a.toByte, sb := b.toByte }
  | .imad w a b c => some { Fields.ofAlu w 0x05 with sa := a.toByte, sb := b.toByte, sc := c.toByte }
  | .idiv w a b => some { Fields.ofAlu w 0x06 with sa := a.toByte, sb := b.toByte }
  | .irem w a b => some { Fields.ofAlu w 0x07 with sa := a.toByte, sb := b.toByte }
  | .imin w a b => some { Fields.ofAlu w 0x08 with sa := a.toByte, sb := b.toByte }
  | .imax w a b => some { Fields.ofAlu w 0x09 with sa := a.toByte, sb := b.toByte }
  | .iabs w a s => some { Fields.ofAlu w 0x0A with sa := a.toByte, x12 := (0 : BitVec 11) ++ BitVec.ofBool s }
  | .ineg w a s => some { Fields.ofAlu w 0x0B with sa := a.toByte, x12 := (0 : BitVec 11) ++ BitVec.ofBool s }
  | .and w a b => some { Fields.ofAlu w 0x0C with sa := a.toByte, sb := b.toByte }
  | .or w a b => some { Fields.ofAlu w 0x0D with sa := a.toByte, sb := b.toByte }
  | .xor w a b => some { Fields.ofAlu w 0x0E with sa := a.toByte, sb := b.toByte }
  | .not w a => some { Fields.ofAlu w 0x0F with sa := a.toByte }
  | .shl w a b => some { Fields.ofAlu w 0x10 with sa := a.toByte, sb := b.toByte }
  | .shr w a b => some { Fields.ofAlu w 0x11 with sa := a.toByte, sb := b.toByte }
  | .sar w a b => some { Fields.ofAlu w 0x12 with sa := a.toByte, sb := b.toByte }
  | .rot w a b => some { Fields.ofAlu w 0x13 with sa := a.toByte, sb := b.toByte }
  | .bfx w a b => some { Fields.ofAlu w 0x14 with sa := a.toByte, sb := b.toByte }
  | .bfi w a b c => some { Fields.ofAlu w 0x15 with sa := a.toByte, sb := b.toByte, sc := c.toByte }
  | .popc w a => some { Fields.ofAlu w 0x16 with sa := a.toByte }
  | .clz w a => some { Fields.ofAlu w 0x17 with sa := a.toByte }
  | .ctz w a => some { Fields.ofAlu w 0x18 with sa := a.toByte }
  | .brev w a => some { Fields.ofAlu w 0x19 with sa := a.toByte }
  | .icmp h t q a b c => some { Fields.base h 0x1A t.code with d := predD q, sa := a.toByte, sb := b.toByte, x12 := (0 : BitVec 9) ++ c }
  | .sel w a b k => some { Fields.ofAlu w 0x1B with sa := a.toByte, sb := b.toByte, x12 := (0 : BitVec 9) ++ k }
  | .fadd w a b r => some { Fields.ofAlu w 0x20 with sa := a.toByte, sb := b.toByte, x12 := (0 : BitVec 10) ++ r }
  | .fsub w a b r => some { Fields.ofAlu w 0x21 with sa := a.toByte, sb := b.toByte, x12 := (0 : BitVec 10) ++ r }
  | .fmul w a b r => some { Fields.ofAlu w 0x22 with sa := a.toByte, sb := b.toByte, x12 := (0 : BitVec 10) ++ r }
  | .ffma w a b c r => some { Fields.ofAlu w 0x23 with sa := a.toByte, sb := b.toByte, sc := c.toByte, x12 := (0 : BitVec 10) ++ r }
  | .fmin w a b => some { Fields.ofAlu w 0x24 with sa := a.toByte, sb := b.toByte }
  | .fmax w a b => some { Fields.ofAlu w 0x25 with sa := a.toByte, sb := b.toByte }
  | .fdiv w a b r => some { Fields.ofAlu w 0x26 with sa := a.toByte, sb := b.toByte, x12 := (0 : BitVec 10) ++ r }
  | .fsqrt w a r => some { Fields.ofAlu w 0x27 with sa := a.toByte, x12 := (0 : BitVec 10) ++ r }
  | .frcp w a r => some { Fields.ofAlu w 0x28 with sa := a.toByte, x12 := (0 : BitVec 10) ++ r }
  | .frsq w a r => some { Fields.ofAlu w 0x29 with sa := a.toByte, x12 := (0 : BitVec 10) ++ r }
  | .frnd w a r => some { Fields.ofAlu w 0x2F with sa := a.toByte, x12 := (0 : BitVec 10) ++ r }
  | .fexp2 w a => some { Fields.ofAlu w 0x2A with sa := a.toByte }
  | .flog2 w a => some { Fields.ofAlu w 0x2B with sa := a.toByte }
  | .fsin w a => some { Fields.ofAlu w 0x2C with sa := a.toByte }
  | .fcos w a => some { Fields.ofAlu w 0x2D with sa := a.toByte }
  | .ftanh w a => some { Fields.ofAlu w 0x2E with sa := a.toByte }
  | .fclass w a => some { Fields.ofAlu w 0x30 with sa := a.toByte }
  | .fcmp h t q a b c => some { Fields.base h 0x31 t.code with d := predD q, sa := a.toByte, sb := b.toByte, x12 := (0 : BitVec 9) ++ c }
  | .dot2 w a b c r => some { Fields.ofAlu w 0x32 with sa := a.toByte, sb := b.toByte, sc := c.toByte, x12 := (0 : BitVec 10) ++ r }
  | .dot4 w a b c r => some { Fields.ofAlu w 0x33 with sa := a.toByte, sb := b.toByte, sc := c.toByte, x12 := (0 : BitVec 10) ++ r }
  | .cvt w s a r => some { Fields.ofAlu w 0x40 with sa := a.toByte, x12 := (0 : BitVec 5) ++ s.code ++ r }
  | .cvtq h t d a s f r => some { Fields.base h 0x41 t.code with d := d, sa := a.toByte, sb := s.toByte, sc := sfByte f, x12 := (0 : BitVec 10) ++ r }
  | .cvtd h t d a s f => some { Fields.base h 0x42 t.code with d := d, sa := a.toByte, sb := s.toByte, sc := sfByte f }
  | .pack w a b m f => some { Fields.ofAlu w 0x43 with sa := a.toByte, sb := b.toByte, sc := sfByte f, x12 := (0 : BitVec 9) ++ m }
  | .unpk w a m f => some { Fields.ofAlu w 0x44 with sa := a.toByte, sc := sfByte f, x12 := (0 : BitVec 9) ++ m }
  | .shfl h m d a b w => some { Fields.base h 0x48 m.code with d := d, sa := vecByte a, sb := b.toByte, x12 := (0 : BitVec 9) ++ w }
  | .vote h m d q => some { Fields.base h 0x49 m.code with d := d, sa := (0 : BitVec 5) ++ q }
  | .lred h t u d a op => some { Fields.base h 0x4A t.code with u := u, d := d, sa := a.toByte, x12 := (0 : BitVec 9) ++ op }
  | .lscan h t d a op e => some { Fields.base h 0x4B t.code with d := d, sa := a.toByte, x12 := (0 : BitVec 8) ++ BitVec.ofBool e ++ op }
  | .lidx h d => some { Fields.base h 0x4C 0 with d := d }
  | .bcast h t u d a l => some { Fields.base h 0x4D t.code with u := u, d := d, sa := vecByte a, sb := l.toByte }
  | .mov w a => some { Fields.ofAlu w 0x50 with sa := a.toByte }
  | .movi w i => some { Fields.ofAlu w 0x51 with sc := i.extractLsb' 12 8, x12 := i.extractLsb' 0 12 }
  | .movh w i sh => some { Fields.ofAlu w 0x52 with sa := sh, sc := i.extractLsb' 12 8, x12 := i.extractLsb' 0 12 }
  | .plop h q a b c l => some { Fields.base h 0x53 0 with d := predD q, sa := (0 : BitVec 5) ++ a, sb := (0 : BitVec 5) ++ b, sc := (0 : BitVec 5) ++ c, x12 := (0 : BitVec 4) ++ l }
  | .pmovTov h d => some { Fields.base h 0x54 0 with d := d }
  | .pmovFromv h s m => some { Fields.base h 0x54 1 with sa := s.toByte, x12 := (0 : BitVec 5) ++ m ++ (0 : BitVec 1) }
  | .movxRead h d k i => some { Fields.base h 0x55 0 with d := d, x12 := (0 : BitVec 4) ++ k ++ i }
  | .movxWrite h k i s => some { Fields.base h 0x55 1 with sa := s.toByte, x12 := (0 : BitVec 4) ++ k ++ i }
  | .xsetSet h k s lo hi => some { Fields.base h 0x56 0 with d := (0 : BitVec 4) ++ k, sa := s.toByte, x12 := hi ++ lo }
  | .xsetAdd h k s => some { Fields.base h 0x56 1 with d := (0 : BitVec 4) ++ k, sa := s.toByte }
  | .bra h t j => some { Fields.base h 0x60 0 with sa := j.extractLsb' 8 8, sb := j.extractLsb' 0 8, sc := t.extractLsb' 12 8, x12 := t.extractLsb' 0 12 }
  | .brx h n c i o j => some { Fields.base h 0x61 0 with d := n, sa := capByte c, sb := i.toByte, sc := j, x12 := (3 : BitVec 2) ++ (0 : BitVec 2) ++ o }
  | .call h d t => some { Fields.base h 0x62 0 with d := d, sc := t.extractLsb' 12 8, x12 := t.extractLsb' 0 12 }
  | .ret h a => some { Fields.base h 0x63 0 with sa := uniByte a }
  | .join ec => some (Fields.base ⟨ec, false, 7⟩ 0x64 0)
  | .exit h => some (Fields.base h 0x65 0)
  | .exitTeam h => some (Fields.base h 0x65 1)
  | .nop h => some (Fields.base h 0x66 0)
  | .yld h => some (Fields.base h 0x67 0)
  | .spawn h t => some { Fields.base h 0x70 0 with sc := t.extractLsb' 12 8, x12 := t.extractLsb' 0 12 }
  | .gather h t => some { Fields.base h 0x71 0 with sc := t.extractLsb' 12 8, x12 := t.extractLsb' 0 12 }
  | .migr h t => some { Fields.base h 0x72 0 with sc := t.extractLsb' 12 8, x12 := t.extractLsb' 0 12 }
  | .susp h => some (Fields.base h 0x73 0)
  | .refillQ h d m n => some (Fields.ofMem h 0x74 0 d m n.toByte)
  | .refillBkt h d n => some { Fields.base h 0x74 1 with d := d, sc := n.toByte }
  | .launch h m q => some (Fields.ofMem h 0x75 0 0 m (uniByte q))
  | .waitch h => some (Fields.base h 0x76 0)
  | .steal h q s => some { Fields.base h 0x77 0 with d := predD q, sa := s.toByte }
  | .enq h m => some (Fields.ofMem h 0x78 0 0 m 0)
  | .ld h t u d m => some { Fields.ofMem h 0x80 t.code d m 0 with u := u }
  | .ldCap h u c m => some { Fields.ofMem h 0x80 16 (capD c) m 0 with u := u }
  | .st h t m x => some (Fields.ofMem h 0x81 t.code 0 m x.toByte)
  | .stCap h m c => some (Fields.ofMem h 0x81 16 0 m (capByte c))
  | .ldf h t d m => some (Fields.ofMem h 0x82 t.code d m 0)
  | .pref h m => some (Fields.ofMem h 0x83 0 0 m 0)
  | .cflush h m => some (Fields.ofMem h 0x84 0 0 m 0)
  | .ord ec o s => some { Fields.base ⟨ec, false, 7⟩ 0x85 o.code with x12 := (0 : BitVec 4) ++ s }
  | .fence h o s => some { Fields.base h 0x86 o.code with x12 := (0 : BitVec 4) ++ s }
  | .atom h op w d m b => some (Fields.ofMem h 0x88 (op.code ++ w) d m b.toByte)
  | .red h op w m b => some (Fields.ofMem h 0x89 (op.code ++ w) 0 m b.toByte)
  | .cas h t d m n => some (Fields.ofMem h 0x8A t.code d m n.toByte)
  | .capset h d a l => some { Fields.base h 0x90 0 with d := capD d, sa := capByte a, sb := l.toByte }
  | .capinc h d a l => some { Fields.base h 0x91 0 with d := capD d, sa := capByte a, sb := l.toByte }
  | .capincM h d a l w => some { Fields.base h 0x91 1 with d := capD d, sa := capByte a, sb := l.toByte, x12 := (0 : BitVec 7) ++ w }
  | .capget h k u d a => some { Fields.base h 0x92 k.code with u := u, d := d, sa := capByte a }
  | .capperm h d a l => some { Fields.base h 0x93 0 with d := capD d, sa := capByte a, sb := l.toByte }
  | .capchk h q a l => some { Fields.base h 0x94 0 with d := predD q, sa := capByte a, sb := l.toByte }
  | .barArv h d b => some { Fields.base h 0xA0 0 with d := d, x12 := (0 : BitVec 9) ++ b }
  | .barWait h q t => some { Fields.base h 0xA0 1 with d := predD q, sa := t.toByte }
  | .barSync h b => some { Fields.base h 0xA0 2 with x12 := (0 : BitVec 9) ++ b }
  | .waitc h c t => some { Fields.base h 0xA1 0 with x12 := (0 : BitVec 1) ++ c ++ t }
  | .waitany h d m => some { Fields.base h 0xA2 0 with d := d, sa := m.toByte }
  | .waitall h m => some { Fields.base h 0xA3 0 with sa := m.toByte }
  | .ffr h d m => some { Fields.base h 0xA4 0 with d := d, sa := m.toByte }
  | .waitadr h t d m v => some (Fields.ofMem h 0xA5 t.code d m v.toByte)
  | .sig h d m x => some (Fields.ofMem h 0xA8 0 d m x.toByte)
  | .amsg h d m s => some (Fields.ofMem h 0xA9 0 ((0 : BitVec 4) ++ d) m (uniByte s))
  | .mbxs h q s c => some { Fields.base h 0xAA 0 with d := predD q, sa := s.toByte, x12 := (0 : BitVec 9) ++ c }
  | .mbxr h d c => some { Fields.base h 0xAB 0 with d := d, x12 := (0 : BitVec 9) ++ c }
  | .mma h t n hi f r => some { Fields.base h 0xB0 t.code with d := n, sa := if hi then 0x20 else 0, sb := sfByte f, x12 := (0 : BitVec 11) ++ BitVec.ofBool r }
  | .mmas h t n m s => some (Fields.ofMem h 0xB1 t.code n m (uniByte s))
  | .drain h t n m s => some (Fields.ofMem h 0xB2 t.code n m (uniByte s))
  | .accz h t n => some { Fields.base h 0xB3 0 with d := t, x12 := (0 : BitVec 6) ++ n }
  | .omap h m s => some (Fields.ofMem h 0xB4 0 0 m (uniByte s))
  | .cpy h m c s => some (Fields.ofMem h 0xB5 0 (capD c) m (uniByte s))
  | .cpym h m c s => some (Fields.ofMem h 0xB6 0 (capD c) m (uniByte s))
  | .batonRing h s n => some { Fields.base h 0xB7 0 with sa := uniByte s, x12 := (0 : BitVec 8) ++ n }
  | .batonPass h => some (Fields.base h 0xB7 1)
  | .batonEnd h => some (Fields.base h 0xB7 2)
  | .jpoll h q s => some { Fields.base h 0xB8 0 with d := predD q, sa := uniByte s }
  | .jwait h s => some { Fields.base h 0xB9 0 with sa := uniByte s }
  | .bgath h m c s => some (Fields.ofMem h 0xBA 0 (capD c) m (uniByte s))
  | .bred h t m c s => some (Fields.ofMem h 0xBB t.code (capD c) m (uniByte s))
  | .bcvt h m c s => some (Fields.ofMem h 0xBC 0 (capD c) m (uniByte s))
  | .kcm h u d r c s => some { Fields.base h 0xBD 0 with u := u, d := d, sa := r.toByte, sb := c.toByte, sc := uniByte s }
  | .beamQuery h d m => some (Fields.ofMem h 0xC0 0 d m 0)
  | .beamResume h d m p => some (Fields.ofMem h 0xC0 1 d m (vecByte p))
  | .bres h d j => some { Fields.base h 0xC1 0 with d := d, sa := j.toByte }
  | .trb h t j => some { Fields.base h 0xC8 0 with sa := j.extractLsb' 8 8, sb := j.extractLsb' 0 8, sc := t.extractLsb' 12 8, x12 := t.extractLsb' 0 12 }
  | .tre h => some (Fields.base h 0xC9 0)
  | .tra h c => some { Fields.base h 0xCA 0 with x12 := (0 : BitVec 4) ++ c }
  | .trs h d => some { Fields.base h 0xCB 0 with d := d }
  | .trap h c => some { Fields.base h 0xF0 0 with x12 := (0 : BitVec 4) ++ c }
  | .bkpt h c => some { Fields.base h 0xF4 0 with x12 := (0 : BitVec 4) ++ c }
  | .eret h => some (Fields.base h 0xF1 0)
  | .csrr h d c => some { Fields.base h 0xF2 0 with u := true, d := d, x12 := c }
  | .csrw h c s => some { Fields.base h 0xF3 0 with sa := s.toByte, x12 := c }
  | _ => none

/-- The word of an instruction; none for the rows of the table that are not words. -/
def encode : Instr → Option DWord
  | .pairWord a b => some ((1 : BitVec 1) ++ (0 : BitVec 1) ++ a.toBits ++ b.toBits)
  | i => (fieldsOf i).map Fields.toWord

end Sys2Proof
end

