-- ==== Sys2Proof/Machine/Fetch.lean ====
section
/-!
DEFINITION. Machine/Fetch.lean: fetching the word at an address (R145) and decoding it.
-/
namespace Sys2Proof.Machine

namespace State

/-- The leaf of a fetch, or its cause (R145): FETCH_PAGE where no leaf with X is met. -/
def fetchLeaf (s : State) (cell x : Nat) (pc : Addr) : Except Cause Leaf :=
  match s.translate cell x pc.toNat with
  | .error c => .error (if c == Cause.pageFault then Cause.fetchPage else c)
  | .ok l =>
    if !l.x then .error Cause.fetchPage
    else if !(s.trusted (dieOfPa l.pa) && s.reaches (dieOfCell cell) (dieOfPa l.pa)) then .error Cause.homeDieUnavailable
    else if s.poisoned l.pa 8 then .error Cause.poison
    else .ok l

/-- The word at an address: its eight bytes, lowest first (R3, R96). -/
def fetch (s : State) (cell x : Nat) (pc : Addr) : Except Cause DWord :=
  match s.fetchLeaf cell x pc with
  | .error c => .error c
  | .ok l => .ok (BitVec.ofNat 64 (s.num l.pa 8))

/-- The instruction at an address, or the cause of the fetch or of a decode step (R108). -/
def instrAt (s : State) (cell x : Nat) (pc : Addr) : Except Cause Instr :=
  match s.fetch cell x pc with
  | .error c => .error c
  | .ok w => decode w

end State
end Sys2Proof.Machine
end

