-- ==== Sys2Proof/Machine/Named.lean ====
section
/-!
DEFINITION. Machine/Named.lean: what a word names as far as its place in a latch chain depends on it (R65, R66): its destination fields,
its sources, and the cause that its place gives it.
-/
namespace Sys2Proof.Machine

/-- Destination fields of the pure ALU words, none for every other instruction (R65). -/
def Instr.alu? : Instr → Option Alu
  | .iadd w .. | .iaddc w .. | .isub w .. | .imul w .. | .imulh w .. | .imad w .. | .idiv w .. | .irem w ..
  | .imin w .. | .imax w .. | .iabs w .. | .ineg w .. | .and w .. | .or w .. | .xor w .. | .not w .. | .shl w ..
  | .shr w .. | .sar w .. | .rot w .. | .bfx w .. | .bfi w .. | .popc w .. | .clz w .. | .ctz w .. | .brev w ..
  | .sel w .. | .fadd w .. | .fsub w .. | .fmul w .. | .ffma w .. | .fmin w .. | .fmax w .. | .fdiv w .. | .fsqrt w ..
  | .frcp w .. | .frsq w .. | .frnd w .. | .fexp2 w .. | .flog2 w .. | .fsin w .. | .fcos w .. | .ftanh w ..
  | .fclass w .. | .dot2 w .. | .dot4 w .. | .mov w .. | .movi w .. | .cvt w .. | .movh w .. | .pack w .. | .unpk w .. => some w
  | _ => none

/-- Whether a word is an NW word of a chain (R66). -/
def Instr.nw (i : Instr) : Bool := ((Instr.alu? i).map Alu.nw).getD false

/-- The sources an instruction reads in each enabled lane, each with whether 64 bits of it are read. -/
def Instr.srcs : Instr → List (Bool × Src)
  | .iadd w a b _ | .iaddc w a b _ | .isub w a b _ | .imul w a b | .imulh w a b | .idiv w a b | .irem w a b | .imin w a b
  | .imax w a b | .and w a b | .or w a b | .xor w a b | .shl w a b | .shr w a b | .sar w a b | .rot w a b | .bfx w a b
  | .sel w a b _ | .fadd w a b _ | .fsub w a b _ | .fmul w a b _ | .fmin w a b | .fmax w a b | .fdiv w a b _ =>
    [(w.t.is64, a), (w.t.is64, b)]
  | .imad w a b c | .bfi w a b c | .ffma w a b c _ => [(w.t.is64, a), (w.t.is64, b), (w.t.is64, c)]
  | .iabs w a _ | .ineg w a _ | .not w a | .popc w a | .clz w a | .ctz w a | .brev w a | .fsqrt w a _ | .frcp w a _
  | .frsq w a _ | .frnd w a _ | .fexp2 w a | .flog2 w a | .fsin w a | .fcos w a | .ftanh w a | .mov w a | .fclass w a =>
    [(w.t.is64, a)]
  | .cvt _ s a _ => [(s.is64, a)]
  | .dot2 _ a b c _ | .dot4 _ a b c _ => [(false, a), (false, b), (false, c)]
  | .pack _ a b _ _ => [(false, a), (false, b)]
  | .unpk _ a _ _ => [(false, a)]
  | .movh w _ _ => if w.u then [] else [(w.t.is64, .v w.d)]
  | .icmp _ t _ a b _ | .fcmp _ t _ a b _ => [(t.is64, a), (t.is64, b)]
  | .cvtq _ _ _ a b _ _ | .cvtd _ _ _ a b _ => [(false, a), (false, b)]
  | .shfl _ _ _ _ b _ => [(false, b)]
  | .lred _ t _ _ a _ | .lscan _ t _ a _ _ => [(t.is64, a)]
  | .pmovFromv _ a _ | .movxWrite _ _ _ a | .xsetSet _ _ a _ _ | .xsetAdd _ _ a | .barWait _ _ a | .mbxs _ _ a _
  | .bres _ _ a => [(false, a)]
  | .brx _ _ _ a _ _ => [(false, a)]
  | .kcm _ u _ r c _ => if u then [] else [(false, r), (false, c)]
  | .launch _ m _ | .enq _ m | .pref _ m | .cflush _ m | .amsg _ _ m _ | .beamQuery _ _ m | .omap _ m _ | .mmas _ _ _ m _
  | .drain _ _ _ m _ | .cpy _ m _ _ | .cpym _ m _ _ | .bgath _ m _ _ | .bred _ _ m _ _ | .bcvt _ m _ _ | .ldf _ _ _ m =>
    [(false, m.idx)]
  | .beamResume _ _ m p => [(false, m.idx), (true, .v p), (false, .v (p + 2))]
  | .ld _ _ u _ m => if u then [] else [(false, m.idx)]
  | .st _ t m x => [(false, m.idx), (t.is64, x)]
  | .sig _ _ m x => [(false, m.idx), (false, x)]
  | .atom _ op w _ m b | .red _ op w m b => [(false, m.idx), (atomBytes op w == 8, b)]
  | .cas _ t d m n => [(false, m.idx), (t.is64, .v d), (t.is64, n)]
  | .waitadr _ t _ m n => [(false, m.idx), (t.is64, n)]
  | _ => []

/-- Whether a half of a pair reads a latch (R66, R102). -/
def Half.latched (h : Half) : Bool :=
  match h.op, h.src with
  | .nop, _ | .movi, _ => false
  | _, .lat _ => true
  | _, _ => false

/-- The cause of a word by its place in a chain (R66): `n` NW words stand before it. A half of a pair stands in no chain. -/
def chainCause (n : Nat) (i : Instr) : Option Cause :=
  let j := n + 1
  if n != 0 && (Instr.alu? i).isNone then some Cause.latchChain
  else if Instr.nw i && 4 ≤ n then some Cause.latchChain
  else if (Instr.srcs i).any fun p => (match p.2 with
      | .lat k => decide (j < k.toNat + 2)
      | _ => false) then some Cause.latchStale
  else match i with
    | .pairWord a b => if Half.latched a || Half.latched b then some Cause.latchStale else none
    | _ => none

/-- The host's posted writes of BAR0 registers (R295, R296). -/
def Instr.bar0 : Instr → Bool
  | .queueDoorbell .. | .qcfgWrite .. | .ctxctlHalt .. | .ctxctlGo .. | .tlbinv .. | .capw .. | .ctxenWrite .. | .flcfgWrite ..
  | .diehtWrite .. | .firmwareUpdate .. | .counterArm .. | .counterDisarm .. | .registerWrite .. | .dieResetRequest .. => true
  | _ => false

end Sys2Proof.Machine
end

