-- ==== Sys2Proof/Machine/MemoryWords.lean ====
section
/-!
DEFINITION. Machine/MemoryWords.lean: LD, ST, LDF, PREF, CFLUSH (R322, R349 to R352, R370, R381, R382), ORD and FENCE (R195,
R338, R366), ATOM, RED and CAS (R209 to R215, R309, R371).
-/
namespace Sys2Proof.Machine

/-- LD (R349, R350): HINT 1 is .STR, and HINT 2 (.NA) keeps no copy. -/
def execLd (h : Hdr) (t : Ty) (u : Bool) (d : BitVec 6) (m : MemOp) (s : State) : Out :=
  if u then onceLoad h m threadSpaces permR t.bytes m.hint.toNat (.uni t d.toNat) s
  else perLaneAccess h m threadSpaces permR t.bytes m.hint.toNat (fun _ _ => .load) (.vec t d.toNat) (fun _ => .ok ()) s

/-- LD.CAP (R351): once, with or without U. -/
def execLdCap (h : Hdr) (_u : Bool) (cd : BitVec 4) (m : MemOp) (s : State) : Out :=
  onceLoad h m threadSpaces (permR ||| permLC) 16 m.hint.toNat (.cap cd.toNat) s

/-- Store data of a type in a lane: an immediate is sign-extended to the width whatever the type (R381, log 21). -/
def storeData (m : Member) (t : Ty) (x : Src) (lane : Nat) : Nat :=
  match x with
  | .imm i => modN (sextN i.toNat 6) t.bits
  | _ => m.src t x lane

/-- A store per lane (R381), or a RED (`rd`), which reads its page too. -/
def storeWord (h : Hdr) (o : MemOp) (spaces : List Nat) (perm : BitVec 8) (n : Nat) (rd : Bool) (hint : Nat) (op : Iss → Nat → AccOp)
    (pre : Iss → Chk Unit) (s : State) : Out :=
  memWord h
    (fun i ls s => s.regionLanesAcc i (i.m.creg o.cap.toNat) spaces perm n (op i) (fun _ => .none)
      (ls.map fun l => (l, i.m.addr o l)) true)
    (fun i s => (storeLanes i (i.m.creg o.cap.toNat) spaces perm n rd hint (op i) (i.addrs o) (pre i) s).map fun t =>
      (t, [], 0)) .none s

/-- ST (R381): HINT 2 (.NA) writes the words back and drops them. -/
def execSt (h : Hdr) (t : Ty) (m : MemOp) (data : Src) (s : State) : Out :=
  storeWord h m threadSpaces permW t.bytes false m.hint.toNat (fun i l => .store (storeData i.m t data l) false)
    (fun _ => .ok ()) s

/-- ST.CAP (R382): once, at the lowest enabled lane's address; with no other lane enabled, the regions of its lanes track it (R191, R219).
CAP_LOCAL follows the cursor checks. -/
def execStCap (h : Hdr) (m : MemOp) (cs : BitVec 4) (s : State) : Out :=
  let spaces := [spGlobal, spSpad, spSpadw]
  let perm := permW ||| permSC
  let op (i : Iss) : AccOp := .store (i.m.creg cs.toNat).toNat128 (i.m.creg cs.toNat).tag
  let local' (i : Iss) : Bool :=
    let c := i.m.creg cs.toNat
    let sp := (i.m.creg m.cap.toNat).space.toNat
    c.tag && !c.has permGL && sp != spSpad && sp != spSpadw
  memWord h
    (fun i ls s =>
      let lanes := ls.map fun l => (l, i.m.addr m (lowest i.en))
      let mixed := i.m.enabled h != i.en
      let c := i.m.creg m.cap.toNat
      -- a region lane whose store would be CAP_LOCAL aborts with it once the earlier steps pass
      match s.capCheck i.ctx i.cell (i.m.creg m.cap.toNat) spaces perm 16 16 lanes with
      | .error e => (s.abortLanes i.cell i.m.uid i.en e.cause, [])
      | .ok _ =>
        if local' i then (s.abortLanes i.cell i.m.uid i.en Cause.capLocal, [])
        else if mixed then
          -- the store belongs to the lanes without a region; a region that could not make it aborts
          (lanes.foldl (fun s p =>
            match s.regionLane i c spaces perm 16 p.1 p.2 (op i) false with
            | (s', .aborted) => s'
            | _ => s) s, [])
        else s.regionLanesAcc i c spaces perm 16 (fun _ => op i) (fun _ => .none) lanes)
    (fun i s => (storeLanes i (i.m.creg m.cap.toNat) spaces perm 16 false m.hint.toNat (fun _ => op i)
      ((i.addrs m).take 1) (need (!local' i) Cause.capLocal (some (lowest i.en)) (i.m.addr m (lowest i.en))) s true).map fun t =>
        (t, [], 0)) .none s

/-! ### LDF (R352) -/

/-- What LDF finds at an address: the format slot of the page, the access width, and the virtual address of the scale. -/
structure LdfAt where
  slot : Nat
  n : Nat
  scaleVa : Option Nat
  deriving DecidableEq, Repr

/-- The bytes of one element access of a format (R352). -/
def elemBytes (efmt : Nat) : Nat :=
  match efmt with
  | 8 | 9 => 2
  | 10 => 4
  | _ => 1

/-- The format steps of LDF at an address: the page's slot, FORMAT_SLOT, and the scale's address (R92, R352). -/
def State.ldfAt (s : State) (i : Iss) (a : Nat) : Except Cause LdfAt :=
  match s.translate i.cell i.ctx a with
  | .error c => .error c
  | .ok l =>
    let f := s.fmtEntry i.ctx l.fmt
    if l.fmt == 0 || ! [8, 9, 10, 12, 13, 14].contains f.efmt || !(f.tbase ≤ a && a < f.tbase + f.tlen) then
      .error Cause.formatSlot
    else
      let w := if f.efmt == 14 then 4 else 8 * elemBytes f.efmt
      .ok ⟨l.fmt, elemBytes f.efmt, if f.scaled then some (f.sbase + (a - f.tbase) / (4 * w)) else none⟩

/-- The causes of one lane of LDF with the ranks of their steps (R136, R352, log 22): FORMAT_SLOT, the steps of R136 for the element, and
then those of a load for the scale byte. An address without a page has no format, and R136 gives its cause. `poison` is clear for a
region lane, whose own view decides. -/
def State.ldfLane (s : State) (i : Iss) (c : Cap) (a : Nat) (poison : Bool) : Except (Nat × Cause) LdfAt := do
  let glob := c.spaceOk && c.space.toNat == spGlobal
  let x := if glob && a < 2 ^ 57 then (match s.ldfAt i a with
    | .error e => if e == Cause.formatSlot then Except.error (0, e) else .ok ⟨0, 1, none⟩
    | .ok x => .ok x) else .ok ⟨0, 1, none⟩
  let x ← x
  let step (k : Nat) (b : Bool) (e : Cause) : Except (Nat × Cause) Unit := if b then .ok () else .error (k, e)
  let late (k : Nat) (f : Option (Nat × Cause)) : Except (Nat × Cause) Unit :=
    match f with
    | some e => .error (k + e.1, e.2)
    | none => .ok ()
  step 1 c.tag Cause.capTag
  step 2 glob Cause.capSpace
  step 3 (c.has permR) Cause.capPerm
  step 4 (c.inBounds a x.n) Cause.capBounds
  step 5 (a % x.n == 0) Cause.misaligned
  step 6 (rangeCheck spGlobal a x.n).isNone Cause.addrRange
  late 7 (s.lateFail i.ctx i.cell spGlobal x.n true false poison a true)
  match x.scaleVa with
  | none => return x
  | some va =>
    step 12 (rangeCheck spGlobal va 1).isNone Cause.addrRange
    late 13 (s.lateFail i.ctx i.cell spGlobal 1 true false poison va true)
    return x

/-- The checks of LDF over all lanes: the earliest failing step, the lowest lane. -/
def State.ldfCheck (s : State) (i : Iss) (c : Cap) (lanes : List (Nat × Nat)) : Chk Unit :=
  let fails := lanes.filterMap fun p =>
    match s.ldfLane i c p.2 true with
    | .error e => some (p, e)
    | .ok _ => none
  (List.range 18).foldl (fun acc k => do
    acc
    match fails.find? fun f => f.2.1 == k with
    | some f => .error { cause := f.2.2, lane := some f.1.1, addr := f.1.2 }
    | none => .ok ()) (.ok ())

/-- One load of LDF: its address, its width, and the place that its checks found. -/
structure LdfLoad where
  va : Nat
  n : Nat
  place : Target
  deriving DecidableEq, Repr

/-- The loads of a lane that passed its checks: the element, and the scale. -/
def State.ldfLoads (s : State) (i : Iss) (a : Nat) (x : LdfAt) : LdfLoad × Option LdfLoad :=
  let load (va n : Nat) : LdfLoad :=
    ⟨va, n, match s.reach i.ctx i.cell spGlobal va n true false with
      | .ok t => t
      | .error _ => .dev 0 none⟩
  (load a x.n, x.scaleVa.map fun va => load va 1)

/-- A load of an LDF: the scale, with the element after it, or the element. -/
def ldfHeld (i : Iss) (lane : Nat) (l : LdfLoad) (dst : LoadDst) (next : Option LdfLoad) : HeldAcc :=
  ⟨lane, laneMask lane, l.place.pa, l.n, 0, false, .load, dst, l.place.page, l.va, 0, i.acq, i.rel,
    next.map fun e => (e.va, e.place.pa, e.n, e.place.page)⟩

/-- The loads of a lane of LDF: the scale, then the element. -/
def ldfAcc (i : Iss) (lane : Nat) (e : LdfLoad) (scale : Option LdfLoad) (dst : LoadDst) : HeldAcc :=
  match scale with
  | none => ldfHeld i lane e dst none
  | some l => ldfHeld i lane l dst (some e)

/-- A lane of LDF in its open region: both loads are the region's (R219). -/
def State.ldfRegion (s : State) (i : Iss) (c : Cap) (lane : Nat) (e : LdfLoad) (scale : Option LdfLoad) (dst : LoadDst) :
    State × List HeldAcc :=
  let element (s : State) (dst : LoadDst) : State × List HeldAcc :=
    s.regionLanesAcc i c [spGlobal] permR e.n (fun _ => .load) (fun _ => dst) [(lane, e.va)]
  match scale, s.regionOf i.dieNo i.m.uid lane with
  | some l, some (y, _) =>
    match s.regionAt i y l.va 1 .load false with
    | (s, .done v) => element s (dst.scaled v)
    | (s, .wait src) => (s, [{ ldfHeld i lane l dst (some e) with source := src, inRegion := true, acq := false, rel := 0 }])
    | (s, .aborted) => (s, [])
  | _, _ => element s dst

/-- LDF (R352). -/
def execLdf (h : Hdr) (t : Ty) (d : BitVec 6) (m : MemOp) (s : State) : Out :=
  let hi := m.hint == 1
  let found (s : State) (i : Iss) (own : Bool) (a : Nat) : Except (Nat × Cause) (LdfLoad × Option LdfLoad × LoadDst) :=
    (s.ldfLane i (i.m.creg m.cap.toNat) a own).map fun x =>
      ((s.ldfLoads i a x).1, (s.ldfLoads i a x).2, .decoded t d.toNat x.slot hi none)
  memWord h
    (fun i ls s0 => ls.foldl (fun (acc : State × List HeldAcc) l =>
      match found s0 i false (i.m.addr m l) with
      | .error e => (acc.1.abortLane i.cell i.m.uid l e.2, acc.2)
      | .ok (e, sc, dst) =>
        let (s, held) := acc.1.ldfRegion i (i.m.creg m.cap.toNat) l e sc dst
        (s, acc.2 ++ held)) (s0, []))
    (fun i s => do
      let s := if i.sc && i.en != 0 then s.acquire i.cell else s
      s.ldfCheck i (i.m.creg m.cap.toNat) (i.addrs m)
      let r := s.loadAll i ((i.addrs m).filterMap fun p => (found s i true p.2).toOption.map fun x => ldfAcc i p.1 x.1 x.2.1 x.2.2)
      return (r.1, r.2, 0)) .none s

/-! ### PREF and CFLUSH -/

/-- Who sends a message (R238): a cell, the slice of its line, or a cluster. -/
def Msg.sender (m : Msg) : Nat :=
  match m.kind with
  | .inv | .sns | .sni | .data | .nack => 512 + 16 * dieOfPa (m.line * 128) + homeSlice (m.line * 128)
  | .iack | .evn => 576 + m.cluster
  | _ => m.cell

/-- The tags of the messages that are in flight, wait at a home, or have a transaction open (R238, R239). -/
def State.tagsInUse (s : State) : List Nat :=
  (s.coh.net ++ s.coh.retry).map Msg.tag ++ s.coh.lines.flatMap fun e : Nat × Line => e.2.queue.map Msg.tag ++ (e.2.tx.map fun t => t.req.tag).toList

namespace State

/-- The ends of a message's way: its sender's die and its receiver's. -/
def msgWay (m : Msg) : Nat × Nat :=
  let home := dieOfPa (m.line * 128)
  match m.kind with
  | .inv => (home, dieOfCluster m.cluster)
  | .iack | .evn => (dieOfCluster m.cluster, home)
  | .sns | .sni | .data | .nack => (home, dieOfCell m.cell)
  | _ => (dieOfCell m.cell, home)

/-- A coherence message sent, with a tag that none of its sender's messages holds; while all of them are held, the step that sends waits
(R238). -/
def send (s : State) (m : Msg) : State :=
  let used := s.tagsInUse
  let base := 4096 * m.sender
  match firstFree 4096 fun n => used.contains (base + n) with
  | some n =>
    let m := { m with tag := base + n }
    { s.countWay (msgWay m).1 (msgWay m).2 with coh := { s.coh with net := s.coh.net ++ [m] } }
  | none => { s with lineQ := s.lineQ ++ [(m.line, none)] }

end State

/-- A message with no more than its kind, line and parties. -/
def Msg.bare (kind : MsgKind) (line cell : Nat) : Msg :=
  { kind := kind, tag := 0, line := line, cell := cell, cluster := clusterOfCell cell, span := 0, flag := false, pts := 0, wts := 0,
    exp := 0, data := [], tags := 0, poison := 0, off := 0, op := none, mode := .empty, who := none, nacks := 0, re := 0 }

/-- LINK_LOST of a lane's access, should its message be lost (R248, R249). -/
def State.linkFault (s : State) (i : Iss) (lane addr : Nat) : ImpFault :=
  s.faultAt i Cause.linkLost lane addr

/-- The message of one lane's prefetch, when nothing drops it (R370); its loss on a link raises nothing. .L2 makes the home slice hold the line
under the page's protocol (log 85). -/
def State.prefetch (s : State) (i : Iss) (c : Cap) (hint : BitVec 2) (a : Nat) : State :=
  if c.space.toNat != spGlobal then s
  else
    match s.reach i.ctx i.cell spGlobal a 1 true false with
    | .ok (.dev pa (some l)) =>
      if !isHbm pa || s.poisoned pa 1 || (FMap.find? s.mapped (pa / 128)).isSome then s
      else
        let s := s.fillTlb i.cell i.ctx a l
        let k := pa / 128
        match hint.toNat, l.coh with
        | 1, _ => if s.lineWaits pa (some (cohMode l.coh)) then s else (s.convert k (cohMode l.coh)).settle k
        | 2, 0 => s.send { Msg.bare .rdo k i.cell with span := 0xFFFFFFFF, flag := true, mode := .dir }
        | _, 0 => s.send { Msg.bare .rds k i.cell with span := 0xFFFFFFFF, mode := .dir }
        | _, 1 => s.send { Msg.bare .lrd k i.cell with pts := s.pts i.cell, exp := BitVec.ofNat 16 l.lease, mode := .lease }
        | _, _ => s
    | _ => s

/-- PREF (R370). -/
def execPref (h : Hdr) (m : MemOp) (s : State) : Out :=
  stepWord .skip h (fun i s => do
    let c := i.m.creg m.cap.toNat
    capRange c threadSpaces permR 1 (fun _ => true) (i.addrs m)
    return (i.addrs m).foldl (fun s p => s.prefetch i c m.hint p.2) s) s

/-- The words of a line in the write set of an open region of a cell (R322). -/
def State.regionWords (s : State) (cell line : Nat) : Word :=
  ((s.die (dieOfCell cell)).regions.filter fun e => e.2.isOpen && e.2.cell == cell).foldl (fun w e =>
    w ||| maskOf (((FMap.keys e.2.writes).filter fun b => b / 128 == line).map fun b => b % 128 / 4)) 0

/-- Whether some cell of a cluster holds a word of a line. -/
def State.clusterHolds (s : State) (c line : Nat) : Bool :=
  (List.range 8).any fun n => (s.l1 (c * 8 + n) line).valid != 0

/-- One lane's CFLUSH on a line (R322): the dirty words leave as WB, and .INV drops the copy. -/
def State.flushLine (s : State) (cell line : Nat) (inv : Bool) (who : Option ImpFault) : State :=
  let own := s.regionWords cell line
  let x := s.l1 cell line
  let out := x.dirty &&& ~~~own
  let s := s.setL1 cell line
    { x with valid := if inv then x.valid &&& own else x.valid, dirty := x.dirty &&& own, lease := if inv then none else x.lease }
  let s := if out == 0 then s else s.send { Msg.bare .wb line cell with span := out, flag := inv, who := who }
  if inv && (s.line line).sharers &&& sharerBit cell != 0 && !s.clusterHolds (clusterOfCell cell) line then
    s.send (Msg.bare .evn line cell)
  else s

/-- CFLUSH (R322). -/
def execCflush (h : Hdr) (m : MemOp) (s : State) : Out :=
  stepWord (.forbid Cause.regionForbidden) h (fun i s => do
    let c := i.m.creg m.cap.toNat
    s.capCheck i.ctx i.cell c threadSpaces permW 1 1 (i.addrs m)
    s.lateCheck i.ctx i.cell c.space.toNat 1 false true false (i.addrs m)
    return (i.addrs m).foldl (fun s p =>
      match s.reach i.ctx i.cell c.space.toNat p.2 1 false true with
      | .ok (.dev pa (some l)) =>
        let s := s.fillTlb i.cell i.ctx p.2 l
        if isHbm pa && (FMap.find? s.mapped (pa / 128)).isNone then
          s.flushLine i.cell (pa / 128) (m.hint == 1) (some (s.linkFault i p.1 p.2))
        else s
      | _ => s) s) s

/-! ### Order -/

/-- Whether an instruction is an accepted target of an order (R195). -/
def ordAccepts (o : Order) (i : Instr) : Bool :=
  match i with
  | .ld .. | .ldCap .. | .ldf .. | .waitadr .. => o == .acq || o == .sc
  | .st .. | .stCap .. => o == .rel || o == .sc
  | .atom .. | .cas .. => true
  | .red .. => o == .rel || o == .sc
  | _ => false

/-- ORD (R195, R366): ORD_FORM for an empty set or a target that is not accepted, once the target has decoded; otherwise the
order is kept for the target, which the group issues next. A target that cannot be fetched, or that fails a step of R108, the chain rules
among them, raises its own cause in its turn, with the ORD's address as TPC. -/
def execOrd (ec : BitVec 2) (o : Order) (set : BitVec 8) (s : State) : Out :=
  match s.iss ⟨ec, false, 7⟩ with
  | none => .next s
  | some i =>
    let tgt := s.instrAt i.cell i.ctx (nextPc i.pc)
    let bad := match tgt with
      | .ok t => (chainCause 0 t).isNone && (set == 0 || !ordAccepts o t)
      | .error _ => false
    if bad then .next (s.raiseAny i { cause := Cause.ordForm })
    else .next ((s.modMember i.k fun m => { m with ord := some ⟨o, set, i.pc⟩ }).next i)

/-- A held write of a fence's thread marked with what now comes after it (R197): stores after a REL, every access after an SC, and
after an ACQ, AR or SC every access if the held write is an atomic that reads, which then acquires. -/
def HeldWrite.fenced (e : HeldWrite) (o : Order) (ls : Word) : HeldWrite :=
  let acq := e.dst != LoadDst.none && o != Order.rel
  { e with acq := e.acq || acq, storesAfter := if o != Order.acq || acq then e.storesAfter ||| ls else e.storesAfter,
           loadsAfter := if o == Order.sc || acq then e.loadsAfter ||| ls else e.loadsAfter }

/-- FENCE (R195, R197, R338). Every access but a held write has been performed at its step, so a fence marks the held writes of its
thread; an ACQ, AR or SC drops the cell's LEASE copies (R199). Lanes with an open region take no part (R219). -/
def execFence (h : Hdr) (o : Order) (set : BitVec 8) (s : State) : Out :=
  match s.iss h with
  | none => .next s
  | some i =>
    if set == 0 then .next (s.raiseAny i { cause := Cause.ordForm })
    else
      let en := i.en &&& ~~~(s.regionLanes i.cell i.m.uid)
      if en == 0 then .next (s.next i)
      else
        let s := { s with heldW := s.heldW.map fun e : HeldWrite =>
          if e.uid == i.m.uid && e.job.isNone && en &&& e.lanes != 0 then e.fenced o en else e }
        .next ((if o == .rel then s else s.acquire i.cell).next i)

/-! ### Atomics -/

/-- ATOMIC_TYPE at issue: a form that PCIe does not carry at a HOST or PEER target (R212). -/
def pcieForm (i : Iss) (m : MemOp) (ok : Bool) : Chk Unit :=
  let sp := (i.m.creg m.cap.toNat).space.toNat
  need (ok || !(sp == spHost || sp == spPeer)) Cause.atomicType (some (lowest i.en)) (i.m.addr m (lowest i.en))

def permRWAT : BitVec 8 := permR ||| permW ||| permAT

/-- ATOM (R209 to R215). -/
def execAtom (h : Hdr) (op : AtomOp) (w : BitVec 2) (d : BitVec 6) (m : MemOp) (b : Src) (s : State) : Out :=
  let t := atomTy op w
  perLaneAccess h m threadSpaces permRWAT (atomBytes op w) 0 (fun i l => .atom op w (i.m.src t b l)) (.vec t d.toNat)
    (fun i => pcieForm i m (op == .add || op == .swap)) s

/-- RED (R209 to R215, R371). -/
def execRed (h : Hdr) (op : AtomOp) (w : BitVec 2) (m : MemOp) (b : Src) (s : State) : Out :=
  storeWord h m threadSpaces permRWAT (atomBytes op w) true 0 (fun i l => .atom op w (i.m.src (atomTy op w) b l))
    (fun i => pcieForm i m (op == .add)) s

/-- CAS (R209 to R215): D holds the expected value and receives the old one. -/
def execCas (h : Hdr) (t : Ty) (d : BitVec 6) (m : MemOp) (new : Src) (s : State) : Out :=
  perLaneAccess h m threadSpaces permRWAT t.bytes 0
    (fun i l => .cas (i.m.vval t l d.toNat) (i.m.src t new l)) (.vec t d.toNat) (fun _ => .ok ()) s

end Sys2Proof.Machine
end

