-- ==== Sys2Proof/Machine/Trapeze.lean ====
section
/-!
DEFINITION. Machine/Trapeze.lean: TRB, TRE, TRA and TRS (R216 to R219, R385), the delivery of an abort to its group (R225),
commits (R226, R230) and the solo token (R229).
-/
namespace Sys2Proof.Machine

/-- ABORTS of a region status word (R217). -/
def abortsOf (w : Word) : Nat := bits w.toNat 29 26

/-- The region status of a lane that opens a region (R218). -/
def rstatOpen (w : Word) (solo : Bool) : Word :=
  BitVec.ofNat 32 (2 ^ 31 + b2n solo * 2 ^ 30 + bits w.toNat 29 26 * 2 ^ 26 + bits w.toNat 23 16 * 2 ^ 16 + bits w.toNat 10 0)

/-- UCODE replaced (R216). -/
def rstatCode (w : Word) (code : BitVec 8) : Word :=
  BitVec.ofNat 32 (w.toNat - bits w.toNat 23 16 * 2 ^ 16 + code.toNat * 2 ^ 16)

namespace State

/-- A region opened for a lane of the issuer at the lowest free entry (R218, R221, log 102). -/
def openRegion (s : State) (i : Iss) (abort : Addr) (jn : Option Addr) (solo : Bool) (lane : Nat) : State :=
  let d := i.dieNo
  match firstFree 256 fun n => (FMap.find? (s.die d).regions n).isSome with
  | none => s
  | some n =>
    let slot := if i.m.scalar then slotOf i.k - 16 else slotOf i.k
    let ckV := (List.range 12).map fun r => i.m.vreg lane r
    let ckQ := (List.range 8).foldl (fun x k => x + b2n (i.m.qbit k lane) * 2 ^ k) 0
    let ckP := (List.range 6).foldl (fun x p => x + b2n (FMap.get false i.m.pv (lane * 32 + p)) * 2 ^ p) 0
    let r : Region :=
      { st := .run, solo := solo, ctx := i.ctx, cell := i.cell, scal := i.m.scalar, slot := slot, lane := lane, uid := i.m.uid,
        abort := abort, join := jn, age := s.clk, waits := [], hold := [], fwd := [], ckV := ckV, ckP := BitVec.ofNat 6 ckP,
        ckQ := BitVec.ofNat 8 ckQ, reads := [], writes := [], tags := [], heals := [] }
    let s := s.modDie d fun x =>
      { x with regions := FMap.ins x.regions n r, soloHolder := if solo then some n else x.soloHolder }
    s.modMember i.k fun m => { m with rstat := FMap.put 0 m.rstat lane (rstatOpen (m.rstatOf lane) solo) }

/-- Whether a die has a solo region, a granted token or a request (R229). -/
def soloBusy (s : State) (d : Nat) : Bool :=
  (s.die d).soloHolder.isSome || (s.die d).soloGrant.isSome || !(s.die d).soloQ.isEmpty

end State

/-- TRB (R218): lanes with a region abort it; the lowest lane of eight aborts or more takes the solo token before the others of
the word; a word behind a solo region sleeps and executes again. -/
def execTrb (h : Hdr) (tgt : BitVec 20) (join : BitVec 16) (s : State) : Out :=
  runWord .own h (fun i s =>
    let d := i.dieNo
    let ab := relTarget i.pc tgt.toNat 20
    let jn := joinTarget i.pc join.toNat 16
    let nested := s.regionLanes i.cell i.m.uid &&& i.en
    let s := s.abortLanes i.cell i.m.uid nested Cause.regionNested
    let rest := i.en &&& ~~~nested
    if rest == 0 then .ok (s.next i)
    else
      match (lanesOf rest).find? fun l => 8 ≤ abortsOf (i.m.rstatOf l) with
      | none =>
        if s.soloBusy d then .ok (s.sleep i .solo)
        else .ok (((lanesOf rest).foldl (fun s l => s.openRegion i ab jn false l) s).next i)
      | some l =>
        if (s.die d).soloGrant == some (i.m.uid, l) then
          let s := (s.openRegion i ab jn true l).modDie d fun x => { x with soloGrant := none }
          let others := rest &&& ~~~(laneMask l)
          if others == 0 then .ok (s.next i)
          else .ok (s.splitCur i.k [(nextPc i.pc, i.mask &&& ~~~others), (i.pc, others)] jn)
        else
          let s := s.modDie d fun x =>
            if x.soloQ.contains (i.m.uid, l) then x else { x with soloQ := x.soloQ ++ [(i.m.uid, l)] }
          .ok (s.sleep i .solo)) s

/-- TRE (R226): the open regions of the enabled lanes reach AT_TRE and the group sleeps. -/
def execTre (h : Hdr) (s : State) : Out :=
  runWord .own h (fun i s =>
    let open' := s.regionLanes i.cell i.m.uid &&& i.en
    if open' == 0 then .ok (s.next i)
    else
      let at' (r : Region) : Region :=
        if r.uid == i.m.uid && r.isOpen && open'.getLsbD r.lane then { r with st := .atTre } else r
      .ok ((s.modDie i.dieNo fun x => { x with regions := FMap.mapVals at' x.regions }).sleep i (.tre open'))) s

/-- TRA (R216). -/
def execTra (h : Hdr) (code : BitVec 8) (s : State) : Out :=
  stepWord .own h (fun i s =>
    let open' := s.regionLanes i.cell i.m.uid &&& i.en
    let s := s.abortLanes i.cell i.m.uid open' Cause.regionExplicit
    .ok ((lanesOf open').foldl (fun s l =>
      s.modMember i.k fun m => { m with rstat := FMap.put 0 m.rstat l (rstatCode (m.rstatOf l) code) }) s)) s

/-- TRS (R216, R385). -/
def execTrs (h : Hdr) (d : BitVec 6) (s : State) : Out :=
  stepWord .usual h (fun i s => .ok (s.modMember i.k fun m => m.setLanes .n32 d.toNat i.lanes fun l => (i.m.rstatOf l).toNat)) s

namespace State

/-! ### Aborts that wait for their group -/

/-- The aborted regions of the lanes of a member's current group, in lane order (R225). -/
def abortedHere (s : State) (k : Nat) (m : Member) : List (Nat × Region) :=
  let es := (s.die (dieOfCell (cellOf k))).regions.filter fun e => e.2.uid == m.uid && e.2.st == .aborted
  (lanesOf m.curGrp.mask).filterMap fun l => es.find? fun e => e.2.lane == l

/-- The checkpoint of a region put back in its lane, with the poison that its registers held (R148, R225). -/
def restoreLane (m : Member) (r : Region) : Member :=
  let m := (List.range 12).foldl (fun m n => m.setV r.lane n (r.ckV.getD n 0)) m
  let m := { m with pv := (List.range 6).foldl (fun pv p => FMap.put false pv (r.lane * 32 + p) (r.ckP.getLsbD p)) m.pv }
  (List.range 7).foldl (fun m n =>
    m.setQ n (if r.ckQ.getLsbD n then m.qmask n ||| laneMask r.lane else m.qmask n &&& ~~~(laneMask r.lane))) m

/-- The aborts of the current group delivered before it issues (R225): a chain or an ORD pair under way starts again. -/
def deliverAborts (s : State) (k : Nat) : State :=
  match s.member? k with
  | none => s
  | some m =>
    let es := s.abortedHere k m
    let s := s.modDie (dieOfCell (cellOf k)) fun x =>
      { x with regions := x.regions.filter fun e => !(es.any fun f => f.1 == e.1) }
    let s := s.modMember k fun m => (es.foldl (fun m e => restoreLane m e.2) m).rewind
    let ways := (es.map fun e => (e.2.abort, e.2.join)).eraseDups
    ways.foldl (fun s w =>
      match s.member? k with
      | none => s
      | some m =>
        let ls := maskOf ((es.filter fun e => (e.2.abort, e.2.join) == w).map fun e => e.2.lane)
        let rest := m.curGrp.mask &&& ~~~ls
        if rest == 0 then s.gotoCur k w.1 else s.splitCur k [(m.pc, rest), (w.1, ls)] w.2) s

/-! ### Commit and the token -/

/-- The lines that a region writes and their words. -/
def writtenLines (r : Region) : List (Nat × Word) :=
  let bs := FMap.keys r.writes
  ((bs.map (· / 128)).eraseDups).map fun k => (k, maskOf ((bs.filter fun b => b / 128 == k).map fun b => b % 128 / 4))

/-- Whether a line that a region writes makes its commit wait (R239, R246). -/
def commitWaits (s : State) (r : Region) : Bool :=
  (writtenLines r).any fun p => s.lineWaits (p.1 * 128) (some .dir)

/-- A commit (R226): the words read without forwarding are checked, except for a solo region (R229); then the writes take their places
with their tags, the cell owns their words, whole units lose their poison (R148), and the commit acquires (R228). -/
def commitRegion (s : State) (d n : Nat) : State :=
  match FMap.find? (s.die d).regions n with
  | none => s
  | some r =>
    if (s.die d).soloHolder == some n || s.readsHold r then
      let s := r.writes.foldl (fun s p => s.rawWrite p.1 [p.2]) s
      let s := r.heals.foldl (fun s k => s.clearPoison (k * 8) 8) s
      let s := r.tags.foldl (fun s k => s.setTag (k * 16) true) s
      let s := (writtenLines r).foldl (fun s p => if (FMap.find? s.mapped p.1).isSome then s else s.dirOwn r.cell p.1 p.2) s
      let s := s.modDie d fun x => Die.dropEdges { x with regions := FMap.del x.regions n } n
      let s := s.modUid r.uid fun m => { m with rstat := FMap.put 0 m.rstat r.lane (rstatCommit (m.rstatOf r.lane)) }
      (if (s.die d).soloHolder == some n then s.endSolo d else s).acquire r.cell
    else s.abortRegion d n Cause.regionValidate

/-- Whether a group lies below another, or is it (R154). -/
def underGrp (m : Member) : Nat → Option Nat → Option Nat → Bool
  | 0, _, _ => false
  | f + 1, g, p => g == p || (match g with
    | none => false
    | some _ => underGrp m f (m.grp g).parent p)

/-- The group whose mask holds a lane, or none when a deferred serial part holds it. -/
def groupOf (m : Member) (lane : Nat) : Option (Option Nat) :=
  m.names.find? fun g => (m.grp g).st != .parent && (m.grp g).mask.getLsbD lane

/-- Whether the lane of a region `y` cannot issue before another lane of the same member moves on (R230): it is deferred, arrived at
a serial join, parked below that lane's group, or in the very group that sleeps (log 25). -/
def blockedBy (m : Member) (y : Region) (other : Nat) : Bool :=
  match groupOf m y.lane with
  | none => m.serial.any fun e => (e.mask ||| e.arr).getLsbD y.lane
  | some g =>
    match groupOf m other with
    | none => false
    | some o => if o == g then y.st == .run else (m.grp g).st == .parked && underGrp m 70 o (m.grp g).parent

/-- The sources that a region waits for: at TRE its WAITS, and the region that holds its access (R223, R226). -/
def waitsFor (s : State) (n : Nat) (r : Region) : List Nat :=
  (if r.st == .atTre then r.waits else []) ++
    (match s.byUid r.uid with
    | none => []
    | some m => m.names.flatMap fun g =>
        match (m.grp g).wait with
        | some (.access _ _ _ _ _ held _) => (held.filter fun a => a.inRegion && a.lane == r.lane && a.source != n).map HeldAcc.source
        | _ => [])

/-- A region that waits for one whose lane cannot issue before the waiting lane moves on (R230). -/
def entangled (s : State) (d : Nat) : Option Nat :=
  ((s.die d).regions.search fun e =>
    e.2.isOpen &&
      (s.waitsFor e.1 e.2).any fun n =>
        match FMap.find? (s.die d).regions n, s.byUid e.2.uid with
        | some y, some m => y.isOpen && y.uid == e.2.uid && blockedBy m y e.2.lane
        | _, _ => false).map Prod.fst

/-- Whether the lane that asked for the token still waits for it. -/
def soloWaits (s : State) (p : Nat × Nat) : Bool :=
  match s.byUid p.1 with
  | none => false
  | some m => m.q0.getLsbD p.2 && m.names.any fun g => (m.grp g).mask.getLsbD p.2 && (m.grp g).wait == some .solo

/-- A grant stands until its lane opens its region, or is gone. -/
def grantLive (s : State) (p : Nat × Nat) : Bool :=
  match s.byUid p.1 with
  | none => false
  | some m => m.q0.getLsbD p.2 && 8 ≤ abortsOf (m.rstatOf p.2)

/-- Requests of lanes that no longer wait dropped. -/
def pruneSolo (s : State) (d : Nat) : State :=
  s.modDie d fun x => { x with soloQ := x.soloQ.filter s.soloWaits, soloGrant := x.soloGrant.filter s.grantLive }

/-- Whether the token of a die can pass to a lane now (R229). -/
def soloReady (s : State) (d : Nat) : Bool :=
  let x := (s.pruneSolo d).die d
  x.soloHolder.isNone && x.soloGrant.isNone && !x.soloQ.isEmpty && !(FMap.vals x.regions).any Region.isOpen

end State

/-- REGION_COMMIT: a region of a die commits, or aborts at its commit (R226); with none ready, a region entangled with its own
wave aborts (R230). A region whose lines must wait asks for them (R246). Held writes that may now be performed are (R229). -/
def execRegionCommit (die : Nat) (s : State) : Out :=
  match s.committable die with
  | some n =>
    match FMap.find? (s.die die).regions n with
    | some r =>
      if s.commitWaits r then .next ((State.writtenLines r).foldl (fun s p => s.markConv p.1 (some .dir)) s)
      else .next (s.commitRegion die n).drainHeld
    | none => .next s
  | none =>
    match s.entangled die with
    | some n => .next (s.abortRegion die n Cause.regionCycle).drainHeld
    | none => .next s.drainHeld

/-- SOLO_TOKEN_GRANT (R229). -/
def execSoloTokenGrant (die : Nat) (s : State) : Out :=
  if s.soloReady die then
    let s := s.pruneSolo die
    .next (s.modDie die fun x => { x with soloGrant := x.soloQ.head?, soloQ := x.soloQ.drop 1 })
  else .next s

end Sys2Proof.Machine
end

