-- ==== Sys2Proof/Machine/Wakes.lean ====
section
/-!
DEFINITION. Machine/Wakes.lean: how sleeping groups wake (R38, R170, R203, R204, R218, R223, R226, R229, R261, R389, R392), and the
completions of PCIe requests (R212, R300).
-/
namespace Sys2Proof.Machine

namespace State

/-- A context is not all asleep any more once a group wakes (R260). -/
def clearAsleep (s : State) (k : Nat) : State :=
  match s.member? k with
  | some m => if (s.ctx m.ctx).asleep then s.modCtx m.ctx fun c => { c with asleep := false } else s
  | none => s

/-- A sleeping group goes on: at the next word, or at the same one when `again` is set; the member chooses its group (R158). -/
def wakeGrp (s : State) (k : Nat) (g : Option Nat) (again : Bool) (f : Member → Member) : State :=
  ((s.clearAsleep k).modMember k fun m => (f m).modGrp g fun x => { x with wait := none, pc := if again then x.pc else nextPc x.pc }).repick k

end State

/-- What became of a held access that was tried again. -/
inductive Retried where
  | held (a : HeldAcc)
  | made
  | gone
  deriving DecidableEq, Repr

namespace State

/-- A held access of a region tried once more (R223): its value and tag, when it is performed; poison that it then meets aborts the region,
but for a RED (R149, R219). -/
def retryRegion (s : State) (k : Nat) (m : Member) (a : HeldAcc) : State × Option (Nat × Bool) × Retried :=
  let d := dieOfCell (cellOf k)
  match s.regionOf d m.uid a.lane with
  | none => (s, none, .gone)
  | some (y, r) =>
    if !r.isOpen then (s, none, .gone)
    else if r.hold.contains a.source then (s, none, .held a)
    else if s.lineWaits a.pa (some .dir) then (s.markConv (a.pa / 128) (some .dir), none, .held a)
    else if a.op.reads && !a.quiet && s.regPoisoned d a.pa a.n then (s.abortRegion d y Cause.poison, none, .gone)
    else
      match regAccess (s.cellReads (cellOf k) a.pa a.n) d y a.pa a.n a.op.reads a.op.writes (a.op.newVal a.n) a.op.tag with
      | (s', .done old) => (s', some (old, regTag s' d y a.pa), .made)
      | (s', .wait src) => (s', none, .held { a with source := src })
      | (s', .aborted) => (s', none, .gone)

/-- A held access of a region tried again: it stays held, or is performed and writes its destination, or its region has gone. The scale of an
LDF is followed by its element (R352). -/
def retryHeld (s : State) (k : Nat) (m : Member) (a : HeldAcc) : State × Retried :=
  let once (s : State) (a : HeldAcc) : State × Option (Nat × Bool) × Retried :=
    if lentHit m a.dst.regs then (s, none, .held a) else s.retryRegion k m a
  let write (s : State) (a : HeldAcc) (p : Option (Nat × Bool)) : State :=
    match p with
    | some (x, tg) => if a.op.reads then s.setDst m.uid a.lane a.dst x tg else s
    | none => s
  match once s a with
  | (s', p, r) =>
    match p.bind fun v => a.follow v.1 with
    | none => (write s' a p, r)
    | some b =>
      match once s' b with
      | (s'', p', r') => (write s'' b p', r')

/-- Every access of a group that is held for a region tried again, in order; the register of a word that acts once is left to the lowest lane that
performs (R191, R219). -/
def retryAll (s : State) (k : Nat) (m : Member) (hs : List HeldAcc) : State × List HeldAcc :=
  let r := hs.foldl (fun (a : State × List HeldAcc × Bool) h =>
    let h := if a.2.2 && h.dst.single then { h with dst := .none } else h
    match a.1.retryHeld k m h with
    | (s', .held h') => (s', a.2.1 ++ [h'], a.2.2)
    | (s', .made) => (s', a.2.1, a.2.2 || h.dst.single)
    | (s', .gone) => (s', a.2.1, a.2.2)) (s, [], false)
  (r.1, r.2.1)

/-- A precise cause of a memory word whose group sleeps (R136, R195, R252): the trap at the word, or at the ORD before it, with the
lane and the address; none while the member cannot take it. -/
def raiseAsleepWord (s : State) (k : Nat) (m : Member) (g : Option Nat) (ord : Bool) (lane addr : Nat) (c : Cause) : Option State :=
  if m.run != .run || m.frozen g || !m.mayTurn g then none
  else
    let x := m.grp g
    let s := s.modMember k fun m => (m.switchTo g).modGrp g fun y => { y with wait := none }
    some (s.deliver m.uid
      { v := true, imp := false, oex := false, lane := BitVec.ofNat 6 lane, member := BitVec.ofNat 6 m.memberIdx, code := 0,
        cause := c, tpc := if ord then x.pc - 8 else x.pc, taddr := BitVec.ofNat 64 addr, tfpc := x.pc, tsib := [] })

/-- Whether a load that waits behind its thread's held writes can be performed now (R193, R229, R239). -/
def loadGoes (s : State) (m : Member) (a : HeldAcc) : Bool :=
  !s.loadWaits m.uid a.lanes a.pa a.n a.rel && !s.lineWaits a.pa (a.page.map fun l => cohMode l.coh)

/-- The loads of a word that wait behind held writes tried again, all of them or none: those still held, and the lane and the address of the
first that meets poison (R149). A line that makes one wait is asked for its protocol (R246). The cell's older copies are not used: an SC
order may have let them in meanwhile (R200, log 66). -/
def retryLoads (s : State) (k : Nat) (m : Member) (hs : List HeldAcc) : State × List HeldAcc × Option (Nat × Nat) :=
  let parts := hs.flatMap HeldAcc.parts
  if hs.isEmpty then (s, [], none)
  else if !(parts.all (s.loadGoes m)) || hs.any fun a => lentHit m a.dst.regs then
    (parts.foldl (fun s a => if s.lineWaits a.pa (a.page.map fun l => cohMode l.coh) then
      s.markConv (a.pa / 128) (a.page.map fun l => cohMode l.coh) else s) s, hs, none)
  else
    let s := s.acquire (cellOf k)
    match parts.find? fun a => s.loadPoisoned (cellOf k) (.dev a.pa a.page) a.n with
    | some a => (s, hs, some (a.lane, a.va))
    | none => (hs.foldl (fun s a => s.loadNow m.uid (cellOf k) m.ctx a) s, [], none)

/-- A group that waits for the accesses of its memory word (R212, R223, R229): the word completes once every access has been
performed, and one under an ORD acquires (R197); poisoned data raises POISON, and then no lane that waited is written. -/
def wakeAccess (s : State) (k : Nat) (m : Member) (g : Option Nat) (dst : LoadDst) (ord : Bool) (left : Nat) (got : List (Nat × Nat))
    (poison : Option (Nat × Nat)) (held : List HeldAcc) (turn : Bool) : Option State :=
  let (s1, regs) := s.retryAll k m (held.filter HeldAcc.inRegion)
  let (s', loads, bad) := s1.retryLoads k m (held.filter fun a => !a.inRegion)
  let held' := regs ++ loads
  if bad.isSome then s'.raiseAsleepWord k m g ord (bad.getD (0, 0)).1 (bad.getD (0, 0)).2 Cause.poison
  else if held'.isEmpty && left == 0 then
    match poison with
    | some (l, a) => s'.raiseAsleepWord k m g ord l a Cause.poison
    | none =>
      if lentHit m dst.regs && !got.isEmpty then none
      else
        let s' := if ord then s'.acquire (cellOf k) ((held.flatMap HeldAcc.parts).map fun a => a.pa / 128) else s'
        some ((got.foldl (fun s p => s.setDst m.uid p.1 dst p.2 false) s').wakeGrp k g false id)
  else
    let turn' := s'.turnFor (cellOf k) m.uid held'
    if s' == s && turn' == turn then none
    else some ((s'.modMember k fun m => m.modGrp g fun x => { x with wait := some (.access dst ord left got poison held' turn') }).repick k)

/-- Whether the tokens of a barrier wait have all passed (R310). -/
def barPassed (s : State) (ctx team : Nat) (toks : List (Nat × Nat)) : Bool :=
  toks.all fun p => (s.phase ctx team p.1).toNat != p.2

/-- Whether a group that waits for the solo token, or behind it, may execute its TRB again (R218, R229). -/
def soloGo (s : State) (d : Nat) (m : Member) (g : Option Nat) : Bool :=
  match (s.die d).soloGrant with
  | some (u, l) => u == m.uid && (m.grp g).mask.getLsbD l
  | none => !s.soloBusy d

/-- The wait of a group of member k tested, and the state in which it has gone on; none while it sleeps. A wait that ends acquires
(R203, R204, R207, R228). WAITADR has its own step. -/
def wakeOne (s : State) (k : Nat) (m : Member) (g : Option Nat) : Option State :=
  let c := cellOf k
  let go (b : Bool) (f : Member → Member) : Option State := if b then some ((s.acquire c).wakeGrp k g false f) else none
  match (m.grp g).wait with
  | none => none
  | some w =>
    match w with
    | .adr .. => none
    | .cnt cls t => go (m.count cls ≤ t) id
    | .anyTag d mask en =>
      let x := s.doneSet c m.ctx mask.toNat
      go (x != 0 && !lentHit m [d]) fun m => m.setLanes .n32 d (lanesOf en) fun _ => lowestTag x
    | .allTags mask => go (s.doneSet c m.ctx mask.toNat == mask.toNat) id
    | .job id' => go (!s.jobOpen (clusterOfCell c) id') id
    | .bar qd en stale toks =>
      go (s.barPassed m.ctx m.team toks) fun m =>
        match qd with
        | some q => m.writeQ q.toNat en stale
        | none => m
    | .child => go (!s.hasChildren m.ctx m.team) id
    | .tre en => go (s.regionLanes c m.uid &&& en == 0) id
    | .solo => if s.soloGo (dieOfCell c) m g then some (s.wakeGrp k g true id) else none
    | .behind pa n =>
      if s.threadHeld m.uid (m.grp g).mask || (n != 0 && ((s.soloHolds pa n).isSome || s.heldAt pa n)) then none else some (s.wakeGrp k g true id)
    | .exitPark last =>
      if s.hasChildren m.ctx m.team || !m.mayTurn g then none
      else
        let s := s.modMember k fun m => ({ m with cur := g }).modGrp g fun x =>
          { x with wait := none, pc := nextPc x.pc }
        match s.member? k with
        | some m' => some ((s.exitLanes k m' last).repick k)
        | none => some s
    | .access dst ord left got poison held turn => s.wakeAccess k m g dst ord left got poison held turn

end State

/-- WAIT_WAKE: the first sleeping group of a member whose condition holds goes on. A halted member keeps its waits, and so do the other
groups of a member whose group is in the handler (R251). -/
def execWaitWake (slot : Nat) (s : State) : Out :=
  match s.member? slot with
  | none => .next s
  | some m =>
    if m.run != .run then .next s
    else .next ((m.names.findSome? fun g => if m.frozen g then none else s.wakeOne slot m g).getD s)

namespace State

/-- The lines for which the reads of a WAITADR have to wait, with the protocols that their pages name (R239, R246). -/
def adrLines (s : State) (i : Iss) (c : Cap) (lanes : List (Nat × Nat × Nat)) : List (Nat × Option LineMode) :=
  lanes.filterMap fun p =>
    match s.reach i.ctx i.cell c.space.toNat p.2.1 4 true false with
    | .ok (.dev pa page) =>
      let coh := page.map fun l => cohMode l.coh
      if s.lineWaits pa coh then some (pa / 128, coh) else none
    | _ => none

/-- A WAITADR reads again (R389): it goes on when every lane's condition holds, and raises a cause that a read meets at its own
address; a group that cannot become current waits with that. -/
def rereadAdr (s : State) (k : Nat) (m : Member) (g : Option Nat) (w64 eq : Bool) (d : Nat) (set : BitVec 8) (sc : Bool) (c : Cap)
    (lanes : List (Nat × Nat × Nat)) : State :=
  let t : Ty := if w64 then .n64 else .n32
  let i : Iss := ⟨k, { m with ord := if set == 0 then none else some ⟨.acq, set, 0⟩ }, g, maskOf (lanes.map Prod.fst)⟩
  -- an SC read uses no copy that the cell took before (R200)
  let s := if sc then s.acquire i.cell else s
  match s.lateCheck m.ctx i.cell c.space.toNat t.bytes true false true (lanes.map fun p => (p.1, p.2.1)) with
  | .error e => (s.raiseAsleepWord k m g (set != 0) (e.lane.getD 0) e.addr e.cause).getD s
  | .ok _ =>
    let busy := s.adrLines i c lanes
    if !busy.isEmpty then busy.foldl (fun s p => s.markConv p.1 p.2) s
    else
    match s.adrPoison c lanes with
    | (s', some p) => (s'.raiseAsleepWord k m g (set != 0) p.1 p.2 Cause.poison).getD s
    | (s, none) =>
    let (s', xs) := s.adrRead i c t.bytes lanes
    if (xs.all fun p => adrHolds eq p.2.1 p.2.2) && !lentHit m (if w64 then [d, d + 1] else [d]) then
      s'.wakeGrp k g false fun m => m.adrWrite t d xs
    else s'

end State

/-- WAITADR_WAKE: every group of a member that sleeps in WAITADR reads again. -/
def execWaitadrWake (slot : Nat) (s : State) : Out :=
  match s.member? slot with
  | none => .next s
  | some m0 =>
    .next (m0.names.foldl (fun s g =>
      match s.member? slot with
      | none => s
      | some m =>
        if m.run != .run || m.frozen g then s
        else
          match (m.grp g).wait with
          | some (.adr w64 eq d set sc cap lanes) => s.rereadAdr slot m g w64 eq d set sc cap lanes
          | _ => s) s)

namespace State

/-- The group of a member that waits for the PCIe completion of a lane. -/
def pcieGrp (m : Member) (lane : Nat) : Option (Option Nat) :=
  m.names.find? fun g => (m.grp g).mask.getLsbD lane && (match (m.grp g).wait with
    | some (.access _ _ left _ _ _ _) => left != 0
    | _ => false)

/-- What a waiting group holds after one completion: a value, or poison in the lowest lane that met it. -/
def tookPcie (lane addr : Nat) (x : Option Nat) : Wait → Wait
  | .access dst ord left got poison held turn =>
    match x with
    | some v => .access dst ord (left - 1) (got ++ [(lane, v)]) poison held turn
    | none => .access dst ord (left - 1) got (some (match poison with
        | some p => if p.1 < lane then p else (lane, addr)
        | none => (lane, addr))) held turn
  | w => w

/-- A request performed at the host or the peer: the old value, and the store. -/
def performPcie (s : State) (r : PcieReq) : State × Nat :=
  let old := ofBytes (s.extBytes r.peer r.addr r.n)
  match r.op.newVal r.n old with
  | some x => (s.setExtBytes r.peer r.addr (toBytes r.n x), old)
  | none => (s, old)

/-- The requests of one word that follow a rejected one, dropped (R212). -/
def dropPcie (s : State) (r : PcieReq) : State :=
  { s with pcie := s.pcie.filter fun q => !(q.uid == r.uid && q.group == r.group && q.pc == r.pc && q.posted == r.posted && r.lane ≤ q.lane) }

/-- The completer's rejection of a RED: an imprecise fault, of a team that has retired too (R147, R212, R257). -/
def rejectRed (s : State) (r : PcieReq) : State := { s with impFaults := s.impFaults ++ [r.who] }

/-- The completer's rejection of an ATOM or CAS (R212): the lanes before it stand, and the word traps; none while the member cannot
take the trap, or a lent block holds back what those lanes write (R68). -/
def rejectAtomic (s : State) (r : PcieReq) (k : Nat) (m : Member) (g : Option Nat) : Option State :=
  match (m.grp g).wait with
  | some (.access dst ord _ got _ _ _) =>
    if lentHit m dst.regs && !got.isEmpty then none
    else (got.foldl (fun s p => s.setDst m.uid p.1 dst p.2 false) (s.dropPcie r)).raiseAsleepWord k m g ord r.lane r.addr Cause.atomicType
  | _ => none

/-- A completion given to the group that waits for it. -/
def giveLane (s : State) (r : PcieReq) (x : Option Nat) : State :=
  s.modUid r.uid fun m =>
    match pcieGrp m r.lane with
    | some g => m.modGrp g fun y => { y with wait := y.wait.map (tookPcie r.lane r.addr x) }
    | none => m

end State

/-- PCIE_COMPLETION: the oldest request completes, meets an error, or is rejected (R212, R300); a posted store that fails is dropped
with event 6. -/
def execPcieCompletion (st : PcieStatus) (s : State) : Out :=
  match s.pcie with
  | [] => .next s
  | r :: rest =>
    let s' := { s with pcie := rest }
    match st, r.op with
    | .reject, .atom .. =>
      if r.posted then .next ((s.dropPcie r).rejectRed r)
      else
        match s.slotOfUid r.uid with
        | none => .next (if (s.byUid r.uid).isSome then s else s')
        | some k =>
          match s.member? k with
          | none => .next s'
          | some m =>
            match State.pcieGrp m r.lane with
            | none => .next s'
            | some g => .next ((s.rejectAtomic r k m g).getD s)
    | .reject, .cas .. =>
      match s.slotOfUid r.uid with
      | none => .next (if (s.byUid r.uid).isSome then s else s')
      | some k =>
        match s.member? k with
        | none => .next s'
        | some m =>
          match State.pcieGrp m r.lane with
          | none => .next s'
          | some g => .next ((s.rejectAtomic r k m g).getD s)
    | .ok, _ =>
      let (s'', old) := s'.performPcie r
      .next (if r.posted then s'' else s''.giveLane r (some old))
    | _, .store .. => .next (if r.posted then s'.logEvent 6 0 0 r.addr else s')
    | _, _ => .next (if r.posted then s' else s'.giveLane r none)

end Sys2Proof.Machine
end

