-- ==== Sys2Proof/Machine/Admit.lean ====
section
/-!
DEFINITION. Machine/Admit.lean: launch queues and packets (R41 to R46), the start of threads (R23, R36, R37), placing and
admitting teams (R47 to R50, R185, R284), and consumer teams of work-graph nodes (R55, R56, R331).
-/
namespace Sys2Proof.Machine

/-! ### Packets -/

/-- A launch packet (R43). -/
structure Packet where
  rsvOk : Bool
  entry : BitVec 48
  tdesc : Nat
  irq : Bool
  wtok : Nat
  stok : Nat
  wval : BitVec 32
  teams : Nat
  acap : Nat
  args : List DWord
  deriving DecidableEq, Repr

/-- The packet that 128 bytes hold (R43). -/
def Packet.ofBytes (bs : List Byte) : Packet :=
  let w (n : Nat) : Nat := Sys2Proof.ofBytes ((bs.drop (8 * n)).take 8)
  { rsvOk := bits (w 0) 3 1 == 0 && bits (w 1) 39 32 == 0 && bits (w 2) 31 8 == 0 && w 3 == 0 && w 12 == 0 && w 13 == 0 &&
      w 14 == 0 && w 15 == 0,
    entry := BitVec.ofNat 48 (w 0 / 2 ^ 16), tdesc := bits (w 0) 15 4, irq := (w 0).testBit 0, wtok := bits (w 1) 63 52,
    stok := bits (w 1) 51 40, wval := BitVec.ofNat 32 (w 1), teams := bits (w 2) 63 32, acap := bits (w 2) 7 0,
    args := (List.range 8).map fun n => BitVec.ofNat 64 (w (4 + n)) }

namespace State

/-- The dies whose controllers may admit teams of a queue: the TRUSTED ones of DMASK (R41, R48). -/
def queueDies (s : State) (q : Queue) : List Nat := [0, 1, 2, 3].filter fun d => (q.dmask == 0 || q.dmask.getLsbD d) && s.trusted d

/-- A queue disabled: children posted to it can no longer be admitted (R42, log 41). -/
def stopQueue (s : State) (q : Nat) : State :=
  let s := s.setQueue q { s.queue q with en := false }
  { s with posted := s.posted.filter fun p => p.queue != q }

/-- A launch ID of a context (R46). -/
def takeLid (s : State) (x : Nat) : State × Nat :=
  let n := if (s.ctx x).nextLid == 0xFFFFFFFF then 0 else (s.ctx x).nextLid
  (s.modCtx x fun c => { c with nextLid := n + 1 }, n.toNat)

/-- What the retirement of a launch signals: its token and its vector (R44, R45). -/
def signalEnd (s : State) (x q stok : Nat) (irq : Bool) : State :=
  let s := if stok == 0 then s else s.modCtx x fun c => { c with tok := FMap.put 0 c.tok stok (FMap.get 0 c.tok stok + 1) }
  if irq then { s with host := { s.host with msix := (s.queue q).msix.toNat :: s.host.msix } } else s

/-- The cause that refuses a packet (R35, R44). -/
def packetCause (s : State) (x : Nat) (bs : List Byte) (p : Packet) : Option Cause :=
  if !p.rsvOk || p.teams == 0 || (s.desc? x p.tdesc).isNone || !(s.capEntry x p.acap).tag || (s.capEntry x p.acap).space == 0 then some Cause.launchPacket
  else
    match packetCheck s x bs with
    | .ok _ => none
    | .error e => some e.cause

/-- The number under which a launch stands before its first team gets it an ID. -/
def provisional (q : Nat) : Nat := 2 ^ 32 + q

/-- The next packet of a queue read and checked (R42, R44). Its threads start at the packet's ENTRY, whatever its descriptor's ENTRY is
(log 91). -/
def readPacket (s : State) (n : Nat) : State :=
  let q := s.queue n
  let x := q.ctx.toNat
  let (host, a) := q.packetAt q.head.toNat
  let bs := if host then s.extBytes false a 128 else s.bytes a 128
  let s := if host then s else s.touchHome a 128 false
  let p := Packet.ofBytes bs
  let child := s.posted.find? fun c => c.queue == n && c.index == q.head
  let s := { s with posted := s.posted.filter fun c => !(c.queue == n && c.index == q.head) }
  let s := s.setQueue n { q with head := q.head + 1 }
  match s.packetCause x bs p with
  | some c =>
    let (s, lid) := s.takeLid x
    (s.logFault { launch := lid, cause := c, ctx := x }).signalEnd x n p.stok p.irq
  | none =>
    let l : Launch :=
      { ctx := x, lid := provisional n, queue := n, entry := p.entry, tdesc := p.tdesc, acap := p.acap, args := p.args, teams := p.teams,
        admitted := 0, depth := (child.map Posted.depth).getD 1, parent := child.map Posted.parent, stok := p.stok, irq := p.irq,
        failed := false, level := 16, wtok := p.wtok, wval := p.wval }
    let s := { s with launches := s.launches ++ [l] }
    s.setQueue n { s.queue n with cur := some (x, provisional n) }

end State

/-- QUEUE_DOORBELL: a host write of QTAIL (R41, R42). -/
def execQueueDoorbell (q : Nat) (tail : BitVec 32) (s : State) : Out :=
  let x := s.queue q
  if 256 ≤ q || !x.en || x.dev || s.host.recovery then .next s
  else if 2 ^ x.logsize.toNat < (tail - x.head).toNat then
    .next ((s.stopQueue q).logFault { cause := Cause.queueOverrun, ctx := x.ctx.toNat })
  else .next (s.setQueue q { x with tail := tail })

/-- QCFG_WRITE (R41, R42): while EN is set only EN may change; a queue starts empty. -/
def execQcfgWrite (q : Nat) (val : DWord) (s : State) : Out :=
  let x := s.queue q
  let w := val.toNat
  if 256 ≤ q || s.host.recovery then .next s
  else if x.en then (if w.testBit 0 then .next s else .next (s.stopQueue q))
  else
    let size := bits w 36 32
    let x' : Queue :=
      { x with msix := BitVec.ofNat 11 (bits w 47 37), logsize := BitVec.ofNat 5 size, prio := BitVec.ofNat 2 (bits w 31 30),
               ctx := BitVec.ofNat 6 (bits w 29 24), dmask := BitVec.ofNat 4 (bits w 5 2), dev := w.testBit 1 }
    if w.testBit 0 && 4 ≤ size && size ≤ 16 && (s.ctx (bits w 29 24)).en then
      .next (s.setQueue q { x' with en := true, head := 0, tail := 0 })
    else .next (s.setQueue q x')

/-- Whether a write of the packet that a queue reads next is held at its home. -/
def State.packetHeld (s : State) (x : Queue) : Bool :=
  let (host, a) := x.packetAt x.head.toNat
  !host && s.heldW.any fun e => e.pa < a + 128 && a < e.pa + e.n

/-- PACKET_READ (R42, R44, R48): when no packet of the queue is in admission, its context is not halted (R263), and every host write before
the doorbell, and the LAUNCH that posted the packet, have been performed. -/
def execPacketRead (q : Nat) (s : State) : Out :=
  let x := s.queue q
  if q < 256 && x.en && x.pending != 0 && x.cur.isNone && !(s.queueDies x).isEmpty && !s.threadHeld 0 1 && !s.packetHeld x && !s.told &&
      !(s.ctx x.ctx.toNat).halted then
    .next (s.unlessBusy fun s => s.readPacket q)
  else .next s

/-! ### Threads that start -/

/-- s0 to s15 of a member of a team (R36). -/
def startS (t : Team) (idx : Nat) : FMap DWord :=
  let ws : List DWord :=
    [BitVec.ofNat 64 t.lid, BitVec.ofNat 64 t.tidx, BitVec.ofNat 64 t.count, BitVec.ofNat 64 idx, BitVec.ofNat 64 t.waves,
      BitVec.ofNat 64 t.threads, BitVec.ofNat 64 t.depth, BitVec.ofNat 64 t.ctx] ++ t.args.take 8
  ws.zipIdx.foldl (fun m p => FMap.put 0 m p.2 p.1) []

/-- Permissions of c1 and c2 (R137). -/
def teamPerm : BitVec 8 := permR ||| permW ||| permLC ||| permSC ||| permAT ||| permEN

/-- c0 to c15 of a member of a team (R36, R285). -/
def State.startC (s : State) (t : Team) : FMap Cap :=
  let put (m : FMap Cap) (n : Nat) (c : Cap) : FMap Cap := FMap.put Cap.null m n c
  let m := put [] 0 (if t.acap < 256 then s.capEntry t.ctx t.acap else Cap.null)
  let m :=
    if t.isHandler then m
    else put (put m 1 (Cap.make 2 teamPerm t.spbase t.splen)) 2 (Cap.make 3 teamPerm (clusterOfCell t.cell * 2 ^ 21) (2 ^ 21))
  let m := put m 3 (s.capEntry t.ctx 255)
  match s.desc? t.ctx t.tdesc with
  | none => m
  | some d => (List.range 12).foldl (fun m n => if d.cmask.testBit n then put m (4 + n) (s.capEntry t.ctx (d.cidx.getD n 0)) else m) m

/-- A member without lanes at an entry (R23). -/
def State.newMember (s : State) (t : Team) (scalar : Bool) (idx : Nat) (entry : BitVec 48) : Member :=
  { uid := s.nextUid, scalar := scalar, ctx := t.ctx, team := t.handle, idx := idx, v := [], pv := [], s := startS t idx,
    c := s.startC t, ps := [], pk := [], q := [], x := [], lat := [], chain := 0, chainPc := 0, ord := none,
    root := { Group.init with pc := BitVec.ofNat 57 (entry.toNat * 8) }, subs := [], cur := none, serial := [], serialG := none,
    nextStamp := 0, inRow := 0, alatch := none, omap := none, cnt := [], jlast := 0, engst := 0, rstat := [], ldr := 0, lent := [],
    entered := s.clk, issued := false, run := .run, trapLanes := 0 }

namespace State

/-- A member put into a slot with lanes filled: lane, arguments, LDR (R23, R36). Its first word acquires on its cell (R25, R42, R45,
R54, R289, R331). -/
def startMember (s : State) (k : Nat) (t : Team) (scalar : Bool) (idx : Nat) (entry : BitVec 48) (ls : List (Nat × List Word × Bool)) :
    State :=
  let m := ls.foldl (fun m p => m.fillLane p.1 p.2.1 p.2.2) (s.newMember t scalar idx entry)
  { (s.acquire (cellOf k)).setMember k m with nextUid := s.nextUid + 1 }

/-- The scalar slots of a cell kept for handler threads: H slots of the die, from slot 31 downwards over its enabled cells in turn
(R284, log 42). -/
def reserved (s : State) (cell : Nat) : Word :=
  let d := dieOfCell cell
  let cells := (List.range 128).filter fun i => s.clusterOn (clusterOfCell (d * 128 + i))
  match cells.idxOf? (cell % 128) with
  | none => 0
  | some p =>
    let n := min 32 (((s.die d).hNow.toNat + (cells.length - 1 - p)) / cells.length)
    ~~~(lanesBelow (32 - n))

/-- The free wave slots of a cell that a mask names. -/
def freeWaves (s : State) (cell : Nat) (mask : BitVec 16) : List Nat :=
  (List.range 16).filter fun n => mask.getLsbD n && (s.member? (waveKey cell n)).isNone

/-- The free scalar slots of a cell that a mask names, those for handler threads excepted. -/
def freeScals (s : State) (cell : Nat) (mask : Word) : List Nat :=
  let r := s.reserved cell
  (List.range 32).filter fun n => mask.getLsbD n && !r.getLsbD n && (s.member? (scalKey cell n)).isNone

/-! ### Placing -/

/-- The teams with a bind record on a cell. -/
def bound (s : State) (cell : Nat) : List Team := s.teams.filter fun t => t.cell == cell && !t.isHandler

/-- The lowest free extent of a size on a cell (R48, R49). -/
def freeExtent (s : State) (cell size : Nat) : Option Nat :=
  let ts := s.bound cell
  let offs := 0 :: ts.map fun t => roundUp (t.spbase + t.splen) 256
  let fits (o : Nat) : Bool := o + size ≤ 2 ^ 18 && ts.all fun t => t.splen == 0 || o + size ≤ t.spbase || t.spbase + t.splen ≤ o
  if size == 0 then some 0
  else (offs.filter fits).foldl (fun b o => match b with
    | none => some o
    | some p => some (min p o)) none

/-- Where a die puts a team: cell, extent and bind record (R48). -/
def placeOn (s : State) (d size : Nat) : Option (Nat × Nat × Nat) :=
  let cands := (List.range 128).filterMap fun i =>
    let c := d * 128 + i
    if !s.clusterOn (clusterOfCell c) || 32 ≤ (s.bound c).length then none
    else (s.freeExtent c size).map fun o => (c, o)
  let best := cands.foldl (fun (b : Option (Nat × Nat)) p => match b with
    | none => some p
    | some q => if (s.bound p.1).length < (s.bound q.1).length then some p else b) none
  best.map fun p => (p.1, p.2, (firstFree 32 fun n => (s.bound p.1).any fun t => t.bind == n).getD 0)

/-- The first of some dies that takes a team (R48). -/
def placeTeam (s : State) (dies : List Nat) (size : Nat) : Option (Nat × Nat × Nat × Nat) :=
  dies.findSome? fun d => (s.placeOn d size).map fun p => (d, p)

/-- The dies of a queue in the order of the offers: the die after the last one first. -/
def offerDies (s : State) (q : Queue) : List Nat :=
  ((List.range 4).map fun i => (q.lastDie + 1 + i) % 4).filter fun d => (s.queueDies q).contains d

/-- Whether the pool of a context has room for n records beside those on their way (R36). -/
def poolRoom (s : State) (x n : Nat) : Bool :=
  n == 0 ||
    let s := s.afterFlight
    let used := (s.ctx x).spilled
    let free := ((List.range (min (s.poolSlots x) (used.length + n))).filter fun k => !used.any fun p => p.slot == k).take n
    free.length == n && free.all fun k => (s.poolPa x k).isSome

/-- The lowest handle that no live team of a context holds (R21). -/
def freeHandle (s : State) (x : Nat) : Nat :=
  1 + (firstFree (s.teams.length + 1) fun n => (s.team? x (n + 1)).isSome).getD 0

/-- A choice of the controller that R21 and R49 allow: every slot that is not kept for handlers. -/
def defaultChoice (s : State) (x cell : Nat) : AdmitChoice :=
  let tm := ~~~(s.reserved cell)
  ⟨s.freeHandle x, 16, laneCount tm, 0xFFFF, tm⟩

/-- The bounds of R21, R49 and R284 on a choice. -/
def choiceOk (s : State) (x cell waves threads : Nat) (c : AdmitChoice) : Bool :=
  1 ≤ c.handle && c.handle < 2 ^ 24 && (s.team? x c.handle).isNone && c.wquota ≤ 16 && c.tquota ≤ 32 &&
    (waves == 0 || 1 ≤ c.wquota) && (threads == 0 || 1 ≤ c.tquota) &&
    c.wquota ≤ ((List.range 16).filter fun n => c.wmask.getLsbD n).length && c.tquota ≤ laneCount c.tmask &&
    c.tmask &&& s.reserved cell == 0

/-- The waves and scalar threads of a team that start directly in slots (R36). -/
def directWaves (s : State) (cell waves : Nat) (c : AdmitChoice) : List Nat := (s.freeWaves cell c.wmask).take (min waves c.wquota)
def directScals (s : State) (cell threads : Nat) (c : AdmitChoice) : List Nat := (s.freeScals cell c.tmask).take (min threads c.tquota)

/-- The launch records that an admission makes. -/
def recordCount (s : State) (cell waves threads : Nat) (c : AdmitChoice) : Nat :=
  32 * (waves - (s.directWaves cell waves c).length) + (threads - (s.directScals cell threads c).length)

/-! ### Binding a team -/

/-- A scratchpad extent zeroed: bytes, tags and poison (R50). -/
def zeroExtent (s : State) (cell off n : Nat) : State :=
  let a := spadBase + cell * 2 ^ 18 + off
  let out (k w : Nat) : Bool := k * w + w ≤ a || a + n ≤ k * w
  { s with mem := List.filter (fun e : Nat × Byte => out e.1 1) s.mem, tags := List.filter (fun e : Nat × Bool => out e.1 16) s.tags,
           poisonW := List.filter (fun e : Nat × Bool => out e.1 8) s.poisonW }

/-- A team bound: its extent zeroed, and BUDGET set when it is the context's first on the die (R50, R185). -/
def bindTeam (s : State) (t : Team) : State :=
  let first := !(s.teams.any fun u => u.ctx == t.ctx && u.die == t.die)
  let s := if t.splen == 0 then s else s.zeroExtent t.cell t.spbase t.splen
  let s := { s with teams := s.teams ++ [t] }
  if first then
    s.modCtx t.ctx fun c => { c with budget := FMap.put 0 c.budget t.die (min (2 ^ 32 - 1) (s.shareOf t.die t.ctx)) }
  else s

/-- A record of kind launch (R20, R36). -/
def launchRec (s : State) (t : Team) (index lane : Nat) : State × Rec :=
  let (s, q) := s.takeSeq t.ctx
  (s, { entry := t.entry, depth := BitVec.ofNat 4 t.depth, kind := 0, rsv := 0, spill := false, ldr := index == 0,
        team := BitVec.ofNat 24 t.handle, ctx := BitVec.ofNat 6 t.ctx, seq := q,
        a := (List.range 12).map fun n => if n == 0 then BitVec.ofNat 32 index else if n == 1 then BitVec.ofNat 32 lane else 0,
        owner := t.ctx, setq := none })

/-- Every initial thread of a team started: in slots, and otherwise as records, in increasing thread index (R36, R37). -/
def startThreads (s : State) (t : Team) (waves threads : List Nat) : State :=
  let s := waves.zipIdx.foldl (fun s p =>
    s.startMember (waveKey t.cell p.1) t false p.2 t.entry
      ((List.range 32).map fun l => (l, [BitVec.ofNat 32 (p.2 * 32 + l), BitVec.ofNat 32 l], p.2 == 0 && l == 0))) s
  let s := threads.zipIdx.foldl (fun s p =>
    s.startMember (scalKey t.cell p.1) t true p.2 t.entry
      [(0, [BitVec.ofNat 32 (t.waves * 32 + p.2)], t.waves == 0 && p.2 == 0)]) s
  let s := (List.range (32 * (t.waves - waves.length))).foldl (fun s n =>
    let i := 32 * waves.length + n
    let (s, r) := s.launchRec t i (i % 32)
    (s.arriveCarousel (clusterOfCell t.cell) r).getD s) s
  (List.range (t.threads - threads.length)).foldl (fun s n =>
    let (s, r) := s.launchRec t (t.waves * 32 + threads.length + n) 0
    (s.arriveReady t.cell r).getD s) s

/-! ### Admission -/

/-- The launch in admission of a queue. -/
def curLaunch (s : State) (n : Nat) : Option Launch := (s.queue n).cur.bind fun l => s.launch? l.1 l.2

/-- The context that a queue serves now: that of the packet in admission, which a rewrite of QCFG does not change (R42). -/
def servedCtx (s : State) (n : Nat) : Nat := ((s.queue n).cur.map Prod.fst).getD (s.queue n).ctx.toNat

/-- Whether a packet may be admitted (R45): its token has reached its value, or its admission has begun. -/
def admissible (s : State) (l : Launch) : Bool :=
  l.admitted != 0 || l.wtok == 0 || (FMap.get 0 (s.ctx l.ctx).tok l.wtok - l.wval).toNat < 2 ^ 31

/-- Whether a queue has an admissible packet: one in admission, or one that is still to be read. A halted context has none (R263). A packet
that has been read stays in admission when its queue is disabled, before its first team too (log 92). -/
def hasAdmissible (s : State) (n : Nat) : Bool :=
  let q := s.queue n
  !(s.ctx (s.servedCtx n)).halted && !(s.queueDies q).isEmpty &&
    match s.curLaunch n with
    | some l => s.admissible l
    | none => q.cur.isNone && q.en && q.pending != 0

/-- The place of the next team of a launch: die, cell, extent, bind record. -/
def placeFor (s : State) (n : Nat) (d : TeamDesc) : Option (Nat × Nat × Nat × Nat) :=
  s.placeTeam (s.offerDies (s.queue n)) d.spad

/-- Whether a capability that CAPW installs in a context has not reached its table (R298). -/
def capwHeld (s : State) (x : Nat) : Bool :=
  let a := tableAddr (s.ctx x).captab
  s.heldW.any fun e => e.pa < a + 4096 && a < e.pa + e.n

/-- Whether the next team of a queue can be admitted now. -/
def canAdmit (s : State) (n : Nat) : Bool :=
  s.hasAdmissible n && !s.capwHeld (s.servedCtx n) &&
    match s.curLaunch n with
    | none => false
    | some l =>
      match s.desc? l.ctx l.tdesc with
      | none => false
      | some d =>
        match s.placeFor n d with
        | none => false
        | some (_, c, _, _) =>
          s.poolRoom l.ctx (s.recordCount c d.waves d.threads (s.defaultChoice l.ctx c))

/-- Teams of a context admitted in the present round of its priority. -/
def usedOf (s : State) (p x : Nat) : Nat := FMap.get 0 s.arbUsed (p * 64 + x)

/-- The queues that are listed. -/
def queueKeys (s : State) : List Nat := FMap.keys s.queues

/-- The queues of a context at a priority whose next team can be admitted, from the one after the queue served last (R47). -/
def turnOf (s : State) (p x : Nat) : Option Nat :=
  let qs := s.queueKeys.filter fun n => s.servedCtx n == x && (s.queue n).prio.toNat == p && s.canAdmit n
  match qs.find? fun n => FMap.get 255 s.lastQ x < n with
  | some n => some n
  | none => qs.head?

/-- Whether the round of a priority is over: every context that could be served has admitted its weight (R47). -/
def roundOver (s : State) (p : Nat) : Bool :=
  (s.queueKeys.filter fun n => (s.queue n).prio.toNat == p && s.canAdmit n).all fun n =>
    let x := s.servedCtx n
    s.weightOf x ≤ s.usedOf p x

/-- A served context counted, in a new round if the old one is over. -/
def countServed (s : State) (p x : Nat) : State :=
  let used := if s.roundOver p then List.filter (fun e : Nat × Nat => e.1 / 64 != p) s.arbUsed else s.arbUsed
  { s with arbUsed := FMap.put 0 used (p * 64 + x) (FMap.get 0 used (p * 64 + x) + 1) }

/-! ### Work-graph consumers -/

/-- The node at an address of a context, and the physical address of its last word; none where a page does not give it. The
controller walks the table without the caches of a cluster (log 70). -/
def nodeAt (s : State) (x va : Nat) : Option (Node × Nat) :=
  match s.walk 64 x va walkLevels (tableAddr (s.ctx x).root) with
  | .ok l => if isHbm l.pa && va % 64 == 0 && !s.heldAt l.pa 64 then some (Node.ofBytes (s.bytes l.pa 64), l.pa + 24) else none
  | .error _ => none

/-- An element of a node: A0 to A11, none where a page does not give it. -/
def elementAt (s : State) (x : Nat) (n : Node) (index : Nat) : Option (List Word) :=
  match s.walk 64 x (n.slot index) walkLevels (tableAddr (s.ctx x).root) with
  | .ok l => if isHbm l.pa && !s.heldAt l.pa 48 then some ((chunks 4 12 (s.bytes l.pa 48)).map fun b => BitVec.ofNat 32 (ofBytes b)) else none
  | .error _ => none

/-- What a consumer admission needs (R56): the node, the address of its indices, the descriptor, the mark kind, the elements,
and the place. Nodes stand until something can accept them (log 43). -/
structure Consumer where
  node : Node
  word3 : Nat
  desc : TeamDesc
  wave : Bool
  elems : List (List Word)
  place : Nat × Nat × Nat × Nat

/-- A consumer team that could be admitted for a node now, on the lowest die that takes it (log 74). -/
def consumerFor (s : State) (x va : Nat) : Option Consumer := do
  let (n, w) ← s.nodeAt x va
  if !n.ok x || n.count == 0 || (s.ctx x).halted || !(s.ctx x).en then none
  else
    let d ← s.desc? x n.tdesc
    let k ← s.markKind x (n.entry.toNat * 8)
    if !d.shapeOk then none
    else
      let es ← (List.range (min n.batch n.count)).mapM fun i => s.elementAt x n (n.head + i)
      let p ← s.placeTeam ([0, 1, 2, 3].filter s.trusted) d.spad
      if s.poolRoom x es.length then some ⟨n, w, d, k == 1, es, p⟩ else none

/-- The nodes with suspended producers that have a consumer that can be admitted, with their levels (R56). -/
def fullNodes (s : State) (x : Nat) : List (Nat × Nat) :=
  ((s.ctx x).gwaits.map Prod.fst).eraseDups.filterMap fun va => (s.consumerFor x va).map fun k => (va, k.node.level)

/-- Whether a consumer team comes before the next team of a plain launch (R56). -/
def consumerFirst (s : State) (x : Nat) : Bool := !(s.fullNodes x).isEmpty

/-- Whether a consumer team may be admitted now (R56). Above level 0 it is itself a producer team: it comes after the consumers of
every node with suspended producers, or, when its own node has some, of those at lower levels. -/
def consumerTurn (s : State) (x va level : Nat) : Bool :=
  let full := s.fullNodes x
  level == 0 || if full.any fun e => e.1 == va then full.all fun e => level ≤ e.2 else full.isEmpty

/-! ### The two admissions -/

/-- A bind record without the slots that are now kept for handlers (R49, R284): its quota falls to the slots that are left; a mask
left empty becomes every slot that is not kept. -/
def rebind (s : State) (t : Team) : Team :=
  let free := ~~~(s.reserved t.cell)
  let m := if t.threads != 0 && t.tmask &&& free == 0 then free else t.tmask &&& free
  if t.isHandler then t else { t with tmask := m, tquota := min t.tquota (laneCount m) }

/-- A new round of admissions: H as the host last set it, and the bind records of a die whose H changes rewritten (R49, R284). -/
def newRound (s : State) : State :=
  [0, 1, 2, 3].foldl (fun s d =>
    if (s.die d).hNow == (s.die d).dieht then s
    else
      let s := s.modDie d fun x => { x with hNow := x.dieht }
      { s with teams := s.teams.map fun t => if t.die == d then s.rebind t else t }) s

/-- Whether a queue is the one to be served now (R47, R56). -/
def mayServe (s : State) (n : Nat) : Bool :=
  let q := s.queue n
  let p := q.prio.toNat
  let x := s.servedCtx n
  s.canAdmit n && !(s.queueKeys.any fun m => p < (s.queue m).prio.toNat && s.hasAdmissible m) &&
    (s.usedOf p x < s.weightOf x || s.roundOver p) && s.turnOf p x == some n && !s.consumerFirst x

/-- The next team of a launch admitted at its place. -/
def admitTeam (s : State) (n : Nat) (l : Launch) (d : TeamDesc) (place : Nat × Nat × Nat × Nat) (c : AdmitChoice) : State :=
  let (die, cell, off, bind) := place
  let q := s.queue n
  let s := s.countServed q.prio.toNat l.ctx
  let (s, lid) := if l.admitted == 0 then s.takeLid l.ctx else (s, l.lid)
  let ws := s.directWaves cell d.waves c
  let ts := s.directScals cell d.threads c
  let t : Team :=
    { ctx := l.ctx, handle := c.handle, lid := lid, tidx := l.admitted, count := l.teams, args := l.args, acap := l.acap, tdesc := l.tdesc,
      entry := l.entry, handler := BitVec.ofNat 57 d.handler, depth := l.depth, waves := d.waves, threads := d.threads, die := die,
      cell := cell, bind := bind, prio := q.prio.toNat, wquota := c.wquota, tquota := c.tquota, wmask := c.wmask, tmask := c.tmask,
      spbase := off, splen := d.spad, level := l.level, live := 32 * d.waves + d.threads, begun := false, isHandler := false, bars := [],
      mail := [], baton := none, trap := TrapArea.zero, held := [] }
  let s := s.modLaunch l.ctx l.lid fun x => { x with lid := lid, admitted := l.admitted + 1 }
  let s := (s.bindTeam t).startThreads t ws ts
  { s.setQueue n { s.queue n with cur := if l.admitted + 1 == l.teams then none else some (l.ctx, lid), lastDie := die } with
    lastQ := FMap.put 255 s.lastQ l.ctx n }

end State

/-- TEAM_ADMIT (R36, R46 to R51): the next team of the queue's packet, when it is the one to be served and the choice lies within
its bounds. -/
def execTeamAdmit (q : Nat) (c : AdmitChoice) (s0 : State) : Out :=
  let s := s0.newRound
  if !s.mayServe q then .next s
  else
    match s.curLaunch q with
    | none => .next s
    | some l =>
      match s.desc? l.ctx l.tdesc with
      | none => .next s
      | some d =>
        match s.placeFor q d with
        | none => .next s
        | some p =>
          let cell := p.2.1
          if s.choiceOk l.ctx cell d.waves d.threads c && s.poolRoom l.ctx (s.recordCount cell d.waves d.threads c) then
            .next (s.admitTeam q l d p c)
          else .next s

namespace State

/-- A consumer team admitted for a node: a launch of its own, and one record of kind spawn per element (R56). Its launch ID, its
depth, priority 0, NULL c0, zero arguments and live count are the model's choice (logs 43 and 74). -/
def admitConsumer (s : State) (x : Nat) (k : Consumer) (c : AdmitChoice) : State :=
  let (die, cell, off, bind) := k.place
  let (s, lid) := s.takeLid x
  let n := k.node
  let l : Launch :=
    { ctx := x, lid := lid, queue := 0, entry := n.entry, tdesc := n.tdesc, acap := 256, args := [], teams := 1, admitted := 1, depth := 1,
      parent := none, stok := 0, irq := false, failed := false, level := n.level, wtok := 0, wval := 0 }
  let t : Team :=
    { ctx := x, handle := c.handle, lid := lid, tidx := 0, count := 1, args := [], acap := 256, tdesc := n.tdesc, entry := n.entry,
      handler := BitVec.ofNat 57 k.desc.handler, depth := 1, waves := k.desc.waves, threads := k.desc.threads, die := die, cell := cell,
      bind := bind, prio := 0, wquota := c.wquota, tquota := c.tquota, wmask := c.wmask, tmask := c.tmask, spbase := off,
      splen := k.desc.spad, level := n.level, live := k.elems.length, begun := false, isHandler := false, bars := [], mail := [],
      baton := none, trap := TrapArea.zero, held := [] }
  let s := ({ s with launches := s.launches ++ [l] }).bindTeam t
  let s := k.elems.foldl (fun s a =>
    let (s, q) := s.takeSeq x
    let r : Rec :=
      { entry := n.entry, depth := 1, kind := 1, rsv := 0, spill := false, ldr := false, team := BitVec.ofNat 24 c.handle,
        ctx := BitVec.ofNat 6 x, seq := q, a := a, owner := x, setq := none }
    (s.arrive (if k.wave then .carousel (clusterOfCell cell) else .ready cell) r).getD s) s
  s.devWrite k.word3 (toBytes 4 ((n.head + k.elems.length) % 2 ^ 32))

end State

/-- CONSUMER_ADMIT (R56). -/
def execConsumerAdmit (ctx node : Nat) (c : AdmitChoice) (s0 : State) : Out :=
  let s := s0.newRound
  match s.consumerFor ctx node with
  | none => .next s
  | some k =>
    let w := if k.wave then max 1 k.desc.waves else k.desc.waves
    let t := if k.wave then k.desc.threads else max 1 k.desc.threads
    if (s.ctx ctx).nodes.contains node && s.consumerTurn ctx node k.node.level && s.choiceOk ctx k.place.2.1 w t c then .next (s.admitConsumer ctx k c) else .next s

/-- ENQ_RESUME: the oldest record suspended at a node goes on when the node has space (R55). -/
def execEnqResume (ctx node : Nat) (s : State) : Out :=
  match (s.ctx ctx).gwaits.find? fun g => g.1 == node with
  | none => .next s
  | some g =>
    match s.nodeAt ctx node with
    | none => .next s
    | some (n, _) =>
      if n.free == 0 || s.arrivalWaits g.2.1 || !s.hasRoom g.2.1 g.2.2 then .next s
      else .next ((s.modCtx ctx fun c => { c with gwaits := c.gwaits.erase g }).sendRec g.2.1 g.2.2)

end Sys2Proof.Machine
end

