-- ==== Sys2Proof/Machine/CapWords.lean ====
section
/-!
DEFINITION. Machine/CapWords.lean: CAPSET, CAPINC, CAPINC.M, CAPGET, CAPPERM and CAPCHK (R133, R139, R320, R321).
-/
namespace Sys2Proof.Machine

/-- A word that derives a capability, once (R320). -/
def capWord (h : Hdr) (cd ca : BitVec 4) (f : Iss → Cap → Chk Cap) (s : State) : Out :=
  onceWord .once h (fun i s => do
    let c := i.m.creg ca.toNat
    need c.tag Cause.capTag
    let r ← f i c
    return s.modMember i.k fun m => m.setC cd.toNat r) s

/-- The bounds of CAPSET (R321). -/
def capsetRes (c : Cap) (n : Nat) : Chk Cap :=
  let b := c.cursor.toNat
  if b < c.base || c.top < b + n then .error { cause := Cause.capMonotonic }
  else match c.withBounds b n with
    | some r => .ok r
    | none => .error { cause := Cause.capInexact }

def execCapset (h : Hdr) (cd ca : BitVec 4) (len : Src) (s : State) : Out :=
  capWord h cd ca (fun i c => capsetRes c (i.m.src64 len)) s

def execCapinc (h : Hdr) (cd ca : BitVec 4) (inc : Src) (s : State) : Out :=
  capWord h cd ca (fun i c => .ok (c.moveTo (c.cursor + BitVec.ofNat 64 (i.m.src64 inc)))) s

/-- The capability that CAPINC.M leaves (R139). -/
def capincmRes (c : Cap) (stride : Int) (w : Nat) : Cap :=
  match Cap.meshStep c.cursor.toNat w stride with
  | none => { c with tag := false }
  | some a => c.moveTo (BitVec.ofNat 64 a)

def execCapincM (h : Hdr) (cd ca : BitVec 4) (inc : Src) (w : BitVec 5) (s : State) : Out :=
  capWord h cd ca (fun i c => do
    need (c.space.toNat == spSpadw) Cause.capSpace
    return capincmRes c (sextN (i.m.src64 inc) 64) w.toNat) s

def execCapperm (h : Hdr) (cd ca : BitVec 4) (mask : Src) (s : State) : Out :=
  capWord h cd ca (fun i c => .ok { c with perm := c.perm &&& BitVec.ofNat 8 (i.m.src64 mask) }) s

/-- The value of CAPGET (R321). -/
def capgetRes (c : Cap) : CapField → Nat
  | .base => if c.eOk then c.base % 2 ^ 64 else 0
  | .len => if c.eOk then c.length else 0
  | .cursor => c.cursor.toNat
  | .perm => c.perm.toNat
  | .tag => b2n c.tag
  | .space => c.space.toNat

def execCapget (h : Hdr) (f : CapField) (u : Bool) (d : BitVec 6) (ca : BitVec 4) (s : State) : Out :=
  onceWord (if u then .once else .usual) h (fun i s =>
    let x := capgetRes (i.m.creg ca.toNat) f
    .ok (s.modMember i.k fun m =>
      if u then m.setS d.toNat (BitVec.ofNat 64 x) else m.setLanes .n64 d.toNat i.lanes fun _ => x)) s

/-- The predicate of CAPCHK (R321): req is a permission mask and n. -/
def capchkRes (c : Cap) (req : Nat) : Bool :=
  let n := bits req 12 8
  let a := c.cursor.toNat
  (1 ≤ n && n ≤ 16) && c.tag && c.spaceOk && c.has (BitVec.ofNat 8 req) && c.inBounds a n && a % n == 0

def execCapchk (h : Hdr) (qd : BitVec 3) (ca : BitVec 4) (req : Src) (s : State) : Out :=
  predWord h qd (fun m _ => capchkRes (m.creg ca.toNat) (m.src64 req)) s

end Sys2Proof.Machine
end

