-- ==== Sys2Proof/Machine/Slots.lean ====
section
/-!
DEFINITION. Machine/Slots.lean: dispatch of records (R22, R23, R29, R30, R37, R51), handler threads (R284, R285), eviction and
restoration (R52, R53, R262), and the retirement of teams and launches (R38, R45, R46, R150, R171, R185).
-/
namespace Sys2Proof.Machine

namespace State

/-! ### Records -/

/-- A record discarded as faulty, with its entry in the fault log of the context that holds it (R22). -/
def discardRec (s : State) (r : Rec) : State :=
  s.logFaultIn r.owner { cause := Cause.recordFormat, pc := r.entry.toNat * 8, team := r.team.toNat, ctx := r.ctx.toNat }

/-- Slots of a kind that a team holds. -/
def heldSlots (s : State) (t : Team) (scalar : Bool) : Nat :=
  (s.members.filter fun e => e.2.ctx == t.ctx && e.2.team == t.handle && e.2.scalar == scalar).length

/-- Whether a resident or evicted member of a team with lanes holds an index (R37). -/
def indexUsed (s : State) (t : Team) (scalar : Bool) (n : Nat) : Bool :=
  (FMap.vals s.members ++ s.evicted).any fun m =>
    m.ctx == t.ctx && m.team == t.handle && m.scalar == scalar && m.q0 != 0 && m.idx == n

/-- The slot key and the index that a record of a team takes now, none when it waits (R37, R51, R251, R263). -/
def takeSlot (s : State) (t : Team) (scalar : Bool) : Option (Nat × Nat) :=
  if t.trap.v || (s.ctx t.ctx).halted || !s.trusted t.die || (if scalar then t.tquota else t.wquota) ≤ s.heldSlots t scalar then none
  else
    let slot := if scalar then (s.freeScals t.cell t.tmask).head?.map (scalKey t.cell) else (s.freeWaves t.cell t.wmask).head?.map (waveKey t.cell)
    match slot, firstFree (if scalar then 32 else 16) (s.indexUsed t scalar) with
    | some k, some n => some (k, n)
    | _, _ => none

/-- Records of one entry started in a slot; the lowest lane with a faulty one traps before its first word (R22, R23). -/
def dispatchRecs (s : State) (t : Team) (scalar : Bool) (k idx : Nat) (entry : BitVec 48) (rs : List Rec) : State :=
  let uid := s.nextUid
  let s := s.startMember k t scalar idx entry []
  let got := rs.zipIdx.map fun p => (p.2, p.1)
  let s := s.fillRecords k got
  match got.find? fun p => recFaulty s p.2 with
  | some p => s.recordTrap uid (if scalar then 16 + idx else idx) p.1 (BitVec.ofNat 57 (entry.toNat * 8))
  | none => s

/-- The candidate of the highest priority, the earliest among equals (R51). -/
def bestBy {α : Type} (prio first : α → Nat) : List α → Option α
  | [] => none
  | x :: t =>
    match bestBy prio first t with
    | none => some x
    | some y => if prio x < prio y || (prio x == prio y && first y < first x) then some y else some x

/-- A ready bucket dispatched as a new wave, or dropped with its team gone (R22, R29). -/
def dispatchBucket (s : State) (c : Nat) : State :=
  let ready := (s.cluster c).buckets.filter Bucket.ready
  let drop (s : State) (b : Bucket) : State := s.modCluster c fun x => { x with buckets := x.buckets.erase b }
  match ready.find? fun b => (s.team? b.ctx b.team).isNone with
  | some b => b.recs.foldl discardRec (drop s b)
  | none =>
    let cands := ready.filterMap fun b =>
      match s.team? b.ctx b.team with
      | some t => (s.takeSlot t false).map fun k => (b, t, k)
      | none => none
    match bestBy (fun x => x.2.1.prio) (fun x => x.1.first) cands with
    | some (b, t, k) => (drop s b).dispatchRecs t false k.1 k.2 b.entry b.recs
    | none => s

/-- Records on their way to a ready queue arrived, up to one that finds no room. -/
def arriveAll : Nat → State → Nat → State
  | 0, s, _ => s
  | f + 1, s, c =>
    match (s.cell c).inbound with
    | [] => s
    | r :: rest =>
      match (s.modCell c fun x => { x with inbound := rest }).arriveReady c r with
      | some s' => arriveAll f s' c
      | none => s

/-- A record of the ready queue dispatched, or dropped with its team gone (R22, R30). -/
def dispatchReady (s : State) (c : Nat) : State :=
  let s := if s.arrivalWaits (.ready c) then s else arriveAll ((s.cell c).inbound.length) s c
  let rs := (s.cell c).ready
  let drop (s : State) (r : Rec) : State := s.modCell c fun x => { x with ready := x.ready.erase r }
  match rs.find? fun r => (s.team? r.owner r.team.toNat).isNone with
  | some r => (drop s r).discardRec r
  | none =>
    let cands := rs.zipIdx.filterMap fun p =>
      match s.team? p.1.owner p.1.team.toNat with
      | some t => (s.takeSlot t true).map fun k => (p, t, k)
      | none => none
    match bestBy (fun x => x.2.1.prio) (fun x => x.1.2) cands with
    | some (p, t, k) => (drop s p.1).dispatchRecs t true k.1 k.2 p.1.entry [p.1]
    | none => s

end State

/-- CAROUSEL_ARRIVAL (R29): the next record on its way; one that finds the pool full waits, and so does one behind a held write (R25, R29). -/
def execCarouselArrival (cluster : Nat) (s : State) : Out :=
  match (s.cluster cluster).inbound with
  | [] => .next s
  | r :: rest =>
    if s.arrivalWaits (.carousel cluster) then .next s
    else .next (((s.modCluster cluster fun x => { x with inbound := rest }).arriveCarousel cluster r).getD s)

/-- BUCKET_TIMEOUT (R29): buckets whose first record arrived 2,048 clk ago are ready. -/
def execBucketTimeout (cluster : Nat) (s : State) : Out :=
  .next (s.modCluster cluster fun x =>
    { x with buckets := x.buckets.map fun b => if b.first + 2048 ≤ s.clk then { b with ready := true } else b })

/-- BUCKET_DISPATCH (R29, R51). -/
def execBucketDispatch (cluster : Nat) (s : State) : Out := .next (s.dispatchBucket cluster)

/-- POOL_REFILL (R29, R30, R284). -/
def execPoolRefill (tgt : PoolTarget) (s : State) : Out :=
  match tgt with
  | .carousel c => .next (State.settleCarousel 64 s c)
  | .ready c => .next (State.settleReady 128 s c)
  | .handler d => .next (State.settleHandler 1024 s d)

/-- READY_QUEUE_DISPATCH (R30, R51): records on their way arrive first. -/
def execReadyQueueDispatch (cell : Nat) (s : State) : Out := .next (s.dispatchReady cell)

/-! ### Handler threads -/

namespace State

/-- The first free slot kept for handler threads on a die (R284). -/
def handlerSlot (s : State) (d : Nat) : Option (Nat × Nat) :=
  (List.range 128).findSome? fun i =>
    let c := d * 128 + i
    let r := s.reserved c
    ((List.range 32).find? fun n => r.getLsbD n && (s.member? (scalKey c n)).isNone).map fun n => (c, n)

/-- Whether a handler record breaks R22; its own depth is that of its team (R285). -/
def handlerFaulty (r : Rec) : Bool :=
  r.rsv != 0 || r.depth == 0 || 10 < r.depth.toNat || 6 < r.kind.toNat || r.ctx.toNat != r.owner

/-- The one-thread team of a handler record, started in a slot (R285). Its tmask names only a slot kept for handlers, so a record that
the team writes is never dispatched (log 78). -/
def startHandler (s : State) (d cell slot : Nat) (h : HandlerRec) : State :=
  let r := h.rcd
  let o := h.orig
  let x := r.owner
  let hd := s.freeHandle x
  -- no bind record: a number past those of the cell, under which the window shows its trap area
  let bind := 32 + (firstFree 32 fun n => s.teams.any fun t => t.cell == cell && t.bind == 32 + n).getD 0
  let t : Team :=
    { ctx := x, handle := hd, lid := o.lid, tidx := 0xFFFFFFFF, count := o.count, args := o.args, acap := o.acap, tdesc := o.tdesc,
      entry := r.entry, handler := BitVec.ofNat 57 (((s.desc? x o.tdesc).map TeamDesc.handler).getD 0), depth := r.depth.toNat, waves := 0,
      threads := 1, die := d, cell := cell, bind := bind, prio := o.prio, wquota := 0, tquota := 1, wmask := 0, tmask := laneMask slot,
      spbase := 0, splen := 0, level := o.level, live := 1, begun := false, isHandler := true, bars := [], mail := [], baton := none,
      trap := TrapArea.zero, held := [] }
  (s.bindTeam t).startMember (scalKey cell slot) t true 0 r.entry [(0, r.a, false)]

/-- A faulty handler record raises its cause in the live team that it names, as if its thread had faulted before its first instruction (R22):
the thread counts among the live threads of that team (log 40). -/
def startFaulty (s : State) (cell slot : Nat) (t : Team) (r : Rec) : State :=
  let uid := s.nextUid
  let idx := (firstFree 32 (s.indexUsed t true)).getD 0
  let s := (s.raiseLive t.ctx t.handle 1).startMember (scalKey cell slot) t true idx r.entry [(0, r.a, false)]
  s.recordTrap uid (16 + idx) 0 (BitVec.ofNat 57 (r.entry.toNat * 8))

end State

/-- HANDLER_RECORD_ARRIVAL (R284). -/
def execHandlerRecordArrival (die : Nat) (s : State) : Out :=
  match (s.die die).hin with
  | [] => .next s
  | h :: rest =>
    if s.arrivalWaits (.handler die) then .next s
    else .next (((s.modDie die fun x => { x with hin := rest }).arriveHandler die h).getD s)

/-- HANDLER_DISPATCH (R285): the oldest record whose context is not halted; a faulty one traps in the live team that it names, once that
handles no trap, and is discarded without one (R22, log 40). -/
def execHandlerDispatch (die : Nat) (s : State) : Out :=
  let named (h : HandlerRec) : Option Team := if State.handlerFaulty h.rcd then s.team? h.rcd.owner h.rcd.team.toNat else none
  match (s.die die).hq.find? fun h => !(s.ctx h.rcd.owner).halted && !(named h).any fun t => t.trap.v with
  | none => .next s
  | some h =>
    let drop (s : State) : State := s.modDie die fun x => { x with hq := x.hq.erase h }
    if State.handlerFaulty h.rcd && (named h).isNone then .next ((drop s).discardRec h.rcd)
    else if !s.trusted die then .next s
    else
      match s.handlerSlot die with
      | none => .next s
      | some (c, n) =>
        match named h with
        | some t => .next ((drop s).startFaulty c n t h.rcd)
        | none => .next ((drop s).startHandler die c n h)

/-! ### Eviction and restoration -/

namespace State

/-- A wait that R52, R218 and R229 count as sleep. -/
def sleeperWait : Wait → Bool
  | .access .. => false
  | _ => true

/-- A wait of R259: no EXIT that is parked, no solo token, no held write. -/
def deepWait : Wait → Bool
  | .adr .. | .cnt .. | .anyTag .. | .allTags _ | .job _ | .bar .. | .child | .tre _ => true
  | .solo | .behind .. | .exitPark _ | .access .. => false

/-- An EXIT parked under R38. -/
def parkedExit : Wait → Bool
  | .exitPark _ => true
  | _ => false

/-- Whether every group of a member is parked, or sleeps in a wait of some kind. -/
def allWait (p : Wait → Bool) (m : Member) : Bool :=
  m.q0 != 0 && m.names.all fun g =>
    match (m.grp g).st with
    | .run => (m.grp g).mask == 0 || ((m.grp g).wait.map p).getD false
    | _ => true

/-- A sleeper of R52. -/
def sleeper (m : Member) : Bool := allWait sleeperWait m

/-- A member of R259 that is asleep or parked at EXIT, and one of these that sleeps. -/
def resting (m : Member) : Bool := allWait (fun w => deepWait w || parkedExit w) m
def deepSleeper (m : Member) : Bool :=
  resting m && m.names.any fun g => (m.grp g).st == .run && (m.grp g).mask != 0 && ((m.grp g).wait.map deepWait).getD false

/-- Whether a member may be evicted now (R68, R229, R251, R262, R284). -/
def evictable (s : State) (k : Nat) (m : Member) : Bool :=
  m.q0 != 0 && m.lent.isEmpty && (m.run == .run || m.run == .stopped) && !(((s.team? m.ctx m.team).map Team.isHandler).getD true) &&
    !((s.cluster (clusterOfCell (cellOf k))).jobs.any fun j => j.uid == m.uid && j.cls == clsMatrix && (j.st == .started || j.st == .ending)) &&
    !(match (s.die (dieOfCell (cellOf k))).soloHolder with
      | some n => ((FMap.find? (s.die (dieOfCell (cellOf k))).regions n).map Region.uid) == some m.uid
      | none => false)

/-- A mailbox moved. -/
def moveBox (s : State) (c a b : Nat) : State :=
  s.modCell c fun x =>
    let q := FMap.get [] x.steal a
    { x with steal := FMap.put [] (FMap.put [] x.steal a []) b q }

/-- A member evicted (R262): open regions abort, chains and pairs rewind, copies lose its register window, and the quota that it used
is lowered. -/
def evict (s : State) (k : Nat) : State :=
  match s.member? k with
  | none => s
  | some m =>
    let c := cellOf k
    let s := (s.abortMember c m.uid Cause.regionHalt).moveBox c (slotOf k) (evictedBox m.uid)
    let lose (j : Job) : Job := { j with slots := List.map (fun e : Nat × Option Nat => (e.1, if e.1 == k then none else e.2)) j.slots }
    let s := { s with clusters := FMap.mapVals (fun x => { x with jobs := x.jobs.map lose }) s.clusters }
    let s := s.modTeam m.ctx m.team fun t =>
      if m.scalar then { t with tquota := if 1 < t.tquota then t.tquota - 1 else t.tquota }
      else { t with wquota := if 1 < t.wquota then t.wquota - 1 else t.wquota }
    match s.member? k with
    | some m => { s.dropMember k with evicted := s.evicted ++ [m.rewind] }
    | none => s

/-- Whether a WAITADR would go on, or raise, if it read now. -/
def adrReady (s : State) (cell : Nat) (m : Member) : Wait → Bool
  | .adr w64 eq _ _ sc c lanes =>
    let n := if w64 then 8 else 4
    let s := if sc then s.acquire cell else s
    match s.lateCheck m.ctx cell c.space.toNat n true false true (lanes.map fun p => (p.1, p.2.1)) with
    | .error _ => true
    | .ok _ =>
      let i : Iss := ⟨scalKey cell 0, { m with ord := none }, none, 0⟩
      (s.adrRead i c n lanes).2.all fun p => adrHolds eq p.2.1 p.2.2
  | _ => false

/-- Whether some group of a member can go on: it runs, or its wait is over. -/
def goesOn (s : State) (cell : Nat) (m : Member) : Bool :=
  m.names.any fun g => m.canIssue g || (s.wakeOne (scalKey cell 0) m g).isSome || (((m.grp g).wait.map (s.adrReady cell m)).getD false)

/-- An evicted member that is runnable (R53). -/
def restorable (s : State) (m : Member) : Bool :=
  m.run == .run && !(s.ctx m.ctx).halted &&
    match s.team? m.ctx m.team with
    | some t => s.goesOn t.cell m
    | none => false

/-- Whether a beam job of an evicted member is saved, and so waits for the member (R279). -/
def beamHeld (s : State) (m : Member) : Bool :=
  s.clusters.any fun e : Nat × Cluster => e.2.beams.any fun j => j.uid == m.uid && j.st == .saved

/-- Work that waits for slots of a cell: its priority, the slots of each kind that it takes, the split-table entries, and the team of
a member to be restored. -/
structure Incoming where
  prio : Nat
  waves : Nat
  threads : Nat
  splits : Nat
  team : Option Team

/-- Runnable evicted members of a cell (R53). -/
def incomingBack (s : State) (c : Nat) : List Incoming :=
  s.evicted.filterMap fun m =>
    match s.team? m.ctx m.team with
    | some t =>
      if t.cell == c && s.restorable m then
        some { prio := t.prio, waves := if m.scalar then 0 else 1, threads := if m.scalar then 1 else 0, splits := m.subs.length, team := some t }
      else none
    | none => none

/-- The next team of each queue that comes to a cell (R52). -/
def incomingTeams (s : State) (c : Nat) : List Incoming :=
  s.queueKeys.filterMap fun n =>
    match s.curLaunch n with
    | none => none
    | some l =>
      match s.desc? l.ctx l.tdesc, s.placeFor n with
      | some d, place =>
        match place d with
        | some (_, cell, _, _) =>
          if cell == c && s.mayServe n then
            some { prio := (s.queue n).prio.toNat, waves := d.waves, threads := d.threads, splits := 0, team := none }
          else none
        | none => none
      | none, _ => none

/-- The consumer teams that come to a cell (R52, R56). -/
def incomingConsumers (s : State) (c : Nat) : List Incoming :=
  (List.range 64).flatMap fun x => (s.ctx x).nodes.filterMap fun va =>
    match s.consumerFor x va with
    | some k =>
      if k.place.2.1 == c && s.consumerTurn x va k.node.level then
        some { prio := 0, waves := if k.wave then 1 else 0, threads := if k.wave then 0 else k.elems.length, splits := 0, team := none }
      else none
    | none => none

/-- The work that could come to a cell (R52, R53). -/
def incoming (s : State) (c : Nat) : List Incoming := s.incomingBack c ++ s.incomingTeams c ++ s.incomingConsumers c

/-- The slots of a cell that some work may take (R284): of those that are not kept for handlers, the ones of its team's bind record, or
every one. -/
def Incoming.wmask (w : Incoming) : BitVec 16 := (w.team.map Team.wmask).getD 0xFFFF
def tmaskOf (s : State) (c : Nat) (w : Incoming) : Word := (w.team.map Team.tmask).getD 0xFFFFFFFF &&& ~~~(s.reserved c)

/-- Whether a cell lacks wave slots, scalar-thread slots, or split-table entries for some work. -/
def lacksWaves (s : State) (c : Nat) (w : Incoming) : Bool := (s.freeWaves c w.wmask).length < min 16 w.waves
def lacksThreads (s : State) (c : Nat) (w : Incoming) : Bool := (s.freeScals c (s.tmaskOf c w)).length < min (laneCount (s.tmaskOf c w)) w.threads
def lacksSplits (s : State) (c : Nat) (w : Incoming) : Bool := (s.freeSplits c).length < w.splits
def lacks (s : State) (c : Nat) (w : Incoming) : Bool := s.lacksWaves c w || s.lacksThreads c w || s.lacksSplits c w

/-- Whether evicting a member of a cell gives some work what it still lacks. -/
def helps (s : State) (c : Nat) (w : Incoming) (k : Nat) (m : Member) : Bool :=
  if m.scalar then s.lacksThreads c w && (s.tmaskOf c w).getLsbD (slotOf k - 16)
  else (s.lacksWaves c w && w.wmask.getLsbD (slotOf k)) || (s.lacksSplits c w && !m.subs.isEmpty)

/-- The order in which members of a cell are evicted for some work (R52, R53): for a member to be restored, sleepers of its own team,
youngest first, or without any its own threads that have issued; without these, and for a new team, sleepers, then running threads
of lower priority. -/
def victims (s : State) (c : Nat) (w : Incoming) : List Nat :=
  let all := s.members.filter fun e => cellOf e.1 == c && s.evictable e.1 e.2 && s.helps c w e.1 e.2
  let prioOf (m : Member) : Nat := ((s.team? m.ctx m.team).map Team.prio).getD 0
  let young (l : List (Nat × Member)) : List (Nat × Member) := sortBy (fun a b => b.2.entered ≤ a.2.entered) l
  let asleep := young (all.filter fun e => sleeper e.2 || e.2.run == .stopped)
  let running := young (all.filter fun e => !(sleeper e.2 || e.2.run == .stopped))
  let mine (e : Nat × Member) : Bool := (w.team.map fun t => e.2.ctx == t.ctx && e.2.team == t.handle).getD false
  let own := asleep.filter mine
  let own := if own.isEmpty then running.filter fun e => mine e && e.2.issued else own
  let lower := sortBy (fun a b => prioOf a.2 ≤ prioOf b.2) (running.filter fun e => prioOf e.2 < w.prio)
  (if own.isEmpty then asleep ++ lower else own).map Prod.fst

/-- Members evicted in the order of R52 and R53, one at a time, while the work lacks something: at most `waves` waves and `threads`
scalar threads. -/
def evictFor (w : Incoming) (c : Nat) : Nat → State → Nat → Nat → State
  | 0, s, _, _ => s
  | f + 1, s, waves, threads =>
    let may (k : Nat) : Bool := if slotOf k < 16 then waves != 0 else threads != 0
    match (s.victims c w).find? may with
    | none => s
    | some k => if slotOf k < 16 then evictFor w c f (s.evict k) (waves - 1) threads else evictFor w c f (s.evict k) waves (threads - 1)

end State

/-- PARTIAL_EVICTION (R52, R53): as many members as the first work needs that lacks something and has victims, within what the controller
chose. -/
def execPartialEviction (cell waves threads : Nat) (s : State) : Out :=
  let may (k : Nat) : Bool := if slotOf k < 16 then waves != 0 else threads != 0
  match (s.incoming cell).find? fun w => s.lacks cell w && (s.victims cell w).any may with
  | none => .next s
  | some w => .next (State.evictFor w cell 48 s waves threads)

namespace State

/-- A member's groups under new split-table entries: the i-th entry becomes the i-th of the list (R262). -/
def renumber (m : Member) (es : List Nat) : Member :=
  let ren (n : Nat) : Nat := (((FMap.keys m.subs).zip es).find? fun p => p.1 == n).map Prod.snd |>.getD n
  { m with subs := (m.subs.zip es).foldl (fun (f : FMap Group) p =>
             FMap.ins f p.2 { p.1.2 with parent := p.1.2.parent.map ren }) [],
           cur := m.cur.map ren, serialG := m.serialG.map fun g => g.map ren }

/-- A member put back into a slot (R262); the quota of its team covers the slots of its masks that it holds (R49). -/
def restore (s : State) (t : Team) (k : Nat) (m : Member) : State :=
  let c := t.cell
  let m' := renumber m (s.freeSplits c)
  let s := { s with evicted := s.evicted.filter fun x => x.uid != m.uid }
  let s := (s.setMember k { m' with entered := s.clk, issued := false }).moveBox c (evictedBox m.uid) (slotOf k)
  let named (n : Nat) : Bool := if m.scalar then t.tmask.getLsbD (n - 16) else t.wmask.getLsbD n
  let held := (s.members.filter fun e => e.2.ctx == t.ctx && e.2.team == t.handle && e.2.scalar == m.scalar && named (slotOf e.1)).length
  s.modTeam t.ctx t.handle fun t => if m.scalar then { t with tquota := max t.tquota held } else { t with wquota := max t.wquota held }

end State

/-- MEMBER_RESTORE (R53, R262): a free slot takes an evicted member, runnable or asleep, of a team that is not halted (R251, R263). -/
def execMemberRestore (uid : Nat) (s : State) : Out :=
  match s.evicted.find? fun m => m.uid == uid with
  | none => .next s
  | some m =>
    match s.team? m.ctx m.team with
    | none => .next s
    | some t =>
      let slot := if m.scalar then (s.freeScals t.cell t.tmask).head?.map (scalKey t.cell) else (s.freeWaves t.cell t.wmask).head?.map (waveKey t.cell)
      match slot with
      | none => .next s
      | some k =>
        if m.run == .run && !(s.ctx m.ctx).halted && m.subs.length ≤ (s.freeSplits t.cell).length then .next (s.restore t k m) else .next s

/-- GROUP_SWITCH_LIMIT (R158): a group with 1,024 words in a row stops being current, outside a chain or an ORD pair. -/
def execGroupSwitchLimit (slot : Nat) (s : State) : Out :=
  .next (s.modMember slot fun m => if 1024 ≤ m.inRow && m.chain == 0 && m.ord.isNone then m.rotate else m)

/-! ### Retirement -/

namespace State

/-- Whether an engine job of a team has not completed. -/
def hasJobs (s : State) (ctx h : Nat) : Bool :=
  s.clusters.any fun e : Nat × Cluster =>
    (e.2.jobs.any fun j => j.ctx == ctx && j.team == h && j.st != .done) || e.2.beams.any fun j => j.ctx == ctx && j.team == h

/-- Whether a team can retire (R38): its writes have all been performed, its PCIe requests among them (R45). -/
def canRetire (s : State) (t : Team) : Bool :=
  t.live == 0 && !s.hasChildren t.ctx t.handle && !s.hasJobs t.ctx t.handle && !(s.heldW.any fun e => e.uid != 0 && e.ctx == t.ctx) &&
    !s.pcie.any fun r => r.who.ctx == t.ctx && r.who.team == t.handle

/-- What a context gives up with its last team on a cell, a cluster or a die: DONE tags, ACC tiles, BUDGET (R150, R171, R185). -/
def releaseShared (s : State) (x cell : Nat) : State :=
  let cl := clusterOfCell cell
  let d := dieOfCell cell
  let s := if s.teams.any fun t => t.ctx == x && t.cell == cell then s else
    s.modCell cell fun c => { c with tag := List.filter (fun e : Nat × CopyTag => !(e.2.owner == x && e.2.done)) c.tag }
  let s := if s.teams.any fun t => t.ctx == x && clusterOfCell t.cell == cl then s else
    let lost := ((s.cluster cl).acc.filter fun e => e.2 == x).map Prod.fst
    (lost.foldl (fun s n => s.loseTile cl n) s).modCluster cl fun c =>
      { c with acc := List.filter (fun e : Nat × Nat => e.2 != x) c.acc }
  if s.teams.any fun t => t.ctx == x && t.die == d then s else
    s.modCtx x fun c => { c with budget := FMap.put 0 c.budget d 0, stalled := FMap.put false c.stalled d false }

/-- A launch whose teams have all retired retires (R38, R45). -/
def retireLaunch (s : State) (x lid : Nat) : State :=
  match s.launch? x lid with
  | none => s
  | some l =>
    if l.admitted == l.teams && !(s.teams.any fun t => t.ctx == x && t.lid == lid) then
      ({ s with launches := s.launches.filter fun y => !(y.ctx == x && y.lid == lid) }).signalEnd x l.queue l.stok l.irq
    else s

/-- A team retired (R38, R143): mapped ranges are written back, its slots and its extent are free, and causes still held go to the
log. -/
def retireTeam (s : State) (t : Team) : State :=
  let s := s.dropMappings t.cell t.ctx t.handle
  let s := { s with members := List.filter (fun e : Nat × Member => !(e.2.ctx == t.ctx && e.2.team == t.handle)) s.members,
                    teams := s.teams.filter fun u => !(u.ctx == t.ctx && u.handle == t.handle), impFaults := t.held ++ s.impFaults }
  (s.releaseShared t.ctx t.cell).retireLaunch t.ctx t.lid

end State

/-- TEAM_RETIRE (R38). -/
def execTeamRetire (ctx handle : Nat) (s : State) : Out :=
  match s.team? ctx handle with
  | some t => if s.canRetire t then .next (s.retireTeam t) else .next s
  | none => .next s

end Sys2Proof.Machine
end

