-- ==== Sys2Proof/Machine/Delivery.lean ====
section
/-!
DEFINITION. Machine/Delivery.lean: imprecise faults (R147, R257), the all-asleep trap (R259, R260), decrements of SIG counters
(R287, R288), and the halt of a context by the host (R263).
-/
namespace Sys2Proof.Machine

namespace State

/-! ### Imprecise faults -/

/-- The PC at which a group of a member resumes. -/
def resumePc (m : Member) (g : Option Nat) : Addr := if g == m.cur then m.savedPc else (m.grp g).pc

/-- The trap area of an imprecise fault met by a member (R252, R257). -/
def impArea (f : ImpFault) (m : Member) (oex : Bool) : TrapArea :=
  { v := true, imp := true, oex := oex, lane := BitVec.ofNat 6 f.lane, member := BitVec.ofNat 6 f.member, code := 0, cause := f.cause,
    tpc := resumePc m (interruptible m), taddr := f.addr, tfpc := f.pc, tsib := [] }

/-- The resident member of a team with the lowest index (R257). -/
def lowestMember (s : State) (ctx h : Nat) : Option Member :=
  ((FMap.vals s.members).filter fun m => m.ctx == ctx && m.team == h && m.q0 != 0).foldl (fun (b : Option Member) m =>
    match b with
    | none => some m
    | some x => if m.memberIdx < x.memberIdx then some m else b) none

/-- The entry of the fault log for a fault whose team has retired (R257). -/
def logOrphan (s : State) (f : ImpFault) : State :=
  (s.failLaunch f.ctx f.lid).logFault
    { launch := f.lid, oex := true, imp := true, cause := f.cause, pc := f.pc.toNat, addr := f.addr.toNat, team := f.team, ctx := f.ctx,
      die := f.die, cell := f.cell % 128, member := f.member }

/-- One imprecise fault delivered, held, or logged; none while no member of its team can take it (R253, R257). One that finds no resident
member is left for the first member that issues next. -/
def takeFault (s : State) (f : ImpFault) : Option State :=
  match (s.team? f.ctx f.team).filter fun t => t.lid == f.lid with
  | none => some (s.logOrphan f)
  | some t =>
    if t.trap.v then some (s.modTeam f.ctx f.team fun t => { t with held := t.held ++ [f] })
    else
      match (s.byUid f.uid).filter fun m => m.q0 != 0 with
      | some m => if m.run == .run then some (s.deliver m.uid (impArea f m false)) else none
      | none =>
        match s.lowestMember f.ctx f.team with
        | some m => if m.run == .run && !f.adrift then some (s.deliver m.uid (impArea f m true)) else none
        | none => if f.adrift then none else some { s with impFaults := { f with adrift := true } :: s.impFaults }

/-- The first fault of a list that can be taken, with the others. -/
def takeFirst (s : State) : List ImpFault → List ImpFault → State
  | _, [] => s
  | before, f :: t =>
    match ({ s with impFaults := before ++ t }).takeFault f with
    | some s' => s'
    | none => takeFirst s (before ++ [f]) t

end State

/-- IMPRECISE_FAULT (R257): the oldest fault that can be taken. -/
def execImpreciseFault (s : State) : Out := .next (s.takeFirst [] s.impFaults)

/-! ### All asleep -/

namespace State

/-- Whether a member is asleep, parked at EXIT or halted, with nothing that would wake it now (R259). -/
def restsNow (s : State) (m : Member) : Bool :=
  m.q0 == 0 || m.run == .stopped || (resting m && !(((s.team? m.ctx m.team).map fun t => s.goesOn t.cell m).getD false))

/-- Whether a record of a context waits anywhere (R259). -/
def hasRecords (s : State) (x : Nat) : Bool :=
  s.clusters.any (fun e : Nat × Cluster => e.2.buckets.any (fun b => b.ctx == x) || e.2.inbound.any fun r => r.owner == x) ||
  s.cells.any (fun e : Nat × Cell => (e.2.ready ++ e.2.inbound).any (fun r => r.owner == x) || e.2.steal.any fun q => q.2.any fun r => r.rcd.owner == x) ||
  s.dies.any (fun e : Nat × Die => (e.2.hq ++ e.2.hin).any fun h => h.rcd.owner == x) ||
  !(s.ctx x).spilled.isEmpty || !(s.ctx x).gwaits.isEmpty

/-- Whether a region of a context can commit or must abort, or a waiting lane of it can have the solo token: its messages are under
way in Vutre (R259). -/
def regionMoves (s : State) (x : Nat) : Bool :=
  let mine (d n : Nat) : Bool := ((FMap.find? (s.die d).regions n).map fun r => r.ctx == x).getD false
  s.dies.any fun e : Nat × Die =>
    ((s.committable e.1).map (mine e.1)).getD false || ((s.entangled e.1).map (mine e.1)).getD false ||
    (s.soloReady e.1 && e.2.soloQ.any fun p => ((s.byUid p.1).map fun m => m.ctx == x).getD false)

/-- Whether a job or a message of a context is under way (R259). -/
def hasTraffic (s : State) (x : Nat) : Bool :=
  let uids := ((FMap.vals s.members ++ s.evicted).filter fun m => m.ctx == x).map Member.uid
  s.clusters.any (fun e : Nat × Cluster => e.2.jobs.any (fun j => j.ctx == x && j.st != .done) || e.2.beams.any fun j => j.ctx == x) ||
  s.dies.any (fun e : Nat × Die => e.2.sigs.any fun g => g.ctx == x) || s.pcie.any (fun r => uids.contains r.uid) ||
  s.impFaults.any (fun f => f.ctx == x) || s.heldW.any (fun e => e.ctx == x) || s.regionMoves x ||
  (s.coh.net ++ s.coh.retry).any fun m => m.who.any fun f => f.ctx == x

/-- Whether a launch packet of a context is admissible, or still to be read (R259). -/
def hasPackets (s : State) (x : Nat) : Bool :=
  s.queueKeys.any fun n => s.servedCtx n == x && s.hasAdmissible n

/-- The all-asleep state of a context (R259): some member sleeps, and nothing else moves. -/
def allAsleep (s : State) (x : Nat) : Bool :=
  let ms := FMap.vals s.members |>.filter fun m => m.ctx == x
  let ev := s.evicted.filter fun m => m.ctx == x
  (ms ++ ev).any (fun m => deepSleeper m && m.run == .run) && ms.all s.restsNow && ev.all (fun m => resting m && s.restsNow m) &&
    !s.hasRecords x && !s.hasTraffic x && !s.hasPackets x

/-- Whether a wait can be ended by the host or a peer (R260). -/
def armedOutside : Wait → Bool
  | .adr _ _ _ set _ c _ => set.getLsbD 6 || set.getLsbD 7 || c.space.toNat == spHost || c.space.toNat == spPeer
  | _ => false

/-- The sleeping member of a team with the lowest index, resident or evicted. -/
def lowestSleeper (s : State) (t : Team) : Option Member :=
  ((FMap.vals s.members ++ s.evicted).filter fun m => m.ctx == t.ctx && m.team == t.handle && deepSleeper m && m.run == .run).foldl
    (fun (b : Option Member) m =>
      match b with
      | none => some m
      | some y => if m.memberIdx < y.memberIdx then some m else b) none

/-- A sleeping group of a member made current, outside serial mode: it takes ALL_ASLEEP. -/
def toSleeping (m : Member) : Member :=
  let deep (g : Option Nat) : Bool := ((m.grp g).wait.map deepWait).getD false
  if deep m.cur || !m.serial.isEmpty then m else m.switchTo ((m.names.find? deep).getD m.cur)

/-- ALL_ASLEEP raised in a team at its lowest sleeper (R259). -/
def raiseAsleep (s : State) (t : Team) : State :=
  match s.lowestSleeper t with
  | none => s
  | some m0 =>
    let m := toSleeping m0
    let x := m.grp (interruptible m)
    (s.modUid m.uid fun _ => m).deliver m.uid
      { v := true, imp := false, oex := false, lane := BitVec.ofNat 6 (lowest x.mask), member := BitVec.ofNat 6 m.memberIdx, code := 0,
        cause := Cause.allAsleep, tpc := x.pc, taddr := 0, tfpc := x.pc, tsib := [] }

end State

/-- ALL_ASLEEP (R259, R260). -/
def execAllAsleep (ctx : Nat) (s : State) : Out :=
  if !s.allAsleep ctx then
    .next (if (s.ctx ctx).asleep then s.modCtx ctx fun c => { c with asleep := false } else s)
  else if (FMap.vals s.members ++ s.evicted).any fun m =>
      m.ctx == ctx && m.names.any fun g => ((m.grp g).wait.map State.armedOutside).getD false then
    if (s.ctx ctx).asleep then .next s
    else .next ((s.logFault { cause := Cause.allAsleep, evt := true, ctx := ctx }).modCtx ctx fun c => { c with asleep := true })
  else .next ((s.teams.filter fun t => t.ctx == ctx).foldl State.raiseAsleep s)

/-! ### SIG counters -/

namespace State

def counter (s : State) (d i : Nat) : SigCounter := FMap.get SigCounter.zero (s.die d).counters i
def setCounter (s : State) (d i : Nat) (c : SigCounter) : State :=
  s.modDie d fun x => { x with counters := FMap.put SigCounter.zero x.counters i c }

/-- The 48 bytes at RECPTR for a handler record, or the cause that the read meets (R288). -/
def recArgs (s : State) (d x a : Nat) : Except Cause (List Byte) :=
  if a % 16 != 0 then .error Cause.misaligned
  else
    (List.range 3).foldlM (fun (acc : List Byte) q =>
      match s.reach x (d * 128) spGlobal (a + 16 * q) 16 true false with
      | .error c => .error c
      | .ok t => if s.poisoned t.pa 16 then .error Cause.poison else .ok (acc ++ s.bytes t.pa 16)) []

/-- A counter at zero starts its handler, or the failure is logged (R288). -/
def fireCounter (s : State) (d : Nat) (c : SigCounter) (m : SigMsg) : State :=
  let hpc := c.hpc.toNat * 8
  let fail (cause : Cause) (addr : Nat) : State :=
    (s.failLaunch m.ctx m.orig.lid).logFault
      { launch := m.orig.lid, cause := cause, pc := hpc, addr := addr, team := m.team, ctx := m.ctx, die := d, cell := m.cell % 128,
        member := m.member }
  match s.markKind m.ctx hpc with
  | none => fail Cause.unmarkedTarget 0
  | some 1 => fail Cause.targetKind 0
  | some _ =>
    match s.recArgs d m.ctx c.recptr.toNat with
    | .error e => fail e c.recptr.toNat
    | .ok bs =>
      let (s, q) := s.takeSeq m.ctx
      let r : Rec :=
        { entry := c.hpc, depth := BitVec.ofNat 4 m.depth, kind := 5, rsv := 0, spill := false, ldr := false,
          team := BitVec.ofNat 24 m.team, ctx := BitVec.ofNat 6 m.ctx, seq := q,
          a := (chunks 4 12 bs).map fun b => BitVec.ofNat 32 (ofBytes b), owner := m.ctx, setq := none }
      s.modDie d fun x => { x with hin := x.hin ++ [⟨r, { m.orig with tdesc := c.tdesc.toNat }, 0⟩] }

end State

/-- Whether a lane's earlier stores have all been performed (R288, R289). -/
def State.laneStored (s : State) (uid lane : Nat) : Bool :=
  !s.threadHeld uid (laneMask lane) && !s.pcie.any fun r => r.posted && r.uid == uid && r.lane == lane

/-- SIG_DECREMENT (R288): the oldest decrement on its way whose lane's store has been performed. -/
def execSigDecrement (die : Nat) (s : State) : Out :=
  match (s.die die).sigs.find? fun m => s.laneStored m.uid m.lane with
  | none => .next s
  | some m =>
    let s := (s.modDie die fun x => { x with sigs := x.sigs.erase m }).msgDone m.uid
    let c := s.counter die m.index
    if !c.v || c.ctx.toNat != m.ctx then
      .next { s with impFaults := s.impFaults ++
        [{ cause := Cause.sigCounter, pc := m.pc, addr := 0, lane := m.lane, uid := m.uid, member := m.member, ctx := m.ctx, team := m.team,
           lid := m.orig.lid, die := m.senderDie, cell := m.cell, adrift := false }] }
    else
      let n := c.count.toNat - m.d
      if n != 0 then .next (s.setCounter die m.index { c with count := BitVec.ofNat 32 n })
      else .next ((s.setCounter die m.index { c with count := 0, v := false }).fireCounter die c m)

/-- COUNTER_ARM (R287): words 1 to 3 were written before; an armed entry ignores the write. -/
def execCounterArm (die i : Nat) (w0 : DWord) (s : State) : Out :=
  let c := s.counter die i
  let w := w0.toNat
  if 4 ≤ die || 4096 ≤ i || c.v || s.host.recovery then .next s
  else .next (s.setCounter die i
    { c with v := true, ctx := BitVec.ofNat 6 (bits w 62 57), tdesc := BitVec.ofNat 12 (bits w 47 36), count := BitVec.ofNat 32 w })

/-- COUNTER_DISARM (R287). -/
def execCounterDisarm (die i : Nat) (w0 : DWord) (s : State) : Out :=
  let w := w0.toNat
  if 4 ≤ die || 4096 ≤ i || s.host.recovery then .next s
  else .next (s.setCounter die i
    { s.counter die i with v := false, ctx := BitVec.ofNat 6 (bits w 62 57), tdesc := BitVec.ofNat 12 (bits w 47 36), count := BitVec.ofNat 32 w })

/-! ### The host halts a context -/

namespace State

/-- Whether a member belongs to a team. -/
def isOf (t : Team) (m : Member) : Bool := m.ctx == t.ctx && m.team == t.handle

/-- The group that runs a handler stopped at its next word, with its PC in the member (R263). -/
def stopHandler (s : State) (t : Team) : State :=
  let s := (s.members.filter fun e => isOf t e.2 && e.2.run == .run).foldl (fun s e => s.abortMember (cellOf e.1) e.2.uid Cause.regionHalt) s
  let f (m : Member) : Member := if isOf t m && m.run == .run then { m.rewind with run := .stopped } else m
  { s with members := FMap.mapVals f s.members, evicted := s.evicted.map f }

/-- The members of a team resumed (R263): all of them, or those that the trap under way did not halt. -/
def goTeam (s : State) (t : Team) : State :=
  let f (m : Member) : Member :=
    if isOf t m && !(t.trap.v && (t.trap.tsib.any (fun r => r.1 == m.memberIdx) || m.run != .stopped)) then { m with run := .run } else m
  let s := { s with members := FMap.mapVals f s.members, evicted := s.evicted.map f }
  if t.trap.v then s else s.modTeam t.ctx t.handle fun t => { t with trap := { t.trap with tsib := [] } }

end State

/-- CTXCTL_HALT (R263); not in recovery mode (R301). -/
def execCtxctlHalt (ctx : Nat) (s0 : State) : Out :=
  let s := if s0.host.recovery then s0 else { s0 with host := { s0.host with ctxctl := BitVec.ofNat 6 ctx } }
  if 64 ≤ ctx || s.host.recovery || (s.ctx ctx).halted then .next s
  else
    let s := (s.teams.filter fun t => t.ctx == ctx).foldl (fun s t =>
      if t.trap.v then s.stopHandler t else s.haltTeam t.ctx t.handle 0) s
    .next (s.modCtx ctx fun c => { c with halted := true })

/-- CTXCTL_GO (R263); not in recovery mode (R301). -/
def execCtxctlGo (ctx : Nat) (s0 : State) : Out :=
  let s := if s0.host.recovery then s0 else { s0 with host := { s0.host with ctxctl := BitVec.ofNat 6 ctx } }
  if 64 ≤ ctx || s.host.recovery || !(s.ctx ctx).halted then .next s
  else
    let s := (s.teams.filter fun t => t.ctx == ctx).foldl State.goTeam s
    .next (s.modCtx ctx fun c => { c with halted := false })

end Sys2Proof.Machine
end

