-- ==== Sys2Proof/Machine/Messages.lean ====
section
/-!
DEFINITION. Machine/Messages.lean: coherence messages in flight (R236 to R240, R244, R246 to R248), lease clocks and the rebase
(R240, R241), and the host's half-line requests (R247). Device memory holds the newest value of every byte, so a message moves
what homes and L1 caches record; WRT and ATM also change memory.
-/
namespace Sys2Proof.Machine

namespace State

/-- A message of a kind and tag in flight. -/
def msg? (s : State) (k : MsgKind) (tag : Nat) : Option Msg := s.coh.net.find? fun m => m.kind == k && m.tag == tag

/-- A copy of a message taken out of flight; while others stay there, its tag counts as applied (R238). -/
def dropMsg (s : State) (m : Msg) : State :=
  let net := s.coh.net.erase m
  let more := net.any fun x => x.kind == m.kind && x.tag == m.tag
  let rest := s.coh.applied.filter (· != m.tag)
  { s with coh := { s.coh with net := net, applied := if more then m.tag :: rest else rest } }

/-- A message received: a second one with a tag that has been applied is ignored, and one whose answer finds no free tag waits (R238). -/
def receive (s : State) (k : MsgKind) (tag : Nat) (f : State → Msg → State) : State :=
  match s.msg? k tag with
  | none => s
  | some m => if s.coh.applied.contains tag then s.dropMsg m else s.unlessBusy fun s => f (s.dropMsg m) m

/-- The queue entries in use at the slice of a line (R239). -/
def sliceQueued (s : State) (n : Nat) : Nat :=
  (s.coh.lines.filter fun e => dieOfPa (e.1 * 128) == dieOfPa (n * 128) && homeSlice (e.1 * 128) == homeSlice (n * 128)).foldl
    (fun k e => k + e.2.queue.length) 0

/-- A request that finds the line BUSY joins its queue, or receives NACK (R239). -/
def waitOrNack (s : State) (m : Msg) : State :=
  if s.sliceQueued m.line < (if 4 ≤ m.nacks then 1024 else 992) then s.modLine m.line fun l => { l with queue := l.queue ++ [m] }
  else
    let s := { s with coh := { s.coh with retry := s.coh.retry ++ [{ m with nacks := m.nacks + 1, re := 0 }] } }
    s.send { Msg.bare .nack m.line m.cell with re := m.tag }

/-- The protocol under which a request is made. -/
def reqMode (m : Msg) : LineMode :=
  match m.kind with
  | .lrd => .lease
  | .wrt | .urd | .atm => m.mode
  | _ => .dir

/-- The words of a line that a request takes from the copies: its span under DIR, all of them for another protocol. -/
def reqSpan (m : Msg) : Word := if reqMode m == .dir then m.span else 0xFFFFFFFF

/-- The snoops that a request needs (R236, R237, R246): an owner's cluster has its SNI and no INV. -/
def snoops (s : State) (m : Msg) : List Msg :=
  let l := s.line m.line
  if l.mode != .dir then []
  else
    let sni (o : Nat × Word) (w : Word) : Msg := { Msg.bare .sni m.line o.1 with span := w, re := m.tag }
    let invs (owners : List (Nat × Word)) (w : Word) : List Msg :=
      ((List.range 64).filter fun c => l.sharers.getLsbD c && !(owners.any fun o => clusterOfCell o.1 == c)).map fun c =>
        { Msg.bare .inv m.line m.cell with cluster := c, span := w, re := m.tag }
    if reqMode m != .dir then l.owners.map (fun o => sni o o.2) ++ invs l.owners 0xFFFFFFFF
    else
      match m.kind with
      | .rds =>
        (l.owners.filter fun o => o.1 != m.cell && o.2 &&& m.span != 0).map fun o =>
          { Msg.bare .sns m.line o.1 with span := o.2 &&& m.span, re := m.tag }
      | .atm =>
        let hit := l.owners.filter fun o => o.2 &&& m.span != 0
        hit.map (fun o => sni o (o.2 &&& m.span)) ++ invs hit m.span
      | _ =>
        let hit := l.owners.filter fun o => o.1 != m.cell && o.2 &&& m.span != 0
        -- a fifth owner recalls the oldest entry that is left, with its whole mask (R236)
        let left := l.owners.filter fun o => o.1 == m.cell || o.2 &&& ~~~m.span != 0
        let oldest := if l.owners.any (·.1 == m.cell) || left.length < 4 then [] else left.take 1
        (hit.filter fun o => !oldest.contains o).map (fun o => sni o (o.2 &&& m.span)) ++ oldest.map (fun o => sni o o.2) ++
          invs (hit ++ oldest) m.span

/-- The words of a WRT written. -/
def writeWords (s : State) (m : Msg) : State :=
  ((lanesOf m.span).zip (chunks 4 32 m.data)).foldl (fun s p => s.put (m.line * 128 + 4 * p.1) p.2) s

/-- The words of a span of a line, as DATA and SDAT carry them. -/
def spanBytes (s : State) (n : Nat) (span : Word) : List Byte := (lanesOf span).flatMap fun i => s.bytes (n * 128 + 4 * i) 4

/-- The answer to a request (R238): a grant or a reply with its words, and the poison of their line (R148). -/
def reply (s : State) (m : Msg) (span : Word) (own : Bool) (data : List Byte) : State :=
  s.send { Msg.bare .data m.line m.cell with
    span := span, flag := own, data := data, poison := if data.isEmpty then 0 else s.linePoison m.line, re := m.tag, who := m.who }

/-- The answer with a whole LEASE line and its stamps (R240); `op` holds the old value of an atomic, which keeps no copy. -/
def replyLine (s : State) (m : Msg) (wts exp : BitVec 16) (op : Option AccOp := none) : State :=
  s.send { Msg.bare .data m.line m.cell with
    span := 0xFFFFFFFF, wts := wts, exp := exp, data := s.lineBytes m.line, tags := s.lineTags m.line, poison := s.linePoison m.line,
    re := m.tag, op := op, who := m.who }

/-- The stamps of a write or an atomic at the home, with the clock that its message carries or without one (R240, R245). -/
def stampWrite (s : State) (m : Msg) : State :=
  let l := s.line m.line
  if m.flag && dieOfCell m.cell == dieOfPa (m.line * 128) then
    let t := smax m.pts (l.rts + 1)
    (s.modLine m.line fun l => { l with wts := t, rts := t }).stamp (dieOfPa (m.line * 128)) t
  else s.leaseBare m.line true

/-- The atomic of an ATM performed in the slice, at the byte of the line that it names: the old value. -/
def performAtm (s : State) (m : Msg) : State × Nat :=
  let a := m.line * 128 + m.off.toNat
  match m.op with
  | some (.atom op w b) => s.atomic a op w b
  | some (.cas e x) => s.compareSwap a (4 * laneCount m.span) e x
  | _ => (s, s.num a (4 * laneCount m.span))

/-- A request whose responses are all in is performed at the home (R237, R240, R244, R245). -/
def performReq (s : State) (m : Msg) : State :=
  let n := m.line
  let mode := reqMode m
  let s := s.convert n mode
  let s := if mode == .dir then s.recallHost n m.span else s
  let l := s.line n
  let local' := dieOfCell m.cell == dieOfPa (n * 128)
  match m.kind with
  | .rds =>
    let s := (s.recallLine n m.span (some m.cell) false).modLine n fun l => { l with sharers := l.sharers ||| sharerBit m.cell }
    s.reply m m.span false (s.spanBytes n m.span)
  | .rdo | .upg =>
    let lost := m.kind == .upg && (s.l1 m.cell n).valid &&& m.span != m.span
    let s := ((s.recallLine n m.span (some m.cell) true).invalidate n m.span (some m.cell)).enterOwner n m.cell m.span
    s.reply m m.span true (if m.flag || lost then s.spanBytes n m.span else [])
  | .lrd =>
    if local' then
      let e := smax m.pts l.wts + m.exp
      let s := (s.modLine n fun l => { l with rts := smax l.rts e }).stamp (dieOfPa (n * 128)) e
      s.replyLine m l.wts e
    else s.reply m 0xFFFFFFFF false (s.lineBytes n)
  | .wrt =>
    let s := s.writeWords m
    if mode != .lease then s.reply m m.span false []
    else
      let s := s.stampWrite m
      if m.flag && local' then s.replyLine m (s.line n).wts (s.line n).rts else s.reply m m.span false []
  | .atm =>
    let s := if mode == .dir then (s.recallLine n m.span none true).invalidate n m.span none else s
    let (s, old) := s.performAtm m
    let s := if mode == .lease then s.stampWrite m else s
    if mode == .lease && m.flag && local' then s.replyLine m (s.line n).wts (s.line n).rts (some (.store old false))
    else s.reply m m.span false (toBytes (4 * laneCount m.span) old)
  | _ => s.reply m m.span false (s.spanBytes n m.span)

/-- A request begins at its home: without snoops it is performed at once; otherwise the line is BUSY until the responses are in. -/
def beginReq (s : State) (m : Msg) : State :=
  let ms := s.snoops m
  if ms.isEmpty then s.performReq m
  else ms.foldl send (s.modLine m.line fun l => { l with tx := some ⟨m, ms.length, 0⟩ })

/-- Whether a request finds a LEASE line of another protocol that some clock has not passed yet (R246). -/
def reqWaits (s : State) (m : Msg) : Bool := s.lineWaits (m.line * 128) (some (reqMode m))

/-- The queued requests of a line served in order while it is not BUSY (R239). -/
def serveQueue : Nat → State → Nat → State
  | 0, s, _ => s
  | f + 1, s, n =>
    match s.busy n, (s.line n).queue with
    | false, m :: rest =>
      if s.reqWaits m then s.markConv n (some (reqMode m))
      else serveQueue f ((s.modLine n fun l => { l with queue := rest }).beginReq m) n
    | _, _ => s

/-- The whole queue of a line served as far as it can be. -/
def serveAll (s : State) (n : Nat) : State := (serveQueue ((s.line n).queue.length + 1) s n).settle n

/-- The SHARERS bits of clusters that hold no word of a line cleared (R236). -/
def clearGone (s : State) (n : Nat) (gone : DWord) : State :=
  let empty := gone &&& BitVec.ofNat 64 (((List.range 64).filter fun c => gone.getLsbD c && !s.clusterHolds c n).foldl (fun x c => x + 2 ^ c) 0)
  s.modLine n fun l => { l with sharers := l.sharers &&& ~~~empty }

/-- A response counted; the last one completes the transaction, and then what EVN reported meanwhile counts (R239, R248). -/
def response (s : State) (n re : Nat) : State :=
  match (s.line n).tx with
  | none => s
  | some t =>
    if t.req.tag != re then s
    else if 1 < t.awaits then s.modLine n fun l => { l with tx := some { t with awaits := t.awaits - 1 } }
    else
      ((((s.modLine n fun l => { l with tx := none }).performReq t.req).clearGone n t.gone)).serveAll n

/-- A request arrives at its home. One for a line that has no home, or that stands for a scratchpad line, is dropped; one that finds
the line BUSY, or starts a change of protocol that must wait, joins the queue (R239, R246). A write of a word that a solo region has
read waits (R229). -/
def arriveReq (s : State) (k : MsgKind) (tag : Nat) : State :=
  let held (m : Msg) : Bool := (k == .wrt || k == .atm) && (s.soloHolds (m.line * 128 + 4 * lowest m.span) (4 * laneCount m.span)).isSome
  if (s.msg? k tag).any held then s
  else s.receive k tag fun s m =>
    if !isHbm (m.line * 128) || (FMap.find? s.mapped m.line).isSome then s
    else if s.reqWaits m || !(s.line m.line).queue.isEmpty then (s.markConv m.line (some (reqMode m))).waitOrNack m
    else (s.beginReq m).settle m.line

/-- A span of a line invalidated in the cells of a cluster but one, owned words excepted (R237). -/
def clusterInv (s : State) (n cluster : Nat) (span : Word) (except : Nat) : State :=
  (List.range 8).foldl (fun s i =>
    let c := cluster * 8 + i
    let own := (((s.line n).owners.find? fun o => o.1 == c).map Prod.snd).getD 0
    if c == except then s else s.modL1 c n fun x => { x with valid := x.valid &&& (~~~span ||| own) }) s

/-- The words of an owner entry of a line given up. -/
def dropOwned (s : State) (n cell : Nat) (span : Word) : State :=
  s.modLine n fun l =>
    { l with owners := (l.owners.map fun o => if o.1 == cell then (o.1, o.2 &&& ~~~span) else o).filter (·.2 != 0) }

/-- An owner answers a snoop (R237, R248): with WBIF while a write-back of the words is in flight, and with the words otherwise. Under
SNI the other cells of its cluster lose the span that the transaction takes (log 20). -/
def answerSnoop (s : State) (m : Msg) (inv : Bool) : State :=
  let s := match (s.line m.line).tx with
    | some t => if inv then s.clusterInv m.line (clusterOfCell m.cell) (reqSpan t.req) t.req.cell else s
    | none => s
  let crosses (x : Msg) : Bool :=
    x.kind == .wb && x.line == m.line && x.cell == m.cell && x.span &&& m.span != 0 && x.re == 0 && !s.coh.applied.contains x.tag
  match s.coh.net.find? crosses with
  | some w =>
    -- one of the write-backs that cross the snoop answers it, and with it every copy that a link has sent again (R238)
    let mark (x : Msg) : Msg := if x.kind == .wb && x.tag == w.tag then { x with re := m.re + 1 } else x
    ({ s with coh := { s.coh with net := s.coh.net.map mark } }).send { Msg.bare .wbif m.line m.cell with re := m.re }
  | none =>
    let s := s.modL1 m.cell m.line fun x =>
      { x with dirty := x.dirty &&& ~~~m.span, valid := if inv then x.valid &&& ~~~m.span else x.valid }
    s.send { Msg.bare .sdat m.line m.cell with span := m.span, flag := !inv, data := s.spanBytes m.line m.span, re := m.re }

/-- A grant or reply arrives at its cell: words that the directory still gives it, or a LEASE copy with its clock, which an atomic
does not keep (R237, R240). -/
def takeData (s : State) (m : Msg) : State :=
  let l := s.line m.line
  let mine := ((l.owners.find? fun o => o.1 == m.cell).map Prod.snd).getD 0
  let owned := l.owners.foldl (fun w o => w ||| o.2) 0
  if l.mode == .dir then
    let got := if m.flag then m.span &&& mine else if l.sharers &&& sharerBit m.cell != 0 then m.span &&& ~~~owned else 0
    if got == 0 then s
    else s.fillL1 m.cell m.line 0 fun x => { x with valid := x.valid ||| got, dirty := if m.flag then x.dirty ||| got else x.dirty }
  else if l.mode == .lease && m.data.length == 128 && dieOfCell m.cell == dieOfPa (m.line * 128) then
    let s := s.raisePts m.cell m.wts
    if m.op.isSome || ltS m.exp (s.die (dieOfCell m.cell)).floor then s
    else s.fillL1 m.cell m.line 0 fun x => { x with lease := some ⟨m.wts, m.exp, m.data, m.tags, m.poison⟩ }
  else s

end State

/-- RDS (R237): served at its home. -/
def execRds (tag : Nat) (s : State) : Out := .next (s.arriveReq .rds tag)

/-- RDO (R237). -/
def execRdo (tag : Nat) (s : State) : Out := .next (s.arriveReq .rdo tag)

/-- UPG (R248): served like RDO, with the words that its cluster may have lost. -/
def execUpg (tag : Nat) (s : State) : Out := .next (s.arriveReq .upg tag)

/-- LRD (R240). -/
def execLrd (tag : Nat) (s : State) : Out := .next (s.arriveReq .lrd tag)

/-- WRT (R240, R244, R245). -/
def execWrt (tag : Nat) (s : State) : Out := .next (s.arriveReq .wrt tag)

/-- URD (R244, R245). -/
def execUrd (tag : Nat) (s : State) : Out := .next (s.arriveReq .urd tag)

/-- ATM (R210, R237, R240). -/
def execAtm (tag : Nat) (s : State) : Out := .next (s.arriveReq .atm tag)

/-- INV (R237, R238): a cluster invalidates a span in every cell but the requester's, owned words excepted, and answers IACK. -/
def execInv (tag : Nat) (s : State) : Out :=
  .next (s.receive .inv tag fun s m =>
    (s.clusterInv m.line m.cluster m.span m.cell).send { Msg.bare .iack m.line m.cell with cluster := m.cluster, re := m.re })

/-- SNS (R237). -/
def execSns (tag : Nat) (s : State) : Out := .next (s.receive .sns tag fun s m => s.answerSnoop m false)

/-- SNI (R237). -/
def execSni (tag : Nat) (s : State) : Out := .next (s.receive .sni tag fun s m => s.answerSnoop m true)

/-- IACK (R238). -/
def execIack (tag : Nat) (s : State) : Out := .next (s.receive .iack tag fun s m => s.response m.line m.re)

/-- SDAT (R237, R238): the owner's words leave its MASK; a cluster that keeps them clean is a sharer (log 20). -/
def execSdat (tag : Nat) (s : State) : Out :=
  .next (s.receive .sdat tag fun s m =>
    let s := s.dropOwned m.line m.cell m.span
    let s := if m.flag then s.modLine m.line fun l => { l with sharers := l.sharers ||| sharerBit m.cell } else s
    s.response m.line m.re)

/-- WBIF (R248): the home goes on waiting, for the write-back. -/
def execWbif (tag : Nat) (s : State) : Out := .next (s.receive .wbif tag fun s _ => s)

/-- DATA (R238, R240). -/
def execData (tag : Nat) (s : State) : Out := .next (s.receive .data tag State.takeData)

/-- NACK (R239): the request is to be sent again after 32·2^min(n, 5) clk. -/
def execNack (tag : Nat) (s : State) : Out :=
  .next (s.receive .nack tag fun s m =>
    let due (x : Msg) : Msg := if x.tag == m.re then { x with re := s.clk + 32 * 2 ^ min x.nacks 5 } else x
    { s with coh := { s.coh with retry := s.coh.retry.map due } })

/-- NACK_RETRY (R239): once its delay is over. -/
def execNackRetry (tag : Nat) (s : State) : Out :=
  match s.coh.retry.find? fun m => m.tag == tag with
  | none => .next s
  | some m =>
    if m.re == 0 || s.clk < m.re then .next s
    else .next (s.unlessBusy fun s => ({ s with coh := { s.coh with retry := s.coh.retry.erase m } }).send { m with re := 0 })

/-- WB (R238, R248): the words leave the owner MASK, those that the cell has dirtied again excepted; it answers a snoop that it
crossed. -/
def execWb (tag : Nat) (s : State) : Out :=
  .next (s.receive .wb tag fun s m =>
    let again := (s.l1 m.cell m.line).dirty
    let s := s.dropOwned m.line m.cell (m.span &&& ~~~again)
    let s := if m.flag then s else s.modLine m.line fun l => { l with sharers := if l.mode == .dir then l.sharers ||| sharerBit m.cell else l.sharers }
    if m.re == 0 then s.settle m.line else s.response m.line (m.re - 1))

/-- EVN (R236, R238, R239, R248): the SHARERS bit of a cluster that holds no word is cleared; one that crosses an INV of its cluster takes
effect once the transaction of that INV is complete. -/
def execEvn (tag : Nat) (s : State) : Out :=
  .next (s.receive .evn tag fun s m =>
    let bit := BitVec.ofNat 64 (2 ^ m.cluster)
    let crosses (x : Msg) : Bool := (x.kind == .inv || x.kind == .iack) && x.line == m.line && x.cluster == m.cluster
    match (s.line m.line).tx with
    | some t =>
      if s.coh.net.any crosses then s.modLine m.line fun l => { l with tx := some { t with gone := t.gone ||| bit } }
      else s.clearGone m.line bit
    | none => (s.clearGone m.line bit).settle m.line)

/-! ### Clocks -/

/-- PTS_TICK (R240): the clock of every cell of a die; lines that every clock has now passed change protocol, and their queues are
served (R239, R246). The replies to accesses of the die's threads have come by then (log 83). -/
def execPtsTick (die : Nat) (s : State) : Out :=
  let s := (List.range 128).foldl (fun s i => s.setPts (die * 128 + i) (s.pts (die * 128 + i) + 1)) s
  let s := s.finishConvs die
  let s := { s with coh := { s.coh with flights := s.coh.flights.filter fun f => f.who.die != die } }
  .next ((s.coh.lines.filter fun e => dieOfPa (e.1 * 128) == die && !e.2.queue.isEmpty).foldl (fun s e => s.serveAll e.1) s)

/-- The floor that TMAX asks for (R241). -/
def floorFor (tmax : BitVec 16) : BitVec 16 := BitVec.ofNat 16 (tmax.toNat / 8192 * 8192) - 8192

/-- A stamp raised to the floor. -/
def atLeast (f t : BitVec 16) : BitVec 16 := if ltS t f then f else t

/-- LEASE_REBASE (R241, R246). -/
def execLeaseRebase (die : Nat) (s : State) : Out :=
  let f := floorFor (s.die die).tmax
  if (s.die die).floor == f then .next s
  else
    let mine (n : Nat) : Bool := dieOfPa (n * 128) == die
    let old := s.coh.lines.filter fun e => mine e.1 && e.2.mode == .lease && ltS e.2.rts f && e.2.tx.isNone && e.2.conv.isNone && e.2.queue.isEmpty
    let s := old.foldl (fun s e => s.leaveLease e.1) s
    let up (e : Nat × Line) : Nat × Line :=
      if mine e.1 && e.2.mode == .lease then (e.1, { e.2 with wts := atLeast f e.2.wts, rts := atLeast f e.2.rts }) else e
    let copies := s.coh.l1.filterMap fun e =>
      if dieOfCell (e.1 / 2 ^ 46) != die then some e
      else
        match e.2.lease with
        | some c =>
          if ltS c.exp f then
            let e' := { e.2 with lease := none }
            if e' == L1Line.init then none else some (e.1, e')
          else some e
        | none => some e
    let s := { s with coh := { s.coh with lines := s.coh.lines.map up, l1 := copies } }
    let s := (List.range 128).foldl (fun s i => s.modCell (die * 128 + i) fun c => { c with pts := atLeast f c.pts }) s
    let mts (x : Die) : FMap (BitVec 16) :=
      (List.range 16).foldl (fun m i => FMap.put 0xFFF0 m i (atLeast f (FMap.get 0xFFF0 m i))) x.mts
    .next (s.modDie die fun x => { x with floor := f, mts := mts x })

/-- HOST_HALF_REQUEST (R247): the host takes a half of a DIR line; a LEASE or UNC line stays with its home. -/
def execHostHalfRequest (line : Nat) (half : Bool) (s : State) : Out :=
  let l := s.line line
  if !isHbm (line * 128) || (FMap.find? s.mapped line).isSome || s.busy line || l.mode == .lease || l.mode == .unc then .next s
  else
    let span : Word := if half then 0xFFFF0000 else 0x0000FFFF
    let s := ((s.convert line .dir).recallLine line span none true).invalidate line span none
    .next (s.modLine line fun l => { l with hown := l.hown ||| (if half then 2 else 1) })

end Sys2Proof.Machine
end

