-- ==== Sys2Proof/Machine/Host.lean ====
section
/-!
DEFINITION. Machine/Host.lean: what the host does and what happens around the dies: BAR0 registers and context blocks (R41, R45,
R263, R284, R287, R294, R296 to R301), BAR2 traffic (R206, R295), links (R248, R293), SPDM (R290), power-up, firmware, attestation
and die resets (R291, R292, R301), storage errors and retirement (R12 to R16, R148), the freeze (R263).
-/
namespace Sys2Proof.Machine

/-! ### Registers -/

namespace State

def modHost (s : State) (f : HostRegs → HostRegs) : State := { s with host := f s.host }

/-- A write of FLCFG or EVCFG to a ring (R298, R299); a LOGSIZE outside 4 to 16 is kept as written (log 52). -/
def ringCfg (r : LogRing) (w : Nat) : LogRing :=
  let fresh := w.testBit 16 && !r.en
  { r with logsize := BitVec.ofNat 5 w, vec := BitVec.ofNat 11 (w / 2 ^ 5), en := w.testBit 16, ovf := r.ovf && !w.testBit 17,
           head := if fresh then 0 else r.head, tail := if fresh then 0 else r.tail }

/-- A physical address that a table register keeps: bits 51 to 12. -/
def tableReg (x : DWord) : DWord := x &&& 0x000FFFFFFFFFF000

/-- A ring address: 32-byte aligned, bit 63 for host memory. -/
def ringReg (x : DWord) : DWord := x &&& 0xFFFFFFFFFFFFFFE0

/-- A write of a register of a context block that has no behaviour of its own (R298). -/
def ctxReg (c : Ctx) (off : Nat) (x : DWord) : Ctx :=
  let free := !c.en
  match off with
  | 0x00 => if free then { c with root := tableReg x } else c
  | 0x08 => { c with weight := x.setWidth 8 }
  | 0x10 => if free then { c with poolsz := x.setWidth 32 } else c
  | 0x18 => if free then { c with captab := tableReg x } else c
  | 0x20 => if free then { c with fmttab := tableReg x } else c
  | 0x28 => if free then { c with marktab := tableReg x } else c
  | 0x30 => if free then { c with markcnt := x.setWidth 13 } else c
  | 0x38 => if free then { c with desctab := tableReg x } else c
  | 0x40 => if free then { c with desccnt := x.setWidth 13 } else c
  | 0x48 => { c with caplo := x }
  | 0x50 => { c with caphi := x }
  | 0x60 => if c.log.en then c else { c with log := { c.log with base := ringReg x } }
  | 0x70 => { c with log := { c.log with head := x.setWidth 32 } }
  | _ => c

/-- A write of words 1 to 3 of a counter entry while it is disarmed (R287). -/
def counterReg (c : SigCounter) (w : Nat) (x : DWord) : SigCounter :=
  if c.v then c
  else match w with
    | 1 => { c with hpc := x.extractLsb' 16 48 }
    | 2 => { c with recptr := x.setWidth 57 }
    | _ => c

/-- A 64-bit BAR0 register that only keeps what is written (R296); an FWLEN above 64 MiB is kept as written (log 52). Offsets that the
table does not list ignore the write, and so does a CTXCTL with HALT and GO both set (log 105). -/
def plainReg (s : State) (off : Nat) (x : DWord) : State :=
  if off == 0x3008 then s.modHost fun h => { h with fwAddr := BitVec.ofNat 40 (x.toNat % 2 ^ 40 / 64 * 64) }
  else if off == 0x3010 then s.modHost fun h => { h with fwLen := x.setWidth 32 }
  else if off == 0x80000 then s.modHost fun h => if h.ev.en then h else { h with ev := { h.ev with base := ringReg x } }
  else if off == 0x80010 then s.modHost fun h => { h with ev := { h.ev with head := x.setWidth 32 } }
  else if s.host.recovery then s
  else if off == 0x160 then
    let w := x.toNat % 2 ^ 12
    if 1000 ≤ w && w ≤ 2700 then s.modHost fun h => { h with pwrlim := BitVec.ofNat 12 w } else s
  else if off == 0x1008 then
    -- without HALT and GO, a write names the context whose HALTED is read (R263)
    if bits x.toNat 7 6 == 0 then s.modHost fun h => { h with ctxctl := x.setWidth 6 } else s
  else if off == 0x1000 then s.modHost fun h => { h with rbsel := BitVec.ofNat 64 (bits x.toNat 43 23 * 2 ^ 23) }
  else if 0x40000 ≤ off && off < 0x44000 then s.modCtx ((off - 0x40000) / 256) fun c => ctxReg c (off % 256) x
  else if 0x100000 ≤ off && off < 0x102000 then
    let q := (off - 0x100000) / 32
    if off % 32 == 0 && !(s.queue q).en then s.setQueue q { s.queue q with base := x &&& 0xFFFFFFFFFFFFFF80 } else s
  else if 0x180000 ≤ off && off < 0x280000 then
    let n := (off - 0x180000) / 4
    if n % 4096 == 0 || off % 4 != 0 then s
    else s.modCtx (n / 4096) fun c => { c with tok := FMap.put 0 c.tok (n % 4096) (x.setWidth 32) }
  else if 0x300000 ≤ off && off < 0x380000 && off % 8 == 0 then
    let d := (off - 0x300000) / 0x20000
    let i := (off - 0x300000) % 0x20000 / 32
    s.setCounter d i (counterReg (s.counter d i) (off % 32 / 8) x)
  else if 0x600000 ≤ off && off < 0x600000 + 0x8100 && off % 8 == 0 then s.modHost fun h => { h with msixTab := FMap.put 0 h.msixTab ((off - 0x600000) / 8) x }
  else s

end State

/-- REGISTER_WRITE (R296). In recovery mode only the firmware registers and the event log answer (R301). -/
def execRegisterWrite (off : Nat) (val : DWord) (s : State) : Out := .next (s.plainReg off val)

/-- DIEHT_WRITE (R284): H lies in 0 to 64 and takes effect at the next admission round. -/
def execDiehtWrite (die : Nat) (val : DWord) (s : State) : Out :=
  let h := bits val.toNat 6 0
  if 4 ≤ die || 64 < h || s.host.recovery then .next s else .next (s.modDie die fun x => { x with dieht := BitVec.ofNat 7 h })

/-- FLCFG_WRITE: of a context's ring, or of the event log without a context (R298, R299). -/
def execFlcfgWrite (ctx : Option Nat) (val : DWord) (s : State) : Out :=
  match ctx with
  | none => .next (s.modHost fun h => { h with ev := State.ringCfg h.ev val.toNat })
  | some x =>
    if 64 ≤ x || s.host.recovery then .next s else .next (s.modCtx x fun c => { c with log := State.ringCfg c.log val.toNat })

/-- CAPW (R298): with GO, CAPHI:CAPLO becomes a slot of the capability table, tagged unless SPACE or E is reserved. -/
def execCapw (ctx : Nat) (val : DWord) (s : State) : Out :=
  let c := s.ctx ctx
  let w := val.toNat
  let pa := tableAddr c.captab + 16 * bits w 7 0
  if 64 ≤ ctx || !w.testBit 8 || !isHbm pa || s.host.recovery then .next s
  else
    let cap := Cap.ofWords true c.caplo c.caphi
    .next (s.devWrite pa (toBytes 16 cap.toNat128) (cap.eOk && cap.space.toNat ≤ 7))

/-- Whether the tables of a context let it become live (R298). -/
def Ctx.tablesOk (c : Ctx) : Bool :=
  let inHbm (r : DWord) (n : Nat) : Bool := tableAddr r + max 1 n ≤ hbmEnd
  inHbm c.root (2 ^ 24) && inHbm c.captab 4096 && inHbm c.fmttab 16384 && inHbm c.marktab (8 * c.markcnt.toNat) &&
    inHbm c.desctab (64 * c.desccnt.toNat) && c.markcnt.toNat ≤ 4096 && c.desccnt.toNat ≤ 4096 && c.poolsz.toNat % 64 == 0 &&
    128 ≤ c.poolsz.toNat

/-- CTXEN_WRITE (R298): a context becomes live with its counters at 0, or is disabled when nothing of it is left. -/
def execCtxenWrite (ctx : Nat) (val : DWord) (s : State) : Out :=
  let c := s.ctx ctx
  if 64 ≤ ctx || s.host.recovery then .next s
  else if val.getLsbD 0 then
    if c.en || !c.tablesOk then .next s
    else .next (s.setCtx ctx { c with en := true, seq := 0, nextLid := 0, tok := [], spilled := [], gwaits := [], nodes := [], asleep := false })
  else if s.launches.any (fun l => l.ctx == ctx) || s.queueKeys.any fun q => (s.queue q).ctx.toNat == ctx && (s.queue q).en then .next s
  else .next (s.setCtx ctx { c with en := false })

/-- TLBINV (R146, R297): entries of the context that cover the address, or all of them, are dropped in every TLB and walk cache. -/
def execTlbinv (val : DWord) (s : State) : Out :=
  let w := val.toNat
  if !w.testBit 63 || !s.host.tlbDone || s.host.recovery then .next s
  else
    let x := bits w 62 57
    let va := bits w 56 16 * 2 ^ 16
    let all := w.testBit 1
    let stays (e : TlbEntry) : Bool := e.ctx != x || !(all || e.va / 2 ^ e.bits == va / 2 ^ e.bits)
    let drop (f : FMap (List TlbEntry)) : FMap (List TlbEntry) := (FMap.mapVals (fun es => es.filter stays) f).filter fun e => !e.2.isEmpty
    let keeps (e : WalkEntry) : Bool := e.ctx != x || !(all || e.va == va / 2 ^ e.sh)
    let walks := (FMap.mapVals (fun es => es.filter keeps) s.coh.walks).filter fun e => !e.2.isEmpty
    let s := { s with coh := { s.coh with tlb := drop s.coh.tlb, tlb2 := drop s.coh.tlb2, walks := walks } }
    .next (s.modHost fun h => { h with tlbCtx := BitVec.ofNat 6 x, tlbVa := BitVec.ofNat 41 (bits w 56 16), tlbAll := all, tlbDone := false })

/-- TLBINV_DONE (R297): once no access and no write that used an old entry is held, or stands in an open region. -/
def execTlbinvDone (s : State) : Out :=
  let held (m : Member) : Bool := m.ctx == s.host.tlbCtx.toNat && m.names.any fun g =>
    match (m.grp g).wait with
    | some (.access _ _ _ _ _ h _) => !h.isEmpty
    | _ => false
  let jobs := s.clusters.flatMap fun e : Nat × Cluster => (e.2.jobs.filter fun j => j.ctx == s.host.tlbCtx.toNat).map fun j => (e.1, j.key)
  let wrote (e : HeldWrite) : Bool :=
    (e.uid != 0 && e.ctx == s.host.tlbCtx.toNat) || e.job.any jobs.contains
  let open' (r : Region) : Bool := r.isOpen && r.ctx == s.host.tlbCtx.toNat && !r.writes.isEmpty
  if (FMap.vals s.members ++ s.evicted).any held || s.heldW.any wrote || s.dies.any (fun e : Nat × Die => (FMap.vals e.2.regions).any open') then .next s else .next (s.modHost fun h => { h with tlbDone := true })

/-! ### BAR2 and peers -/

/-- The parts of n bytes from pa that lie in one line each: address, offset and length. -/
def lineParts (pa n : Nat) : List (Nat × Nat × Nat) :=
  if n == 0 then []
  else (List.range ((pa + n - 1) / 128 + 1 - pa / 128)).map fun i =>
    let a := max pa ((pa / 128 + i) * 128)
    (a, a - pa, min (pa + n) ((pa / 128 + i + 1) * 128) - a)

/-- One line's part of a host write performed, or held at its home: behind a solo region, a lent block, a BUSY line, or an earlier host
write that is held (R68, R206, R229, R239). -/
def State.hostPut (s : State) (pa : Nat) (bs : List Byte) : State :=
  if s.lineWaits pa none then s.hold (homeHeld none pa bs false [] none)
  else s.homeWrite none pa bs

/-- HOST_WRITE (R135, R206, R295): bytes at device physical addresses, or in recovery mode in the staging buffer. Memory behind a
die that is not TRUSTED takes no traffic (R291). -/
def execHostWrite (pa : Nat) (bytes : List Byte) (s : State) : Out :=
  if s.host.recovery then
    .next (s.modHost fun h => { h with staging :=
      (bytes.zipIdx.foldl (fun m p => if pa + p.2 < 2 ^ 26 then FMap.put 0 m (pa + p.2) p.1 else m) h.staging) })
  else if !((List.range bytes.length).all fun i => backed (pa + i)) then .fault .unbackedAddress
  else if bytes.isEmpty || !(s.trusted (dieOfPa pa) && s.trusted (dieOfPa (pa + bytes.length - 1))) then .next s
  else .next ((lineParts pa bytes.length).foldl (fun s p => s.hostPut p.1 ((bytes.drop p.2.1).take p.2.2)) s)

/-- HOST_READ (R206, R295): the bytes are what the host receives. A read follows the host's held writes, and one that meets a BUSY line
is not served at this step (R229, R239). What a read behind a die that is not TRUSTED returns is open (log 45). -/
def execHostRead (pa n : Nat) (s : State) : Out :=
  if s.host.recovery then
    .next (s.modHost fun h => { h with readData := (List.range n).map fun i => FMap.get 0 h.staging (pa + i) })
  else if !((List.range n).all fun i => backed (pa + i)) then .fault .unbackedAddress
  else if n != 0 && !(s.trusted (dieOfPa pa) && s.trusted (dieOfPa (pa + n - 1))) then
    let bs := (List.range n).map fun i => Config.hostByte (s.fresh + i)
    .next (({ s with fresh := s.fresh + n }).modHost fun h => { h with readData := bs })
  else if s.threadHeld 0 1 then .next s
  else .next (s.unlessBusy fun s => (s.touchHome pa n false).modHost fun h => { h with readData := s.bytes pa n })

/-- PEER_WRITE_FAIL (R300): the oldest posted write to a peer is dropped, with event 6. -/
def execPeerWriteFail (s : State) : Out :=
  let posted (r : PcieReq) : Bool := r.peer && r.posted && !r.op.reads
  match s.pcie.find? posted with
  | none => .next s
  | some r => .next (({ s with pcie := s.pcie.erase r }).logEvent 6 0 0 r.addr)

/-! ### Links -/

namespace State

/-- New keys installed at both ends of a link, one per direction (R293). -/
def installKey (s : State) (n : Nat) : State :=
  if 8 ≤ n || !s.linkLive n || (s.link n).out.newKey.isSome then s
  else
    { s.modLink n fun l =>
        { l with out := { l.out with newKey := some (Config.linkKey s.fresh) },
                 back := { l.back with newKey := some (Config.linkKey (s.fresh + 1)) } } with fresh := s.fresh + 2 }

/-- The sender of a direction switches to the new key: the receiver keeps the old one for 1,024 flits (R293). -/
def switchKey (x : LinkDir) : LinkDir :=
  match x.newKey with
  | none => x
  | some k => { x with key := k, index := !x.index, newKey := none, flits := 0, oldKey := some x.key, grace := 1024 }

/-- The last flit of a direction sent again, with the key it was first sent with: the old one while none has gone with the new (R293). -/
def resend (x : LinkDir) : LinkDir := { x with resent := some (if x.flits == 0 then x.oldKey.getD x.key else x.key) }

/-- Whether a message's way between its ends takes a link. -/
def crossesLink (s : State) (n : Nat) (m : Msg) : Bool := (s.pathLinks (msgWay m).1 (msgWay m).2).any fun l => l.1 == n

/-- The first fault of each lane of a thread. -/
def oncePerLane (fs : List ImpFault) : List ImpFault :=
  fs.foldl (fun gs f => if gs.any fun g => g.uid == f.uid && g.lane == f.lane then gs else gs ++ [f]) []

/-- A store or RED that was lost on its way (R378): the decrement of a SIG that would have followed it is not sent, and its message counts
as done. -/
def dropDecrement (s : State) (f : ImpFault) : State :=
  let mine (g : SigMsg) : Bool := g.uid == f.uid && g.lane == f.lane && g.pc == f.pc
  match (List.range 4).find? fun d => (s.die d).sigs.any mine with
  | none => s
  | some d =>
    match (s.die d).sigs.reverse.find? mine with
    | some g => (s.modDie d fun x => { x with sigs := (x.sigs.reverse.erase g).reverse }).msgDone f.uid
    | none => s

/-- The stores and REDs on their way over a link lost with it: they write nothing (R381), and what was to follow them follows what is left.
Their faults are answered. -/
def dropHeld (s : State) (link : Nat) : State × List ImpFault :=
  let lost := s.heldW.filter fun e => e.way.any fun w => w.1.contains link
  let faults := lost.filterMap fun e => e.way.map fun w => w.2.2
  let s := { s with heldW := s.heldW.filter fun e => !lost.contains e }
  (faults.foldl dropDecrement s, faults)

/-- Transactions whose messages are lost end, and the requests that waited for them are served (R239). -/
def abandon (s : State) (lines : List Nat) : State :=
  lines.foldl (fun s n => (s.modLine n fun l => { l with tx := none }).serveAll n) s

end State

/-- FLIT_CRC_FAIL (R248, R293): the flit is sent again with its key. When the retries are exhausted, the link recovers and every message in
flight on it is sent again. -/
def execFlitCrcFail (link : Nat) (s : State) : Out :=
  if 8 ≤ link then .next s
  else
    let again := if Config.retriesOver s.fresh then s.coh.net.filter (s.crossesLink link) else []
    let s := { s with fresh := s.fresh + 1, coh := { s.coh with net := s.coh.net ++ again } }
    .next (s.modLink link fun l => { l with retries := l.retries + 1, out := State.resend l.out, back := State.resend l.back })

/-- LINK_RECOVERY_FAIL (R248, R249, R293): the link is down until a reset of either die; lines with a transaction in flight on it are
poisoned, and each lane of a thread whose access was among those takes LINK_LOST (log 83). A store among them writes nothing (R381). -/
def execLinkRecoveryFail (link : Nat) (s : State) : Out :=
  if 8 ≤ link || !(s.link link).up then .next s
  else
    let inNet := s.coh.net.filter (s.crossesLink link)
    let flown := s.coh.flights.filter fun f => f.links.contains link
    let hit (e : Nat × Line) : Bool := e.2.tx.any fun t => s.crossesLink link t.req || inNet.any fun m => m.line == e.1
    let open' := s.coh.lines.filter hit
    let lines := (inNet.map Msg.line ++ List.map (fun e : Nat × Line => e.1) open').eraseDups
    let held := (s.heldW.filter fun e => e.way.any fun w => w.1.contains link).map fun e => e.pa / 128
    let (s, faults) := s.dropHeld link
    let lost := inNet.filterMap Msg.who ++ (open'.filterMap fun e => e.2.tx.bind fun t => t.req.who) ++ flown.map Flight.who ++ faults
    let s := { s with coh := { s.coh with net := s.coh.net.filter fun m => !inNet.contains m,
                                          flights := s.coh.flights.filter fun f => !f.links.contains link },
                      impFaults := s.impFaults ++ State.oncePerLane lost }
    let s := s.modLink link fun l => { l with up := false }
    let gone := (lines ++ flown.map Flight.line ++ held).eraseDups.filter fun n => isHbm (n * 128)
    let s := (gone.foldl (fun s n => s.setPoison (n * 128) 128) s).abandon lines
    .next (s.settleLate.logEvent 5 (linkEnds link).1 link 0)

/-- The clk of an hour at 1.7 GHz (R2). -/
def hourClk : Nat := 6120000000000

/-- Whether the keys of a link roll over now (R293): after 2^32 flits of a direction, or an hour. -/
def State.keyDue (s : State) (n : Nat) : Bool :=
  let l := s.link n
  2 ^ 32 ≤ l.out.flits || 2 ^ 32 ≤ l.back.flits || l.since + hourClk ≤ s.clk

/-- KEY_ROLLOVER (R293): after 2^32 flits or an hour, an update of the link's keys begins. -/
def execKeyRollover (link : Nat) (s : State) : Out := if s.keyDue link then .next (s.installKey link) else .next s

/-- KEY_UPDATE (R293): the new keys stand at both ends beside the old ones. -/
def execKeyUpdate (link : Nat) (s : State) : Out := .next (s.installKey link)

/-- KEY_UPDATE_ACK (R293): the senders switch. -/
def execKeyUpdateAck (link : Nat) (s : State) : Out :=
  if 8 ≤ link then .next s
  else .next (s.modLink link fun l =>
    { l with out := State.switchKey l.out, back := State.switchKey l.back, since := if l.out.newKey.isSome then s.clk else l.since })

/-! ### SPDM (R290) -/

namespace State

/-- The messages that a responder has answered in turn: a die, or the IOD towards the host through its DOE mailbox, numbered 4. -/
def spdmOf (s : State) (d : Nat) : List SpdmMsg := if d == 4 then s.host.doe else (s.die d).spdm
def setSpdm (s : State) (d : Nat) (ms : List SpdmMsg) : State :=
  if d == 4 then { s with host := { s.host with doe := ms } } else s.modDie d fun x => { x with spdm := ms }

/-- Whether a responder answers: the IOD, or a die that has left RESET (R291, log 46). -/
def spdmOn (s : State) (d : Nat) : Bool := d == 4 || (d < 4 && (s.die d).st != .reset)

/-- A message that a responder answers: the messages that SPDM 1.2 puts before it have come (log 46). -/
def spdmStep (s : State) (d : Nat) (m : SpdmMsg) (needs : List SpdmMsg) : State :=
  let ms := s.spdmOf d
  if !s.spdmOn d || !(needs.all ms.contains) || ms.contains m then s else s.setSpdm d (ms ++ [m])

end State

/-- GET_VERSION begins anew. -/
def execGetVersion (die : Nat) (s : State) : Out := if s.spdmOn die then .next (s.setSpdm die [.getVersion]) else .next s

/-- GET_CAPABILITIES. -/
def execGetCapabilities (die : Nat) (s : State) : Out := .next (s.spdmStep die .getCapabilities [.getVersion])

/-- NEGOTIATE_ALGORITHMS. -/
def execNegotiateAlgorithms (die : Nat) (s : State) : Out := .next (s.spdmStep die .negotiateAlgorithms [.getCapabilities])

/-- GET_DIGESTS. -/
def execGetDigests (die : Nat) (s : State) : Out := .next (s.spdmStep die .getDigests [.negotiateAlgorithms])

/-- GET_CERTIFICATE. -/
def execGetCertificate (die : Nat) (s : State) : Out := .next (s.spdmStep die .getCertificate [.negotiateAlgorithms])

/-- CHALLENGE. -/
def execChallenge (die : Nat) (s : State) : Out := .next (s.spdmStep die .challenge [.negotiateAlgorithms])

/-- GET_MEASUREMENTS. -/
def execGetMeasurements (die : Nat) (s : State) : Out := .next (s.spdmStep die .getMeasurements [.negotiateAlgorithms])

/-- KEY_EXCHANGE. -/
def execKeyExchange (die : Nat) (s : State) : Out := .next (s.spdmStep die .keyExchange [.negotiateAlgorithms])

/-- FINISH. -/
def execFinish (die : Nat) (s : State) : Out := .next (s.spdmStep die .finish [.keyExchange])

/-- END_SESSION: the session of KEY_EXCHANGE and FINISH ends. -/
def execEndSession (die : Nat) (s : State) : Out :=
  if !s.spdmOn die || !(s.spdmOf die).contains .finish then .next s
  else .next (s.setSpdm die ((s.spdmOf die).filter fun m => m != .keyExchange && m != .finish))

/-! ### Retirement and reset of a die -/

/-- SITE of a logical cell (R12). -/
def Die.entry (x : Die) (i : Nat) : BitVec 16 := (FMap.find? x.cellTab i).getD (BitVec.ofNat 16 (2 ^ 15 + i))

/-- One logical cell on a retired site moved to the lowest free spare, or its cluster disabled (R14). -/
def Die.moveCell (x : Die) (bad : List Nat) (i : Nat) : Die :=
  let e := x.entry i
  if !e.getLsbD 15 || !bad.contains (e.toNat % 256) then x
  else
    let used := (List.range 128).map fun j => (x.entry j).toNat % 256
    match (List.range 8).find? fun n => !bad.contains (128 + n) && !used.contains (128 + n) with
    | some n => { x with cellTab := FMap.ins x.cellTab i (BitVec.ofNat 16 (2 ^ 15 + 128 + n)), sparesLeft := x.sparesLeft - 1 }
    | none =>
      let c := i / 8
      let off := (List.range 8).foldl (fun t j => FMap.ins t (8 * c + j) ((x.entry (8 * c + j)) &&& 0x7FFF)) x.cellTab
      { x with cellTab := off, clmask := x.clmask &&& ~~~(BitVec.ofNat 16 (2 ^ c)) }

/-- The retirements that a reset applies (R14, R16); the logical cells take spares in rising index (log 79). -/
def Die.applyRetired (x : Die) : Die :=
  let bad := (x.retired ++ x.pending).eraseDups
  let y := (List.range 128).foldl (fun x i => x.moveCell bad i) x
  { y with retired := bad, pending := [], sitesRetired := BitVec.ofNat 8 bad.length }

/-- A die after its reset (R12 to R14, R241, R287, R291): its cell table is written from the retirement record, and what stays is that
record and the registers that the host set. A key exchange before the reset counts no more. -/
def Die.afterReset (x : Die) : Die :=
  let y := x.applyRetired
  { Die.init with dieht := x.dieht, hNow := x.dieht, sitesRetired := y.sitesRetired, sparesLeft := y.sparesLeft, chret := y.chret, chx := y.chx,
                  clmask := y.clmask, cellTab := y.cellTab, pending := [], retired := y.retired, tokens := x.tokens }

namespace State

/-- A team of a die that resets ends as by EXIT.TEAM, with its entry in the log (R292). -/
def endForReset (s : State) (t : Team) : State :=
  let s := (s.endTeam t.ctx t.handle).dropMappings t.cell t.ctx t.handle
  let s := s.failLaunch t.ctx t.lid
  s.logFault { launch := t.lid, cause := Cause.homeDieUnavailable, team := t.handle, ctx := t.ctx, die := t.die, cell := t.cell % 128 }

/-- Whether a die still has accepted work (R292). -/
def dieBusy (s : State) (d : Nat) : Bool :=
  s.clusters.any (fun e : Nat × Cluster => dieOfCluster e.1 == d && (e.2.jobs.any (fun j => j.st != .done) || !e.2.beams.isEmpty)) ||
  !(s.die d).sigs.isEmpty || !(s.die d).hin.isEmpty ||
  s.coh.net.any (fun m => dieOfPa (m.line * 128) == d || dieOfCell m.cell == d || (m.kind == .inv && dieOfCluster m.cluster == d)) ||
  s.coh.lines.any (fun e => dieOfPa (e.1 * 128) == d && (s.busy e.1 || !e.2.queue.isEmpty)) ||
  s.heldW.any fun e => dieOfPa e.pa == d || dieOfCell e.cell == d

/-- The lines that a die which resets without a drain has not written back: those that its slices hold, and those of which its cells own
words (R292, log 80). -/
def unwritten (s : State) (d : Nat) : List Nat :=
  (s.coh.lines.filter fun e => dieOfPa (e.1 * 128) == d || e.2.owners.any fun o => dieOfCell o.1 == d).map Prod.fst

/-- Whether a message has an end on a die. -/
def touchesDie (d : Nat) (m : Msg) : Bool := (msgWay m).1 == d || (msgWay m).2 == d

/-- Lines, copies, messages and translations of a die dropped; transactions elsewhere that waited for it end. -/
def dropCoh (s : State) (d : Nat) : State :=
  let homed (n : Nat) : Bool := dieOfPa (n * 128) == d
  let open' := (s.coh.lines.filter fun e => e.2.tx.any fun t => dieOfCell t.req.cell == d ||
    s.coh.net.any fun m => m.line == e.1 && touchesDie d m && (m.re == t.req.tag || m.re == t.req.tag + 1)).map Prod.fst
  let mine (c : Nat) : Bool := dieOfCluster c == d
  let s := { s with coh :=
    { s.coh with lines := List.filter (fun e : Nat × Line => !homed e.1) s.coh.lines,
                 l1 := List.filter (fun e : Nat × L1Line => !(homed (e.1 % 2 ^ 46) || dieOfCell (e.1 / 2 ^ 46) == d)) s.coh.l1,
                 net := s.coh.net.filter (fun m => !touchesDie d m),
                 flights := s.coh.flights.filter (fun f => !(homed f.line || f.who.die == d)),
                 retry := s.coh.retry.filter (fun m => !touchesDie d m),
                 tlb := List.filter (fun e : Nat × List TlbEntry => dieOfCell e.1 != d) s.coh.tlb,
                 tlb2 := List.filter (fun e : Nat × List TlbEntry => !mine e.1) s.coh.tlb2,
                 walks := List.filter (fun e : Nat × List WalkEntry => !mine e.1) s.coh.walks } }
  s.abandon (open'.filter fun n => !homed n)

/-- The copies of a die's cells leave the directories of the other homes; a line left without any has no protocol (R246). -/
def dropOwners (s : State) (d : Nat) : State :=
  let mask : DWord := ~~~(BitVec.ofNat 64 (0xFFFF * 2 ^ (16 * d)))
  let has (l : Line) : Bool := l.owners.any (fun o => dieOfCell o.1 == d) || l.sharers &&& ~~~mask != 0
  (s.coh.lines.filter fun e => has e.2).foldl (fun s e =>
    (s.modLine e.1 fun l => { l with owners := l.owners.filter (fun o => dieOfCell o.1 != d), sharers := l.sharers &&& mask }).settle e.1) s

/-- The state of a die begun anew with its retirement record applied (R12 to R14, R16, R241); its links come up again (R293). -/
def resetDie (s : State) (d : Nat) : State :=
  let s := (s.dropCoh d).dropOwners d
  let s := s.modDie d fun x => { x.afterReset with st := x.st }
  let s := { s with cells := List.filter (fun e : Nat × Cell => dieOfCell e.1 != d) s.cells,
                    clusters := List.filter (fun e : Nat × Cluster => dieOfCluster e.1 != d) s.clusters,
                    members := List.filter (fun e : Nat × Member => dieOfCell (cellOf e.1) != d) s.members }
  (List.range 8).foldl (fun s n =>
    let (a, b) := linkEnds n
    if a == d || b == some d then s.modLink n fun l => { l with up := true } else s) s

/-- A die enters RESET (R291, R292). -/
def enterReset (s : State) (d : Nat) : State :=
  let s := (s.teams.filter fun t => t.die == d).foldl endForReset s
  (s.resetDie d).setDieSt d .reset 0

end State

/-- DIE_RESET (R12 to R14, R16, R241): the reset of a die that is in RESET. -/
def execDieReset (die : Nat) (s : State) : Out := if 4 ≤ die || (s.die die).st != .reset then .next s else .next (s.resetDie die)

/-! ### Power, firmware, attestation -/

/-- POWER_UP (R12, R291): every die in RESET. Fuses, retirement records, the image and the memories outside the device stay; a
programming that was under way leaves the device in recovery mode (R301). -/
def execPowerUp (s : State) : Out :=
  let r := State.reset
  let keep (d : Nat) : Die := { (s.die d).afterReset with dieht := Die.init.dieht, hNow := Die.init.hNow, tokens := Die.init.tokens }
  let dies := [0, 1, 2, 3].foldl (fun m d => FMap.put Die.init m d (keep d)) []
  let broken := s.host.recovery || s.host.fwState == 2
  .next { r with hostMem := s.hostMem, peerMem := s.peerMem, dies := dies, nextUid := s.nextUid, fresh := s.fresh, schedule := s.schedule,
                 host := { r.host with fwMin := s.host.fwMin, fwVersion := s.host.fwVersion, recovery := broken,
                                       fwState := if broken then 7 else 0 } }

namespace State

/-- Recovery mode entered (R301): event 7, and every compute die in RESET; what a die has not written back is poisoned (R292). -/
def enterRecovery (s : State) : State :=
  let s := [0, 1, 2, 3].foldl (fun s d =>
    if (s.die d).st == .reset then s
    else
      let lost := s.unwritten d
      lost.foldl (fun s n => s.setPoison (n * 128) 128) (s.enterReset d)) s
  (s.modHost fun h => { h with recovery := true, fwState := 7 }).logEvent 7 0 0 0

end State

/-- FIRMWARE_VERIFY (R291, R301): the boot ROM checks the programmed image for a die in RESET, and no other. -/
def execFirmwareVerify (die : Nat) (signed : Bool) (version : Nat) (s : State) : Out :=
  if 4 ≤ die || (s.die die).st != .reset || s.host.recovery || version != s.host.fwVersion then .next s
  else if !signed || version < s.host.fwMin then .next s.enterRecovery
  else .next ((s.modHost fun h => { h with fwMin := max h.fwMin version }).setDieSt die .attesting 1)

/-- ATTESTATION_RESULT (R291): TRUSTED takes an established session; the links between TRUSTED ends take their keys from it
(R293). -/
def execAttestationResult (die : Nat) (ok : Bool) (s : State) : Out :=
  if 4 ≤ die || (s.die die).st != .attesting then .next s
  else if !ok then .next (s.setDieSt die .quarantined 2)
  else if !(s.die die).spdm.contains .finish then .next s
  else
    let s := s.setDieSt die .trusted 3
    .next ((List.range 8).foldl (fun s n =>
      let (a, b) := linkEnds n
      if (a == die || b == some die) && s.linkLive n then
        { s.modLink n fun l =>
            { l with out := { LinkDir.init with key := Config.linkKey s.fresh }, back := { LinkDir.init with key := Config.linkKey (s.fresh + 1) },
                     since := s.clk }
          with fresh := s.fresh + 2 }
      else s) s)

/-- DIE_RESET_REQUEST: a write of DIERST (R291, R296). -/
def execDieResetRequest (die : Nat) (val : DWord) (s : State) : Out :=
  let st := (s.die die).st
  if 4 ≤ die || !val.getLsbD 0 || st == .reset || st == .draining || s.host.recovery then .next s else .next (s.setDieSt die .draining 4)

/-- The open regions of a die aborted: nothing can end them on a die that drains, and its teams end (R231, R292). -/
def State.endRegions (s : State) (d : Nat) : State :=
  ((s.die d).regions.filter fun e => e.2.isOpen).foldl (fun s e => s.abortRegion d e.1 Cause.regionHalt) s

/-- DIE_DRAIN_COMPLETE (R292): while writes wait, an open region of the die aborts, and what it held is performed. -/
def execDieDrainComplete (die : Nat) (s : State) : Out :=
  if 4 ≤ die || (s.die die).st != .draining then .next s
  else if s.dieBusy die then
    .next (if s.heldW.isEmpty || !(FMap.vals (s.die die).regions).any Region.isOpen then s else (s.endRegions die).drainHeld)
  else .next (s.enterReset die)

/-! ### Storage errors -/

namespace State

/-- A site recorded as retired, with event 1 (R13). -/
def retireSite (s : State) (cell : Nat) : State :=
  let d := dieOfCell cell
  let site := ((s.die d).entry (cell % 128)).toNat % 256
  if (s.die d).pending.contains site then s
  else (s.modDie d fun x => { x with pending := x.pending ++ [site] }).logEvent 1 d site 0

/-- An uncorrectable error of a cell's local store counted (R13). -/
def countLocal (s : State) (cell : Nat) : State :=
  let n := (s.cell cell).uncorr + 1
  let s := s.modCell cell fun c => { c with uncorr := n }
  if n == 2 then s.retireSite cell else s

/-- The cell whose local store holds an address: a scratchpad or a register window. -/
def localCell (pa : Nat) : Option Nat :=
  if isSpad pa then some ((pa - spadBase) / 2 ^ 18) else if isRegw pa then some ((pa - regwBase) / 2 ^ 16) else none

/-- The HBM channel of a stack fails (R15). -/
def failChannel (s : State) (d st ch : Nat) : State :=
  let n := FMap.get 0 (s.die d).chret st
  let detail := st * 2 ^ 6 + ch
  if n < 2 then (s.modDie d fun x => { x with chret := FMap.put 0 x.chret st (n + 1) }).logEvent 2 d detail 0
  else (s.modDie d fun x => { x with chx := x.chx ||| BitVec.ofNat 3 (2 ^ st) }).logEvent 3 d detail 0

end State

/-- STORAGE_ERROR (R13, R15, R148): a corrected error is counted; an uncorrectable one poisons its unit, a dirty L1 word included; a
clean L1 word is fetched again. Errors of a wave's vector registers, the L1 and the scratchpad count towards retirement (R13). -/
def execStorageError (e : StorageErr) (s : State) : Out :=
  match e with
  | .corrected cell word =>
    if 512 ≤ cell then .next s
    else
      let n := FMap.get 0 (s.cell cell).corr word + 1
      let s := s.modCell cell fun c => { c with corr := FMap.put 0 c.corr word n }
      .next (if n == 16 then s.retireSite cell else s)
  | .uncorrectable pa =>
    if !backed pa then .next s
    else
      let s := s.poisonUnit pa
      .next (match State.localCell pa with
        | some c => s.countLocal c
        | none => s)
  | .localUncorrectable cell pa =>
    if 512 ≤ cell then .next s
    else if State.localCell pa == some cell then .next ((s.poisonUnit pa).countLocal cell)
    else if isHbm pa && (s.l1 cell (pa / 128)).dirty.getLsbD (pa % 128 / 4) then
      .next (({ s with poisonW := FMap.put false s.poisonW (pa / 8) true }).countLocal cell)
    else .next s
  | .registerFile slot lane pair =>
    if 32 ≤ lane || 32 ≤ pair || (s.member? slot).isNone then .next s
    else
      let t := s.modMember slot fun m => { m with pv := FMap.put false m.pv (lane * 32 + pair) true }
      .next (if slotOf slot < 16 then t.countLocal (cellOf slot) else t)
  | .uniformFile slot reg =>
    if 64 ≤ reg || (s.member? slot).isNone then .next s
    else .next (s.modMember slot fun m => { m with ps := FMap.put false m.ps reg true })
  | .capabilityFile slot reg word =>
    if 16 ≤ reg || 2 ≤ word || (s.member? slot).isNone then .next s
    else .next (s.modMember slot fun m => { m with pk := FMap.put false m.pk (2 * reg + word) true })
  | .channel die stack chan =>
    if 4 ≤ die || 3 ≤ stack || 32 ≤ chan then .next s else .next (s.failChannel die stack chan)

/-- DEVICE_FREEZE (R263): every die stops issuing, until power-up. -/
def execDeviceFreeze (s : State) : Out := .next { s with frozen := true }

/-! ### Firmware update (R301) -/

/-- FIRMWARE_UPDATE: a write of FWCTL. -/
def execFirmwareUpdate (val : DWord) (s : State) : Out :=
  if !val.getLsbD 63 || s.host.fwState == 1 || s.host.fwState == 2 then .next s else .next (s.modHost fun h => { h with fwState := 1 })

/-- FIRMWARE_UPDATE_END: verification ends in programming or a refusal, and programming of the verified image in success or failure. A
programmed image ends recovery mode. -/
def execFirmwareUpdateEnd (signed : Bool) (version : Nat) (programmed : Bool) (s : State) : Out :=
  let h := s.host
  if h.fwState == 1 then
    .next (s.modHost fun h => { h with fwState := if !signed then 4 else if version < h.fwMin then 5 else 2, fwNew := version })
  else if h.fwState == 2 then
    .next (s.modHost fun h => if programmed then { h with fwState := 3, fwVersion := h.fwNew, recovery := false } else { h with fwState := 6 })
  else .next s

end Sys2Proof.Machine
end

