-- ==== Sys2Proof/Machine/Integer.lean ====
section
/-!
DEFINITION. Machine/Integer.lean: the integer and bit group (R307, R308, R315, R318, R341 to R344, R364, R375, R376, R393).
-/
namespace Sys2Proof.Machine

/-- A word with an exact integer result of two operands (R341). -/
def intWord (w : Alu) (a b : Src) (sat : Bool) (f : Int → Int → Int) (s : State) : Out :=
  alu2 w a b (fun x y => intRes w.t sat (f (tyVal w.t x) (tyVal w.t y))) s

/-- The quotient of IDIV (R343). Reduction gives −2^(n−1) on overflow. -/
def idivRes (t : Ty) (a b : Int) : Int := if b == 0 then (if t.isI then -1 else 2 ^ t.bits - 1) else Int.tdiv a b

/-- The remainder of IREM (R343). -/
def iremRes (a b : Int) : Int := if b == 0 then a else Int.tmod a b

/-- The field position and width of BFX and BFI (R315). -/
def fieldPos (n ctl : Nat) : Nat := min (bits ctl 7 0) n
def fieldWidth (n ctl : Nat) : Nat := min (bits ctl 15 8) (n - fieldPos n ctl)

/-- The result of BFX (R315). -/
def bfxRes (t : Ty) (a ctl : Nat) : Nat :=
  let p := fieldPos t.bits ctl
  let w := fieldWidth t.bits ctl
  let f := a / 2 ^ p % 2 ^ w
  if w == 0 then 0 else if t.isI then modN (sextN f w) t.bits else f

/-- The result of BFI (R315). -/
def bfiRes (n a b ctl : Nat) : Nat :=
  let p := fieldPos n ctl
  let w := fieldWidth n ctl
  (a &&& (2 ^ n - 1 - (2 ^ w - 1) * 2 ^ p)) ||| (b % 2 ^ w * 2 ^ p)

/-- Set bits among the low n bits (R364). -/
def popCount (n x : Nat) : Nat := ((List.range n).filter x.testBit).length

/-- Zero bits above the highest set bit of n bits (R318). -/
def leadingZeros (n x : Nat) : Nat := if x == 0 then n else n - 1 - log2 x

/-- Zero bits below the lowest set bit of n bits (R318). -/
def trailingZeros (n x : Nat) : Nat := ((List.range n).find? x.testBit).getD n

/-- Bits reversed (R318). -/
def reverseBits (n x : Nat) : Nat := (List.range n).foldl (fun r k => r + b2n (x.testBit (n - 1 - k)) * 2 ^ k) 0

/-- Shifts by k mod n (R375). -/
def shlRes (n a k : Nat) : Nat := a * 2 ^ (k % n) % 2 ^ n
def shrRes (n a k : Nat) : Nat := a / 2 ^ (k % n)
def sarRes (n a k : Nat) : Nat := modN (sextN a n / 2 ^ (k % n)) n

/-- Rotation left by k mod n (R364). -/
def rotRes (n a k : Nat) : Nat := (a * 2 ^ (k % n) + a / 2 ^ (n - k % n)) % 2 ^ n

def execIadd (w : Alu) (a b : Src) (sat : Bool) (s : State) : Out := intWord w a b sat (· + ·) s

/-- IADDC (R342): the sum, and the carry out into qk; neither under NW. With U the carry in is the lowest enabled lane's and
the carry out goes to every enabled lane. -/
def execIaddc (w : Alu) (a b : Src) (k : BitVec 3) (s : State) : Out :=
  stepWord (if w.u then .once else .usual) w.h (fun i s =>
    let m0 := i.m
    let at' (l : Nat) : Nat := if w.u then lowest i.en else l
    let x (l : Nat) := m0.src w.t a (at' l)
    let y (l : Nat) := m0.src w.t b (at' l)
    let c (l : Nat) := b2n (m0.qbit k.toNat (at' l))
    .ok (s.modMember i.k fun m =>
      let m := m.aluWrite w w.t i.en fun l => (x l + y l + c l) % 2 ^ w.t.bits
      if w.nw then m else m.predLanes k.toNat i.en fun l => carryOut w.t.bits (x l) (y l) (c l))) s

def execIsub (w : Alu) (a b : Src) (sat : Bool) (s : State) : Out := intWord w a b sat (· - ·) s
def execImul (w : Alu) (a b : Src) (s : State) : Out := intWord w a b false (· * ·) s
def execImulh (w : Alu) (a b : Src) (s : State) : Out := intWord w a b false (fun x y => x * y / 2 ^ w.t.bits) s
def execImad (w : Alu) (a b c : Src) (s : State) : Out :=
  alu3 w a b c (fun x y z => intRes w.t false (tyVal w.t x * tyVal w.t y + tyVal w.t z)) s
def execIdiv (w : Alu) (a b : Src) (s : State) : Out := intWord w a b false (idivRes w.t) s
def execIrem (w : Alu) (a b : Src) (s : State) : Out := intWord w a b false iremRes s
def execImin (w : Alu) (a b : Src) (s : State) : Out := intWord w a b false min s
def execImax (w : Alu) (a b : Src) (s : State) : Out := intWord w a b false max s
def execIabs (w : Alu) (a : Src) (sat : Bool) (s : State) : Out :=
  alu1 w a (fun x => intRes w.t sat ((tyVal w.t x).natAbs : Int)) s
def execIneg (w : Alu) (a : Src) (sat : Bool) (s : State) : Out := alu1 w a (fun x => intRes w.t sat (-(tyVal w.t x))) s
def execAnd (w : Alu) (a b : Src) (s : State) : Out := alu2 w a b (· &&& ·) s
def execOr (w : Alu) (a b : Src) (s : State) : Out := alu2 w a b (· ||| ·) s
def execXor (w : Alu) (a b : Src) (s : State) : Out := alu2 w a b (· ^^^ ·) s
def execNot (w : Alu) (a : Src) (s : State) : Out := alu1 w a (· ^^^ (2 ^ w.t.bits - 1)) s
def execShl (w : Alu) (a b : Src) (s : State) : Out := alu2 w a b (shlRes w.t.bits) s
def execShr (w : Alu) (a b : Src) (s : State) : Out := alu2 w a b (shrRes w.t.bits) s
def execSar (w : Alu) (a b : Src) (s : State) : Out := alu2 w a b (sarRes w.t.bits) s
def execRot (w : Alu) (a b : Src) (s : State) : Out := alu2 w a b (rotRes w.t.bits) s
/-- BFX (R315): ctl is read at the type's width. -/
def execBfx (w : Alu) (a ctl : Src) (s : State) : Out := alu2 w a ctl (bfxRes w.t) s
def execBfi (w : Alu) (a b ctl : Src) (s : State) : Out := alu3 w a b ctl (bfiRes w.t.bits) s
def execPopc (w : Alu) (a : Src) (s : State) : Out := alu1 w a (popCount w.t.bits) s
def execClz (w : Alu) (a : Src) (s : State) : Out := alu1 w a (leadingZeros w.t.bits) s
def execCtz (w : Alu) (a : Src) (s : State) : Out := alu1 w a (trailingZeros w.t.bits) s
def execBrev (w : Alu) (a : Src) (s : State) : Out := alu1 w a (reverseBits w.t.bits) s

/-- ICMP (R344). -/
def execIcmp (h : Hdr) (t : Ty) (qd : BitVec 3) (a b : Src) (cond : BitVec 3) (s : State) : Out :=
  predWord h qd (fun m l => icmpCond cond (tyVal t (m.src t a l)) (tyVal t (m.src t b l))) s

/-- SEL (R376): with U the predicate is the lowest enabled lane's, the lane in which the one result is computed. -/
def execSel (w : Alu) (a b : Src) (k : BitVec 3) (s : State) : Out :=
  aluWord w w.t (fun m l => if m.qbit k.toNat l then m.src w.t a l else m.src w.t b l) s

end Sys2Proof.Machine
end

