-- ==== Sys2Proof/Machine/Lanes.lean ====
section
/-!
DEFINITION. Machine/Lanes.lean: the lane group (R312, R353, R354, R377, R388), the moves (R360, R361), the predicates (R368,
R369), and the index registers (R62 to R64).
-/
namespace Sys2Proof.Machine

/-- The source lane of SHFL (R377): `w` is log2 of the segment width. -/
def shflSrc (mode : ShflMode) (w l d : Nat) : Nat :=
  let n := 2 ^ w
  let base := l - l % n
  match mode with
  | .idx => base + d % n
  | .up => if d ≤ l - base then l - d else l
  | .down => if d < base + n - l then l + d else l
  | .xor => base + ((l % n) ^^^ (d % n))

/-- SHFL (R377): every enabled lane reads before any writes. -/
def execShfl (h : Hdr) (mode : ShflMode) (d a : BitVec 6) (b : Src) (w : BitVec 3) (s : State) : Out :=
  waveWord h (stepWord .apart h (fun i s =>
    .ok (s.modMember i.k fun m => m.setLanes .n32 d.toNat i.lanes fun l =>
      (i.m.vreg (shflSrc mode w.toNat l (i.m.src32 b l)) a.toNat).toNat))) s

/-- The ballot of a predicate over the enabled lanes (R388). -/
def Iss.ballot (i : Iss) (qa : BitVec 3) : Word := i.en &&& i.m.qmask qa.toNat

/-- VOTE (R388): D names a predicate for ALL and ANY and a vector register for BALLOT. -/
def execVote (h : Hdr) (mode : VoteMode) (d : BitVec 6) (qa : BitVec 3) (s : State) : Out :=
  stepWord .apart h (fun i s =>
    let b := i.ballot qa
    .ok (s.modMember i.k fun m =>
      match mode with
      | .all => m.predLanes d.toNat i.en fun _ => b == i.en
      | .any => m.predLanes d.toNat i.en fun _ => b != 0
      | .ballot => m.setLanes .n32 d.toNat i.lanes fun _ => b.toNat)) s

/-- A float value with any NaN made canonical (R111). -/
def canonical (t : Ty) (x : Nat) : Nat := if (Fp.decode (Fp.fmtOf t) x).isNan then (Fp.fmtOf t).nan else x

/-- The combination of some values of a type by an operation of LRED and LSCAN, the identity for none (R354). A NaN that it
produces is canonical, from one value too (R111). -/
def combine (t : Ty) (op : BitVec 3) (xs : List Nat) : Nat :=
  let n := t.bits
  match op.toNat with
  | 0 =>
    if t.isF then
      if xs.isEmpty then 0 else Fp.round (Fp.fmtOf t) Fp.rne (Fp.sum Fp.rne (xs.map (Fp.decode (Fp.fmtOf t))))
    else xs.foldl (· + ·) 0 % 2 ^ n
  | 1 =>
    if t.isF then
      match xs with
      | [] => (Fp.fmtOf t).inf
      | x :: r => canonical t (r.foldl (Fp.minmax (Fp.fmtOf t) false) x)
    else modN (xs.foldl (fun m x => min m (tyVal t x)) (tyMax t)) n
  | 2 =>
    if t.isF then
      match xs with
      | [] => (Fp.fmtOf t).sign true + (Fp.fmtOf t).inf
      | x :: r => canonical t (r.foldl (Fp.minmax (Fp.fmtOf t) true) x)
    else modN (xs.foldl (fun m x => max m (tyVal t x)) (tyMin t)) n
  | 3 => xs.foldl (· &&& ·) (2 ^ n - 1)
  | 4 => xs.foldl (· ||| ·) 0
  | _ => xs.foldl (· ^^^ ·) 0

/-- The value that a lane of LRED or LSCAN receives: a scalar thread gets its one value unchanged, or the identity (R354). -/
def combineIn (m : Member) (t : Ty) (op : BitVec 3) (xs : List Nat) : Nat :=
  match xs with
  | [x] => if m.scalar then x else combine t op xs
  | _ => combine t op xs

/-- LRED (R354): with U the combination goes once to sD, extended (R60). -/
def execLred (h : Hdr) (t : Ty) (u : Bool) (d : BitVec 6) (a : Src) (op : BitVec 3) (s : State) : Out :=
  onceWord .once h (fun i s =>
    let r := combineIn i.m t op (i.lanes.map fun l => i.m.src t a l)
    .ok (s.modMember i.k fun m =>
      if u then m.setS d.toNat (BitVec.ofNat 64 (extendTo t 64 r)) else m.setLanes t d.toNat i.lanes fun _ => r)) s

/-- LSCAN (R354). -/
def execLscan (h : Hdr) (t : Ty) (d : BitVec 6) (a : Src) (op : BitVec 3) (exc : Bool) (s : State) : Out :=
  stepWord .apart h (fun i s =>
    let upTo (l : Nat) : List Nat := i.lanes.filter fun k => if exc then k < l else k ≤ l
    .ok (s.modMember i.k fun m => m.setLanes t d.toNat i.lanes fun l =>
      combineIn i.m t op ((upTo l).map fun k => i.m.src t a k))) s

/-- LIDX (R353). -/
def execLidx (h : Hdr) (d : BitVec 6) (s : State) : Out :=
  stepWord .usual h (fun i s => .ok (s.modMember i.k fun m => m.setLanes .n32 d.toNat i.lanes id)) s

/-- BCAST (R312): the source lane is read whatever its state. With U it acts once; else each enabled lane is written (R219). -/
def execBcast (h : Hdr) (t : Ty) (u : Bool) (d a : BitVec 6) (lane : Src) (s : State) : Out :=
  onceWord (if u then .once else .usual) h (fun i s =>
    let l := if i.m.scalar then 0 else i.m.src32 lane 0 % 32
    let x := i.m.vval t l a.toNat
    .ok (s.modMember i.k fun m =>
      if u then m.setS d.toNat (BitVec.ofNat 64 x) else m.setLanes t d.toNat i.lanes fun _ => x)) s

/-! ### Moves -/

def execMov (w : Alu) (a : Src) (s : State) : Out := alu1 w a id s

/-- MOVI (R361). -/
def execMovi (w : Alu) (imm : BitVec 20) (s : State) : Out :=
  aluWord w w.t (fun _ _ => modN (sextN imm.toNat 20) w.t.bits) s

/-- A number with its bits [sh+19:sh] replaced (R361). -/
def insert20 (old imm sh : Nat) : Nat := old - old / 2 ^ sh % 2 ^ 20 * 2 ^ sh + imm * 2 ^ sh

/-- MOVH (R361): D is read first; under NW D is register 0. -/
def execMovh (w : Alu) (imm : BitVec 20) (sh : BitVec 8) (s : State) : Out :=
  aluWord w w.t (fun m l =>
    insert20 (if w.u then (m.sreg w.d.toNat).toNat % 2 ^ w.t.bits else m.vval w.t l w.d.toNat) imm.toNat sh.toNat) s

/-- PLOP (R368). -/
def execPlop (h : Hdr) (qd qa qb qc : BitVec 3) (lut : BitVec 8) (s : State) : Out :=
  predWord h qd (fun m l =>
    lut.getLsbD (b2n (m.qbit qa.toNat l) + 2 * b2n (m.qbit qb.toNat l) + 4 * b2n (m.qbit qc.toNat l))) s

/-- PMOV.TOV (R369). -/
def execPmovTov (h : Hdr) (d : BitVec 6) (s : State) : Out :=
  stepWord .usual h (fun i s => .ok (s.modMember i.k fun m => m.setLanes .n32 d.toNat i.lanes fun l =>
    (List.range 8).foldl (fun x k => x + b2n (i.m.qbit k l) * 2 ^ k) 0)) s

/-- PMOV.FROMV (R369): bit j of `mask` names q(j+1). -/
def execPmovFromv (h : Hdr) (src : Src) (mask : BitVec 6) (s : State) : Out :=
  stepWord .usual h (fun i s => .ok (s.modMember i.k fun m =>
    (List.range 6).foldl (fun m j =>
      if mask.getLsbD j then m.predLanes (j + 1) i.en fun l => (i.m.src32 src l).testBit (j + 1) else m) m)) s

/-- The register that MOVX names in a lane (R64). -/
def movxReg (m : Member) (k : BitVec 2) (imm : BitVec 6) (l : Nat) : Int :=
  sextN (m.xreg l k.toNat).val.toNat 8 + sextN imm.toNat 6

/-- The bounds check of MOVX over the enabled lanes (R64). -/
def movxCheck (i : Iss) (k : BitVec 2) (imm : BitVec 6) : Chk Unit :=
  match i.lanes.find? fun l =>
    let e := movxReg i.m k imm l
    decide (e < (i.m.xreg l k.toNat).lo.toNat) || decide (((i.m.xreg l k.toNat).hi.toNat : Int) < e) with
  | some l => .error { cause := Cause.indexBounds, lane := some l }
  | none => .ok ()

/-- MOVX.READ (R64). -/
def execMovxRead (h : Hdr) (d : BitVec 6) (k : BitVec 2) (imm : BitVec 6) (s : State) : Out :=
  stepWord .usual h (fun i s => do
    movxCheck i k imm
    return s.modMember i.k fun m => m.setLanes .n32 d.toNat i.lanes fun l =>
      (i.m.vreg l (movxReg i.m k imm l).toNat).toNat) s

/-- MOVX.WRITE (R64). -/
def execMovxWrite (h : Hdr) (k : BitVec 2) (imm : BitVec 6) (src : Src) (s : State) : Out :=
  stepWord .usual h (fun i s => do
    movxCheck i k imm
    return s.modMember i.k fun m => i.lanes.foldl (fun m l =>
      m.setV l (movxReg i.m k imm l).toNat (BitVec.ofNat 32 (i.m.src32 src l))) m) s

/-- XSET.SET (R63): INDEX_SETUP for the whole word when the bounds cross. -/
def execXsetSet (h : Hdr) (k : BitVec 2) (src : Src) (lo hi : BitVec 6) (s : State) : Out :=
  stepWord .usual h (fun i s => do
    need (i.en == 0 || lo.toNat ≤ hi.toNat) Cause.indexSetup
    return s.modMember i.k fun m => i.lanes.foldl (fun m l =>
      m.setX l k.toNat ⟨BitVec.ofNat 8 (i.m.src32 src l), hi, lo⟩) m) s

/-- XSET.ADD (R63). -/
def execXsetAdd (h : Hdr) (k : BitVec 2) (src : Src) (s : State) : Out :=
  stepWord .usual h (fun i s => .ok (s.modMember i.k fun m => i.lanes.foldl (fun m l =>
    let x := m.xreg l k.toNat
    m.setX l k.toNat { x with val := x.val + BitVec.ofNat 8 (i.m.src32 src l) }) m)) s

end Sys2Proof.Machine
end

