-- ==== Sys2Proof/Machine/Pair.lean ====
section
/-!
DEFINITION. Machine/Pair.lean: pair words (R101 to R104).
-/
namespace Sys2Proof.Machine

/-- The predicate lanes of a half's guard (R101). -/
def Half.pg (h : Half) (m : Member) : Word :=
  match h.pg.toNat with
  | 0 => 0xFFFFFFFF
  | 1 => m.q0
  | 2 => m.qmask 1
  | _ => ~~~m.q0

/-- Whether a half reads its source as binary32 (R102). -/
def HalfOp.isFloat : HalfOp → Bool
  | .fadd | .fsub | .fmul | .ffma | .fmin | .fmax | .cvtI32 => true
  | _ => false

/-- The result of a half on a, the old vD, b, the source, and the immediate k (R102). -/
def halfRes (op : HalfOp) (a b : Nat) (k : Int) : Nat :=
  let f (x : Nat) : Fp.FVal := Fp.decode Fp.f32 x
  match op with
  | .nop => a
  | .iadd => (a + b) % 2 ^ 32
  | .isub => modN ((a : Int) - b) 32
  | .imul => a * b % 2 ^ 32
  | .imad => modN ((a * b : Nat) + k) 32
  | .imin => if sextN a 32 ≤ sextN b 32 then a else b
  | .imax => if sextN a 32 ≤ sextN b 32 then b else a
  | .and => a &&& b
  | .or => a ||| b
  | .xor => a ^^^ b
  | .shl => shlRes 32 a b
  | .shr => shrRes 32 a b
  | .sar => sarRes 32 a b
  | .rot => rotRes 32 a b
  | .mov => b
  | .movi => modN k 32
  | .fadd => Fp.add Fp.f32 Fp.rne (f a) (f b)
  | .fsub => Fp.add Fp.f32 Fp.rne (f a) (f b).neg
  | .fmul => Fp.round Fp.f32 Fp.rne (Fp.mul (f a) (f b))
  | .ffma => Fp.fma Fp.f32 Fp.rne (f a) (f b) (Fp.ofInt k)
  | .fmin => Fp.minmax Fp.f32 false a b
  | .fmax => Fp.minmax Fp.f32 true a b
  | .cvtF32 => convert .f32 .i32 Fp.rne .nan (sextN b 32)
  | .cvtI32 => convert .i32 .f32 Fp.rne (f b) 0

/-- A half's writes, on the state that stood before the pair. -/
def halfWrite (h : Half) (en : Word) (old m : Member) : Member :=
  if h.op == .nop then m
  else m.setLanes .n32 h.d.toNat (lanesOf (en &&& Half.pg h old)) fun l =>
    halfRes h.op (old.vreg l h.d.toNat).toNat (old.src (if HalfOp.isFloat h.op then .f32 else .n32) h.src l) (sextN h.k.toNat 8)

/-- A pair word (R102): both halves read before either writes. -/
def execPairWord (h0 h1 : Half) (s : State) : Out :=
  stepWord .usual ⟨0, false, 7⟩ (fun i s =>
    .ok (s.modMember i.k fun m => halfWrite h1 i.en i.m (halfWrite h0 i.en i.m m))) s

end Sys2Proof.Machine
end

