-- ==== Sys2Proof/Machine/Dispatch.lean ====
section
/-!
DEFINITION. Machine/Dispatch.lean: one arm per row of the opcode table.
-/
namespace Sys2Proof.Machine

/-- The meaning of an instruction or event. -/
def exec (i : Instr) (s : State) : Host.Outcome State Fault Refusal :=
  match i with
  | .iadd w a b sat => Sys2Proof.Machine.execIadd w a b sat s
  | .iaddc w a b k => Sys2Proof.Machine.execIaddc w a b k s
  | .isub w a b sat => Sys2Proof.Machine.execIsub w a b sat s
  | .imul w a b => Sys2Proof.Machine.execImul w a b s
  | .imulh w a b => Sys2Proof.Machine.execImulh w a b s
  | .imad w a b c => Sys2Proof.Machine.execImad w a b c s
  | .idiv w a b => Sys2Proof.Machine.execIdiv w a b s
  | .irem w a b => Sys2Proof.Machine.execIrem w a b s
  | .imin w a b => Sys2Proof.Machine.execImin w a b s
  | .imax w a b => Sys2Proof.Machine.execImax w a b s
  | .iabs w a sat => Sys2Proof.Machine.execIabs w a sat s
  | .ineg w a sat => Sys2Proof.Machine.execIneg w a sat s
  | .and w a b => Sys2Proof.Machine.execAnd w a b s
  | .or w a b => Sys2Proof.Machine.execOr w a b s
  | .xor w a b => Sys2Proof.Machine.execXor w a b s
  | .not w a => Sys2Proof.Machine.execNot w a s
  | .shl w a b => Sys2Proof.Machine.execShl w a b s
  | .shr w a b => Sys2Proof.Machine.execShr w a b s
  | .sar w a b => Sys2Proof.Machine.execSar w a b s
  | .rot w a b => Sys2Proof.Machine.execRot w a b s
  | .bfx w a ctl => Sys2Proof.Machine.execBfx w a ctl s
  | .bfi w a b ctl => Sys2Proof.Machine.execBfi w a b ctl s
  | .popc w a => Sys2Proof.Machine.execPopc w a s
  | .clz w a => Sys2Proof.Machine.execClz w a s
  | .ctz w a => Sys2Proof.Machine.execCtz w a s
  | .brev w a => Sys2Proof.Machine.execBrev w a s
  | .icmp h t qd a b cond => Sys2Proof.Machine.execIcmp h t qd a b cond s
  | .sel w a b k => Sys2Proof.Machine.execSel w a b k s
  | .fadd w a b rm => Sys2Proof.Machine.execFadd w a b rm s
  | .fsub w a b rm => Sys2Proof.Machine.execFsub w a b rm s
  | .fmul w a b rm => Sys2Proof.Machine.execFmul w a b rm s
  | .ffma w a b c rm => Sys2Proof.Machine.execFfma w a b c rm s
  | .fmin w a b => Sys2Proof.Machine.execFmin w a b s
  | .fmax w a b => Sys2Proof.Machine.execFmax w a b s
  | .fdiv w a b rm => Sys2Proof.Machine.execFdiv w a b rm s
  | .fsqrt w a rm => Sys2Proof.Machine.execFsqrt w a rm s
  | .frcp w a rm => Sys2Proof.Machine.execFrcp w a rm s
  | .frsq w a rm => Sys2Proof.Machine.execFrsq w a rm s
  | .frnd w a rm => Sys2Proof.Machine.execFrnd w a rm s
  | .fexp2 w a => Sys2Proof.Machine.execFexp2 w a s
  | .flog2 w a => Sys2Proof.Machine.execFlog2 w a s
  | .fsin w a => Sys2Proof.Machine.execFsin w a s
  | .fcos w a => Sys2Proof.Machine.execFcos w a s
  | .ftanh w a => Sys2Proof.Machine.execFtanh w a s
  | .fclass w a => Sys2Proof.Machine.execFclass w a s
  | .fcmp h t qd a b cond => Sys2Proof.Machine.execFcmp h t qd a b cond s
  | .dot2 w a b c rm => Sys2Proof.Machine.execDot2 w a b c rm s
  | .dot4 w a b c rm => Sys2Proof.Machine.execDot4 w a b c rm s
  | .cvt w src a rm => Sys2Proof.Machine.execCvt w src a rm s
  | .cvtq h t d a sc sf rm => Sys2Proof.Machine.execCvtq h t d a sc sf rm s
  | .cvtd h t d code sc sf => Sys2Proof.Machine.execCvtd h t d code sc sf s
  | .pack w a b m sf => Sys2Proof.Machine.execPack w a b m sf s
  | .unpk w a m sf => Sys2Proof.Machine.execUnpk w a m sf s
  | .shfl h mode d a b w => Sys2Proof.Machine.execShfl h mode d a b w s
  | .vote h mode d qa => Sys2Proof.Machine.execVote h mode d qa s
  | .lred h t u d a op => Sys2Proof.Machine.execLred h t u d a op s
  | .lscan h t d a op exc => Sys2Proof.Machine.execLscan h t d a op exc s
  | .lidx h d => Sys2Proof.Machine.execLidx h d s
  | .bcast h t u d a lane => Sys2Proof.Machine.execBcast h t u d a lane s
  | .mov w a => Sys2Proof.Machine.execMov w a s
  | .movi w imm => Sys2Proof.Machine.execMovi w imm s
  | .movh w imm sh => Sys2Proof.Machine.execMovh w imm sh s
  | .plop h qd qa qb qc lut => Sys2Proof.Machine.execPlop h qd qa qb qc lut s
  | .pmovTov h d => Sys2Proof.Machine.execPmovTov h d s
  | .pmovFromv h src mask => Sys2Proof.Machine.execPmovFromv h src mask s
  | .movxRead h d k imm => Sys2Proof.Machine.execMovxRead h d k imm s
  | .movxWrite h k imm src => Sys2Proof.Machine.execMovxWrite h k imm src s
  | .xsetSet h k src lo hi => Sys2Proof.Machine.execXsetSet h k src lo hi s
  | .xsetAdd h k src => Sys2Proof.Machine.execXsetAdd h k src s
  | .bra h tgt join => Sys2Proof.Machine.execBra h tgt join s
  | .brx h n cap idx off join => Sys2Proof.Machine.execBrx h n cap idx off join s
  | .call h sd tgt => Sys2Proof.Machine.execCall h sd tgt s
  | .ret h sa => Sys2Proof.Machine.execRet h sa s
  | .join ec => Sys2Proof.Machine.execJoin ec s
  | .exit h => Sys2Proof.Machine.execExit h s
  | .exitTeam h => Sys2Proof.Machine.execExitTeam h s
  | .nop h => Sys2Proof.Machine.execNop h s
  | .yld h => Sys2Proof.Machine.execYld h s
  | .spawn h tgt => Sys2Proof.Machine.execSpawn h tgt s
  | .gather h tgt => Sys2Proof.Machine.execGather h tgt s
  | .migr h tgt => Sys2Proof.Machine.execMigr h tgt s
  | .susp h => Sys2Proof.Machine.execSusp h s
  | .refillQ h d m n => Sys2Proof.Machine.execRefillQ h d m n s
  | .refillBkt h d n => Sys2Proof.Machine.execRefillBkt h d n s
  | .launch h m sq => Sys2Proof.Machine.execLaunch h m sq s
  | .waitch h => Sys2Proof.Machine.execWaitch h s
  | .steal h qd sv => Sys2Proof.Machine.execSteal h qd sv s
  | .enq h m => Sys2Proof.Machine.execEnq h m s
  | .ld h t u d m => Sys2Proof.Machine.execLd h t u d m s
  | .ldCap h u cd m => Sys2Proof.Machine.execLdCap h u cd m s
  | .st h t m data => Sys2Proof.Machine.execSt h t m data s
  | .stCap h m cs => Sys2Proof.Machine.execStCap h m cs s
  | .ldf h t d m => Sys2Proof.Machine.execLdf h t d m s
  | .pref h m => Sys2Proof.Machine.execPref h m s
  | .cflush h m => Sys2Proof.Machine.execCflush h m s
  | .ord ec o set => Sys2Proof.Machine.execOrd ec o set s
  | .fence h o set => Sys2Proof.Machine.execFence h o set s
  | .atom h op w d m b => Sys2Proof.Machine.execAtom h op w d m b s
  | .red h op w m b => Sys2Proof.Machine.execRed h op w m b s
  | .cas h t d m new => Sys2Proof.Machine.execCas h t d m new s
  | .capset h cd ca len => Sys2Proof.Machine.execCapset h cd ca len s
  | .capinc h cd ca inc => Sys2Proof.Machine.execCapinc h cd ca inc s
  | .capincM h cd ca inc w => Sys2Proof.Machine.execCapincM h cd ca inc w s
  | .capget h f u d ca => Sys2Proof.Machine.execCapget h f u d ca s
  | .capperm h cd ca mask => Sys2Proof.Machine.execCapperm h cd ca mask s
  | .capchk h qd ca req => Sys2Proof.Machine.execCapchk h qd ca req s
  | .barArv h d b => Sys2Proof.Machine.execBarArv h d b s
  | .barWait h qd tok => Sys2Proof.Machine.execBarWait h qd tok s
  | .barSync h b => Sys2Proof.Machine.execBarSync h b s
  | .waitc h cls t => Sys2Proof.Machine.execWaitc h cls t s
  | .waitany h d mask => Sys2Proof.Machine.execWaitany h d mask s
  | .waitall h mask => Sys2Proof.Machine.execWaitall h mask s
  | .ffr h d mask => Sys2Proof.Machine.execFfr h d mask s
  | .waitadr h t d m val => Sys2Proof.Machine.execWaitadr h t d m val s
  | .sig h sd m data => Sys2Proof.Machine.execSig h sd m data s
  | .amsg h die m sh => Sys2Proof.Machine.execAmsg h die m sh s
  | .mbxs h qd src ch => Sys2Proof.Machine.execMbxs h qd src ch s
  | .mbxr h d ch => Sys2Proof.Machine.execMbxr h d ch s
  | .mma h t tile hi sf r => Sys2Proof.Machine.execMma h t tile hi sf r s
  | .mmas h t tile m sn => Sys2Proof.Machine.execMmas h t tile m sn s
  | .drain h t tile m sn => Sys2Proof.Machine.execDrain h t tile m sn s
  | .accz h tile n => Sys2Proof.Machine.execAccz h tile n s
  | .omap h m sn => Sys2Proof.Machine.execOmap h m sn s
  | .cpy h m cs sn => Sys2Proof.Machine.execCpy h m cs sn s
  | .cpym h m cs sn => Sys2Proof.Machine.execCpym h m cs sn s
  | .batonRing h sl n => Sys2Proof.Machine.execBatonRing h sl n s
  | .batonPass h => Sys2Proof.Machine.execBatonPass h s
  | .batonEnd h => Sys2Proof.Machine.execBatonEnd h s
  | .jpoll h qd sj => Sys2Proof.Machine.execJpoll h qd sj s
  | .jwait h sj => Sys2Proof.Machine.execJwait h sj s
  | .bgath h m cs sn => Sys2Proof.Machine.execBgath h m cs sn s
  | .bred h t m cs sn => Sys2Proof.Machine.execBred h t m cs sn s
  | .bcvt h m cs sn => Sys2Proof.Machine.execBcvt h m cs sn s
  | .kcm h u d r c sk => Sys2Proof.Machine.execKcm h u d r c sk s
  | .beamQuery h d m => Sys2Proof.Machine.execBeamQuery h d m s
  | .beamResume h d m p => Sys2Proof.Machine.execBeamResume h d m p s
  | .bres h d j => Sys2Proof.Machine.execBres h d j s
  | .trb h tgt join => Sys2Proof.Machine.execTrb h tgt join s
  | .tre h => Sys2Proof.Machine.execTre h s
  | .tra h code => Sys2Proof.Machine.execTra h code s
  | .trs h d => Sys2Proof.Machine.execTrs h d s
  | .trap h code => Sys2Proof.Machine.execTrap h code s
  | .bkpt h code => Sys2Proof.Machine.execBkpt h code s
  | .eret h => Sys2Proof.Machine.execEret h s
  | .csrr h d csr => Sys2Proof.Machine.execCsrr h d csr s
  | .csrw h csr src => Sys2Proof.Machine.execCsrw h csr src s
  | .spmapRegister n val => Sys2Proof.Machine.execSpmapRegister n val s
  | .spmapDeregister n val => Sys2Proof.Machine.execSpmapDeregister n val s
  | .pairWord h0 h1 => Sys2Proof.Machine.execPairWord h0 h1 s
  | .queueDoorbell q tail => Sys2Proof.Machine.execQueueDoorbell q tail s
  | .qcfgWrite q val => Sys2Proof.Machine.execQcfgWrite q val s
  | .packetRead q => Sys2Proof.Machine.execPacketRead q s
  | .teamAdmit q c => Sys2Proof.Machine.execTeamAdmit q c s
  | .carouselArrival cluster => Sys2Proof.Machine.execCarouselArrival cluster s
  | .bucketTimeout cluster => Sys2Proof.Machine.execBucketTimeout cluster s
  | .bucketDispatch cluster => Sys2Proof.Machine.execBucketDispatch cluster s
  | .poolRefill tgt => Sys2Proof.Machine.execPoolRefill tgt s
  | .readyQueueDispatch cell => Sys2Proof.Machine.execReadyQueueDispatch cell s
  | .consumerAdmit ctx node c => Sys2Proof.Machine.execConsumerAdmit ctx node c s
  | .enqResume ctx node => Sys2Proof.Machine.execEnqResume ctx node s
  | .partialEviction cell waves threads => Sys2Proof.Machine.execPartialEviction cell waves threads s
  | .memberRestore uid => Sys2Proof.Machine.execMemberRestore uid s
  | .groupSwitchLimit slot => Sys2Proof.Machine.execGroupSwitchLimit slot s
  | .teamRetire ctx handle => Sys2Proof.Machine.execTeamRetire ctx handle s
  | .matrixJobStart cluster => Sys2Proof.Machine.execMatrixJobStart cluster s
  | .matrixJobComplete cluster => Sys2Proof.Machine.execMatrixJobComplete cluster s
  | .copyJobComplete cluster job => Sys2Proof.Machine.execCopyJobComplete cluster job s
  | .baseJobComplete cluster job => Sys2Proof.Machine.execBaseJobComplete cluster job s
  | .beamJobStart cluster => Sys2Proof.Machine.execBeamJobStart cluster s
  | .beamStep cluster job => Sys2Proof.Machine.execBeamStep cluster job s
  | .beamJobSave cluster job => Sys2Proof.Machine.execBeamJobSave cluster job s
  | .beamJobRestore cluster job => Sys2Proof.Machine.execBeamJobRestore cluster job s
  | .budgetRefill die => Sys2Proof.Machine.execBudgetRefill die s
  | .powerTokenDivision activity => Sys2Proof.Machine.execPowerTokenDivision activity s
  | .regionCommit die => Sys2Proof.Machine.execRegionCommit die s
  | .soloTokenGrant die => Sys2Proof.Machine.execSoloTokenGrant die s
  | .rds tag => Sys2Proof.Machine.execRds tag s
  | .rdo tag => Sys2Proof.Machine.execRdo tag s
  | .upg tag => Sys2Proof.Machine.execUpg tag s
  | .lrd tag => Sys2Proof.Machine.execLrd tag s
  | .wrt tag => Sys2Proof.Machine.execWrt tag s
  | .urd tag => Sys2Proof.Machine.execUrd tag s
  | .atm tag => Sys2Proof.Machine.execAtm tag s
  | .inv tag => Sys2Proof.Machine.execInv tag s
  | .sns tag => Sys2Proof.Machine.execSns tag s
  | .sni tag => Sys2Proof.Machine.execSni tag s
  | .iack tag => Sys2Proof.Machine.execIack tag s
  | .sdat tag => Sys2Proof.Machine.execSdat tag s
  | .wbif tag => Sys2Proof.Machine.execWbif tag s
  | .data tag => Sys2Proof.Machine.execData tag s
  | .nack tag => Sys2Proof.Machine.execNack tag s
  | .nackRetry tag => Sys2Proof.Machine.execNackRetry tag s
  | .wb tag => Sys2Proof.Machine.execWb tag s
  | .evn tag => Sys2Proof.Machine.execEvn tag s
  | .ptsTick die => Sys2Proof.Machine.execPtsTick die s
  | .leaseRebase die => Sys2Proof.Machine.execLeaseRebase die s
  | .hostHalfRequest line half => Sys2Proof.Machine.execHostHalfRequest line half s
  | .hostWrite pa bytes => Sys2Proof.Machine.execHostWrite pa bytes s
  | .hostRead pa n => Sys2Proof.Machine.execHostRead pa n s
  | .flitCrcFail link => Sys2Proof.Machine.execFlitCrcFail link s
  | .linkRecoveryFail link => Sys2Proof.Machine.execLinkRecoveryFail link s
  | .keyRollover link => Sys2Proof.Machine.execKeyRollover link s
  | .getVersion die => Sys2Proof.Machine.execGetVersion die s
  | .getCapabilities die => Sys2Proof.Machine.execGetCapabilities die s
  | .negotiateAlgorithms die => Sys2Proof.Machine.execNegotiateAlgorithms die s
  | .getDigests die => Sys2Proof.Machine.execGetDigests die s
  | .getCertificate die => Sys2Proof.Machine.execGetCertificate die s
  | .challenge die => Sys2Proof.Machine.execChallenge die s
  | .getMeasurements die => Sys2Proof.Machine.execGetMeasurements die s
  | .keyExchange die => Sys2Proof.Machine.execKeyExchange die s
  | .finish die => Sys2Proof.Machine.execFinish die s
  | .keyUpdate link => Sys2Proof.Machine.execKeyUpdate link s
  | .keyUpdateAck link => Sys2Proof.Machine.execKeyUpdateAck link s
  | .endSession die => Sys2Proof.Machine.execEndSession die s
  | .firmwareVerify die signed version => Sys2Proof.Machine.execFirmwareVerify die signed version s
  | .attestationResult die ok => Sys2Proof.Machine.execAttestationResult die ok s
  | .dieResetRequest die val => Sys2Proof.Machine.execDieResetRequest die val s
  | .dieDrainComplete die => Sys2Proof.Machine.execDieDrainComplete die s
  | .dieReset die => Sys2Proof.Machine.execDieReset die s
  | .storageError e => Sys2Proof.Machine.execStorageError e s
  | .allAsleep ctx => Sys2Proof.Machine.execAllAsleep ctx s
  | .waitadrWake slot => Sys2Proof.Machine.execWaitadrWake slot s
  | .waitWake slot => Sys2Proof.Machine.execWaitWake slot s
  | .ctxctlHalt ctx => Sys2Proof.Machine.execCtxctlHalt ctx s
  | .ctxctlGo ctx => Sys2Proof.Machine.execCtxctlGo ctx s
  | .tlbinv val => Sys2Proof.Machine.execTlbinv val s
  | .capw ctx val => Sys2Proof.Machine.execCapw ctx val s
  | .ctxenWrite ctx val => Sys2Proof.Machine.execCtxenWrite ctx val s
  | .flcfgWrite ctx val => Sys2Proof.Machine.execFlcfgWrite ctx val s
  | .diehtWrite die val => Sys2Proof.Machine.execDiehtWrite die val s
  | .firmwareUpdate val => Sys2Proof.Machine.execFirmwareUpdate val s
  | .firmwareUpdateEnd signed version programmed => Sys2Proof.Machine.execFirmwareUpdateEnd signed version programmed s
  | .counterArm die idx w0 => Sys2Proof.Machine.execCounterArm die idx w0 s
  | .counterDisarm die idx w0 => Sys2Proof.Machine.execCounterDisarm die idx w0 s
  | .sigDecrement die => Sys2Proof.Machine.execSigDecrement die s
  | .handlerRecordArrival die => Sys2Proof.Machine.execHandlerRecordArrival die s
  | .handlerDispatch die => Sys2Proof.Machine.execHandlerDispatch die s
  | .registerWrite off val => Sys2Proof.Machine.execRegisterWrite off val s
  | .copyJobStart cluster => Sys2Proof.Machine.execCopyJobStart cluster s
  | .copySectorLand cluster job sector => Sys2Proof.Machine.execCopySectorLand cluster job sector s
  | .pcieCompletion st => Sys2Proof.Machine.execPcieCompletion st s
  | .powerUp => Sys2Proof.Machine.execPowerUp s
  | .deviceFreeze => Sys2Proof.Machine.execDeviceFreeze s
  | .impreciseFault => Sys2Proof.Machine.execImpreciseFault s
  | .tlbinvDone => Sys2Proof.Machine.execTlbinvDone s
  | .peerWriteFail => Sys2Proof.Machine.execPeerWriteFail s

end Sys2Proof.Machine
end

