-- ==== Sys2Proof/Machine/Issue.lean ====
section
/-!
DEFINITION. Machine/Issue.lean: how a member issues its next word: chains and latches (R65 to R67), registers that a word reads
and writes (R68, R149), stalls (R68, R166 to R168, R183, R184, R218, R239, R246), what follows a word (R158, R251), and which
agent moves next (R39, log 3).
-/
namespace Sys2Proof.Machine

/-! ### What a word names -/

/-- The sources that a word reads once, of uniform or immediate kind alone. -/
def Instr.onceSrcs : Instr → List Src
  | .refillQ _ _ m n => [m.idx, n]
  | .refillBkt _ _ n | .steal _ _ n | .waitany _ _ n | .waitall _ n | .ffr _ _ n | .csrw _ _ n | .capset _ _ _ n
  | .capinc _ _ _ n | .capincM _ _ _ n _ | .capperm _ _ _ n | .capchk _ _ _ n | .bcast _ _ _ _ _ n => [n]
  | .ld _ _ u _ m => if u then [m.idx] else []
  | .ldCap _ _ _ m | .stCap _ m _ => [m.idx]
  | .kcm _ u _ r c _ => if u then [r, c] else []
  | _ => []

/-- The uniform registers that a word names outside its sources and reads. -/
def Instr.sregs : Instr → List Nat
  | .movh w _ _ => if w.u then [w.d.toNat] else []
  | .cvtq _ _ _ _ _ sf _ | .cvtd _ _ _ _ _ sf | .pack _ _ _ _ sf | .unpk _ _ _ sf | .mma _ _ _ _ sf _ =>
    (sf.map BitVec.toNat).toList
  | .ret _ n | .batonRing _ n _ | .jpoll _ _ n | .jwait _ n | .launch _ _ n | .amsg _ _ _ n | .sig _ n _ _ | .mmas _ _ _ _ n
  | .cpy _ _ _ n | .bgath _ _ _ n | .bred _ _ _ _ n | .bcvt _ _ _ n => [n.toNat]
  | .omap _ _ n => [n.toNat]
  | .cpym _ _ _ n | .kcm _ _ _ _ _ n => [n.toNat, n.toNat + 1]
  | .drain _ _ _ _ n => [n.toNat, n.toNat + 1, n.toNat + 2, n.toNat + 3]
  | _ => []

/-- The memory operand of a word (R72). -/
def Instr.memOp? : Instr → Option MemOp
  | .refillQ _ _ m _ | .launch _ m _ | .enq _ m | .ld _ _ _ _ m | .ldCap _ _ _ m | .st _ _ m _ | .stCap _ m _ | .ldf _ _ _ m
  | .pref _ m | .cflush _ m | .atom _ _ _ _ m _ | .red _ _ _ m _ | .cas _ _ _ m _ | .waitadr _ _ _ m _ | .sig _ _ m _
  | .amsg _ _ m _ | .mmas _ _ _ m _ | .drain _ _ _ m _ | .omap _ m _ | .cpy _ m _ _ | .cpym _ m _ _ | .bgath _ m _ _
  | .bred _ _ m _ _ | .bcvt _ m _ _ | .beamQuery _ _ m | .beamResume _ _ m _ => some m
  | _ => none

/-- The capability registers that a word reads: some engine words name more of them in their parameter words (R179, R182,
R187). -/
def Instr.cregs (m : Member) (i : Instr) : List Nat :=
  (Instr.memOp? i).toList.map (fun o => o.cap.toNat) ++ match i with
  | .brx _ _ c _ _ _ | .stCap _ _ c | .capset _ _ c _ | .capinc _ _ c _ | .capincM _ _ c _ _ | .capget _ _ _ _ c
  | .capperm _ _ c _ | .capchk _ _ c _ | .cpy _ _ c _ | .bred _ _ _ c _ | .bcvt _ _ c _ => [c.toNat]
  | .cpym _ _ c sn => [c.toNat, bits (m.sreg (sn.toNat + 1)).toNat 11 8]
  | .bgath _ _ c sn => [c.toNat, bits (m.sreg sn.toNat).toNat 35 32]
  | .drain _ _ _ _ sn =>
    let p := (m.sreg (sn.toNat + 3)).toNat
    (if p.testBit 0 then [bits p 11 8] else []) ++ (if p.testBit 2 then [bits p 15 12] else [])
  | _ => []

/-- Words by which an enabled lane writes its v0 to v11 into a record or an element (R19, R32, R33, R54, R330). -/
def Instr.sends : Instr → Bool
  | .spawn .. | .gather .. | .migr .. | .susp .. | .steal .. | .enq .. => true
  | _ => false

/-- The wave-only words (R28). -/
def Instr.waveOnly : Instr → Bool
  | .mma .. | .batonRing .. | .batonPass .. | .batonEnd .. | .refillQ .. | .refillBkt .. | .shfl .. => true
  | _ => false

/-- Engine words read their index in the lowest enabled lane (R165). -/
def Instr.readsOnce : Instr → Bool
  | .omap .. | .mmas .. | .drain .. | .cpy .. | .cpym .. | .bgath .. | .bred .. | .bcvt .. => true
  | _ => false

/-- One vector register or a pair. -/
def regSpan (w64 : Bool) (d : BitVec 6) : List Nat := if w64 then [d.toNat, d.toNat + 1] else [d.toNat]

/-- The vector registers that an instruction may write in its enabled lanes (R68). -/
def Instr.vwrites (i : Instr) (m : Member) (en : Word) : List Nat :=
  match i with
  | .cvtq _ _ d .. | .cvtd _ _ d .. | .shfl _ _ d .. | .lidx _ d | .pmovTov _ d | .movxRead _ d .. | .barArv _ d _ | .waitany _ d _
  | .ffr _ d _ | .bres _ d _ | .trs _ d | .beamQuery _ d _ | .beamResume _ d .. => [d.toNat]
  | .vote _ md d _ => if md == .ballot then [d.toNat] else []
  | .lred _ t u d .. | .bcast _ t u d .. | .ld _ t u d _ => if u then [] else regSpan t.is64 d
  | .lscan _ t d .. | .cas _ t d .. | .waitadr _ t d .. => regSpan t.is64 d
  | .ldf _ _ d _ => [d.toNat]
  | .atom _ op w d .. => regSpan (atomBytes op w == 8) d
  | .capget _ _ u d _ => if u then [] else regSpan true d
  | .mbxr _ d _ => regSpan true d
  | .kcm _ u d .. => if u then [] else [d.toNat]
  | .movxWrite _ k imm _ => (lanesOf en).map fun l => (movxReg m k imm l).toNat
  | .refillQ _ d _ _ | .refillBkt _ d _ => [0, 32, d.toNat]
  | .pairWord a b => (if a.op == .nop then [] else [a.d.toNat]) ++ (if b.op == .nop then [] else [b.d.toNat])
  | i => match Instr.alu? i with
    | some w => if w.u || w.nw then [] else regSpan (w.t.is64 && !(match i with
      | .fclass .. => true
      | _ => false)) w.d
    | none => []

/-- The vector registers that an instruction reads in its enabled lanes, TRB's checkpoint and a sent record among them. -/
def Instr.vreads (i : Instr) (m : Member) (en : Word) : List Nat :=
  (Instr.srcs i).flatMap (fun p => match p.2 with
    | .v n => regSpan p.1 n
    | _ => []) ++
  (if Instr.sends i then List.range 12 else []) ++
    match i with
    | .trb .. => List.range 12
    | .shfl _ _ _ a _ _ | .bcast _ _ _ _ a _ => [a.toNat]
    | .movxRead _ _ k imm => (lanesOf en).map fun l => (movxReg m k imm l).toNat
    | .pairWord a b => [a, b].flatMap fun h => h.d.toNat :: (match h.src with
      | .v n => [n.toNat]
      | _ => [])
    | _ => []

/-- The units that an energy class costs (R184). -/
def energyCost (ec : BitVec 2) : Nat :=
  match ec.toNat with
  | 0 => 0
  | 1 => 1
  | 2 => 8
  | _ => 64

/-- The energy class of a word; a pair word has class 0 (R99). -/
def Instr.cost (i : Instr) : Nat := energyCost (((fieldsOf i).map Fields.ec).getD 0)

/-- Instructions that stall without budget: OPC 0xB0 to 0xBC and BEAM (R184). -/
def Instr.budgeted (i : Instr) : Bool :=
  match fieldsOf i with
  | some f => (0xB0 ≤ f.opc.toNat && f.opc.toNat ≤ 0xBC) || f.opc == 0xC0
  | none => false

/-- The guard of a word, as its header (R96). -/
def Instr.header (i : Instr) : Hdr :=
  match fieldsOf i with
  | some f => f.hdr
  | none => ⟨0, false, 7⟩

/-! ### Checks of chains and poison -/

/-- Whether a source reads a poisoned 64-bit word of a lane. -/
def Member.poisonedSrc (m : Member) (l : Nat) (p : Bool × Src) : Bool :=
  match p.2 with
  | .v n => FMap.get false m.pv (l * 32 + n.toNat / 2)
  | .s n => FMap.get false m.ps n.toNat
  | _ => false

/-- Whether a half of a pair reads a poisoned register in a lane (R102): a lane outside its PG reads nothing, NOP and MOVI read no
register, and MOV and CVT do not read a. -/
def Half.poisoned (h : Half) (m : Member) (l : Nat) : Bool :=
  (Half.pg h m).getLsbD l &&
    match h.op with
    | .nop | .movi => false
    | .mov | .cvtF32 | .cvtI32 => m.poisonedSrc l (false, h.src)
    | _ => m.poisonedSrc l (false, h.src) || m.poisonedSrc l (false, .v h.d)

/-- SOFS of an OMAP, which it reads when its slot is scaled (R175). -/
def sofsReg (s : State) (m : Member) (ins : Instr) : List Nat :=
  match ins with
  | .omap _ _ n => if (s.fmtEntry m.ctx (strideSlot (m.sreg n.toNat))).scaled then [n.toNat + 1] else []
  | _ => []

/-- Whether a word reads a poisoned uniform or capability register. -/
def poisonedOnce (s : State) (m : Member) (ins : Instr) : Bool :=
  (!m.ps.isEmpty && ((Instr.onceSrcs ins).any (fun a => m.poisonedSrc 0 (false, a)) ||
    (Instr.sregs ins ++ sofsReg s m ins).any fun n => FMap.get false m.ps n)) ||
  (!m.pk.isEmpty && (Instr.cregs m ins).any fun n => FMap.get false m.pk (2 * n) || FMap.get false m.pk (2 * n + 1))

/-- Whether the bounds of MOVX refuse the word, which then reads no register that its index names (R64). -/
def movxFails (i : Iss) (ins : Instr) : Bool :=
  match ins with
  | .movxRead _ _ k imm | .movxWrite _ k imm _ => (movxCheck i k imm).toOption.isNone
  | _ => false

/-- The enabled lanes whose word consumes poison from a register (R149). -/
def poisonLanes (s : State) (i : Iss) (ins : Instr) : List Nat :=
  if (i.m.pv.isEmpty && i.m.ps.isEmpty && i.m.pk.isEmpty) || movxFails i ins then []
  else if poisonedOnce s i.m ins then i.lanes
  else
    let at' (l n : Nat) : Bool := FMap.get false i.m.pv (l * 32 + n / 2)
    let lanes := if Instr.readsOnce ins then i.lanes.take 1 else i.lanes
    lanes.filter fun l =>
      (Instr.srcs ins).any (i.m.poisonedSrc l) || (Instr.sends ins && (List.range 12).any (at' l)) ||
        match ins with
        | .shfl _ mode _ a b w => at' (shflSrc mode w.toNat l (i.m.src32 b l)) a.toNat
        | .bcast _ _ _ _ a lane => at' (if i.m.scalar then 0 else i.m.src32 lane l % 32) a.toNat
        | .movxRead _ _ k imm => at' l (movxReg i.m k imm l).toNat
        | .pairWord a b => Half.poisoned a i.m l || Half.poisoned b i.m l
        | _ => false

/-! ### Stalls -/

namespace State

/-- BUDGET of a context on a die (R184). -/
def budget (s : State) (ctx d : Nat) : Nat := FMap.get 0 (s.ctx ctx).budget d

/-- R184: an engine or BEAM word that costs more than the budget stalls, and while it does, every word of those opcodes of the
context on the die. -/
def budgetStall (s : State) (i : Iss) (ins : Instr) : Bool :=
  Instr.budgeted ins && (s.budget i.ctx i.dieNo < Instr.cost ins || FMap.get false (s.ctx i.ctx).stalled i.dieNo)

/-- R183: a wave of a team with an armed ring that is not the holder. -/
def batonStall (s : State) (i : Iss) : Bool :=
  !i.m.scalar && (match (s.team? i.ctx i.m.team).map Team.baton with
    | some (some (_, h)) => h != i.m.idx
    | _ => false)

/-- Commands accepted by a cluster that their engine has not started (R166). -/
def queuedJobs (s : State) (c : Nat) : Nat :=
  ((s.cluster c).jobs.filter fun j => j.st == .queued && j.accepted.isSome && j.cls != clsBeam).length +
    ((s.cluster c).beams.filter fun b => b.st == .waiting).length

/-- Unfinished jobs of a cluster (R167): a CPYM's copy and its follow-on, which share an ID, are one. -/
def unfinished (s : State) (c : Nat) : Nat :=
  let js := (s.cluster c).jobs.filter fun j => j.st != .done && j.cls != clsBeam
  (js.filter fun j => !js.any fun x => x.key + 1 == j.key && x.id == j.id).length + (s.cluster c).beams.length

/-- Stalls of a command of n jobs in the classes named (R166 to R168). -/
def jobStall (s : State) (i : Iss) (n : Nat) (classes : List Nat) : Bool :=
  let c := clusterOfCell i.cell
  64 < s.queuedJobs c + n || 4096 < s.unfinished c + n || classes.any fun k => 255 < i.m.count k + n

/-- Stalls of an engine instruction with a lane enabled. -/
def engineStall (s : State) (i : Iss) (ins : Instr) : Bool :=
  match ins with
  | .mma .. | .mmas .. | .drain .. | .accz .. => s.batonStall i || s.jobStall i 1 [clsMatrix]
  | .cpy .. => s.jobStall i 1 [clsCopy]
  | .cpym .. => s.batonStall i || s.jobStall i 1 [clsCopy, clsMatrix]
  | .bgath .. | .bred .. | .bcvt .. => s.jobStall i 1 [clsBase]
  | .amsg .. | .sig .. => 255 < i.m.count clsMsg + laneCount i.en
  | _ => false

/-- Whether the lanes of a BEAM outside regions pass its checks and find no room for their jobs: only then does it stall (R166 to R168,
R276). -/
def beamFull (s : State) (i : Iss) (ins : Instr) : Bool :=
  let rest := i.en &&& ~~~(s.regionLanes i.cell i.m.uid)
  match ins with
  | .beamQuery _ _ m | .beamResume _ _ m _ =>
    rest != 0 && s.jobStall i (laneCount rest) [clsBeam] && (beamCheck { i with en := rest } m s).toOption.isSome
  | _ => false

/-- R218: a TRB for whose lanes the region table lacks entries. -/
def regionStall (s : State) (i : Iss) (ins : Instr) : Bool :=
  match ins with
  | .trb .. =>
    let rest := i.en &&& ~~~(s.regionLanes i.cell i.m.uid)
    let need := if (lanesOf rest).any fun l => 8 ≤ abortsOf (i.m.rstatOf l) then 1 else laneCount rest
    256 < (s.die i.dieNo).regions.length + need
  | _ => false

/-- The first word of a trap handler (R256): it waits until the other members have stopped and the team's writes have been performed, its
posted PCIe requests among them. -/
def handlerStall (s : State) (i : Iss) : Bool :=
  i.m.trapLanes != 0 &&
    match s.team? i.ctx i.m.team with
    | none => false
    | some t =>
      t.trap.v && i.pc == t.handler &&
        (((FMap.vals s.members).any fun m => m.ctx == i.ctx && m.team == i.m.team && m.uid != i.m.uid && (match m.run with
            | .halting .. => true
            | _ => false)) ||
          (s.pcie.any fun r => r.posted && r.who.ctx == i.ctx && r.who.team == i.m.team) ||
          s.heldW.any fun e => e.uid != 0 && e.ctx == i.ctx && ((s.byUid e.uid).map Member.team).getD 0 == i.m.team)

/-- Whether a word stalls at issue. -/
def stalls (s : State) (i : Iss) (ins : Instr) : Bool :=
  s.budgetStall i ins || (s.pcie.any fun r => r.uid == i.m.uid && r.posted) || s.handlerStall i ||
    (i.en != 0 && (s.engineStall i ins || (s.beamFull i ins && s.regionLanes i.cell i.m.uid &&& i.en == 0) ||
      lentHit i.m (Instr.vwrites ins i.m i.en) || s.regionStall i ins))

/-! ### Words that wait for held writes (R68, R229) -/

/-- Words by which an enabled lane sends a record, a message or a packet that releases its earlier accesses (R25, R286, R330, R348). A barrier's
arrival and a mailbox entry, a SIG decrement, a region, a job and the end of a team wait by themselves. -/
def releasesNow : Instr → Bool
  | .spawn .. | .gather .. | .migr .. | .susp .. | .steal .. | .enq .. | .launch .. | .amsg .. => true
  | _ => false

/-- Words that complete only once earlier writes have been performed: an ERET those of its member (R256), and a CSRW that clears V of SPMAPB
those of its lanes (R143). -/
def completesAfter (m : Member) (en : Word) : Instr → Word
  | .eret .. => 0xFFFFFFFF
  | .csrw _ n v => if 0x110 ≤ n.toNat && n.toNat ≤ 0x12F && n.toNat % 2 == 1 && !(m.src64 v).testBit 63 then en else 0
  | _ => 0

/-- Whether the solo region of the cell's die belongs to a lane of the group that issues: the group cannot wait for the region to end, and
what receives its record waits instead (log 69). -/
def soloWithin (s : State) (i : Iss) : Bool :=
  match (s.die i.dieNo).soloHolder with
  | none => false
  | some n => ((FMap.find? (s.die i.dieNo).regions n).map fun r => r.uid == i.m.uid && i.mask.getLsbD r.lane).getD false

/-- The word that REFILL.Q updates at its home and whose value it needs (R162). -/
def homeWord (s : State) (i : Iss) (ins : Instr) : Option (Nat × Nat) :=
  match ins with
  | .refillQ _ _ m _ =>
    match s.locate i.ctx i.cell (i.m.creg m.cap.toNat).space.toNat (i.m.addr m (lowest i.en)) false false with
    | .ok (.dev pa _) => some (pa, 4)
    | _ => none
  | _ => none

/-- Whether a lane's reads of BRX or WAITADR, or its access to HOST or PEER, come after a held write of the lane (R193, R194, R197). -/
def laneBehind (s : State) (i : Iss) (ins : Instr) (l : Nat) : Bool :=
  let after (sp a n : Nat) : Bool := match s.locate i.ctx i.cell sp a false false with
    | .ok (.dev pa _) => s.loadWaits i.m.uid (laneMask l) pa n i.rel
    | _ => false
  match ins with
  | .brx _ _ c x off _ => after (i.m.creg c.toNat).space.toNat (brxAddr i c x off l) 8
  | .waitadr _ t _ m _ => after (i.m.creg m.cap.toNat).space.toNat (i.m.addr m l) t.bytes
  | _ =>
    match Instr.memOp? ins with
    | none => false
    | some m =>
      let sp := (i.m.creg m.cap.toNat).space.toNat
      (sp == spHost || sp == spPeer) && s.heldW.any fun e => e.uid == i.m.uid && e.job.isNone && e.orders (laneMask l) true true i.rel

/-- What a word waits for before it can issue: held writes of its own lanes, or those of a word, and the solo region that has read it, which
it updates at its home, given by address and length. -/
def behind (s : State) (i : Iss) (ins : Instr) : Option (Nat × Nat) :=
  if i.en == 0 then none
  else
    let pending := (s.heldW.filter fun e => e.uid == i.m.uid && e.job.isNone && i.en &&& e.lanes != 0).flatMap fun e => e.dst.regs
    let own := s.threadHeld i.m.uid (completesAfter i.m i.en ins) || (s.threadHeld i.m.uid i.en &&
      (((releasesNow ins || (match ins with
          | .refillQ .. => true
          | _ => false)) && !s.soloWithin i) ||
        i.lanes.any (s.laneBehind i ins) ||
        (!pending.isEmpty && (Instr.vreads ins i.m i.en ++ Instr.vwrites ins i.m i.en).any pending.contains)))
    if own then some (0, 0)
    else if s.soloWithin i then none
    else (s.homeWord i ins).filter fun p => (s.soloHolds p.1 p.2).isSome || s.heldAt p.1 p.2

/-- The held writes of the enabled lanes marked as released by a word that could not wait for them (log 69). -/
def tell (s : State) (i : Iss) (ins : Instr) : State :=
  if s.heldW.isEmpty || !releasesNow ins || !s.soloWithin i then s
  else { s with heldW := s.heldW.map fun e : HeldWrite =>
    if e.uid == i.m.uid && e.job.isNone && i.en &&& e.lanes != 0 then { e with told := true } else e }

/-- The group of a member put to sleep at its word, an ORD pair at its ORD (R195), where the solo region that it waits for belongs to another
lane of the member, and no latch chain is open (R66, R158, log 98). Elsewhere the word holds its issue port. -/
def sleepBehind (s : State) (k : Nat) (p : Nat × Nat) : State :=
  match s.member? k with
  | none => s
  | some m =>
    if s.soloMember (cellOf k) m.uid && m.chain == 0 then
      (s.setMember k (m.rewind.modGrp m.cur fun x => { x with wait := some (.behind p.1 p.2) })).repick k
    else s

/-! ### One word -/

def tick (s : State) : State := { s with clk := s.clk + 1 }

/-- The debit of a word (R184). -/
def debit (s : State) (i : Iss) (n : Nat) : State :=
  if n == 0 then s
  else s.modCtx i.ctx fun c => { c with budget := FMap.put 0 c.budget i.dieNo (FMap.get 0 c.budget i.dieNo - n) }

/-- The stall flag of a context on a die (R184). -/
def setStalled (s : State) (i : Iss) : State :=
  s.modCtx i.ctx fun c => { c with stalled := FMap.put false c.stalled i.dieNo true }

/-- A member that stalls while it halts stops at once (R251). -/
def stallHalt (s : State) (k : Nat) : State :=
  match s.member? k with
  | some m =>
    match m.run with
    | .halting _ d => s.stopMember k d
    | _ => s
  | none => s

/-- The chain, the ORD pair and the count of words after a word has run (R66, R67, R158, R195): `old` is the member before it.
A trap has emptied the latches and the pair itself. -/
def afterWord (old : Member) (ins : Instr) (m : Member) : Member :=
  let moved := m.cur == old.cur && !m.lat.isEmpty
  let m :=
    if Instr.nw ins && moved then { m with chain := old.chain + 1, chainPc := if old.chain == 0 then old.pc else old.chainPc }
    else { m with chain := 0 }
  let m := match ins with
    | .ord .. => m
    | _ => { m with ord := none }
  let m := { m with issued := true, inRow := if m.cur == old.cur then m.inRow + 1 else m.inRow }
  if 1024 ≤ m.inRow && m.chain == 0 && m.ord.isNone then m.rotate else m

/-- One more word of a member that halts (R251): it stops after its last, or when it sleeps. -/
def skidWord (s : State) (k : Nat) : State :=
  match s.member? k with
  | some m =>
    match m.run with
    | .halting n d =>
      if n ≤ d + 1 || m.asleep || m.q0 == 0 then s.stopMember k (d + 1) else s.modMember k fun m => { m with run := .halting n (d + 1) }
    | _ => s
  | none => s

/-- What follows a word of member k. -/
def finishWord (s : State) (k : Nat) (old : Member) (ins : Instr) : State :=
  let same : Bool := match s.member? k with
    | some m => m.uid == old.uid
    | none => false
  let s := s.modTeam old.ctx old.team fun t => { t with begun := true }
  let s := if same then (s.modMember k (afterWord old ins)).skidWord k else s
  let s := if s.heldW.isEmpty && s.late.isEmpty then s else s.drainHeld
  { s.tick with issuer := none }

/-- A member whose word does not issue now. -/
def waitWord (s : State) (k : Nat) : Out := .next { (s.stallHalt k).tick with issuer := none }

/-- The word of a member executes: the checks of its chain, WAVE_ONLY (R28, R108), stalls, poison, the debit, and its effect. A word
that meets a line which makes it wait has no effect and issues again (R239, R246). -/
def runInstr (s : State) (k : Nat) (m : Member) (ins : Instr) : Out :=
  let i : Iss := ⟨k, m, m.cur, m.enabled (Instr.header ins)⟩
  match chainCause m.chain ins with
  | some c => .next ((s.raiseAny i { cause := c }).finishWord k m ins)
  | none =>
    if Instr.waveOnly ins && m.scalar then .next ((s.raiseAny i { cause := Cause.waveOnly }).finishWord k m ins)
    else if s.stalls i ins then
      let s := if s.budgetStall i ins then s.setStalled i else s
      s.waitWord k
    else if s.beamFull i ins then
      -- the lanes with an open region leave the word first (R219)
      .next { (s.abortLanes i.cell m.uid (s.regionLanes i.cell m.uid &&& i.en) Cause.regionForbidden).tick with issuer := none }
    else
      match poisonLanes s i ins with
      | l :: ls =>
        let rl := s.regionLanes i.cell m.uid &&& maskOf (l :: ls)
        if rl == 0 then .next ((s.raise i { cause := Cause.poison, lane := some l }).finishWord k m ins)
        else .next { (s.abortLanes i.cell m.uid rl Cause.poison).tick with issuer := none }
      | [] =>
        match s.behind i ins with
        | some p => (s.sleepBehind k p).waitWord k
        | none =>
        match exec ins ((s.tell i ins).debit i (Instr.cost ins)) with
        | .next t => if t.lineQ.isEmpty then .next (t.finishWord k m ins) else (s.markAll t.lineQ).waitWord k
        | .fault f => .fault f
        | .refused r => .refused r

/-- Whether the pending aborts of a group restore registers of a lent block (R68, R225). -/
def abortsHeld (m : Member) : Bool := m.lent.any fun b => !b.1

/-- An imprecise fault of a member's team that was met while it had no resident member (R257). -/
def adriftFor (s : State) (m : Member) : Option ImpFault :=
  s.impFaults.find? fun f =>
    f.adrift && f.ctx == m.ctx && f.team == m.team && m.run == .run &&
      ((s.team? m.ctx m.team).map fun t => t.lid == f.lid && !t.trap.v).getD false

/-- The unit of a cell that issues the words of a slot: the wave engine, or one of the eight scalar cores of four threads (R9, R395). -/
def issueUnit (slot : Nat) : Nat := if slot < 16 then 0 else 1 + (slot - 16) / 4

/-- A member becomes the issuer: the values of its loads have come, and a slot of its unit that yielded may issue again (R395, log 83). -/
def beginWord (s : State) (k : Nat) (m : Member) : State :=
  let s := if s.coh.flights.isEmpty then s else
    { s with coh := { s.coh with flights := s.coh.flights.filter fun f => f.who.uid != m.uid } }
  let s := if (s.cell (cellOf k)).yielded.isEmpty then s else
    s.modCell (cellOf k) fun c => { c with yielded := c.yielded.filter fun n => issueUnit n != issueUnit (slotOf k) }
  { s with issuer := some k }

/-- A member issues: a fault that waits for the first member of its team, and pending aborts of its group, are delivered first; then the
word at its PC is fetched and runs. -/
def issueWord (s : State) (k : Nat) : Out :=
  match s.member? k with
  | none => .next s.tick
  | some m =>
    match s.adriftFor m with
    | some f => .next (({ s with impFaults := s.impFaults.erase f }).deliver m.uid (impArea f m true)).tick
    | none =>
    if !(s.abortedHere k m).isEmpty then .next (if abortsHeld m then s.tick else (s.deliverAborts k).tick)
    else
      let s := s.beginWord k m
      match s.instrAt (cellOf k) m.ctx m.pc with
      | .error c =>
        let i : Iss := ⟨k, m, m.cur, m.enabled ⟨0, false, 7⟩⟩
        .next ((s.raiseAny i { cause := c }).finishWord k m (.nop ⟨0, false, 7⟩))
      | .ok ins =>
        let s := match s.fetchLeaf (cellOf k) m.ctx m.pc with
          | .ok l => s.fillTlb (cellOf k) m.ctx m.pc.toNat l
          | .error _ => s
        s.runInstr k m ins

/-! ### Which agent moves -/

/-- Whether a die issues words: a die that drains only completes what it has accepted (R291). -/
def dieRuns (s : State) (d : Nat) : Bool := (s.die d).st == .trusted

/-- Whether a member can issue a word now. -/
def runnable (s : State) (k : Nat) : Bool :=
  match s.member? k with
  | none => false
  | some m =>
    m.run != .stopped && m.q0 != 0 && m.canIssue m.cur && s.dieRuns (dieOfCell (cellOf k)) &&
      !((s.ctx m.ctx).halted && m.run == .run)

/-- The next runnable member in turn (R39). -/
def nextMember (s : State) : Option Nat :=
  let ks := (FMap.keys s.members).filter s.runnable
  match ks.find? fun k => s.turn ≤ k with
  | some k => some k
  | none => ks.head?

/-- The member that issues when it is the turn of k: another one of its wave engine or scalar core, if one is runnable, when k has just yielded
(R395). -/
def yieldTo (s : State) (k : Nat) : Nat :=
  if (s.cell (cellOf k)).yielded.contains (slotOf k) then
    ((FMap.keys s.members).find? fun j => cellOf j == cellOf k && issueUnit (slotOf j) == issueUnit (slotOf k) && j != k && s.runnable j).getD k
  else k

/-- The row of a coherence message. -/
def msgInstr (m : Msg) : Instr :=
  match m.kind with
  | .rds => .rds m.tag
  | .rdo => .rdo m.tag
  | .upg => .upg m.tag
  | .lrd => .lrd m.tag
  | .wrt => .wrt m.tag
  | .urd => .urd m.tag
  | .atm => .atm m.tag
  | .inv => .inv m.tag
  | .sns => .sns m.tag
  | .sni => .sni m.tag
  | .iack => .iack m.tag
  | .sdat => .sdat m.tag
  | .wbif => .wbif m.tag
  | .data => .data m.tag
  | .nack => .nack m.tag
  | .wb => .wb m.tag
  | .evn => .evn m.tag

/-- Steps that come with time: the clock ticks of a die every 256 clk and its refill every 1,700 clk (R185, R240). -/
def timers (s : State) : List Instr :=
  [0, 1, 2, 3].flatMap fun d =>
    (if s.clk % 256 == 249 + 2 * d then [.ptsTick d] else []) ++ (if s.clk % 1700 == 1693 + 2 * d then [.budgetRefill d] else []) ++
    [.leaseRebase d]

/-- The cell, the shape and the choice of the controller for the next team of a queue. -/
def queueChoice (s : State) (n : Nat) : Option (Nat × TeamDesc × AdmitChoice) := do
  let l ← s.curLaunch n
  let d ← s.desc? l.ctx l.tdesc
  let p ← s.placeFor n d
  return (p.2.1, d, s.defaultChoice l.ctx p.2.1)

/-- The choice of the controller for a consumer team. -/
def nodeChoice (s : State) (x va : Nat) : Option AdmitChoice :=
  (s.consumerFor x va).map fun k =>
    s.defaultChoice x k.place.2.1

/-- Steps of the controllers (R44, R47, R52, R53, R55, R56, R259). -/
def controllers (s : State) : List Instr :=
  s.queueKeys.flatMap (fun n => .packetRead n :: (s.queueChoice n).toList.flatMap fun p =>
    [.partialEviction p.1 p.2.1.waves p.2.1.threads, .teamAdmit n p.2.2]) ++
  s.ctxs.flatMap (fun e : Nat × Ctx =>
    (e.2.gwaits.map fun g => .enqResume e.1 g.1) ++
    e.2.nodes.flatMap (fun va => (s.nodeChoice e.1 va).toList.map fun c => .consumerAdmit e.1 va c) ++ [.allAsleep e.1]) ++
  (s.evicted.filter fun m => s.restorable m || s.beamHeld m).flatMap (fun m => .memberRestore m.uid :: match s.team? m.ctx m.team with
    | some t => [.partialEviction t.cell 1 1]
    | none => [])

/-- The steps of the device's own agents that may have something to do, in groups. -/
def agentGroups (s : State) : List (List Instr) :=
  let cluster (e : Nat × Cluster) : List Instr :=
    (if e.2.inbound.isEmpty then [] else [.carouselArrival e.1]) ++
    (if e.2.buckets.isEmpty then [] else [.bucketTimeout e.1, .bucketDispatch e.1]) ++ [.poolRefill (.carousel e.1)]
  let job (c : Nat) (j : Job) : List Instr :=
    match j.op with
    | .cpy _ _ _ len _ =>
      match firstFree (len / 32) fun m => (FMap.find? j.landed m).isSome with
      | some m => [.copySectorLand c j.key m]
      | none => [.copyJobComplete c j.key]
    | .bgath .. | .bred .. | .bcvt .. => [.baseJobComplete c j.key]
    | _ => []
  let engines (e : Nat × Cluster) : List Instr :=
    (if e.2.jobs.isEmpty then [] else [.matrixJobStart e.1, .matrixJobComplete e.1, .copyJobStart e.1]) ++ e.2.jobs.flatMap (job e.1) ++
    (if e.2.beams.isEmpty then [] else [.beamJobStart e.1]) ++
    e.2.beams.flatMap fun j => [.beamStep e.1 j.key, .beamJobSave e.1 j.key, .beamJobRestore e.1 j.key]
  let cell (e : Nat × Cell) : List Instr :=
    if e.2.ready.isEmpty && e.2.inbound.isEmpty then [] else [.readyQueueDispatch e.1, .poolRefill (.ready e.1)]
  let die (e : Nat × Die) : List Instr :=
    (if e.2.regions.isEmpty && e.2.soloQ.isEmpty && s.heldW.isEmpty && s.late.isEmpty then [] else [.regionCommit e.1, .soloTokenGrant e.1]) ++
    (if e.2.sigs.isEmpty then [] else [.sigDecrement e.1]) ++ (if e.2.hin.isEmpty then [] else [.handlerRecordArrival e.1]) ++
    (if e.2.hq.isEmpty then [] else [.handlerDispatch e.1])
  [s.timers, s.coh.net.map msgInstr ++ s.coh.retry.map (fun m => .nackRetry m.tag),
    (FMap.keys s.members).flatMap (fun k => [.waitWake k, .waitadrWake k]),
    (if s.impFaults.isEmpty then [] else [.impreciseFault]) ++ (if s.pcie.isEmpty then [] else [.pcieCompletion .ok]),
    s.clusters.flatMap cluster, s.clusters.flatMap engines, s.cells.flatMap cell, s.dies.flatMap die,
    s.teams.map (fun t => .teamRetire t.ctx t.handle), s.controllers, if s.host.tlbDone then [] else [.tlbinvDone]]

/-- The steps of the agents, each group coming first in turn. -/
def agents (s : State) : List Instr :=
  let g := s.agentGroups
  let n := s.clk / 2 % g.length
  (g.drop n ++ g.take n).flatten

/-- The first of some steps that changes the state. -/
def firstMoving (s : State) : List Instr → Option State
  | [] => none
  | i :: t =>
    match exec i s with
    | .next s' => if s' == s then firstMoving s t else some s'
    | _ => firstMoving s t

/-- An agent of the device takes a step, or time passes. -/
def agentStep (s : State) : State :=
  match s.firstMoving s.agents with
  | some t => t.tick
  | none => s.tick

/-- The next runnable member in turn issues. -/
def memberStep (s : State) (k : Nat) : Out := { s with turn := s.yieldTo k + 1 }.issueWord (s.yieldTo k)

/-- A step without a scheduled move: members and agents alternate. -/
def freeStep (s : State) : Out :=
  match s.nextMember with
  | some k => if s.clk % 2 == 0 then s.memberStep k else
      match s.firstMoving s.agents with
      | some t => .next t.tick
      | none => s.memberStep k
  | none => .next s.agentStep

/-- Whether a scheduled event is a write of the host that follows an earlier one which is held at its home (R295, log 100). -/
def eventWaits (s : State) (i : Instr) : Bool := !s.frozen && Instr.bar0 i && s.threadHeld 0 1

/-- One move of the device: the head of the schedule, or the default order, which also fills the time that a scheduled write of the host
waits. A frozen device issues nothing (R263). -/
def move (s : State) : Out :=
  match s.schedule with
  | .event i :: t => if s.eventWaits i then s.freeStep else exec i { s with schedule := t, issuer := none }
  | .issue k :: t =>
    let s := { s with schedule := t }
    if !s.frozen && s.runnable k then s.issueWord (s.yieldTo k) else .next s.tick
  | [] => if s.frozen then .next s.tick else s.freeStep

end State

/-- The state in which die 0 is TRUSTED, context 0 has one page of code at address 0, and one wave of its only team is about to
issue the instruction that `w` holds there (log 32). -/
def placeWord (s : State) (w : Nat) : State :=
  let root := 0x10000
  let code := 0x30000
  -- a leaf of 2^36 bytes at 0 with R, W and X
  let s := s.setBytes root (toBytes 8 (2 ^ 63 + 15))
  let s := s.setBytes code (toBytes 8 w)
  let s := s.modDie 0 fun x => { x with st := .trusted }
  let c : Ctx := { Ctx.init with root := BitVec.ofNat 64 root, en := true, weight := 16, budget := [(0, 54400)] }
  let s := s.setCtx 0 c
  let t : Team :=
    { ctx := 0, handle := 1, lid := 0, tidx := 0, count := 1, args := [], acap := 0, tdesc := 0, entry := BitVec.ofNat 48 (code / 8),
      handler := 0, depth := 1, waves := 1, threads := 0, die := 0, cell := 0, bind := 0, prio := 0, wquota := 1, tquota := 0,
      wmask := 1, tmask := 0, spbase := 0, splen := 0, level := 16, live := 32, begun := false, isHandler := false, bars := [],
      mail := [], baton := none, trap := TrapArea.zero, held := [] }
  let m : Member :=
    { uid := s.nextUid, scalar := false, ctx := 0, team := 1, idx := 0, v := [], pv := [], s := [], c := [], ps := [], pk := [], q := [(0, 0xFFFFFFFF)],
      x := [], lat := [], chain := 0, chainPc := 0, ord := none,
      root := { Group.init with pc := BitVec.ofNat 57 code, mask := 0xFFFFFFFF }, subs := [], cur := none, serial := [], serialG := none,
      nextStamp := 0, inRow := 0, alatch := none, omap := none, cnt := [], jlast := 0, engst := 0, rstat := [], ldr := 0, lent := [],
      entered := s.clk, issued := false, run := .run, trapLanes := 0 }
  let s := { s with teams := t :: s.teams, nextUid := s.nextUid + 1, frozen := false, impFaults := s.impFaults.filter fun f => !f.adrift }
  let s := if (s.cell 0).yielded.isEmpty then s else s.modCell 0 fun c => { c with yielded := [] }
  let s := s.setMember (waveKey 0 0) m
  { s with schedule := .issue (waveKey 0 0) :: s.schedule }

end Sys2Proof.Machine
end

