-- ==== Sys2Proof/Machine/Step.lean ====
section
/-!
DEFINITION. Machine/Step.lean: one step of the device, and placing a word where the next step fetches.
-/
namespace Sys2Proof.Machine

/-- One step: the next move of the schedule, or of the device's own order. -/
def step (s : State) : Host.Outcome State Fault Refusal := s.move

/-- The state whose next step fetches and runs the word `w`: every instruction is one word of 64 bits (R96), so `_nbits` is not
needed (log 32). -/
def State.withFetchWord (s : State) (_nbits w : Nat) : State := placeWord s w

end Sys2Proof.Machine
end

