-- ==== Sys2Proof/Laws/PerInstr.lean ====
section
/-!
SUPPORT. Laws/PerInstr.lean: what is shown of every instruction one at a time. `RoundTrip` says that decoding the fields that the
encoder lays out for a well-formed instruction gives the instruction back, with every operand (R96 to R108).
-/
namespace Sys2Proof.Laws
open Sys2Proof

/-- Decoding the fields of a well-formed instruction gives it back. The rows that are not words, and pair words, have no such
fields. -/
def RoundTrip.Statement (i : Instr) : Prop := i.wf = true → ∀ f, fieldsOf i = some f → decodeWhole f = .ok i

/-! ### Fields of a word -/

namespace Enc

theorem low {n k : Nat} (z : BitVec n) (x : BitVec k) : (z ++ x).extractLsb' 0 k = x := BitVec.extractLsb'_append_eq_right
theorem high {n k : Nat} (z : BitVec n) (x : BitVec k) : (z ++ x).extractLsb' k n = z := BitVec.extractLsb'_append_eq_left

theorem flag (s : Bool) : ((0#11 : BitVec 11) ++ BitVec.ofBool s).getLsbD 0 = s := by cases s <;> rfl
theorem flag' (s : Bool) : (0#11 ++ BitVec.ofBool s)[0] = s := by cases s <;> rfl
theorem x11 (s : Bool) : (0#11 ++ BitVec.ofBool s : BitVec 12).extractLsb' 1 11 = 0#11 := high _ _
theorem x2l (r : BitVec 2) : (0#10 ++ r : BitVec 12).extractLsb' 0 2 = r := low _ _
theorem x2h (r : BitVec 2) : (0#10 ++ r : BitVec 12).extractLsb' 2 10 = 0#10 := high _ _
theorem x3l (k : BitVec 3) : (0#9 ++ k : BitVec 12).extractLsb' 0 3 = k := low _ _
theorem x3h (k : BitVec 3) : (0#9 ++ k : BitVec 12).extractLsb' 3 9 = 0#9 := high _ _
theorem x4l (k : BitVec 4) : (0#8 ++ k : BitVec 12).extractLsb' 0 4 = k := low _ _
theorem x4h (k : BitVec 4) : (0#8 ++ k : BitVec 12).extractLsb' 4 8 = 0#8 := high _ _
theorem x5l (k : BitVec 5) : (0#7 ++ k : BitVec 12).extractLsb' 0 5 = k := low _ _
theorem x5h (k : BitVec 5) : (0#7 ++ k : BitVec 12).extractLsb' 5 7 = 0#7 := high _ _
theorem x6l (z k : BitVec 6) : (z ++ k : BitVec 12).extractLsb' 0 6 = k := low _ _
theorem x6h (z k : BitVec 6) : (z ++ k : BitVec 12).extractLsb' 6 6 = z := high _ _
theorem x8l (z : BitVec 4) (k : BitVec 8) : (z ++ k : BitVec 12).extractLsb' 0 8 = k := low _ _
theorem x8h (z : BitVec 4) (k : BitVec 8) : (z ++ k : BitVec 12).extractLsb' 8 4 = z := high _ _
theorem d3l (q : BitVec 3) : (0#3 ++ q : BitVec 6).extractLsb' 0 3 = q := low _ _
theorem d3h (q : BitVec 3) : (0#3 ++ q : BitVec 6).extractLsb' 3 3 = 0#3 := high _ _
theorem d4l (q : BitVec 4) : (0#2 ++ q : BitVec 6).extractLsb' 0 4 = q := low _ _
theorem d4h (q : BitVec 4) : (0#2 ++ q : BitVec 6).extractLsb' 4 2 = 0#2 := high _ _
theorem d2l (q : BitVec 2) : (0#4 ++ q : BitVec 6).extractLsb' 0 2 = q := low _ _
theorem d2h (q : BitVec 2) : (0#4 ++ q : BitVec 6).extractLsb' 2 4 = 0#4 := high _ _
theorem s6l (z : BitVec 2) (n : BitVec 6) : (z ++ n : BitVec 8).extractLsb' 0 6 = n := low _ _
theorem s6h (z : BitVec 2) (n : BitVec 6) : (z ++ n : BitVec 8).extractLsb' 6 2 = z := high _ _
theorem s4l (n : BitVec 4) : (0#4 ++ n : BitVec 8).extractLsb' 0 4 = n := low _ _
theorem s4h (n : BitVec 4) : (0#4 ++ n : BitVec 8).extractLsb' 4 4 = 0#4 := high _ _
theorem s3l (n : BitVec 3) : (0#5 ++ n : BitVec 8).extractLsb' 0 3 = n := low _ _
theorem s3h (n : BitVec 3) : (0#5 ++ n : BitVec 8).extractLsb' 3 5 = 0#5 := high _ _
theorem t20 (t : BitVec 20) : t.extractLsb' 12 8 ++ t.extractLsb' 0 12 = t := by
  have := BitVec.extractLsb'_append_extractLsb'_eq_extractLsb' (x := t) (start₁ := 0) (len₁ := 12) (start₂ := 12) (len₂ := 8) rfl
  simpa using this
theorem j16 (t : BitVec 16) : t.extractLsb' 8 8 ++ t.extractLsb' 0 8 = t := by
  have := BitVec.extractLsb'_append_extractLsb'_eq_extractLsb' (x := t) (start₁ := 0) (len₁ := 8) (start₂ := 8) (len₂ := 8) rfl
  simpa using this

theorem ofByte_toByte (a : Src) : Src.ofByte a.toByte = a := by
  cases a <;> simp [Src.ofByte, Src.toByte, s6l, s6h]
theorem ofCode_code (t : Ty) : Ty.ofCode t.code = some t := by cases t <;> rfl

theorem cvtS (t : BitVec 5) (r : BitVec 2) : (0#5 ++ t ++ r : BitVec 12).extractLsb' 2 5 = t := by
  rw [BitVec.extractLsb'_append_eq_of_le (by decide)]; exact low _ _
theorem cvtZ (t : BitVec 5) (r : BitVec 2) : (0#5 ++ t ++ r : BitVec 12).extractLsb' 7 5 = 0#5 := by
  rw [BitVec.extractLsb'_append_eq_of_le (by decide)]; exact high _ _
theorem cvtR (t : BitVec 5) (r : BitVec 2) : (0#5 ++ t ++ r : BitVec 12).extractLsb' 0 2 = r := low _ _
theorem lscanO (e : Bool) (o : BitVec 3) : (0#8 ++ BitVec.ofBool e ++ o : BitVec 12).extractLsb' 0 3 = o := low _ _
theorem lscanE (e : Bool) (o : BitVec 3) : (0#8 ++ BitVec.ofBool e ++ o : BitVec 12)[3] = e := by revert e o; decide
theorem lscanZ (e : Bool) (o : BitVec 3) : (0#8 ++ BitVec.ofBool e ++ o : BitVec 12).extractLsb' 4 8 = 0#8 := by
  rw [BitVec.extractLsb'_append_eq_of_le (by decide)]; exact high _ _
theorem maskM (m : BitVec 6) : (0#5 ++ m ++ 0#1 : BitVec 12).extractLsb' 1 6 = m := by
  rw [BitVec.extractLsb'_append_eq_of_le (by decide)]; exact low _ _
theorem maskH (m : BitVec 6) : (0#5 ++ m ++ 0#1 : BitVec 12).extractLsb' 7 5 = 0#5 := by
  rw [BitVec.extractLsb'_append_eq_of_le (by decide)]; exact high _ _
theorem maskL (m : BitVec 6) : (0#5 ++ m ++ 0#1 : BitVec 12).extractLsb' 0 1 = 0#1 := low _ _
theorem movxK (k : BitVec 2) (i : BitVec 6) : (0#4 ++ k ++ i : BitVec 12).extractLsb' 6 2 = k := by
  rw [BitVec.extractLsb'_append_eq_of_le (by decide)]; exact low _ _
theorem movxZ (k : BitVec 2) (i : BitVec 6) : (0#4 ++ k ++ i : BitVec 12).extractLsb' 8 4 = 0#4 := by
  rw [BitVec.extractLsb'_append_eq_of_le (by decide)]; exact high _ _
theorem waitT (c : BitVec 3) (t : BitVec 8) : (0#1 ++ c ++ t : BitVec 12).extractLsb' 0 8 = t := low _ _
theorem waitC (c : BitVec 3) (t : BitVec 8) : (0#1 ++ c ++ t : BitVec 12).extractLsb' 8 3 = c := by
  rw [BitVec.extractLsb'_append_eq_of_le (by decide)]; exact low _ _
theorem waitZ (c : BitVec 3) (t : BitVec 8) : (0#1 ++ c ++ t : BitVec 12).extractLsb' 11 1 = 0#1 := by
  rw [BitVec.extractLsb'_append_eq_of_le (by decide)]; exact high _ _
theorem memS (a b : BitVec 2) (o : BitVec 8) : (a ++ b ++ o : BitVec 12).extractLsb' 10 2 = a := by
  rw [BitVec.extractLsb'_append_eq_of_le (by decide)]; exact high _ _
theorem memH (a b : BitVec 2) (o : BitVec 8) : (a ++ b ++ o : BitVec 12).extractLsb' 8 2 = b := by
  rw [BitVec.extractLsb'_append_eq_of_le (by decide)]; exact low _ _
theorem memO (a b : BitVec 2) (o : BitVec 8) : (a ++ b ++ o : BitVec 12).extractLsb' 0 8 = o := low _ _
theorem brxS (o : BitVec 8) : (12#4 ++ o : BitVec 12).extractLsb' 10 2 = 3#2 := memS 3#2 0#2 o
theorem brxH (o : BitVec 8) : (12#4 ++ o : BitVec 12).extractLsb' 8 2 = 0#2 := memH 3#2 0#2 o
theorem atomO (a : BitVec 3) (b : BitVec 2) : (a ++ b : BitVec 5).extractLsb' 2 3 = a := high _ _
theorem atomW (a : BitVec 3) (b : BitVec 2) : (a ++ b : BitVec 5).extractLsb' 0 2 = b := low _ _
theorem vecSrc (n : BitVec 6) : Src.ofByte (0#2 ++ n) = .v n := ofByte_toByte (.v n)
theorem uniSrc (n : BitVec 6) : Src.ofByte (2#2 ++ n) = .s n := ofByte_toByte (.s n)
theorem shflMode (m : ShflMode) : ShflMode.ofNat? m.code.toNat = some m := by cases m <;> rfl
theorem voteMode (m : VoteMode) : VoteMode.ofNat? m.code.toNat = some m := by cases m <;> rfl
theorem order (o : Order) : Order.ofNat? o.code.toNat = some o := by cases o <;> rfl
theorem capField (f : CapField) : CapField.ofNat? f.code.toNat = some f := by cases f <;> rfl
theorem atomOp (o : AtomOp) : AtomOp.ofCode o.code = o := by cases o <;> rfl
theorem notCap (t : Ty) : (t.code = 16#5) = False := by cases t <;> decide

/-- The field that holds sF for a CB4 word reads back. -/
theorem sf_ok {t : Ty} {x : Option (BitVec 6)} (h : (x.isSome == (t == .cb4)) = true) :
    Fields.sf t (sfByte x) = x ∧ Fields.sfz t (sfByte x) = true ∧ Fields.sfk t (sfByte x) = true := by
  cases x <;> cases t <;> simp_all [Fields.sf, Fields.sfz, Fields.sfk, sfByte, uniByte, uniSrc, Fields.num, s6l, Src.isS]

theorem check_ok {i : Instr} {f : Fields} {r : NwRule} (h : i.wf = true) (p : f.parse = some ⟨i, true, true, r⟩)
    (n : f.nw = true → r = .pure ∧ f.d = 0) : decodeWhole f = .ok i := by
  simp only [Instr.wf, Bool.and_eq_true] at h
  cases g : f.nw <;> simp_all [decodeWhole, Parsed.check]

theorem check_ok0 {i : Instr} {f : Fields} (h : i.wf = true) (n : f.nw = false) (p : ∃ r, f.parse = some ⟨i, true, true, r⟩) :
    decodeWhole f = .ok i := by
  obtain ⟨r, p⟩ := p
  exact check_ok h p (by simp [n])

theorem dOk_zero {w : Alu} (h : w.dOk = true) (n : w.nw = true) : w.d = 0 := by simpa [Alu.dOk, n] using h

theorem check_alu {i : Instr} {f : Fields} (w : Alu) (r : i.reservedOk = true → w.dOk = true) (h : i.wf = true) (n : f.nw = w.nw)
    (d : f.d = w.d) (p : f.parse = some ⟨i, true, true, .pure⟩) : decodeWhole f = .ok i := by
  refine check_ok h p fun g => ⟨rfl, ?_⟩
  simp only [Instr.wf, Bool.and_eq_true] at h
  rw [d, dOk_zero (r h.1.1.2) (n ▸ g)]

end Enc

/-! ### One lemma per instruction -/

open Enc

theorem RoundTrip.iadd (w : Alu) (a : Src) (b : Src) (sat : Bool) : RoundTrip.Statement (.iadd w a b sat) := by
  rintro hw f ⟨⟩
  exact check_alu w id hw rfl rfl (by
    simp [Fields.parse, Fields.parse0, Fields.ofTy, Fields.alu2s, Fields.hdr, Fields.a, Fields.b, Fields.xb, Fields.alu, Fields.cz,
      Fields.base, Fields.ofAlu, ofByte_toByte, ofCode_code, x11, flag'])
theorem RoundTrip.iaddc (w : Alu) (a : Src) (b : Src) (k : BitVec 3) : RoundTrip.Statement (.iaddc w a b k) := by
  rintro hw f ⟨⟩
  exact check_alu w id hw rfl rfl (by
    simp [Fields.parse, Fields.parse0, Fields.ofTy, Fields.hdr, Fields.a, Fields.b, Fields.xb, Fields.alu, Fields.cz, Fields.base,
      Fields.ofAlu, ofByte_toByte, ofCode_code, x3l, x3h])
theorem RoundTrip.isub (w : Alu) (a : Src) (b : Src) (sat : Bool) : RoundTrip.Statement (.isub w a b sat) := by
  rintro hw f ⟨⟩
  exact check_alu w id hw rfl rfl (by
    simp [Fields.parse, Fields.parse0, Fields.ofTy, Fields.alu2s, Fields.hdr, Fields.a, Fields.b, Fields.xb, Fields.alu, Fields.cz,
      Fields.base, Fields.ofAlu, ofByte_toByte, ofCode_code, x11, flag'])
theorem RoundTrip.imul (w : Alu) (a : Src) (b : Src) : RoundTrip.Statement (.imul w a b) := by
  rintro hw f ⟨⟩
  exact check_alu w id hw rfl rfl (by
    simp [Fields.parse, Fields.parse0, Fields.ofTy, Fields.alu2, Fields.hdr, Fields.a, Fields.b, Fields.alu, Fields.cz, Fields.xz,
      Fields.base, Fields.ofAlu, ofByte_toByte, ofCode_code])
theorem RoundTrip.imulh (w : Alu) (a : Src) (b : Src) : RoundTrip.Statement (.imulh w a b) := by
  rintro hw f ⟨⟩
  exact check_alu w id hw rfl rfl (by
    simp [Fields.parse, Fields.parse0, Fields.ofTy, Fields.alu2, Fields.hdr, Fields.a, Fields.b, Fields.alu, Fields.cz, Fields.xz,
      Fields.base, Fields.ofAlu, ofByte_toByte, ofCode_code])
theorem RoundTrip.imad (w : Alu) (a : Src) (b : Src) (c : Src) : RoundTrip.Statement (.imad w a b c) := by
  rintro hw f ⟨⟩
  exact check_alu w id hw rfl rfl (by
    simp [Fields.parse, Fields.parse0, Fields.ofTy, Fields.alu3, Fields.hdr, Fields.a, Fields.b, Fields.c, Fields.alu, Fields.xz,
      Fields.base, Fields.ofAlu, ofByte_toByte, ofCode_code])
theorem RoundTrip.idiv (w : Alu) (a : Src) (b : Src) : RoundTrip.Statement (.idiv w a b) := by
  rintro hw f ⟨⟩
  exact check_alu w id hw rfl rfl (by
    simp [Fields.parse, Fields.parse0, Fields.ofTy, Fields.alu2, Fields.hdr, Fields.a, Fields.b, Fields.alu, Fields.cz, Fields.xz,
      Fields.base, Fields.ofAlu, ofByte_toByte, ofCode_code])
theorem RoundTrip.irem (w : Alu) (a : Src) (b : Src) : RoundTrip.Statement (.irem w a b) := by
  rintro hw f ⟨⟩
  exact check_alu w id hw rfl rfl (by
    simp [Fields.parse, Fields.parse0, Fields.ofTy, Fields.alu2, Fields.hdr, Fields.a, Fields.b, Fields.alu, Fields.cz, Fields.xz,
      Fields.base, Fields.ofAlu, ofByte_toByte, ofCode_code])
theorem RoundTrip.imin (w : Alu) (a : Src) (b : Src) : RoundTrip.Statement (.imin w a b) := by
  rintro hw f ⟨⟩
  exact check_alu w id hw rfl rfl (by
    simp [Fields.parse, Fields.parse0, Fields.ofTy, Fields.alu2, Fields.hdr, Fields.a, Fields.b, Fields.alu, Fields.cz, Fields.xz,
      Fields.base, Fields.ofAlu, ofByte_toByte, ofCode_code])
theorem RoundTrip.imax (w : Alu) (a : Src) (b : Src) : RoundTrip.Statement (.imax w a b) := by
  rintro hw f ⟨⟩
  exact check_alu w id hw rfl rfl (by
    simp [Fields.parse, Fields.parse0, Fields.ofTy, Fields.alu2, Fields.hdr, Fields.a, Fields.b, Fields.alu, Fields.cz, Fields.xz,
      Fields.base, Fields.ofAlu, ofByte_toByte, ofCode_code])
theorem RoundTrip.iabs (w : Alu) (a : Src) (sat : Bool) : RoundTrip.Statement (.iabs w a sat) := by
  rintro hw f ⟨⟩
  exact check_alu w id hw rfl rfl (by
    simp [Fields.parse, Fields.parse0, Fields.ofTy, Fields.alu1s, Fields.hdr, Fields.a, Fields.xb, Fields.alu, Fields.bz, Fields.cz,
      Fields.base, Fields.ofAlu, ofByte_toByte, ofCode_code, x11, flag'])
theorem RoundTrip.ineg (w : Alu) (a : Src) (sat : Bool) : RoundTrip.Statement (.ineg w a sat) := by
  rintro hw f ⟨⟩
  exact check_alu w id hw rfl rfl (by
    simp [Fields.parse, Fields.parse0, Fields.ofTy, Fields.alu1s, Fields.hdr, Fields.a, Fields.xb, Fields.alu, Fields.bz, Fields.cz,
      Fields.base, Fields.ofAlu, ofByte_toByte, ofCode_code, x11, flag'])
theorem RoundTrip.and (w : Alu) (a : Src) (b : Src) : RoundTrip.Statement (.and w a b) := by
  rintro hw f ⟨⟩
  exact check_alu w id hw rfl rfl (by
    simp [Fields.parse, Fields.parse0, Fields.ofTy, Fields.alu2, Fields.hdr, Fields.a, Fields.b, Fields.alu, Fields.cz, Fields.xz,
      Fields.base, Fields.ofAlu, ofByte_toByte, ofCode_code])
theorem RoundTrip.or (w : Alu) (a : Src) (b : Src) : RoundTrip.Statement (.or w a b) := by
  rintro hw f ⟨⟩
  exact check_alu w id hw rfl rfl (by
    simp [Fields.parse, Fields.parse0, Fields.ofTy, Fields.alu2, Fields.hdr, Fields.a, Fields.b, Fields.alu, Fields.cz, Fields.xz,
      Fields.base, Fields.ofAlu, ofByte_toByte, ofCode_code])
theorem RoundTrip.xor (w : Alu) (a : Src) (b : Src) : RoundTrip.Statement (.xor w a b) := by
  rintro hw f ⟨⟩
  exact check_alu w id hw rfl rfl (by
    simp [Fields.parse, Fields.parse0, Fields.ofTy, Fields.alu2, Fields.hdr, Fields.a, Fields.b, Fields.alu, Fields.cz, Fields.xz,
      Fields.base, Fields.ofAlu, ofByte_toByte, ofCode_code])
theorem RoundTrip.not (w : Alu) (a : Src) : RoundTrip.Statement (.not w a) := by
  rintro hw f ⟨⟩
  exact check_alu w id hw rfl rfl (by
    simp [Fields.parse, Fields.parse0, Fields.ofTy, Fields.alu1, Fields.hdr, Fields.a, Fields.alu, Fields.bz, Fields.cz, Fields.xz,
      Fields.base, Fields.ofAlu, ofByte_toByte, ofCode_code])
theorem RoundTrip.shl (w : Alu) (a : Src) (b : Src) : RoundTrip.Statement (.shl w a b) := by
  rintro hw f ⟨⟩
  exact check_alu w id hw rfl rfl (by
    simp [Fields.parse, Fields.parse1, Fields.ofTy, Fields.alu2, Fields.hdr, Fields.a, Fields.b, Fields.alu, Fields.cz, Fields.xz,
      Fields.base, Fields.ofAlu, ofByte_toByte, ofCode_code])
theorem RoundTrip.shr (w : Alu) (a : Src) (b : Src) : RoundTrip.Statement (.shr w a b) := by
  rintro hw f ⟨⟩
  exact check_alu w id hw rfl rfl (by
    simp [Fields.parse, Fields.parse1, Fields.ofTy, Fields.alu2, Fields.hdr, Fields.a, Fields.b, Fields.alu, Fields.cz, Fields.xz,
      Fields.base, Fields.ofAlu, ofByte_toByte, ofCode_code])
theorem RoundTrip.sar (w : Alu) (a : Src) (b : Src) : RoundTrip.Statement (.sar w a b) := by
  rintro hw f ⟨⟩
  exact check_alu w id hw rfl rfl (by
    simp [Fields.parse, Fields.parse1, Fields.ofTy, Fields.alu2, Fields.hdr, Fields.a, Fields.b, Fields.alu, Fields.cz, Fields.xz,
      Fields.base, Fields.ofAlu, ofByte_toByte, ofCode_code])
theorem RoundTrip.rot (w : Alu) (a : Src) (b : Src) : RoundTrip.Statement (.rot w a b) := by
  rintro hw f ⟨⟩
  exact check_alu w id hw rfl rfl (by
    simp [Fields.parse, Fields.parse1, Fields.ofTy, Fields.alu2, Fields.hdr, Fields.a, Fields.b, Fields.alu, Fields.cz, Fields.xz,
      Fields.base, Fields.ofAlu, ofByte_toByte, ofCode_code])
theorem RoundTrip.bfx (w : Alu) (a : Src) (ctl : Src) : RoundTrip.Statement (.bfx w a ctl) := by
  rintro hw f ⟨⟩
  exact check_alu w id hw rfl rfl (by
    simp [Fields.parse, Fields.parse1, Fields.ofTy, Fields.alu2, Fields.hdr, Fields.a, Fields.b, Fields.alu, Fields.cz, Fields.xz,
      Fields.base, Fields.ofAlu, ofByte_toByte, ofCode_code])
theorem RoundTrip.bfi (w : Alu) (a : Src) (b : Src) (ctl : Src) : RoundTrip.Statement (.bfi w a b ctl) := by
  rintro hw f ⟨⟩
  exact check_alu w id hw rfl rfl (by
    simp [Fields.parse, Fields.parse1, Fields.ofTy, Fields.alu3, Fields.hdr, Fields.a, Fields.b, Fields.c, Fields.alu, Fields.xz,
      Fields.base, Fields.ofAlu, ofByte_toByte, ofCode_code])
theorem RoundTrip.popc (w : Alu) (a : Src) : RoundTrip.Statement (.popc w a) := by
  rintro hw f ⟨⟩
  exact check_alu w id hw rfl rfl (by
    simp [Fields.parse, Fields.parse1, Fields.ofTy, Fields.alu1, Fields.hdr, Fields.a, Fields.alu, Fields.bz, Fields.cz, Fields.xz,
      Fields.base, Fields.ofAlu, ofByte_toByte, ofCode_code])
theorem RoundTrip.clz (w : Alu) (a : Src) : RoundTrip.Statement (.clz w a) := by
  rintro hw f ⟨⟩
  exact check_alu w id hw rfl rfl (by
    simp [Fields.parse, Fields.parse1, Fields.ofTy, Fields.alu1, Fields.hdr, Fields.a, Fields.alu, Fields.bz, Fields.cz, Fields.xz,
      Fields.base, Fields.ofAlu, ofByte_toByte, ofCode_code])
theorem RoundTrip.ctz (w : Alu) (a : Src) : RoundTrip.Statement (.ctz w a) := by
  rintro hw f ⟨⟩
  exact check_alu w id hw rfl rfl (by
    simp [Fields.parse, Fields.parse1, Fields.ofTy, Fields.alu1, Fields.hdr, Fields.a, Fields.alu, Fields.bz, Fields.cz, Fields.xz,
      Fields.base, Fields.ofAlu, ofByte_toByte, ofCode_code])
theorem RoundTrip.brev (w : Alu) (a : Src) : RoundTrip.Statement (.brev w a) := by
  rintro hw f ⟨⟩
  exact check_alu w id hw rfl rfl (by
    simp [Fields.parse, Fields.parse1, Fields.ofTy, Fields.alu1, Fields.hdr, Fields.a, Fields.alu, Fields.bz, Fields.cz, Fields.xz,
      Fields.base, Fields.ofAlu, ofByte_toByte, ofCode_code])
theorem RoundTrip.icmp (h : Hdr) (t : Ty) (qd : BitVec 3) (a : Src) (b : Src) (cond : BitVec 3) :
    RoundTrip.Statement (.icmp h t qd a b cond) := by
  rintro hw f ⟨⟩
  exact check_ok0 hw rfl (by
    simp [Fields.parse, Fields.parse1, Fields.plain, Fields.hdr, Fields.a, Fields.b, Fields.xb, Fields.qd, Fields.qdOk, Fields.cz,
      Fields.base, predD, ofByte_toByte, ofCode_code, x3l, x3h, d3l, d3h])
theorem RoundTrip.sel (w : Alu) (a : Src) (b : Src) (k : BitVec 3) : RoundTrip.Statement (.sel w a b k) := by
  rintro hw f ⟨⟩
  exact check_alu w id hw rfl rfl (by
    simp [Fields.parse, Fields.parse1, Fields.ofTy, Fields.hdr, Fields.a, Fields.b, Fields.xb, Fields.alu, Fields.cz, Fields.base,
      Fields.ofAlu, ofByte_toByte, ofCode_code, x3l, x3h])
theorem RoundTrip.fadd (w : Alu) (a : Src) (b : Src) (rm : BitVec 2) : RoundTrip.Statement (.fadd w a b rm) := by
  rintro hw f ⟨⟩
  exact check_alu w id hw rfl rfl (by
    simp [Fields.parse, Fields.parse2, Fields.ofTy, Fields.alu2r, Fields.hdr, Fields.a, Fields.b, Fields.xb, Fields.alu, Fields.cz,
      Fields.base, Fields.ofAlu, ofByte_toByte, ofCode_code, x2l, x2h])
theorem RoundTrip.fsub (w : Alu) (a : Src) (b : Src) (rm : BitVec 2) : RoundTrip.Statement (.fsub w a b rm) := by
  rintro hw f ⟨⟩
  exact check_alu w id hw rfl rfl (by
    simp [Fields.parse, Fields.parse2, Fields.ofTy, Fields.alu2r, Fields.hdr, Fields.a, Fields.b, Fields.xb, Fields.alu, Fields.cz,
      Fields.base, Fields.ofAlu, ofByte_toByte, ofCode_code, x2l, x2h])
theorem RoundTrip.fmul (w : Alu) (a : Src) (b : Src) (rm : BitVec 2) : RoundTrip.Statement (.fmul w a b rm) := by
  rintro hw f ⟨⟩
  exact check_alu w id hw rfl rfl (by
    simp [Fields.parse, Fields.parse2, Fields.ofTy, Fields.alu2r, Fields.hdr, Fields.a, Fields.b, Fields.xb, Fields.alu, Fields.cz,
      Fields.base, Fields.ofAlu, ofByte_toByte, ofCode_code, x2l, x2h])
theorem RoundTrip.ffma (w : Alu) (a : Src) (b : Src) (c : Src) (rm : BitVec 2) :
    RoundTrip.Statement (.ffma w a b c rm) := by
  rintro hw f ⟨⟩
  exact check_alu w id hw rfl rfl (by
    simp [Fields.parse, Fields.parse2, Fields.ofTy, Fields.alu3r, Fields.hdr, Fields.a, Fields.b, Fields.c, Fields.xb, Fields.alu,
      Fields.base, Fields.ofAlu, ofByte_toByte, ofCode_code, x2l, x2h])
theorem RoundTrip.fmin (w : Alu) (a : Src) (b : Src) : RoundTrip.Statement (.fmin w a b) := by
  rintro hw f ⟨⟩
  exact check_alu w id hw rfl rfl (by
    simp [Fields.parse, Fields.parse2, Fields.ofTy, Fields.alu2, Fields.hdr, Fields.a, Fields.b, Fields.alu, Fields.cz, Fields.xz,
      Fields.base, Fields.ofAlu, ofByte_toByte, ofCode_code])
theorem RoundTrip.fmax (w : Alu) (a : Src) (b : Src) : RoundTrip.Statement (.fmax w a b) := by
  rintro hw f ⟨⟩
  exact check_alu w id hw rfl rfl (by
    simp [Fields.parse, Fields.parse2, Fields.ofTy, Fields.alu2, Fields.hdr, Fields.a, Fields.b, Fields.alu, Fields.cz, Fields.xz,
      Fields.base, Fields.ofAlu, ofByte_toByte, ofCode_code])
theorem RoundTrip.fdiv (w : Alu) (a : Src) (b : Src) (rm : BitVec 2) : RoundTrip.Statement (.fdiv w a b rm) := by
  rintro hw f ⟨⟩
  exact check_alu w id hw rfl rfl (by
    simp [Fields.parse, Fields.parse2, Fields.ofTy, Fields.alu2r, Fields.hdr, Fields.a, Fields.b, Fields.xb, Fields.alu, Fields.cz,
      Fields.base, Fields.ofAlu, ofByte_toByte, ofCode_code, x2l, x2h])
theorem RoundTrip.fsqrt (w : Alu) (a : Src) (rm : BitVec 2) : RoundTrip.Statement (.fsqrt w a rm) := by
  rintro hw f ⟨⟩
  exact check_alu w id hw rfl rfl (by
    simp [Fields.parse, Fields.parse2, Fields.ofTy, Fields.alu1r, Fields.hdr, Fields.a, Fields.xb, Fields.alu, Fields.bz, Fields.cz,
      Fields.base, Fields.ofAlu, ofByte_toByte, ofCode_code, x2l, x2h])
theorem RoundTrip.frcp (w : Alu) (a : Src) (rm : BitVec 2) : RoundTrip.Statement (.frcp w a rm) := by
  rintro hw f ⟨⟩
  exact check_alu w id hw rfl rfl (by
    simp [Fields.parse, Fields.parse2, Fields.ofTy, Fields.alu1r, Fields.hdr, Fields.a, Fields.xb, Fields.alu, Fields.bz, Fields.cz,
      Fields.base, Fields.ofAlu, ofByte_toByte, ofCode_code, x2l, x2h])
theorem RoundTrip.frsq (w : Alu) (a : Src) (rm : BitVec 2) : RoundTrip.Statement (.frsq w a rm) := by
  rintro hw f ⟨⟩
  exact check_alu w id hw rfl rfl (by
    simp [Fields.parse, Fields.parse2, Fields.ofTy, Fields.alu1r, Fields.hdr, Fields.a, Fields.xb, Fields.alu, Fields.bz, Fields.cz,
      Fields.base, Fields.ofAlu, ofByte_toByte, ofCode_code, x2l, x2h])
theorem RoundTrip.frnd (w : Alu) (a : Src) (rm : BitVec 2) : RoundTrip.Statement (.frnd w a rm) := by
  rintro hw f ⟨⟩
  exact check_alu w id hw rfl rfl (by
    simp [Fields.parse, Fields.parse2, Fields.ofTy, Fields.alu1r, Fields.hdr, Fields.a, Fields.xb, Fields.alu, Fields.bz, Fields.cz,
      Fields.base, Fields.ofAlu, ofByte_toByte, ofCode_code, x2l, x2h])
theorem RoundTrip.fexp2 (w : Alu) (a : Src) : RoundTrip.Statement (.fexp2 w a) := by
  rintro hw f ⟨⟩
  exact check_alu w id hw rfl rfl (by
    simp [Fields.parse, Fields.parse2, Fields.ofTy, Fields.alu1, Fields.hdr, Fields.a, Fields.alu, Fields.bz, Fields.cz, Fields.xz,
      Fields.base, Fields.ofAlu, ofByte_toByte, ofCode_code])
theorem RoundTrip.flog2 (w : Alu) (a : Src) : RoundTrip.Statement (.flog2 w a) := by
  rintro hw f ⟨⟩
  exact check_alu w id hw rfl rfl (by
    simp [Fields.parse, Fields.parse2, Fields.ofTy, Fields.alu1, Fields.hdr, Fields.a, Fields.alu, Fields.bz, Fields.cz, Fields.xz,
      Fields.base, Fields.ofAlu, ofByte_toByte, ofCode_code])
theorem RoundTrip.fsin (w : Alu) (a : Src) : RoundTrip.Statement (.fsin w a) := by
  rintro hw f ⟨⟩
  exact check_alu w id hw rfl rfl (by
    simp [Fields.parse, Fields.parse2, Fields.ofTy, Fields.alu1, Fields.hdr, Fields.a, Fields.alu, Fields.bz, Fields.cz, Fields.xz,
      Fields.base, Fields.ofAlu, ofByte_toByte, ofCode_code])
theorem RoundTrip.fcos (w : Alu) (a : Src) : RoundTrip.Statement (.fcos w a) := by
  rintro hw f ⟨⟩
  exact check_alu w id hw rfl rfl (by
    simp [Fields.parse, Fields.parse2, Fields.ofTy, Fields.alu1, Fields.hdr, Fields.a, Fields.alu, Fields.bz, Fields.cz, Fields.xz,
      Fields.base, Fields.ofAlu, ofByte_toByte, ofCode_code])
theorem RoundTrip.ftanh (w : Alu) (a : Src) : RoundTrip.Statement (.ftanh w a) := by
  rintro hw f ⟨⟩
  exact check_alu w id hw rfl rfl (by
    simp [Fields.parse, Fields.parse2, Fields.ofTy, Fields.alu1, Fields.hdr, Fields.a, Fields.alu, Fields.bz, Fields.cz, Fields.xz,
      Fields.base, Fields.ofAlu, ofByte_toByte, ofCode_code])
theorem RoundTrip.fclass (w : Alu) (a : Src) : RoundTrip.Statement (.fclass w a) := by
  rintro hw f ⟨⟩
  exact check_alu w id hw rfl rfl (by
    simp [Fields.parse, Fields.parse3, Fields.ofTy, Fields.alu1, Fields.hdr, Fields.a, Fields.alu, Fields.bz, Fields.cz, Fields.xz,
      Fields.base, Fields.ofAlu, ofByte_toByte, ofCode_code])
theorem RoundTrip.fcmp (h : Hdr) (t : Ty) (qd : BitVec 3) (a : Src) (b : Src) (cond : BitVec 3) :
    RoundTrip.Statement (.fcmp h t qd a b cond) := by
  rintro hw f ⟨⟩
  exact check_ok0 hw rfl (by
    simp [Fields.parse, Fields.parse3, Fields.plain, Fields.hdr, Fields.a, Fields.b, Fields.xb, Fields.qd, Fields.qdOk, Fields.cz,
      Fields.base, predD, ofByte_toByte, ofCode_code, x3l, x3h, d3l, d3h])
theorem RoundTrip.dot2 (w : Alu) (a : Src) (b : Src) (c : Src) (rm : BitVec 2) :
    RoundTrip.Statement (.dot2 w a b c rm) := by
  rintro hw f ⟨⟩
  exact check_alu w id hw rfl rfl (by
    simp [Fields.parse, Fields.parse3, Fields.ofTy, Fields.alu3r, Fields.hdr, Fields.a, Fields.b, Fields.c, Fields.xb, Fields.alu,
      Fields.base, Fields.ofAlu, ofByte_toByte, ofCode_code, x2l, x2h])
theorem RoundTrip.dot4 (w : Alu) (a : Src) (b : Src) (c : Src) (rm : BitVec 2) :
    RoundTrip.Statement (.dot4 w a b c rm) := by
  rintro hw f ⟨⟩
  exact check_alu w id hw rfl rfl (by
    simp [Fields.parse, Fields.parse3, Fields.ofTy, Fields.alu3r, Fields.hdr, Fields.a, Fields.b, Fields.c, Fields.xb, Fields.alu,
      Fields.base, Fields.ofAlu, ofByte_toByte, ofCode_code, x2l, x2h])
theorem RoundTrip.cvt (w : Alu) (src : Ty) (a : Src) (rm : BitVec 2) : RoundTrip.Statement (.cvt w src a rm) := by
  rintro hw f ⟨⟩
  exact check_alu w (fun r => by simp_all [Instr.reservedOk]) hw rfl rfl (by
    simp [Fields.parse, Fields.parse4, Fields.ofTy, Fields.hdr, Fields.a, Fields.xb, Fields.alu, Fields.bz, Fields.cz, Fields.base,
      Fields.ofAlu, ofByte_toByte, ofCode_code, cvtS, cvtZ, cvtR])
theorem RoundTrip.cvtq (h : Hdr) (t : Ty) (d : BitVec 6) (a : Src) (sc : Src) (sf : Option (BitVec 6)) (rm : BitVec 2) :
    RoundTrip.Statement (.cvtq h t d a sc sf rm) := by
  rintro hw f ⟨⟩
  have sf := by simp only [Instr.wf, Instr.assigned, Bool.and_eq_true] at hw; exact sf_ok hw.1.1.1.2
  exact check_ok0 hw rfl (by
    simp [Fields.parse, Fields.parse4, Fields.plain, Fields.hdr, Fields.a, Fields.b, Fields.xb, Fields.base, ofByte_toByte,
      ofCode_code, x2l, x2h, sf])
theorem RoundTrip.cvtd (h : Hdr) (t : Ty) (d : BitVec 6) (code : Src) (sc : Src) (sf : Option (BitVec 6)) :
    RoundTrip.Statement (.cvtd h t d code sc sf) := by
  rintro hw f ⟨⟩
  have sf := by simp only [Instr.wf, Instr.assigned, Bool.and_eq_true] at hw; exact sf_ok hw.1.1.1.2
  exact check_ok0 hw rfl (by
    simp [Fields.parse, Fields.parse4, Fields.plain, Fields.hdr, Fields.a, Fields.b, Fields.xz, Fields.base, ofByte_toByte,
      ofCode_code, sf])
theorem RoundTrip.pack (w : Alu) (a : Src) (b : Src) (m : BitVec 3) (sf : Option (BitVec 6)) :
    RoundTrip.Statement (.pack w a b m sf) := by
  rintro hw f ⟨⟩
  have sf := by simp only [Instr.wf, Instr.assigned, Bool.and_eq_true] at hw; exact sf_ok hw.1.1.1.2
  exact check_alu w (fun r => by simp_all [Instr.reservedOk]) hw rfl rfl (by
    simp [Fields.parse, Fields.parse4, Fields.ofTy, Fields.hdr, Fields.a, Fields.b, Fields.xb, Fields.alu, Fields.base, Fields.ofAlu,
      ofByte_toByte, ofCode_code, x3l, x3h, sf])
theorem RoundTrip.unpk (w : Alu) (a : Src) (m : BitVec 3) (sf : Option (BitVec 6)) :
    RoundTrip.Statement (.unpk w a m sf) := by
  rintro hw f ⟨⟩
  have sf := by simp only [Instr.wf, Instr.assigned, Bool.and_eq_true] at hw; exact sf_ok hw.1.1.1.2
  exact check_alu w (fun r => by simp_all [Instr.reservedOk]) hw rfl rfl (by
    simp [Fields.parse, Fields.parse4, Fields.ofTy, Fields.hdr, Fields.a, Fields.xb, Fields.alu, Fields.bz, Fields.base,
      Fields.ofAlu, ofByte_toByte, ofCode_code, x3l, x3h, sf])
theorem RoundTrip.shfl (h : Hdr) (mode : ShflMode) (d : BitVec 6) (a : BitVec 6) (b : Src) (w : BitVec 3) :
    RoundTrip.Statement (.shfl h mode d a b w) := by
  rintro hw f ⟨⟩
  exact check_ok0 hw rfl (by
    simp [Fields.parse, Fields.parse4, Fields.plain, Fields.hdr, Fields.a, Fields.b, Fields.num, Fields.xb, Fields.cz, Fields.base,
      vecByte, ofByte_toByte, x3l, x3h, s6l, vecSrc, shflMode, Src.isV])
theorem RoundTrip.vote (h : Hdr) (mode : VoteMode) (d : BitVec 6) (qa : BitVec 3) :
    RoundTrip.Statement (.vote h mode d qa) := by
  rintro hw f ⟨⟩
  exact check_ok0 hw rfl (by
    simp [Fields.parse, Fields.parse4, Fields.plain, Fields.hdr, Fields.bz, Fields.cz, Fields.xz, Fields.base, s3l, s3h, voteMode])
theorem RoundTrip.lred (h : Hdr) (t : Ty) (u : Bool) (d : BitVec 6) (a : Src) (op : BitVec 3) :
    RoundTrip.Statement (.lred h t u d a op) := by
  rintro hw f ⟨⟩
  exact check_ok0 hw rfl (by
    simp [Fields.parse, Fields.parse4, Fields.ofTy, Fields.hdr, Fields.a, Fields.xb, Fields.bz, Fields.cz, Fields.base,
      ofByte_toByte, ofCode_code, x3l, x3h])
theorem RoundTrip.lscan (h : Hdr) (t : Ty) (d : BitVec 6) (a : Src) (op : BitVec 3) (exc : Bool) :
    RoundTrip.Statement (.lscan h t d a op exc) := by
  rintro hw f ⟨⟩
  exact check_ok0 hw rfl (by
    simp [Fields.parse, Fields.parse4, Fields.plain, Fields.hdr, Fields.a, Fields.xb, Fields.bz, Fields.cz, Fields.base,
      ofByte_toByte, ofCode_code, lscanO, lscanE, lscanZ])
theorem RoundTrip.lidx (h : Hdr) (d : BitVec 6) : RoundTrip.Statement (.lidx h d) := by
  rintro hw f ⟨⟩
  exact check_ok0 hw rfl (by
    simp [Fields.parse, Fields.parse4, Fields.plain, Fields.plain0, Fields.hdr, Fields.az, Fields.bz, Fields.cz, Fields.xz,
      Fields.base])
theorem RoundTrip.bcast (h : Hdr) (t : Ty) (u : Bool) (d : BitVec 6) (a : BitVec 6) (lane : Src) :
    RoundTrip.Statement (.bcast h t u d a lane) := by
  rintro hw f ⟨⟩
  exact check_ok0 hw rfl (by
    simp [Fields.parse, Fields.parse4, Fields.ofTy, Fields.hdr, Fields.a, Fields.b, Fields.num, Fields.cz, Fields.xz, Fields.base,
      vecByte, ofByte_toByte, ofCode_code, s6l, vecSrc, Src.isV])
theorem RoundTrip.mov (w : Alu) (a : Src) : RoundTrip.Statement (.mov w a) := by
  rintro hw f ⟨⟩
  exact check_alu w id hw rfl rfl (by
    simp [Fields.parse, Fields.parse5, Fields.ofTy, Fields.alu1, Fields.hdr, Fields.a, Fields.alu, Fields.bz, Fields.cz, Fields.xz,
      Fields.base, Fields.ofAlu, ofByte_toByte, ofCode_code])
theorem RoundTrip.movi (w : Alu) (imm : BitVec 20) : RoundTrip.Statement (.movi w imm) := by
  rintro hw f ⟨⟩
  exact check_alu w id hw rfl rfl (by
    simp [Fields.parse, Fields.parse5, Fields.ofTy, Fields.hdr, Fields.i20, Fields.alu, Fields.az, Fields.bz, Fields.base,
      Fields.ofAlu, ofCode_code, t20])
theorem RoundTrip.movh (w : Alu) (imm : BitVec 20) (sh : BitVec 8) : RoundTrip.Statement (.movh w imm sh) := by
  rintro hw f ⟨⟩
  exact check_alu w (fun r => by simp_all [Instr.reservedOk]) hw rfl rfl (by
    simp [Fields.parse, Fields.parse5, Fields.ofTy, Fields.hdr, Fields.i20, Fields.alu, Fields.bz, Fields.base, Fields.ofAlu,
      ofCode_code, t20])
theorem RoundTrip.plop (h : Hdr) (qd : BitVec 3) (qa : BitVec 3) (qb : BitVec 3) (qc : BitVec 3) (lut : BitVec 8) :
    RoundTrip.Statement (.plop h qd qa qb qc lut) := by
  rintro hw f ⟨⟩
  exact check_ok0 hw rfl (by
    simp [Fields.parse, Fields.parse5, Fields.plain, Fields.plain0, Fields.hdr, Fields.xb, Fields.qd, Fields.qdOk, Fields.base,
      predD, x8l, x8h, d3l, d3h, s3l, s3h])
theorem RoundTrip.pmovTov (h : Hdr) (d : BitVec 6) : RoundTrip.Statement (.pmovTov h d) := by
  rintro hw f ⟨⟩
  exact check_ok0 hw rfl (by
    simp [Fields.parse, Fields.parse5, Fields.plain, Fields.hdr, Fields.az, Fields.bz, Fields.cz, Fields.xz, Fields.base])
theorem RoundTrip.pmovFromv (h : Hdr) (src : Src) (mask : BitVec 6) : RoundTrip.Statement (.pmovFromv h src mask) := by
  rintro hw f ⟨⟩
  exact check_ok0 hw rfl (by
    simp [Fields.parse, Fields.parse5, Fields.plain, Fields.hdr, Fields.a, Fields.xb, Fields.dz, Fields.bz, Fields.cz, Fields.base,
      ofByte_toByte, maskM, maskH, maskL])
theorem RoundTrip.movxRead (h : Hdr) (d : BitVec 6) (k : BitVec 2) (imm : BitVec 6) :
    RoundTrip.Statement (.movxRead h d k imm) := by
  rintro hw f ⟨⟩
  exact check_ok0 hw rfl (by
    simp [Fields.parse, Fields.parse5, Fields.plain, Fields.hdr, Fields.xb, Fields.az, Fields.bz, Fields.cz, Fields.base, x6l, movxK,
      movxZ])
theorem RoundTrip.movxWrite (h : Hdr) (k : BitVec 2) (imm : BitVec 6) (src : Src) :
    RoundTrip.Statement (.movxWrite h k imm src) := by
  rintro hw f ⟨⟩
  exact check_ok0 hw rfl (by
    simp [Fields.parse, Fields.parse5, Fields.plain, Fields.hdr, Fields.a, Fields.xb, Fields.dz, Fields.bz, Fields.cz, Fields.base,
      ofByte_toByte, x6l, movxK, movxZ])
theorem RoundTrip.xsetSet (h : Hdr) (k : BitVec 2) (src : Src) (lo : BitVec 6) (hi : BitVec 6) :
    RoundTrip.Statement (.xsetSet h k src lo hi) := by
  rintro hw f ⟨⟩
  exact check_ok0 hw rfl (by
    simp [Fields.parse, Fields.parse5, Fields.plain, Fields.hdr, Fields.a, Fields.xb, Fields.bz, Fields.cz, Fields.base,
      ofByte_toByte, x6l, x6h, d2l, d2h])
theorem RoundTrip.xsetAdd (h : Hdr) (k : BitVec 2) (src : Src) : RoundTrip.Statement (.xsetAdd h k src) := by
  rintro hw f ⟨⟩
  exact check_ok0 hw rfl (by
    simp [Fields.parse, Fields.parse5, Fields.plain, Fields.hdr, Fields.a, Fields.bz, Fields.cz, Fields.xz, Fields.base,
      ofByte_toByte, d2l, d2h])
theorem RoundTrip.bra (h : Hdr) (tgt : BitVec 20) (join : BitVec 16) : RoundTrip.Statement (.bra h tgt join) := by
  rintro hw f ⟨⟩
  exact check_ok0 hw rfl (by
    simp [Fields.parse, Fields.parse6, Fields.strict, Fields.strict0, Fields.hdr, Fields.i20, Fields.j16, Fields.dz, Fields.base,
      t20, j16])
theorem RoundTrip.brx (h : Hdr) (n : BitVec 6) (cap : BitVec 4) (idx : Src) (off : BitVec 8) (join : BitVec 8) :
    RoundTrip.Statement (.brx h n cap idx off join) := by
  rintro hw f ⟨⟩
  exact check_ok0 hw rfl (by
    simp [Fields.parse, Fields.parse6, Fields.plain, Fields.plain0, Fields.hdr, Fields.b, Fields.xb, Fields.ca, Fields.caOk,
      Fields.base, capByte, ofByte_toByte, x8l, s4l, s4h, brxS, brxH])
theorem RoundTrip.call (h : Hdr) (sd : BitVec 6) (tgt : BitVec 20) : RoundTrip.Statement (.call h sd tgt) := by
  rintro hw f ⟨⟩
  exact check_ok0 hw rfl (by
    simp [Fields.parse, Fields.parse6, Fields.strict, Fields.strict0, Fields.hdr, Fields.i20, Fields.az, Fields.bz, Fields.base, t20])
theorem RoundTrip.ret (h : Hdr) (sa : BitVec 6) : RoundTrip.Statement (.ret h sa) := by
  rintro hw f ⟨⟩
  exact check_ok0 hw rfl (by
    simp [Fields.parse, Fields.parse6, Fields.strict, Fields.strict0, Fields.hdr, Fields.a, Fields.num, Fields.uniA, Fields.dz,
      Fields.bz, Fields.cz, Fields.xz, Fields.base, uniByte, s6l, uniSrc, Src.isS])
theorem RoundTrip.join (ec : BitVec 2) : RoundTrip.Statement (.join ec) := by
  rintro hw f ⟨⟩
  exact check_ok0 hw rfl (by
    simp [Fields.parse, Fields.parse6, Fields.dz, Fields.az, Fields.bz, Fields.cz, Fields.xz, Fields.base])
theorem RoundTrip.exit (h : Hdr) : RoundTrip.Statement (.exit h) := by
  rintro hw f ⟨⟩
  exact check_ok0 hw rfl (by
    simp [Fields.parse, Fields.parse6, Fields.plain, Fields.hdr, Fields.dz, Fields.az, Fields.bz, Fields.cz, Fields.xz, Fields.base])
theorem RoundTrip.exitTeam (h : Hdr) : RoundTrip.Statement (.exitTeam h) := by
  rintro hw f ⟨⟩
  exact check_ok0 hw rfl (by
    simp [Fields.parse, Fields.parse6, Fields.closed, Fields.hdr, Fields.dz, Fields.az, Fields.bz, Fields.cz, Fields.xz, Fields.base])
theorem RoundTrip.nop (h : Hdr) : RoundTrip.Statement (.nop h) := by
  rintro hw f ⟨⟩
  exact check_ok0 hw rfl (by
    simp [Fields.parse, Fields.parse6, Fields.strict, Fields.strict0, Fields.hdr, Fields.dz, Fields.az, Fields.bz, Fields.cz,
      Fields.xz, Fields.base])
theorem RoundTrip.yld (h : Hdr) : RoundTrip.Statement (.yld h) := by
  rintro hw f ⟨⟩
  exact check_ok0 hw rfl (by
    simp [Fields.parse, Fields.parse6, Fields.strict, Fields.strict0, Fields.hdr, Fields.dz, Fields.az, Fields.bz, Fields.cz,
      Fields.xz, Fields.base])
theorem RoundTrip.spawn (h : Hdr) (tgt : BitVec 20) : RoundTrip.Statement (.spawn h tgt) := by
  rintro hw f ⟨⟩
  exact check_ok0 hw rfl (by
    simp [Fields.parse, Fields.parse7, Fields.closed, Fields.hdr, Fields.i20, Fields.dz, Fields.az, Fields.bz,
      Fields.base, t20])
theorem RoundTrip.gather (h : Hdr) (tgt : BitVec 20) : RoundTrip.Statement (.gather h tgt) := by
  rintro hw f ⟨⟩
  exact check_ok0 hw rfl (by
    simp [Fields.parse, Fields.parse7, Fields.closed, Fields.hdr, Fields.i20, Fields.dz, Fields.az, Fields.bz,
      Fields.base, t20])
theorem RoundTrip.migr (h : Hdr) (tgt : BitVec 20) : RoundTrip.Statement (.migr h tgt) := by
  rintro hw f ⟨⟩
  exact check_ok0 hw rfl (by
    simp [Fields.parse, Fields.parse7, Fields.closed, Fields.hdr, Fields.i20, Fields.dz, Fields.az, Fields.bz,
      Fields.base, t20])
theorem RoundTrip.susp (h : Hdr) : RoundTrip.Statement (.susp h) := by
  rintro hw f ⟨⟩
  exact check_ok0 hw rfl (by
    simp [Fields.parse, Fields.parse7, Fields.strict, Fields.strict0, Fields.hdr, Fields.dz, Fields.az, Fields.bz, Fields.cz,
      Fields.xz, Fields.base])
theorem RoundTrip.refillQ (h : Hdr) (d : BitVec 6) (m : MemOp) (n : Src) : RoundTrip.Statement (.refillQ h d m n) := by
  rintro hw f ⟨⟩
  exact check_ok0 hw rfl (by
    simp [Fields.parse, Fields.parse7, Fields.plain, Fields.hdr, Fields.b, Fields.c, Fields.xb, Fields.ca, Fields.caOk, Fields.mem,
      Fields.base, Fields.ofMem, MemOp.x12, capByte, ofByte_toByte, s4l, s4h, memS, memH, memO])
theorem RoundTrip.refillBkt (h : Hdr) (d : BitVec 6) (n : Src) : RoundTrip.Statement (.refillBkt h d n) := by
  rintro hw f ⟨⟩
  exact check_ok0 hw rfl (by
    simp [Fields.parse, Fields.parse7, Fields.plain, Fields.hdr, Fields.c, Fields.az, Fields.bz, Fields.xz, Fields.base, ofByte_toByte])
theorem RoundTrip.launch (h : Hdr) (m : MemOp) (sq : BitVec 6) : RoundTrip.Statement (.launch h m sq) := by
  rintro hw f ⟨⟩
  exact check_ok0 hw rfl (by
    simp [Fields.parse, Fields.parse7, Fields.plain, Fields.plain0, Fields.hdr, Fields.b, Fields.c, Fields.num, Fields.xb, Fields.ca,
      Fields.caOk, Fields.mem, Fields.uniC, Fields.dz, Fields.base, Fields.ofMem, MemOp.x12, capByte, uniByte, ofByte_toByte,
      s6l, s4l, s4h, memS, memH, memO, uniSrc, Src.isS])
theorem RoundTrip.waitch (h : Hdr) : RoundTrip.Statement (.waitch h) := by
  rintro hw f ⟨⟩
  exact check_ok0 hw rfl (by
    simp [Fields.parse, Fields.parse7, Fields.strict, Fields.strict0, Fields.hdr, Fields.dz, Fields.az, Fields.bz, Fields.cz,
      Fields.xz, Fields.base])
theorem RoundTrip.steal (h : Hdr) (qd : BitVec 3) (sv : Src) : RoundTrip.Statement (.steal h qd sv) := by
  rintro hw f ⟨⟩
  exact check_ok0 hw rfl (by
    simp [Fields.parse, Fields.parse7, Fields.plain, Fields.plain0, Fields.hdr, Fields.a, Fields.qd, Fields.qdOk, Fields.bz,
      Fields.cz, Fields.xz, Fields.base, predD, ofByte_toByte, d3l, d3h])
theorem RoundTrip.enq (h : Hdr) (m : MemOp) : RoundTrip.Statement (.enq h m) := by
  rintro hw f ⟨⟩
  exact check_ok0 hw rfl (by
    simp [Fields.parse, Fields.parse7, Fields.plain, Fields.plain0, Fields.hdr, Fields.b, Fields.xb, Fields.ca, Fields.caOk,
      Fields.mem, Fields.dz, Fields.cz, Fields.base, Fields.ofMem, MemOp.x12, capByte, ofByte_toByte, s4l, s4h, memS, memH, memO])
theorem RoundTrip.ld (h : Hdr) (t : Ty) (u : Bool) (d : BitVec 6) (m : MemOp) : RoundTrip.Statement (.ld h t u d m) := by
  rintro hw f ⟨⟩
  exact check_ok0 hw rfl (by
    simp [Fields.parse, Fields.parse8, Fields.ofTy, Fields.hdr, Fields.b, Fields.xb, Fields.ca, Fields.caOk, Fields.mem, Fields.cz,
      Fields.base, Fields.ofMem, MemOp.x12, capByte, ofByte_toByte, ofCode_code, s4l, s4h, memS, memH, memO, notCap])
theorem RoundTrip.ldCap (h : Hdr) (u : Bool) (cd : BitVec 4) (m : MemOp) : RoundTrip.Statement (.ldCap h u cd m) := by
  rintro hw f ⟨⟩
  exact check_ok0 hw rfl (by
    simp [Fields.parse, Fields.parse8, Fields.hdr, Fields.b, Fields.xb, Fields.ca, Fields.cd, Fields.caOk, Fields.cdOk, Fields.mem,
      Fields.cz, Fields.base, Fields.ofMem, MemOp.x12, capByte, capD, ofByte_toByte, d4l, d4h, s4l, s4h, memS, memH, memO])
theorem RoundTrip.st (h : Hdr) (t : Ty) (m : MemOp) (data : Src) : RoundTrip.Statement (.st h t m data) := by
  rintro hw f ⟨⟩
  exact check_ok0 hw rfl (by
    simp [Fields.parse, Fields.parse8, Fields.plain, Fields.hdr, Fields.b, Fields.c, Fields.xb, Fields.ca, Fields.caOk, Fields.mem,
      Fields.dz, Fields.base, Fields.ofMem, MemOp.x12, capByte, ofByte_toByte, ofCode_code, s4l, s4h, memS, memH, memO, notCap])
theorem RoundTrip.stCap (h : Hdr) (m : MemOp) (cs : BitVec 4) : RoundTrip.Statement (.stCap h m cs) := by
  rintro hw f ⟨⟩
  exact check_ok0 hw rfl (by
    simp [Fields.parse, Fields.parse8, Fields.plain, Fields.hdr, Fields.b, Fields.xb, Fields.ca, Fields.caOk, Fields.mem, Fields.dz,
      Fields.base, Fields.ofMem, MemOp.x12, capByte, ofByte_toByte, s4l, s4h, memS, memH, memO])
theorem RoundTrip.ldf (h : Hdr) (t : Ty) (d : BitVec 6) (m : MemOp) : RoundTrip.Statement (.ldf h t d m) := by
  rintro hw f ⟨⟩
  exact check_ok0 hw rfl (by
    simp [Fields.parse, Fields.parse8, Fields.plain, Fields.hdr, Fields.b, Fields.xb, Fields.ca, Fields.caOk, Fields.mem, Fields.cz,
      Fields.base, Fields.ofMem, MemOp.x12, capByte, ofByte_toByte, ofCode_code, s4l, s4h, memS, memH, memO])
theorem RoundTrip.pref (h : Hdr) (m : MemOp) : RoundTrip.Statement (.pref h m) := by
  rintro hw f ⟨⟩
  exact check_ok0 hw rfl (by
    simp [Fields.parse, Fields.parse8, Fields.plain, Fields.plain0, Fields.hdr, Fields.b, Fields.xb, Fields.ca, Fields.caOk,
      Fields.mem, Fields.dz, Fields.cz, Fields.base, Fields.ofMem, MemOp.x12, capByte, ofByte_toByte, s4l, s4h, memS, memH, memO])
theorem RoundTrip.cflush (h : Hdr) (m : MemOp) : RoundTrip.Statement (.cflush h m) := by
  rintro hw f ⟨⟩
  exact check_ok0 hw rfl (by
    simp [Fields.parse, Fields.parse8, Fields.plain, Fields.plain0, Fields.hdr, Fields.b, Fields.xb, Fields.ca, Fields.caOk,
      Fields.mem, Fields.dz, Fields.cz, Fields.base, Fields.ofMem, MemOp.x12, capByte, ofByte_toByte, s4l, s4h, memS, memH, memO])
theorem RoundTrip.ord (ec : BitVec 2) (o : Order) (set : BitVec 8) : RoundTrip.Statement (.ord ec o set) := by
  rintro hw f ⟨⟩
  exact check_ok0 hw rfl (by
    simp [Fields.parse, Fields.parse8, Fields.closed, Fields.xb, Fields.dz, Fields.az, Fields.bz, Fields.cz, Fields.base, x8l, x8h,
      order])
theorem RoundTrip.fence (h : Hdr) (o : Order) (set : BitVec 8) : RoundTrip.Statement (.fence h o set) := by
  rintro hw f ⟨⟩
  exact check_ok0 hw rfl (by
    simp [Fields.parse, Fields.parse8, Fields.closed, Fields.hdr, Fields.xb, Fields.dz, Fields.az, Fields.bz, Fields.cz, Fields.base,
      x8l, x8h, order])
theorem RoundTrip.atom (h : Hdr) (op : AtomOp) (w : BitVec 2) (d : BitVec 6) (m : MemOp) (b : Src) :
    RoundTrip.Statement (.atom h op w d m b) := by
  rintro hw f ⟨⟩
  exact check_ok0 hw rfl (by
    simp [Fields.parse, Fields.parse8, Fields.plain, Fields.hdr, Fields.b, Fields.c, Fields.xb, Fields.ca, Fields.caOk, Fields.mem,
      Fields.base, Fields.ofMem, MemOp.x12, capByte, ofByte_toByte, s4l, s4h, memS, memH, memO, atomO, atomW, atomOp])
theorem RoundTrip.red (h : Hdr) (op : AtomOp) (w : BitVec 2) (m : MemOp) (b : Src) :
    RoundTrip.Statement (.red h op w m b) := by
  rintro hw f ⟨⟩
  exact check_ok0 hw rfl (by
    simp [Fields.parse, Fields.parse8, Fields.plain, Fields.hdr, Fields.b, Fields.c, Fields.xb, Fields.ca, Fields.caOk, Fields.mem,
      Fields.dz, Fields.base, Fields.ofMem, MemOp.x12, capByte, ofByte_toByte, s4l, s4h, memS, memH, memO, atomO, atomW, atomOp])
theorem RoundTrip.cas (h : Hdr) (t : Ty) (d : BitVec 6) (m : MemOp) (new : Src) :
    RoundTrip.Statement (.cas h t d m new) := by
  rintro hw f ⟨⟩
  exact check_ok0 hw rfl (by
    simp [Fields.parse, Fields.parse8, Fields.plain, Fields.hdr, Fields.b, Fields.c, Fields.xb, Fields.ca, Fields.caOk, Fields.mem,
      Fields.base, Fields.ofMem, MemOp.x12, capByte, ofByte_toByte, ofCode_code, s4l, s4h, memS, memH, memO])
theorem RoundTrip.capset (h : Hdr) (cd : BitVec 4) (ca : BitVec 4) (len : Src) :
    RoundTrip.Statement (.capset h cd ca len) := by
  rintro hw f ⟨⟩
  exact check_ok0 hw rfl (by
    simp [Fields.parse, Fields.parse9, Fields.plain, Fields.plain0, Fields.hdr, Fields.b, Fields.ca, Fields.cd, Fields.caOk,
      Fields.cdOk, Fields.cz, Fields.xz, Fields.base, capByte, capD, ofByte_toByte, d4l, d4h, s4l, s4h])
theorem RoundTrip.capinc (h : Hdr) (cd : BitVec 4) (ca : BitVec 4) (inc : Src) :
    RoundTrip.Statement (.capinc h cd ca inc) := by
  rintro hw f ⟨⟩
  exact check_ok0 hw rfl (by
    simp [Fields.parse, Fields.parse9, Fields.plain, Fields.hdr, Fields.b, Fields.ca, Fields.cd, Fields.caOk, Fields.cdOk, Fields.cz,
      Fields.xz, Fields.base, capByte, capD, ofByte_toByte, d4l, d4h, s4l, s4h])
theorem RoundTrip.capincM (h : Hdr) (cd : BitVec 4) (ca : BitVec 4) (inc : Src) (w : BitVec 5) :
    RoundTrip.Statement (.capincM h cd ca inc w) := by
  rintro hw f ⟨⟩
  exact check_ok0 hw rfl (by
    simp [Fields.parse, Fields.parse9, Fields.plain, Fields.hdr, Fields.b, Fields.xb, Fields.ca, Fields.cd, Fields.caOk, Fields.cdOk,
      Fields.cz, Fields.base, capByte, capD, ofByte_toByte, x5l, x5h, d4l, d4h, s4l, s4h])
theorem RoundTrip.capget (h : Hdr) (f : CapField) (u : Bool) (d : BitVec 6) (ca : BitVec 4) :
    RoundTrip.Statement (.capget h f u d ca) := by
  rintro hw f ⟨⟩
  exact check_ok0 hw rfl (by
    simp [Fields.parse, Fields.parse9, Fields.hdr, Fields.ca, Fields.caOk, Fields.bz, Fields.cz, Fields.xz, Fields.base, capByte,
      s4l, s4h, capField])
theorem RoundTrip.capperm (h : Hdr) (cd : BitVec 4) (ca : BitVec 4) (mask : Src) :
    RoundTrip.Statement (.capperm h cd ca mask) := by
  rintro hw f ⟨⟩
  exact check_ok0 hw rfl (by
    simp [Fields.parse, Fields.parse9, Fields.plain, Fields.plain0, Fields.hdr, Fields.b, Fields.ca, Fields.cd, Fields.caOk,
      Fields.cdOk, Fields.cz, Fields.xz, Fields.base, capByte, capD, ofByte_toByte, d4l, d4h, s4l, s4h])
theorem RoundTrip.capchk (h : Hdr) (qd : BitVec 3) (ca : BitVec 4) (req : Src) :
    RoundTrip.Statement (.capchk h qd ca req) := by
  rintro hw f ⟨⟩
  exact check_ok0 hw rfl (by
    simp [Fields.parse, Fields.parse9, Fields.plain, Fields.plain0, Fields.hdr, Fields.b, Fields.ca, Fields.qd, Fields.caOk,
      Fields.qdOk, Fields.cz, Fields.xz, Fields.base, capByte, predD, ofByte_toByte, d3l, d3h, s4l, s4h])
theorem RoundTrip.barArv (h : Hdr) (d : BitVec 6) (b : BitVec 3) : RoundTrip.Statement (.barArv h d b) := by
  rintro hw f ⟨⟩
  exact check_ok0 hw rfl (by
    simp [Fields.parse, Fields.parseA, Fields.strict, Fields.hdr, Fields.xb, Fields.az, Fields.bz, Fields.cz, Fields.base, x3l, x3h])
theorem RoundTrip.barWait (h : Hdr) (qd : BitVec 3) (tok : Src) : RoundTrip.Statement (.barWait h qd tok) := by
  rintro hw f ⟨⟩
  exact check_ok0 hw rfl (by
    simp [Fields.parse, Fields.parseA, Fields.strict, Fields.hdr, Fields.a, Fields.qd, Fields.qdOk, Fields.bz, Fields.cz, Fields.xz,
      Fields.base, predD, ofByte_toByte, d3l, d3h])
theorem RoundTrip.barSync (h : Hdr) (b : BitVec 3) : RoundTrip.Statement (.barSync h b) := by
  rintro hw f ⟨⟩
  exact check_ok0 hw rfl (by
    simp [Fields.parse, Fields.parseA, Fields.strict, Fields.hdr, Fields.xb, Fields.dz, Fields.az, Fields.bz, Fields.cz, Fields.base,
      x3l, x3h])
theorem RoundTrip.waitc (h : Hdr) (cls : BitVec 3) (t : BitVec 8) : RoundTrip.Statement (.waitc h cls t) := by
  rintro hw f ⟨⟩
  exact check_ok0 hw rfl (by
    simp [Fields.parse, Fields.parseA, Fields.closed, Fields.closed0, Fields.hdr, Fields.xb, Fields.dz, Fields.az, Fields.bz,
      Fields.cz, Fields.base, waitT, waitC, waitZ])
theorem RoundTrip.waitany (h : Hdr) (d : BitVec 6) (mask : Src) : RoundTrip.Statement (.waitany h d mask) := by
  rintro hw f ⟨⟩
  exact check_ok0 hw rfl (by
    simp [Fields.parse, Fields.parseA, Fields.plain, Fields.plain0, Fields.hdr, Fields.a, Fields.bz, Fields.cz, Fields.xz,
      Fields.base, ofByte_toByte])
theorem RoundTrip.waitall (h : Hdr) (mask : Src) : RoundTrip.Statement (.waitall h mask) := by
  rintro hw f ⟨⟩
  exact check_ok0 hw rfl (by
    simp [Fields.parse, Fields.parseA, Fields.plain, Fields.plain0, Fields.hdr, Fields.a, Fields.dz, Fields.bz, Fields.cz, Fields.xz,
      Fields.base, ofByte_toByte])
theorem RoundTrip.ffr (h : Hdr) (d : BitVec 6) (mask : Src) : RoundTrip.Statement (.ffr h d mask) := by
  rintro hw f ⟨⟩
  exact check_ok0 hw rfl (by
    simp [Fields.parse, Fields.parseA, Fields.plain, Fields.plain0, Fields.hdr, Fields.a, Fields.bz, Fields.cz, Fields.xz,
      Fields.base, ofByte_toByte])
theorem RoundTrip.waitadr (h : Hdr) (t : Ty) (d : BitVec 6) (m : MemOp) (val : Src) :
    RoundTrip.Statement (.waitadr h t d m val) := by
  rintro hw f ⟨⟩
  exact check_ok0 hw rfl (by
    simp [Fields.parse, Fields.parseA, Fields.plain, Fields.hdr, Fields.b, Fields.c, Fields.xb, Fields.ca, Fields.caOk, Fields.mem,
      Fields.base, Fields.ofMem, MemOp.x12, capByte, ofByte_toByte, ofCode_code, s4l, s4h, memS, memH, memO])
theorem RoundTrip.sig (h : Hdr) (sd : BitVec 6) (m : MemOp) (data : Src) : RoundTrip.Statement (.sig h sd m data) := by
  rintro hw f ⟨⟩
  exact check_ok0 hw rfl (by
    simp [Fields.parse, Fields.parseA, Fields.plain, Fields.plain0, Fields.hdr, Fields.b, Fields.c, Fields.xb, Fields.ca,
      Fields.caOk, Fields.mem, Fields.base, Fields.ofMem, MemOp.x12, capByte, ofByte_toByte, s4l, s4h, memS, memH, memO])
theorem RoundTrip.amsg (h : Hdr) (die : BitVec 2) (m : MemOp) (sh : BitVec 6) : RoundTrip.Statement (.amsg h die m sh) := by
  rintro hw f ⟨⟩
  exact check_ok0 hw rfl (by
    simp [Fields.parse, Fields.parseA, Fields.plain, Fields.plain0, Fields.hdr, Fields.b, Fields.c, Fields.num, Fields.xb, Fields.ca,
      Fields.caOk, Fields.mem, Fields.uniC, Fields.base, Fields.ofMem, MemOp.x12, capByte, uniByte, ofByte_toByte, d2l, d2h, s6l,
      s4l, s4h, memS, memH, memO, uniSrc, Src.isS])
theorem RoundTrip.mbxs (h : Hdr) (qd : BitVec 3) (src : Src) (ch : BitVec 3) : RoundTrip.Statement (.mbxs h qd src ch) := by
  rintro hw f ⟨⟩
  exact check_ok0 hw rfl (by
    simp [Fields.parse, Fields.parseA, Fields.plain, Fields.plain0, Fields.hdr, Fields.a, Fields.xb, Fields.qd, Fields.qdOk,
      Fields.bz, Fields.cz, Fields.base, predD, ofByte_toByte, x3l, x3h, d3l, d3h])
theorem RoundTrip.mbxr (h : Hdr) (d : BitVec 6) (ch : BitVec 3) : RoundTrip.Statement (.mbxr h d ch) := by
  rintro hw f ⟨⟩
  exact check_ok0 hw rfl (by
    simp [Fields.parse, Fields.parseA, Fields.plain, Fields.plain0, Fields.hdr, Fields.xb, Fields.az, Fields.bz, Fields.cz,
      Fields.base, x3l, x3h])
theorem RoundTrip.mma (h : Hdr) (t : Ty) (tile : BitVec 6) (hi : Bool) (sf : Option (BitVec 6)) (r : Bool) :
    RoundTrip.Statement (.mma h t tile hi sf r) := by
  rintro hw f ⟨⟩
  have sf := by simp only [Instr.wf, Instr.assigned, Bool.and_eq_true] at hw; exact sf_ok hw.1.1.1.2
  cases hi
  all_goals exact check_ok0 hw rfl (by
    simp [Fields.parse, Fields.parseB, Fields.plain, Fields.hdr, Fields.xb, Fields.cz, Fields.base, ofCode_code, x11, flag', sf])
theorem RoundTrip.mmas (h : Hdr) (t : Ty) (tile : BitVec 6) (m : MemOp) (sn : BitVec 6) :
    RoundTrip.Statement (.mmas h t tile m sn) := by
  rintro hw f ⟨⟩
  exact check_ok0 hw rfl (by
    simp [Fields.parse, Fields.parseB, Fields.plain, Fields.hdr, Fields.b, Fields.c, Fields.num, Fields.xb, Fields.ca, Fields.caOk,
      Fields.mem, Fields.uniC, Fields.base, Fields.ofMem, MemOp.x12, capByte, uniByte, ofByte_toByte, ofCode_code, s6l, s4l, s4h,
      memS, memH, memO, uniSrc, Src.isS])
theorem RoundTrip.drain (h : Hdr) (t : Ty) (tile : BitVec 6) (m : MemOp) (sn : BitVec 6) :
    RoundTrip.Statement (.drain h t tile m sn) := by
  rintro hw f ⟨⟩
  exact check_ok0 hw rfl (by
    simp [Fields.parse, Fields.parseB, Fields.plain, Fields.hdr, Fields.b, Fields.c, Fields.num, Fields.xb, Fields.ca, Fields.caOk,
      Fields.mem, Fields.uniC, Fields.base, Fields.ofMem, MemOp.x12, capByte, uniByte, ofByte_toByte, ofCode_code, s6l, s4l, s4h,
      memS, memH, memO, uniSrc, Src.isS])
theorem RoundTrip.accz (h : Hdr) (tile : BitVec 6) (n : BitVec 6) : RoundTrip.Statement (.accz h tile n) := by
  rintro hw f ⟨⟩
  exact check_ok0 hw rfl (by
    simp [Fields.parse, Fields.parseB, Fields.plain, Fields.plain0, Fields.hdr, Fields.xb, Fields.az, Fields.bz, Fields.cz,
      Fields.base, x6l, x6h])
theorem RoundTrip.omap (h : Hdr) (m : MemOp) (sn : BitVec 6) : RoundTrip.Statement (.omap h m sn) := by
  rintro hw f ⟨⟩
  exact check_ok0 hw rfl (by
    simp [Fields.parse, Fields.parseB, Fields.plain, Fields.plain0, Fields.hdr, Fields.b, Fields.c, Fields.num, Fields.xb, Fields.ca,
      Fields.caOk, Fields.mem, Fields.uniC, Fields.dz, Fields.base, Fields.ofMem, MemOp.x12, capByte, uniByte, ofByte_toByte,
      s6l, s4l, s4h, memS, memH, memO, uniSrc, Src.isS])
theorem RoundTrip.cpy (h : Hdr) (m : MemOp) (cs : BitVec 4) (sn : BitVec 6) : RoundTrip.Statement (.cpy h m cs sn) := by
  rintro hw f ⟨⟩
  exact check_ok0 hw rfl (by
    simp [Fields.parse, Fields.parseB, Fields.plain, Fields.plain0, Fields.hdr, Fields.b, Fields.c, Fields.num, Fields.xb, Fields.ca,
      Fields.cd, Fields.caOk, Fields.cdOk, Fields.mem, Fields.uniC, Fields.base, Fields.ofMem, MemOp.x12, capByte, capD, uniByte,
      ofByte_toByte, d4l, d4h, s6l, s4l, s4h, memS, memH, memO, uniSrc, Src.isS])
theorem RoundTrip.cpym (h : Hdr) (m : MemOp) (cs : BitVec 4) (sn : BitVec 6) : RoundTrip.Statement (.cpym h m cs sn) := by
  rintro hw f ⟨⟩
  exact check_ok0 hw rfl (by
    simp [Fields.parse, Fields.parseB, Fields.plain, Fields.plain0, Fields.hdr, Fields.b, Fields.c, Fields.num, Fields.xb, Fields.ca,
      Fields.cd, Fields.caOk, Fields.cdOk, Fields.mem, Fields.uniC, Fields.base, Fields.ofMem, MemOp.x12, capByte, capD, uniByte,
      ofByte_toByte, d4l, d4h, s6l, s4l, s4h, memS, memH, memO, uniSrc, Src.isS])
theorem RoundTrip.batonRing (h : Hdr) (sl : BitVec 6) (n : BitVec 4) : RoundTrip.Statement (.batonRing h sl n) := by
  rintro hw f ⟨⟩
  exact check_ok0 hw rfl (by
    simp [Fields.parse, Fields.parseB, Fields.plain, Fields.hdr, Fields.a, Fields.num, Fields.xb, Fields.uniA, Fields.dz, Fields.bz,
      Fields.cz, Fields.base, uniByte, x4l, x4h, s6l, uniSrc, Src.isS])
theorem RoundTrip.batonPass (h : Hdr) : RoundTrip.Statement (.batonPass h) := by
  rintro hw f ⟨⟩
  exact check_ok0 hw rfl (by
    simp [Fields.parse, Fields.parseB, Fields.plain, Fields.hdr, Fields.dz, Fields.az, Fields.bz, Fields.cz, Fields.xz, Fields.base])
theorem RoundTrip.batonEnd (h : Hdr) : RoundTrip.Statement (.batonEnd h) := by
  rintro hw f ⟨⟩
  exact check_ok0 hw rfl (by
    simp [Fields.parse, Fields.parseB, Fields.plain, Fields.hdr, Fields.dz, Fields.az, Fields.bz, Fields.cz, Fields.xz, Fields.base])
theorem RoundTrip.jpoll (h : Hdr) (qd : BitVec 3) (sj : BitVec 6) : RoundTrip.Statement (.jpoll h qd sj) := by
  rintro hw f ⟨⟩
  exact check_ok0 hw rfl (by
    simp [Fields.parse, Fields.parseB, Fields.plain, Fields.plain0, Fields.hdr, Fields.a, Fields.num, Fields.qd, Fields.qdOk,
      Fields.uniA, Fields.bz, Fields.cz, Fields.xz, Fields.base, predD, uniByte, d3l, d3h, s6l, uniSrc, Src.isS])
theorem RoundTrip.jwait (h : Hdr) (sj : BitVec 6) : RoundTrip.Statement (.jwait h sj) := by
  rintro hw f ⟨⟩
  exact check_ok0 hw rfl (by
    simp [Fields.parse, Fields.parseB, Fields.plain, Fields.plain0, Fields.hdr, Fields.a, Fields.num, Fields.uniA, Fields.dz,
      Fields.bz, Fields.cz, Fields.xz, Fields.base, uniByte, s6l, uniSrc, Src.isS])
theorem RoundTrip.bgath (h : Hdr) (m : MemOp) (cs : BitVec 4) (sn : BitVec 6) : RoundTrip.Statement (.bgath h m cs sn) := by
  rintro hw f ⟨⟩
  exact check_ok0 hw rfl (by
    simp [Fields.parse, Fields.parseB, Fields.plain, Fields.plain0, Fields.hdr, Fields.b, Fields.c, Fields.num, Fields.xb, Fields.ca,
      Fields.cd, Fields.caOk, Fields.cdOk, Fields.mem, Fields.uniC, Fields.base, Fields.ofMem, MemOp.x12, capByte, capD, uniByte,
      ofByte_toByte, d4l, d4h, s6l, s4l, s4h, memS, memH, memO, uniSrc, Src.isS])
theorem RoundTrip.bred (h : Hdr) (t : Ty) (m : MemOp) (cs : BitVec 4) (sn : BitVec 6) :
    RoundTrip.Statement (.bred h t m cs sn) := by
  rintro hw f ⟨⟩
  exact check_ok0 hw rfl (by
    simp [Fields.parse, Fields.parseB, Fields.plain, Fields.hdr, Fields.b, Fields.c, Fields.num, Fields.xb, Fields.ca, Fields.cd,
      Fields.caOk, Fields.cdOk, Fields.mem, Fields.uniC, Fields.base, Fields.ofMem, MemOp.x12, capByte, capD, uniByte,
      ofByte_toByte, ofCode_code, d4l, d4h, s6l, s4l, s4h, memS, memH, memO, uniSrc, Src.isS])
theorem RoundTrip.bcvt (h : Hdr) (m : MemOp) (cs : BitVec 4) (sn : BitVec 6) : RoundTrip.Statement (.bcvt h m cs sn) := by
  rintro hw f ⟨⟩
  exact check_ok0 hw rfl (by
    simp [Fields.parse, Fields.parseB, Fields.plain, Fields.plain0, Fields.hdr, Fields.b, Fields.c, Fields.num, Fields.xb, Fields.ca,
      Fields.cd, Fields.caOk, Fields.cdOk, Fields.mem, Fields.uniC, Fields.base, Fields.ofMem, MemOp.x12, capByte, capD, uniByte,
      ofByte_toByte, d4l, d4h, s6l, s4l, s4h, memS, memH, memO, uniSrc, Src.isS])
theorem RoundTrip.kcm (h : Hdr) (u : Bool) (d : BitVec 6) (r : Src) (c : Src) (sk : BitVec 6) :
    RoundTrip.Statement (.kcm h u d r c sk) := by
  rintro hw f ⟨⟩
  exact check_ok0 hw rfl (by
    simp [Fields.parse, Fields.parseB, Fields.hdr, Fields.a, Fields.b, Fields.c, Fields.num, Fields.uniC, Fields.xz, Fields.base,
      uniByte, ofByte_toByte, s6l, uniSrc, Src.isS])
theorem RoundTrip.beamQuery (h : Hdr) (d : BitVec 6) (m : MemOp) : RoundTrip.Statement (.beamQuery h d m) := by
  rintro hw f ⟨⟩
  exact check_ok0 hw rfl (by
    simp [Fields.parse, Fields.parseC, Fields.plain, Fields.hdr, Fields.b, Fields.xb, Fields.ca, Fields.caOk, Fields.mem, Fields.cz,
      Fields.base, Fields.ofMem, MemOp.x12, capByte, ofByte_toByte, s4l, s4h, memS, memH, memO])
theorem RoundTrip.beamResume (h : Hdr) (d : BitVec 6) (m : MemOp) (p : BitVec 6) :
    RoundTrip.Statement (.beamResume h d m p) := by
  rintro hw f ⟨⟩
  exact check_ok0 hw rfl (by
    simp [Fields.parse, Fields.parseC, Fields.plain, Fields.hdr, Fields.b, Fields.c, Fields.num, Fields.xb, Fields.ca, Fields.caOk,
      Fields.mem, Fields.base, Fields.ofMem, MemOp.x12, capByte, vecByte, ofByte_toByte, s6l, s4l, s4h, memS, memH, memO, vecSrc,
      Src.isV])
theorem RoundTrip.bres (h : Hdr) (d : BitVec 6) (j : Src) : RoundTrip.Statement (.bres h d j) := by
  rintro hw f ⟨⟩
  exact check_ok0 hw rfl (by
    simp [Fields.parse, Fields.parseC, Fields.plain, Fields.plain0, Fields.hdr, Fields.a, Fields.bz, Fields.cz, Fields.xz,
      Fields.base, ofByte_toByte])
theorem RoundTrip.trb (h : Hdr) (tgt : BitVec 20) (join : BitVec 16) : RoundTrip.Statement (.trb h tgt join) := by
  rintro hw f ⟨⟩
  exact check_ok0 hw rfl (by
    simp [Fields.parse, Fields.parseC, Fields.closed, Fields.hdr, Fields.i20, Fields.j16, Fields.dz, Fields.base,
      t20, j16])
theorem RoundTrip.tre (h : Hdr) : RoundTrip.Statement (.tre h) := by
  rintro hw f ⟨⟩
  exact check_ok0 hw rfl (by
    simp [Fields.parse, Fields.parseC, Fields.closed, Fields.hdr, Fields.dz, Fields.az, Fields.bz, Fields.cz,
      Fields.xz, Fields.base])
theorem RoundTrip.tra (h : Hdr) (code : BitVec 8) : RoundTrip.Statement (.tra h code) := by
  rintro hw f ⟨⟩
  exact check_ok0 hw rfl (by
    simp [Fields.parse, Fields.parseC, Fields.closed, Fields.hdr, Fields.xb, Fields.dz, Fields.az, Fields.bz,
      Fields.cz, Fields.base, x8l, x8h])
theorem RoundTrip.trs (h : Hdr) (d : BitVec 6) : RoundTrip.Statement (.trs h d) := by
  rintro hw f ⟨⟩
  exact check_ok0 hw rfl (by
    simp [Fields.parse, Fields.parseC, Fields.closed, Fields.hdr, Fields.az, Fields.bz, Fields.cz, Fields.xz,
      Fields.base])
theorem RoundTrip.trap (h : Hdr) (code : BitVec 8) : RoundTrip.Statement (.trap h code) := by
  rintro hw f ⟨⟩
  exact check_ok0 hw rfl (by
    simp [Fields.parse, Fields.parseF, Fields.closed, Fields.closed0, Fields.hdr, Fields.xb, Fields.dz, Fields.az, Fields.bz,
      Fields.cz, Fields.base, x8l, x8h])
theorem RoundTrip.bkpt (h : Hdr) (code : BitVec 8) : RoundTrip.Statement (.bkpt h code) := by
  rintro hw f ⟨⟩
  exact check_ok0 hw rfl (by
    simp [Fields.parse, Fields.parseF, Fields.closed, Fields.closed0, Fields.hdr, Fields.xb, Fields.dz, Fields.az, Fields.bz,
      Fields.cz, Fields.base, x8l, x8h])
theorem RoundTrip.eret (h : Hdr) : RoundTrip.Statement (.eret h) := by
  rintro hw f ⟨⟩
  exact check_ok0 hw rfl (by
    simp [Fields.parse, Fields.parseF, Fields.closed, Fields.closed0, Fields.hdr, Fields.dz, Fields.az, Fields.bz, Fields.cz,
      Fields.xz, Fields.base])
theorem RoundTrip.csrr (h : Hdr) (d : BitVec 6) (csr : BitVec 12) : RoundTrip.Statement (.csrr h d csr) := by
  rintro hw f ⟨⟩
  exact check_ok0 hw rfl (by
    simp [Fields.parse, Fields.parseF, Fields.hdr, Fields.az, Fields.bz, Fields.cz, Fields.base])
theorem RoundTrip.csrw (h : Hdr) (csr : BitVec 12) (src : Src) : RoundTrip.Statement (.csrw h csr src) := by
  rintro hw f ⟨⟩
  exact check_ok0 hw rfl (by
    simp [Fields.parse, Fields.parseF, Fields.plain, Fields.plain0, Fields.hdr, Fields.a, Fields.dz, Fields.bz, Fields.cz,
      Fields.base, ofByte_toByte])
theorem RoundTrip.spmapRegister (n : Nat) (val : DWord) : RoundTrip.Statement (.spmapRegister n val) := fun _ _ h => nomatch h
theorem RoundTrip.spmapDeregister (n : Nat) (val : DWord) : RoundTrip.Statement (.spmapDeregister n val) := fun _ _ h => nomatch h
theorem RoundTrip.pairWord (h0 : Half) (h1 : Half) : RoundTrip.Statement (.pairWord h0 h1) := fun _ _ h => nomatch h
theorem RoundTrip.queueDoorbell (q : Nat) (tail : BitVec 32) : RoundTrip.Statement (.queueDoorbell q tail) := fun _ _ h => nomatch h
theorem RoundTrip.qcfgWrite (q : Nat) (val : DWord) : RoundTrip.Statement (.qcfgWrite q val) := fun _ _ h => nomatch h
theorem RoundTrip.packetRead (q : Nat) : RoundTrip.Statement (.packetRead q) := fun _ _ h => nomatch h
theorem RoundTrip.teamAdmit (q : Nat) (c : AdmitChoice) : RoundTrip.Statement (.teamAdmit q c) := fun _ _ h => nomatch h
theorem RoundTrip.carouselArrival (cluster : Nat) : RoundTrip.Statement (.carouselArrival cluster) := fun _ _ h => nomatch h
theorem RoundTrip.bucketTimeout (cluster : Nat) : RoundTrip.Statement (.bucketTimeout cluster) := fun _ _ h => nomatch h
theorem RoundTrip.bucketDispatch (cluster : Nat) : RoundTrip.Statement (.bucketDispatch cluster) := fun _ _ h => nomatch h
theorem RoundTrip.poolRefill (tgt : PoolTarget) : RoundTrip.Statement (.poolRefill tgt) := fun _ _ h => nomatch h
theorem RoundTrip.readyQueueDispatch (cell : Nat) : RoundTrip.Statement (.readyQueueDispatch cell) := fun _ _ h => nomatch h
theorem RoundTrip.consumerAdmit (ctx : Nat) (node : Nat) (c : AdmitChoice) :
    RoundTrip.Statement (.consumerAdmit ctx node c) := fun _ _ h => nomatch h
theorem RoundTrip.enqResume (ctx : Nat) (node : Nat) : RoundTrip.Statement (.enqResume ctx node) := fun _ _ h => nomatch h
theorem RoundTrip.partialEviction (cell : Nat) (waves : Nat) (threads : Nat) :
    RoundTrip.Statement (.partialEviction cell waves threads) := fun _ _ h => nomatch h
theorem RoundTrip.memberRestore (uid : Nat) : RoundTrip.Statement (.memberRestore uid) := fun _ _ h => nomatch h
theorem RoundTrip.groupSwitchLimit (slot : Nat) : RoundTrip.Statement (.groupSwitchLimit slot) := fun _ _ h => nomatch h
theorem RoundTrip.teamRetire (ctx : Nat) (handle : Nat) : RoundTrip.Statement (.teamRetire ctx handle) := fun _ _ h => nomatch h
theorem RoundTrip.matrixJobStart (cluster : Nat) : RoundTrip.Statement (.matrixJobStart cluster) := fun _ _ h => nomatch h
theorem RoundTrip.matrixJobComplete (cluster : Nat) : RoundTrip.Statement (.matrixJobComplete cluster) := fun _ _ h => nomatch h
theorem RoundTrip.copyJobComplete (cluster : Nat) (job : Nat) : RoundTrip.Statement (.copyJobComplete cluster job) := fun _ _ h => nomatch h
theorem RoundTrip.baseJobComplete (cluster : Nat) (job : Nat) : RoundTrip.Statement (.baseJobComplete cluster job) := fun _ _ h => nomatch h
theorem RoundTrip.beamJobStart (cluster : Nat) : RoundTrip.Statement (.beamJobStart cluster) := fun _ _ h => nomatch h
theorem RoundTrip.beamStep (cluster : Nat) (job : Nat) : RoundTrip.Statement (.beamStep cluster job) := fun _ _ h => nomatch h
theorem RoundTrip.beamJobSave (cluster : Nat) (job : Nat) : RoundTrip.Statement (.beamJobSave cluster job) := fun _ _ h => nomatch h
theorem RoundTrip.beamJobRestore (cluster : Nat) (job : Nat) : RoundTrip.Statement (.beamJobRestore cluster job) := fun _ _ h => nomatch h
theorem RoundTrip.budgetRefill (die : Nat) : RoundTrip.Statement (.budgetRefill die) := fun _ _ h => nomatch h
theorem RoundTrip.powerTokenDivision (activity : List Nat) : RoundTrip.Statement (.powerTokenDivision activity) := fun _ _ h => nomatch h
theorem RoundTrip.regionCommit (die : Nat) : RoundTrip.Statement (.regionCommit die) := fun _ _ h => nomatch h
theorem RoundTrip.soloTokenGrant (die : Nat) : RoundTrip.Statement (.soloTokenGrant die) := fun _ _ h => nomatch h
theorem RoundTrip.rds (tag : Nat) : RoundTrip.Statement (.rds tag) := fun _ _ h => nomatch h
theorem RoundTrip.rdo (tag : Nat) : RoundTrip.Statement (.rdo tag) := fun _ _ h => nomatch h
theorem RoundTrip.upg (tag : Nat) : RoundTrip.Statement (.upg tag) := fun _ _ h => nomatch h
theorem RoundTrip.lrd (tag : Nat) : RoundTrip.Statement (.lrd tag) := fun _ _ h => nomatch h
theorem RoundTrip.wrt (tag : Nat) : RoundTrip.Statement (.wrt tag) := fun _ _ h => nomatch h
theorem RoundTrip.urd (tag : Nat) : RoundTrip.Statement (.urd tag) := fun _ _ h => nomatch h
theorem RoundTrip.atm (tag : Nat) : RoundTrip.Statement (.atm tag) := fun _ _ h => nomatch h
theorem RoundTrip.inv (tag : Nat) : RoundTrip.Statement (.inv tag) := fun _ _ h => nomatch h
theorem RoundTrip.sns (tag : Nat) : RoundTrip.Statement (.sns tag) := fun _ _ h => nomatch h
theorem RoundTrip.sni (tag : Nat) : RoundTrip.Statement (.sni tag) := fun _ _ h => nomatch h
theorem RoundTrip.iack (tag : Nat) : RoundTrip.Statement (.iack tag) := fun _ _ h => nomatch h
theorem RoundTrip.sdat (tag : Nat) : RoundTrip.Statement (.sdat tag) := fun _ _ h => nomatch h
theorem RoundTrip.wbif (tag : Nat) : RoundTrip.Statement (.wbif tag) := fun _ _ h => nomatch h
theorem RoundTrip.data (tag : Nat) : RoundTrip.Statement (.data tag) := fun _ _ h => nomatch h
theorem RoundTrip.nack (tag : Nat) : RoundTrip.Statement (.nack tag) := fun _ _ h => nomatch h
theorem RoundTrip.nackRetry (tag : Nat) : RoundTrip.Statement (.nackRetry tag) := fun _ _ h => nomatch h
theorem RoundTrip.wb (tag : Nat) : RoundTrip.Statement (.wb tag) := fun _ _ h => nomatch h
theorem RoundTrip.evn (tag : Nat) : RoundTrip.Statement (.evn tag) := fun _ _ h => nomatch h
theorem RoundTrip.ptsTick (die : Nat) : RoundTrip.Statement (.ptsTick die) := fun _ _ h => nomatch h
theorem RoundTrip.leaseRebase (die : Nat) : RoundTrip.Statement (.leaseRebase die) := fun _ _ h => nomatch h
theorem RoundTrip.hostHalfRequest (line : Nat) (half : Bool) : RoundTrip.Statement (.hostHalfRequest line half) := fun _ _ h => nomatch h
theorem RoundTrip.hostWrite (pa : Nat) (bytes : List Byte) : RoundTrip.Statement (.hostWrite pa bytes) := fun _ _ h => nomatch h
theorem RoundTrip.hostRead (pa : Nat) (n : Nat) : RoundTrip.Statement (.hostRead pa n) := fun _ _ h => nomatch h
theorem RoundTrip.flitCrcFail (link : Nat) : RoundTrip.Statement (.flitCrcFail link) := fun _ _ h => nomatch h
theorem RoundTrip.linkRecoveryFail (link : Nat) : RoundTrip.Statement (.linkRecoveryFail link) := fun _ _ h => nomatch h
theorem RoundTrip.keyRollover (link : Nat) : RoundTrip.Statement (.keyRollover link) := fun _ _ h => nomatch h
theorem RoundTrip.getVersion (die : Nat) : RoundTrip.Statement (.getVersion die) := fun _ _ h => nomatch h
theorem RoundTrip.getCapabilities (die : Nat) : RoundTrip.Statement (.getCapabilities die) := fun _ _ h => nomatch h
theorem RoundTrip.negotiateAlgorithms (die : Nat) : RoundTrip.Statement (.negotiateAlgorithms die) := fun _ _ h => nomatch h
theorem RoundTrip.getDigests (die : Nat) : RoundTrip.Statement (.getDigests die) := fun _ _ h => nomatch h
theorem RoundTrip.getCertificate (die : Nat) : RoundTrip.Statement (.getCertificate die) := fun _ _ h => nomatch h
theorem RoundTrip.challenge (die : Nat) : RoundTrip.Statement (.challenge die) := fun _ _ h => nomatch h
theorem RoundTrip.getMeasurements (die : Nat) : RoundTrip.Statement (.getMeasurements die) := fun _ _ h => nomatch h
theorem RoundTrip.keyExchange (die : Nat) : RoundTrip.Statement (.keyExchange die) := fun _ _ h => nomatch h
theorem RoundTrip.finish (die : Nat) : RoundTrip.Statement (.finish die) := fun _ _ h => nomatch h
theorem RoundTrip.keyUpdate (link : Nat) : RoundTrip.Statement (.keyUpdate link) := fun _ _ h => nomatch h
theorem RoundTrip.keyUpdateAck (link : Nat) : RoundTrip.Statement (.keyUpdateAck link) := fun _ _ h => nomatch h
theorem RoundTrip.endSession (die : Nat) : RoundTrip.Statement (.endSession die) := fun _ _ h => nomatch h
theorem RoundTrip.firmwareVerify (die : Nat) (signed : Bool) (version : Nat) :
    RoundTrip.Statement (.firmwareVerify die signed version) := fun _ _ h => nomatch h
theorem RoundTrip.attestationResult (die : Nat) (ok : Bool) : RoundTrip.Statement (.attestationResult die ok) := fun _ _ h => nomatch h
theorem RoundTrip.dieResetRequest (die : Nat) (val : DWord) : RoundTrip.Statement (.dieResetRequest die val) := fun _ _ h => nomatch h
theorem RoundTrip.dieDrainComplete (die : Nat) : RoundTrip.Statement (.dieDrainComplete die) := fun _ _ h => nomatch h
theorem RoundTrip.dieReset (die : Nat) : RoundTrip.Statement (.dieReset die) := fun _ _ h => nomatch h
theorem RoundTrip.storageError (e : StorageErr) : RoundTrip.Statement (.storageError e) := fun _ _ h => nomatch h
theorem RoundTrip.allAsleep (ctx : Nat) : RoundTrip.Statement (.allAsleep ctx) := fun _ _ h => nomatch h
theorem RoundTrip.waitadrWake (slot : Nat) : RoundTrip.Statement (.waitadrWake slot) := fun _ _ h => nomatch h
theorem RoundTrip.waitWake (slot : Nat) : RoundTrip.Statement (.waitWake slot) := fun _ _ h => nomatch h
theorem RoundTrip.ctxctlHalt (ctx : Nat) : RoundTrip.Statement (.ctxctlHalt ctx) := fun _ _ h => nomatch h
theorem RoundTrip.ctxctlGo (ctx : Nat) : RoundTrip.Statement (.ctxctlGo ctx) := fun _ _ h => nomatch h
theorem RoundTrip.tlbinv (val : DWord) : RoundTrip.Statement (.tlbinv val) := fun _ _ h => nomatch h
theorem RoundTrip.capw (ctx : Nat) (val : DWord) : RoundTrip.Statement (.capw ctx val) := fun _ _ h => nomatch h
theorem RoundTrip.ctxenWrite (ctx : Nat) (val : DWord) : RoundTrip.Statement (.ctxenWrite ctx val) := fun _ _ h => nomatch h
theorem RoundTrip.flcfgWrite (ctx : Option Nat) (val : DWord) : RoundTrip.Statement (.flcfgWrite ctx val) := fun _ _ h => nomatch h
theorem RoundTrip.diehtWrite (die : Nat) (val : DWord) : RoundTrip.Statement (.diehtWrite die val) := fun _ _ h => nomatch h
theorem RoundTrip.firmwareUpdate (val : DWord) : RoundTrip.Statement (.firmwareUpdate val) := fun _ _ h => nomatch h
theorem RoundTrip.firmwareUpdateEnd (signed : Bool) (version : Nat) (programmed : Bool) :
    RoundTrip.Statement (.firmwareUpdateEnd signed version programmed) := fun _ _ h => nomatch h
theorem RoundTrip.counterArm (die : Nat) (idx : Nat) (w0 : DWord) : RoundTrip.Statement (.counterArm die idx w0) := fun _ _ h => nomatch h
theorem RoundTrip.counterDisarm (die : Nat) (idx : Nat) (w0 : DWord) : RoundTrip.Statement (.counterDisarm die idx w0) := fun _ _ h => nomatch h
theorem RoundTrip.sigDecrement (die : Nat) : RoundTrip.Statement (.sigDecrement die) := fun _ _ h => nomatch h
theorem RoundTrip.handlerRecordArrival (die : Nat) : RoundTrip.Statement (.handlerRecordArrival die) := fun _ _ h => nomatch h
theorem RoundTrip.handlerDispatch (die : Nat) : RoundTrip.Statement (.handlerDispatch die) := fun _ _ h => nomatch h
theorem RoundTrip.registerWrite (off : Nat) (val : DWord) : RoundTrip.Statement (.registerWrite off val) := fun _ _ h => nomatch h
theorem RoundTrip.copyJobStart (cluster : Nat) : RoundTrip.Statement (.copyJobStart cluster) := fun _ _ h => nomatch h
theorem RoundTrip.copySectorLand (cluster : Nat) (job : Nat) (sector : Nat) :
    RoundTrip.Statement (.copySectorLand cluster job sector) := fun _ _ h => nomatch h
theorem RoundTrip.pcieCompletion (st : PcieStatus) : RoundTrip.Statement (.pcieCompletion st) := fun _ _ h => nomatch h
theorem RoundTrip.powerUp : RoundTrip.Statement .powerUp := fun _ _ h => nomatch h
theorem RoundTrip.deviceFreeze : RoundTrip.Statement .deviceFreeze := fun _ _ h => nomatch h
theorem RoundTrip.impreciseFault : RoundTrip.Statement .impreciseFault := fun _ _ h => nomatch h
theorem RoundTrip.tlbinvDone : RoundTrip.Statement .tlbinvDone := fun _ _ h => nomatch h
theorem RoundTrip.peerWriteFail : RoundTrip.Statement .peerWriteFail := fun _ _ h => nomatch h

end Sys2Proof.Laws
end

