-- ==== Sys2Proof/Machine/Readback.lean ====
section
/-!
DEFINITION. Machine/Readback.lean: what a read of BAR0 returns (R41, R45, R263, R284, R287, R291, R294, R296 to R299, R301), the
readback window among it (R264). A read changes nothing, so it needs no step (log 57).
-/
namespace Sys2Proof.Machine

/-- All ones: what the window returns for a structure of a context that is neither halted nor frozen (R264). -/
def closedWord : DWord := 0xFFFFFFFFFFFFFFFF

/-- Bits [56:3] of an address. -/
def addrField (a : Addr) : Nat := a.toNat / 8

/-- A 32-bit pair as one 64-bit word, low half first. -/
def pairWord64 (f : Nat → Nat) (n : Nat) : Nat := f (2 * n) + f (2 * n + 1) * 2 ^ 32

/-- x register k of a lane (R62). -/
def XReg.word (x : XReg) : Nat := x.val.toNat * 2 ^ 12 + x.hi.toNat * 2 ^ 6 + x.lo.toNat

/-- The four words of a split-table entry (R154). -/
def Group.words (slot : Nat) (g : Group) : List Nat :=
  let st := match g.st with
    | .run => 0
    | .parked => 1
    | .parent => 2
  [2 ^ 63 + st * 2 ^ 61 + slot * 2 ^ 57 + addrField g.pc,
   g.mask.toNat * 2 ^ 32 + (match g.parent with
     | none => 2 ^ 31
     | some p => p * 2 ^ 25) + g.stamp.toNat,
   (match g.join with
     | none => 0
     | some a => 2 ^ 63 + addrField a), 0]

/-- The words of a serial stack entry (R155); entry 0 of a stack in the window is its top (log 81). -/
def SerialEntry.words (e : SerialEntry) : List Nat :=
  [2 ^ 63 + b2n e.phase * 2 ^ 62 + addrField e.pc, e.mask.toNat * 2 ^ 32 + e.arr.toNat,
   (match e.join with
     | none => 0
     | some a => 2 ^ 63 + addrField a), 0]

/-- The four words of a bind record (R49). -/
def Team.bindWords (t : Team) : List Nat :=
  [t.handle * 2 ^ 40 + t.ctx * 2 ^ 34 + t.prio * 2 ^ 32 + t.die * 2 ^ 30 + (t.cell % 128) * 2 ^ 23 + t.wquota * 2 ^ 18 + t.tquota * 2 ^ 12 + 1,
   t.wmask.toNat * 2 ^ 48 + t.tmask.toNat * 2 ^ 16, t.spbase * 2 ^ 46 + t.splen * 2 ^ 27, t.lid * 2 ^ 32 + t.tidx]

/-- 256 bits as four words, a set bit for each listed number. -/
def bitWords (ns : List Nat) : List Nat :=
  (List.range 4).map fun w => (List.range 64).foldl (fun x b => if ns.contains (64 * w + b) then x + 2 ^ b else x) 0

/-- The sixteen words of a region entry (R221); `feeds` names the entries that wait for it. DEPTH lies in 0 to 4: a deeper chain, which can
come to stand below a region that gains sources later, shows as 4 (log 101). -/
def Region.words (r : Region) (depth : Nat) (feeds : List Nat) : List Nat :=
  let st := match r.st with
    | .run => 0
    | .atTre => 1
    | .aborted | .deferred => 2
  [2 ^ 63 + st * 2 ^ 60 + b2n r.solo * 2 ^ 59 + min 4 depth * 2 ^ 56 + r.ctx * 2 ^ 50 + (r.cell % 128) * 2 ^ 43 + b2n r.scal * 2 ^ 42 +
     r.slot * 2 ^ 37 + r.lane * 2 ^ 32,
   addrField r.abort, (match r.join with
     | none => 0
     | some a => 2 ^ 63 + addrField a), r.age] ++ bitWords r.waits ++ bitWords feeds ++ bitWords r.fwd

/-- The four words of a counter entry (R287). -/
def SigCounter.words (c : SigCounter) : List Nat :=
  [b2n c.v * 2 ^ 63 + c.ctx.toNat * 2 ^ 57 + c.tdesc.toNat * 2 ^ 36 + c.count.toNat, c.hpc.toNat * 2 ^ 16, c.recptr.toNat, 0]

/-- The six words of a line record (R234). -/
def Line.words (l : Line) (busy : Bool) : List Nat :=
  let mode := match l.mode with
    | .empty => 0
    | .dir => 1
    | .lease => 2
    | .unc => 3
  [mode * 2 ^ 62 + b2n busy * 2 ^ 61 + l.hown.toNat * 2 ^ 59 + l.wts.toNat * 2 ^ 16 + l.rts.toNat, l.sharers.toNat] ++
    (List.range 4).map fun k => match l.owners[k]? with
      | some o => 2 ^ 63 + o.1 * 2 ^ 32 + o.2.toNat
      | none => 0

/-- A capability's 32 bytes in the window: its two words, and the tag in bit 0 of the second half (R264). -/
def Cap.window (c : Cap) : List Nat := [c.cursor.toNat, c.toNat128 / 2 ^ 64, b2n c.tag, 0]

/-- The words of a trap area in CSR order: TCAUSE, TPC, TADDR, TFPC, and TSIB n at word 16 + n (R252). -/
def TrapArea.word (a : TrapArea) (n : Nat) : Nat :=
  match n with
  | 0 => a.tcause
  | 1 => a.tpc.toNat
  | 2 => a.taddr.toNat
  | 3 => a.tfpc.toNat
  | n => if 16 ≤ n && n < 64 then a.tsibWord (n - 16) else 0

namespace State

/-- A word of a structure that belongs to a context, which must be halted or the device frozen (R264). -/
def guarded (s : State) (x : Nat) (w : Nat) : DWord := if (s.ctx x).halted || s.frozen then BitVec.ofNat 64 w else closedWord

/-- Word `off`/8 of a member's state (R264). The layouts of the A latch, the operand map and the mailbox channels are the model's (log 81). -/
def memberWord (s : State) (k : Nat) (m : Member) (off : Nat) : Nat :=
  let n := off / 8
  if off < 0x2000 then pairWord64 (fun r => (m.vreg (r / 64) (r % 64)).toNat) n
  else if off < 0x2200 then (m.sreg ((off - 0x2000) / 8)).toNat
  else if off < 0x2400 then (m.creg ((off - 0x2200) / 32)).window.getD ((off - 0x2200) % 32 / 8) 0
  else if off < 0x2420 then pairWord64 (fun q => (m.qmask q).toNat) ((off - 0x2400) / 8)
  else if off < 0x2620 then pairWord64 (fun x => (m.xreg (x / 4) (x % 4)).word) ((off - 0x2420) / 8)
  else if off == 0x2620 then m.savedPc.toNat
  else if off == 0x2628 then
    match m.alatch with
    | none => 0
    | some (hi, t) => 2 ^ 63 + b2n hi * 2 ^ 62 + t.code.toNat
  else if 0x2640 ≤ off && off < 0x2670 then
    match m.omap with
    | none => 0
    | some o => (o.cap.window ++ [o.stride.toNat, o.sofs.toNat]).getD ((off - 0x2640) / 8) 0
  else if 0x4000 ≤ off then
    -- the mailbox channels of the team, in the slot of its leader (R355)
    let ch := (off - 0x4000) / 256
    let box := ((s.team? m.ctx m.team).map fun t => FMap.get [] t.mail ch).getD []
    if m.ldr == 0 || 8 ≤ ch then 0
    else if off % 256 < 128 then pairWord64 (fun i => (box.getD i 0).toNat) (off % 256 / 8)
    else if off % 256 == 128 then box.length
    else 0
  else if 0x2800 ≤ off then (s.csrVal ⟨k, m, m.cur, 0⟩ (0x100 + (off - 0x2800) / 8)).getD 0
  else 0

/-- The records of a Carousel and of a ready queue in the order in which the window shows them (log 81). -/
def poolRecs (s : State) (cell : Bool) (n : Nat) : List Rec :=
  if cell then (s.cell n).ready else (s.cluster n).buckets.flatMap Bucket.recs

/-- The lines that a slice holds, in rising order (log 81). -/
def sliceRecords (s : State) (d slice : Nat) : List (Nat × Line) :=
  s.coh.lines.filter fun e => dieOfPa (e.1 * 128) == d && homeSlice (e.1 * 128) == slice

/-- Word of a table of a context: capabilities at 32 bytes each, formats, marks, descriptors (R95, R264, log 81). -/
def tableWord (s : State) (x table off : Nat) : Nat :=
  let c := s.ctx x
  let at' (r : DWord) : Nat := s.num (tableAddr r + off) 8
  match table with
  | 0 => if off < 8192 then (s.capEntry x (off / 32)).window.getD (off % 32 / 8) 0 else 0
  | 1 => if off < 16384 then at' c.fmttab else 0
  | 2 => if off < 8 * c.markcnt.toNat then at' c.marktab else 0
  | _ => if off < 64 * c.desccnt.toNat then at' c.desctab else 0

/-- Word of a fault log ring (R258, R298). -/
def logWord (s : State) (r : LogRing) (off : Nat) : Nat :=
  if 32 * 2 ^ r.logsize.toNat ≤ off then 0
  else if r.base.getLsbD 63 then ofBytes (s.extBytes false (r.base.toNat % 2 ^ 63 + off) 8) else s.num (r.base.toNat + off) 8

/-- The 64-bit word of the readback window at a readback address (R264). Type 0x01 has the index that R264 gives; in the other types
structures stand one after the other at their sizes, by die, cell or cluster and number (log 81). -/
def readback (s : State) (a : Nat) : DWord :=
  let ix := bits a 35 0 / 8 * 8
  let low := ix % 32 / 8
  match bits a 43 36 with
  | 0x01 =>
    let k := bits ix 35 27 * 64 + bits ix 26 21
    match s.member? k with
    | some m => s.guarded m.ctx (s.memberWord k m (bits ix 20 0))
    | none => 0
  | 0x02 =>
    match s.teams.find? fun t => !t.isHandler && t.cell == ix / 1024 && t.bind == ix / 32 % 32 with
    | some t => s.guarded t.ctx (t.bindWords.getD low 0)
    | none => 0
  | 0x03 =>
    if bits ix 35 35 == 0 then
      let cell := ix / 32 / 64
      match s.members.findSome? fun e => if cellOf e.1 == cell then (FMap.find? e.2.subs (ix / 32 % 64)).map fun g => (e.1, e.2, g) else none with
      | some (k, m, g) => s.guarded m.ctx ((g.words (slotOf k)).getD low 0)
      | none => 0
    else
      let n := bits ix 34 0 / 32
      match s.member? (waveKey (n / 32 / 16) (n / 32 % 16)) with
      | some m => match m.serial[n % 32]? with
        | some e => s.guarded m.ctx (e.words.getD low 0)
        | none => 0
      | none => 0
  | 0x04 =>
    let cell := bits ix 35 35 == 1
    match (s.poolRecs cell (bits ix 34 0 / 2 ^ 20))[bits ix 19 0 / 64]? with
    | some r => s.guarded r.owner (ofBytes ((r.bytes.drop (ix % 64)).take 8))
    | none => 0
  | 0x05 =>
    let d := ix / 2 ^ 15
    let n := ix / 128 % 256
    match FMap.find? (s.die d).regions n with
    | some r =>
      let feeds := ((s.die d).regions.filter fun e => e.2.waits.contains n).map Prod.fst
      s.guarded r.ctx ((r.words (depthOf (s.die d).regions 256 n) feeds).getD (ix % 128 / 8) 0)
    | none => 0
  | 0x06 =>
    let c := s.counter (ix / 2 ^ 17) (ix / 32 % 4096)
    s.guarded c.ctx.toNat (c.words.getD low 0)
  | 0x07 =>
    -- the TLBs of the cells, and above bit 35 the L2 TLBs of the clusters (R146)
    let e := if bits ix 35 35 == 0 then (FMap.get [] s.coh.tlb (ix / 2048))[ix / 16 % 128]?
      else (FMap.get [] s.coh.tlb2 (bits ix 34 0 / 65536))[ix / 16 % 4096]?
    match e with
    | some e => s.guarded e.ctx (if ix % 16 == 0 then e.pte.toNat else e.va)
    | none => 0
  | 0x08 =>
    match FMap.find? (s.cluster (ix / 2 ^ 20)).acc (ix / 2 ^ 14 % 64) with
    | some x => s.guarded x (s.num (accBase + ix) 8)
    | none => 0
  | 0x09 =>
    match (s.sliceRecords (ix / 2 ^ 25) (ix / 2 ^ 21 % 16))[ix / 64 % 2 ^ 15]? with
    | some e => BitVec.ofNat 64 ((e.2.words (s.busy e.1)).getD (ix % 64 / 8) 0)
    | none => 0
  | 0x0A =>
    let d := ix / 512
    if 4 ≤ d then 0
    else if ix % 512 < 256 then
      BitVec.ofNat 64 ((List.range 4).foldl (fun w i => w + ((s.die d).entry (ix % 512 / 2 + i)).toNat * 2 ^ (16 * i)) 0)
    else if ix % 512 == 256 then BitVec.ofNat 64 (s.die d).cfg
    else 0
  | 0x0B => s.guarded (bits ix 35 30) (s.tableWord (bits ix 35 30) (bits ix 29 28) (bits ix 27 0))
  | 0x0C =>
    if bits ix 35 35 == 0 then s.guarded (bits ix 34 29) (s.logWord (s.ctx (bits ix 34 29)).log (bits ix 28 0))
    else
      match s.teams.find? fun t => t.cell == bits ix 34 15 && t.bind == ix / 512 % 64 with
      | some t => s.guarded t.ctx (t.trap.word (ix % 512 / 8))
      | none => 0
  | _ => 0

/-- The word of a log ring's configuration register (R298, R299). -/
def ringWord (r : LogRing) : Nat := r.logsize.toNat + r.vec.toNat * 2 ^ 5 + b2n r.en * 2 ^ 16 + b2n r.ovf * 2 ^ 17

/-- The value of a register of a context block (R298). -/
def ctxWord (s : State) (x off : Nat) : Nat :=
  let c := s.ctx x
  match off with
  | 0x00 => c.root.toNat
  | 0x08 => s.weightOf x
  | 0x10 => c.poolsz.toNat
  | 0x18 => c.captab.toNat
  | 0x20 => c.fmttab.toNat
  | 0x28 => c.marktab.toNat
  | 0x30 => c.markcnt.toNat
  | 0x38 => c.desctab.toNat
  | 0x40 => c.desccnt.toNat
  | 0x48 => c.caplo.toNat
  | 0x50 => c.caphi.toNat
  | 0x60 => c.log.base.toNat
  | 0x68 => ringWord c.log
  | 0x70 => c.log.head.toNat
  | 0x78 => c.log.tail.toNat
  | 0x80 => b2n c.en + 2 * b2n (s.launches.any fun l => l.ctx == x)
  | _ => 0

/-- The value of a register of a launch queue (R41); QTAIL is write-only. -/
def queueWord (q : Queue) (off : Nat) : Nat :=
  match off with
  | 0 => q.base.toNat
  | 8 => q.msix.toNat * 2 ^ 37 + q.logsize.toNat * 2 ^ 32 + q.prio.toNat * 2 ^ 30 + q.ctx.toNat * 2 ^ 24 + q.dmask.toNat * 2 ^ 2 +
      b2n q.dev * 2 + b2n q.en
  | 16 => q.head.toNat
  | _ => 0

/-- DIESTATE (R291, R296). -/
def dieStWord (d : Die) : Nat :=
  match d.st with
  | .reset => 0
  | .attesting => 1
  | .quarantined => 2
  | .trusted => 3
  | .draining => 4

/-- Registers that answer in recovery mode too (R301): DEVID, FWCTL, FWADDR, FWLEN and the event log. -/
def alwaysWord (s : State) (off : Nat) : Option Nat :=
  match off with
  | 0x0 => some Config.devid.toNat
  | 0x3000 => some s.host.fwState.toNat
  | 0x3008 => some s.host.fwAddr.toNat
  | 0x3010 => some s.host.fwLen.toNat
  | 0x80000 => some s.host.ev.base.toNat
  | 0x80008 => some (ringWord s.host.ev)
  | 0x80010 => some s.host.ev.head.toNat
  | 0x80018 => some s.host.ev.tail.toNat
  | _ => none

/-- The 64-bit value of a BAR0 read at an offset that is a multiple of 8, or of 4 for a token (R296): an offset that the table does
not list reads as 0. -/
def bar0Read (s : State) (off : Nat) : DWord :=
  match s.alwaysWord off with
  | some w => BitVec.ofNat 64 w
  | none =>
    if s.host.recovery then 0
    else if 0x100 ≤ off && off < 0x120 && off % 8 == 0 then (s.die ((off - 0x100) / 8)).dieht.setWidth 64
    else if 0x120 ≤ off && off < 0x140 && off % 8 == 0 then BitVec.ofNat 64 (dieStWord (s.die ((off - 0x120) / 8)))
    else if off == 0x160 then s.host.pwrlim.setWidth 64
    else if off == 0x1000 then s.host.rbsel
    else if off == 0x1008 then BitVec.ofNat 64 (b2n (s.ctx s.host.ctxctl.toNat).halted * 2 ^ 8 + s.host.ctxctl.toNat)
    else if off == 0x2000 then
      BitVec.ofNat 64 (s.host.tlbCtx.toNat * 2 ^ 57 + s.host.tlbVa.toNat * 2 ^ 16 + b2n s.host.tlbAll * 2 + b2n s.host.tlbDone)
    else if 0x40000 ≤ off && off < 0x44000 then BitVec.ofNat 64 (s.ctxWord ((off - 0x40000) / 256) (off % 256))
    else if 0x100000 ≤ off && off < 0x102000 then BitVec.ofNat 64 (queueWord (s.queue ((off - 0x100000) / 32)) (off % 32))
    else if 0x180000 ≤ off && off < 0x280000 && off % 4 == 0 then
      let n := (off - 0x180000) / 4
      if n % 4096 == 0 then 0 else (FMap.get 0 (s.ctx (n / 4096)).tok (n % 4096)).setWidth 64
    else if 0x300000 ≤ off && off < 0x380000 && off % 8 == 0 then
      BitVec.ofNat 64 ((s.counter ((off - 0x300000) / 0x20000) ((off - 0x300000) % 0x20000 / 32)).words.getD (off % 32 / 8) 0)
    else if 0x600000 ≤ off && off < 0x608100 && off % 8 == 0 then FMap.get 0 s.host.msixTab ((off - 0x600000) / 8)
    else if 0x800000 ≤ off && off < 0x1000000 then s.readback (s.host.rbsel.toNat / 2 ^ 23 * 2 ^ 23 + (off - 0x800000))
    else 0

end State
end Sys2Proof.Machine
end

