-- ==== Sys2Proof/Safety.lean ====
section
/-!
DEFINITION. Safety.lean: what counts as a good state: the memory in its canonical form, and runs that stay in such states.
-/
namespace Sys2Proof.Machine

/-- Device memory in canonical form: addresses rising, no byte listed that an unlisted address reads as. -/
def State.MemOk (s : State) : Prop := Memory.wf s.mem = true ∧ FMap.wf (0 : Byte) s.hostMem = true ∧ FMap.wf (0 : Byte) s.peerMem = true

/-- An outcome is a next state that a property holds of. -/
def Safe (p : State → Prop) : Out → Prop
  | .next s => p s
  | .fault _ => True
  | .refused _ => True

/-- An outcome is a next state. -/
def Completes (o : Out) : Prop := ∃ s, o = .next s

end Sys2Proof.Machine
end

