-- ==== Sys2Proof/Certificates/Slice0/Obligations.lean ====
section
/-!
DEFINITION. Certificates/Slice0/Obligations.lean: the statements for the provers. `Claims` holds the vocabulary they are written in;
each `Obligations.<Name>` cites the rules of spec/ that it formalises or rests on.
-/
namespace Sys2Proof.Claims
open Sys2Proof.Machine

/-! ### Vocabulary -/

/-- A member stands in slot k, its current group can issue, and its word executes (R61, R153). -/
structure Issues (s : State) (k : Nat) (m : Member) : Prop where
  issuer : s.issuer = some k
  here : s.member? k = some m
  named : m.names.contains m.cur = true
  ready : m.canIssue m.cur = true

/-- No lane enabled for the word has an open region (R217, R219). -/
def NoRegion (s : State) (k : Nat) (m : Member) (h : Hdr) : Prop := s.regionLanes (cellOf k) m.uid &&& m.enabled h = 0

/-- The lanes for which a word that acts once acts: the enabled lanes without an open region, or every enabled lane where each has one
(R219). -/
def acting (s : State) (k : Nat) (m : Member) (h : Hdr) : Word :=
  let others := m.enabled h &&& ~~~(s.regionLanes (cellOf k) m.uid)
  if others = 0 then m.enabled h else others

/-- Every enabled lane has an open region, or none has (R219). -/
def Unmixed (s : State) (k : Nat) (m : Member) (h : Hdr) : Prop :=
  s.regionLanes (cellOf k) m.uid &&& m.enabled h = 0 ∨ s.regionLanes (cellOf k) m.uid &&& m.enabled h = m.enabled h

/-- An acquire of a member of slot k (R197 to R204, log 66): only what the caches hold changes, and its cell keeps no LEASE copy. -/
def Acquired (s t : State) (k : Nat) : Prop := t = { s with coh := t.coh } ∧ ∀ n, n < 2 ^ 46 → (t.l1 (cellOf k) n).lease = none

/-- The issuer as the checks of a word see it. -/
def issOf (k : Nat) (m : Member) (h : Hdr) : Iss := ⟨k, m, m.cur, m.enabled h⟩

/-- The lanes enabled for a word, in increasing order. -/
def on (m : Member) (h : Hdr) : List Nat := lanesOf (m.enabled h)

/-- Everything of a member but its register files, its latches and the PC of its current group is as before, and that PC is the
next word's: the frame of every word that acts on registers alone (R97, R153). -/
structure Rest (m m' : Member) : Prop where
  same : { m' with v := m.v, pv := m.pv, s := m.s, ps := m.ps, c := m.c, pk := m.pk, q := m.q, x := m.x, lat := m.lat, root := m.root,
                   subs := m.subs } = m
  cur : m'.curGrp = { m.curGrp with pc := nextPc m.pc }
  others : ∀ g, g ≠ m.cur → m'.grp g = m.grp g

/-- A word changes its own member alone: memory, tags, every other member and the rest of the device stay as they are. -/
def Steps (i : Instr) (s : State) (k : Nat) (m m' : Member) : Prop := exec i s = .next (s.setMember k m') ∧ Rest m m'

/-- Register d of each lane listed holds a result of a type (R59: I types extended by sign, others with zeros, and 64 bits in the pair d,
d + 1); every other vector register of every lane is unchanged. -/
structure VecSet (m m' : Member) (t : Ty) (d : Nat) (lanes : List Nat) (val : Nat → Nat) : Prop where
  low : ∀ l ∈ lanes, m'.vreg l d = if t.is64 then BitVec.ofNat 32 (val l) else BitVec.ofNat 32 (extendTo t 32 (val l))
  high : ∀ l ∈ lanes, t.is64 = true → m'.vreg l (d + 1) = BitVec.ofNat 32 (val l / 2 ^ 32)
  frame : ∀ l n, l < 32 → n < 64 → ¬(l ∈ lanes ∧ (n = d ∨ (t.is64 = true ∧ n = d + 1))) → m'.vreg l n = m.vreg l n

/-- Uniform register d holds x, and every other one is unchanged. -/
def UniSet (m m' : Member) (d : Nat) (x : DWord) : Prop := m'.sreg d = x ∧ ∀ n, n ≠ d → m'.sreg n = m.sreg n

/-- Predicate q holds a bit in each enabled lane and is unchanged in the others, q7 reads as ones, and every other predicate is
unchanged (R58, R61). -/
def PredSet (m m' : Member) (q : Nat) (en : Word) (f : Nat → Bool) : Prop :=
  (∀ l, l < 32 → m'.qbit q l = if q = 7 then true else if en.getLsbD l then f l else m.qbit q l) ∧ ∀ j, j ≠ q → m'.qmask j = m.qmask j

/-- No register file changes. -/
def RegsSame (m m' : Member) : Prop :=
  m'.v = m.v ∧ m'.pv = m.pv ∧ m'.s = m.s ∧ m'.ps = m.ps ∧ m'.c = m.c ∧ m'.pk = m.pk ∧ m'.q = m.q ∧ m'.x = m.x ∧ m'.lat = m.lat

/-- A vector destination of a type starts at an even register when it is a pair (R59). -/
def EvenDest (t : Ty) (u : Bool) (d : BitVec 6) : Prop := t.is64 = true → u = false → d.toNat % 2 = 0

/-- The write-back of a pure ALU word whose lanes compute `val`, of type t (R59, R60, R65, R66): D in the enabled lanes, or sD once under
U, or nothing under NW; the latches shift either way, with the one result of U in every lane, and nothing else of a register file
changes. (Where no lane is enabled, that result takes a predicate of lane 0: log 64, the model's choice.) -/
structure AluDone (m m' : Member) (w : Alu) (t : Ty) (en : Word) (val : Nat → Nat) : Prop where
  vec : w.u = false → w.nw = false → VecSet m m' t w.d.toNat (lanesOf en) val
  noVec : (w.u = true ∨ w.nw = true) → m'.v = m.v ∧ m'.pv = m.pv
  uni : w.u = true → w.nw = false → en ≠ 0 → UniSet m m' w.d.toNat (BitVec.ofNat 64 (extendTo t 64 (val (lowest en))))
  noUni : (w.u = false ∨ w.nw = true ∨ en = 0) → m'.s = m.s
  latch : ∀ l, l < 32 → m'.latch 0 l =
    if w.u then BitVec.ofNat 64 (extendTo t 64 (val (lowest en)))
    else if en.getLsbD l then BitVec.ofNat 64 (extendTo t (regBits t) (val l)) else 0
  older : ∀ j l, j < 3 → m'.latch (j + 1) l = m.latch j l
  rest : m'.c = m.c ∧ m'.pk = m.pk ∧ m'.x = m.x

/-- A pure ALU word completes in every state in which it issues, computing `val` in each enabled lane, or once under U; no predicate
changes. -/
def Computes (i : Instr) (w : Alu) (t : Ty) (val : Member → Nat → Nat) : Prop :=
  ∀ s k m, Issues s k m → EvenDest t w.u w.d →
    ∃ m', Steps i s k m m' ∧ AluDone m m' w t (if w.u then acting s k m w.h else m.enabled w.h) (val m) ∧ m'.q = m.q

/-- A word writes register d of each enabled lane and no other register file. -/
def Writes (i : Instr) (h : Hdr) (t : Ty) (d : BitVec 6) (val : State → Nat → Member → Nat → Nat) : Prop :=
  ∀ s k m, Issues s k m → EvenDest t false d →
    ∃ m', Steps i s k m m' ∧ VecSet m m' t d.toNat (on m h) (val s k m) ∧
      m'.s = m.s ∧ m'.c = m.c ∧ m'.q = m.q ∧ m'.x = m.x ∧ m'.lat = m.lat

/-- A word writes predicate q in each enabled lane and no other register file. -/
def Tests (i : Instr) (h : Hdr) (q : BitVec 3) (f : State → Nat → Member → Nat → Bool) : Prop :=
  ∀ s k m, Issues s k m →
    ∃ m', Steps i s k m m' ∧ PredSet m m' q.toNat (m.enabled h) (f s k m) ∧
      m'.v = m.v ∧ m'.pv = m.pv ∧ m'.s = m.s ∧ m'.c = m.c ∧ m'.x = m.x ∧ m'.lat = m.lat

/-- A word that combines its enabled lanes writes predicate q in each of them and no other register file. -/
def Votes (i : Instr) (h : Hdr) (q : BitVec 3) (f : Member → Nat → Bool) : Prop :=
  ∀ s k m, Issues s k m → Unmixed s k m h →
    ∃ m', Steps i s k m m' ∧ PredSet m m' q.toNat (m.enabled h) (f m) ∧
      m'.v = m.v ∧ m'.pv = m.pv ∧ m'.s = m.s ∧ m'.c = m.c ∧ m'.x = m.x ∧ m'.lat = m.lat

/-- A word that combines its enabled lanes writes register d of each of them and no other register file. -/
def Combines (i : Instr) (h : Hdr) (t : Ty) (d : BitVec 6) (val : Member → Nat → Nat) : Prop :=
  ∀ s k m, Issues s k m → Unmixed s k m h → EvenDest t false d →
    ∃ m', Steps i s k m m' ∧ VecSet m m' t d.toNat (on m h) (val m) ∧
      m'.s = m.s ∧ m'.c = m.c ∧ m'.q = m.q ∧ m'.x = m.x ∧ m'.lat = m.lat

/-- A load or a wait that changes its member alone, but for the LEASE copies that an acquire of its ORD drops, the note of a load of another
die's memory among the accesses in flight (log 83), and the flits of its way (log 99). -/
def StepsAcq (i : Instr) (s : State) (k : Nat) (m m' : Member) : Prop :=
  ∃ t : State, exec i s = .next (t.setMember k m') ∧ t = { s with coh := t.coh, links := t.links } ∧
    (m.ord = none → t.coh = { s.coh with flights := t.coh.flights }) ∧ Rest m m'

/-- The state in which a load finds its value and its poison: one under ORD.SC acquires first (R200, log 66). -/
def loadView (s : State) (k : Nat) (m : Member) : State :=
  if m.ord.map OrdPend.order = some .sc then s.acquire (cellOf k) else s

/-- A word that acts once writes register d of each lane for which it acts and no other register file. -/
def WritesOnce (i : Instr) (h : Hdr) (t : Ty) (d : BitVec 6) (val : Member → Word → Nat) : Prop :=
  ∀ s k m, Issues s k m → EvenDest t false d →
    ∃ m', Steps i s k m m' ∧ VecSet m m' t d.toNat (lanesOf (acting s k m h)) (fun _ => val m (acting s k m h)) ∧
      m'.s = m.s ∧ m'.c = m.c ∧ m'.q = m.q ∧ m'.x = m.x ∧ m'.lat = m.lat

/-- The group goes to sleep at its word, and another group becomes current if one can issue (R158). -/
def asleepAs (m : Member) (w : Wait) : Member := (m.modGrp m.cur fun g => { g with wait := some w }).repick

/-- Device, host and peer memory and the tags are as before. -/
def MemSame (s t : State) : Prop := t.mem = s.mem ∧ t.hostMem = s.hostMem ∧ t.peerMem = s.peerMem ∧ t.tags = s.tags

/-- A word answers a next state in which its group goes on at the next word, and whose device memory is as before. -/
def GoesOn (i : Instr) (s : State) (k : Nat) (m : Member) (p : State → Member → Prop) : Prop :=
  ∃ t m', exec i s = .next t ∧ t.member? k = some m' ∧ m'.curGrp.pc = nextPc m.pc ∧ MemSame s t ∧ p t m'

/-- A word answers a next state of which, and of whose member k, a property holds. -/
def GoesOn' (i : Instr) (s : State) (k : Nat) (p : State → Member → Prop) : Prop :=
  ∃ t m', exec i s = .next t ∧ t.member? k = some m' ∧ p t m'

/-- Members stand under their own slots in rising order, and no other member has m's identity. -/
def OwnUid (s : State) (k : Nat) (m : Member) : Prop :=
  FMap.sorted s.members = true ∧ (∀ e ∈ s.members, e.2.uid = m.uid → e.1 = k) ∧ ∀ n ∈ s.evicted, n.uid ≠ m.uid

/-- No solo region holds the token of any die (R229). -/
def NoSolo (s : State) : Prop := ∀ d, (s.die d).soloHolder = none

/-- Slot k is one of the 64 slots of one of the 512 cells. -/
def SlotExists (k : Nat) : Prop := k < 512 * 64

/-! ### Exact integers (R341) -/

/-- The exact integer that an operand of a type is: signed for I types, unsigned for N types. -/
def exact (t : Ty) (x : Nat) : Int := if t.isI then (BitVec.ofNat t.bits x).toInt else ((BitVec.ofNat t.bits x).toNat : Int)

/-- An exact integer reduced modulo 2^n. -/
def wrap (t : Ty) (z : Int) : Nat := (BitVec.ofInt t.bits z).toNat

/-- The ends of a type's range. -/
def top (t : Ty) : Int := if t.isI then 2 ^ (t.bits - 1) - 1 else 2 ^ t.bits - 1
def bottom (t : Ty) : Int := if t.isI then -(2 ^ (t.bits - 1)) else 0

/-- An exact integer replaced by the nearer end of the range when it lies outside. -/
def saturate (t : Ty) (z : Int) : Int := if top t < z then top t else if z < bottom t then bottom t else z

end Sys2Proof.Claims

open Sys2Proof Sys2Proof.Machine Sys2Proof.Claims

/-! ### Pure ALU words -/

/-- R341: ADD, SUB, MUL, MULH, MAD, MIN, MAX, ABS and NEG of exact integers, reduced modulo 2^n, written and latched under R59, R60, R65,
R66. -/
def Sys2Proof.Claims.IntegerWordsWriteExactResultsModulo2N : Prop :=
  ∀ (w : Alu) (a b c : Src), w.t.isInt = true →
    let n := w.t
    let X (m : Member) (l : Nat) : Int := exact n (m.src n a l)
    let Y (m : Member) (l : Nat) : Int := exact n (m.src n b l)
    let Z (m : Member) (l : Nat) : Int := exact n (m.src n c l)
    Computes (.iadd w a b false) w n (fun m l => wrap n (X m l + Y m l)) ∧
    Computes (.isub w a b false) w n (fun m l => wrap n (X m l - Y m l)) ∧
    Computes (.imul w a b) w n (fun m l => wrap n (X m l * Y m l)) ∧
    Computes (.imulh w a b) w n (fun m l => wrap n (X m l * Y m l / 2 ^ n.bits)) ∧
    Computes (.imad w a b c) w n (fun m l => wrap n (X m l * Y m l + Z m l)) ∧
    Computes (.imin w a b) w n (fun m l => wrap n (min (X m l) (Y m l))) ∧
    Computes (.imax w a b) w n (fun m l => wrap n (max (X m l) (Y m l))) ∧
    Computes (.iabs w a false) w n (fun m l => wrap n ((X m l).natAbs : Int)) ∧
    Computes (.ineg w a false) w n (fun m l => wrap n (-(X m l)))

/-- R341: with SAT, a result outside the type's range is replaced by the nearer end of that range. -/
def Sys2Proof.Claims.SaturatingWordsClampToTheNearerEnd : Prop :=
  ∀ (w : Alu) (a b : Src), w.t.isInt = true →
    let n := w.t
    let X (m : Member) (l : Nat) : Int := exact n (m.src n a l)
    let Y (m : Member) (l : Nat) : Int := exact n (m.src n b l)
    Computes (.iadd w a b true) w n (fun m l => wrap n (saturate n (X m l + Y m l))) ∧
    Computes (.isub w a b true) w n (fun m l => wrap n (saturate n (X m l - Y m l))) ∧
    Computes (.iabs w a true) w n (fun m l => wrap n (saturate n ((X m l).natAbs : Int))) ∧
    Computes (.ineg w a true) w n (fun m l => wrap n (saturate n (-(X m l))))

/-- R341: the integer words of exact integers, reduced modulo 2^n or, with SAT, clamped to the type's range. -/
def Obligations.IntegerWordsWriteExactResultsModulo2NOrSaturate : Prop :=
  IntegerWordsWriteExactResultsModulo2N ∧ SaturatingWordsClampToTheNearerEnd

/-- R343, every case of IDIV and IREM: by zero, on overflow, and otherwise the quotient truncated toward zero with the remainder of the
sign of a; the rows of its table on the values it prints. -/
def Obligations.DivisionDefinesEveryCase : Prop :=
  (∀ (w : Alu) (a b : Src), w.t.isInt = true →
    let n := w.t
    let X (m : Member) (l : Nat) : Int := exact n (m.src n a l)
    let Y (m : Member) (l : Nat) : Int := exact n (m.src n b l)
    Computes (.idiv w a b) w n (fun m l =>
      if Y m l = 0 then 2 ^ n.bits - 1
      else if n.isI = true ∧ X m l = bottom n ∧ Y m l = -1 then wrap n (bottom n)
      else wrap n (Int.tdiv (X m l) (Y m l))) ∧
    Computes (.irem w a b) w n (fun m l =>
      if Y m l = 0 then wrap n (X m l)
      else if n.isI = true ∧ X m l = bottom n ∧ Y m l = -1 then 0
      else wrap n (X m l - Y m l * Int.tdiv (X m l) (Y m l)))) ∧
  intRes .i8 false (tyVal .i8 0x70 + tyVal .i8 0x20) = 0x90 ∧ extendTo .i8 32 0x90 = 0xFFFFFF90 ∧
  intRes .i8 true (tyVal .i8 0x70 + tyVal .i8 0x20) = 0x7F ∧ intRes .n32 true (tyVal .n32 5 - tyVal .n32 9) = 0 ∧
  intRes .i32 false (tyVal .i32 0xFFFFFFFE * tyVal .i32 3 / 2 ^ 32) = 0xFFFFFFFF ∧
  intRes .n32 false (tyVal .n32 0xFFFFFFFE * tyVal .n32 3 / 2 ^ 32) = 2 ∧
  intRes .i32 false (idivRes .i32 (tyVal .i32 0xFFFFFFF9) 2) = 0xFFFFFFFD ∧ intRes .i32 false (iremRes (tyVal .i32 0xFFFFFFF9) 2) = 0xFFFFFFFF ∧
  intRes .i32 false (idivRes .i32 (tyVal .i32 0x80000000) (tyVal .i32 0xFFFFFFFF)) = 0x80000000 ∧
  intRes .i32 false (iremRes (tyVal .i32 0x80000000) (tyVal .i32 0xFFFFFFFF)) = 0 ∧
  intRes .n32 false (idivRes .n32 7 0) = 0xFFFFFFFF ∧ intRes .n32 false (iremRes 7 0) = 7 ∧
  intRes .i32 false ((tyVal .i32 0x80000000).natAbs : Int) = 0x80000000 ∧ intRes .i32 true ((tyVal .i32 0x80000000).natAbs : Int) = 0x7FFFFFFF

/-- R307, R308, R318, R364, R393: the bitwise words and the bit counts, bit by bit on operands of n bits. -/
def Sys2Proof.Claims.BitWordsComputeBitByBit : Prop :=
  ∀ (w : Alu) (a b : Src), w.t.isInt = true →
    let n := w.t.bits
    let A (m : Member) (l : Nat) : BitVec n := BitVec.ofNat n (m.src w.t a l)
    let B (m : Member) (l : Nat) : BitVec n := BitVec.ofNat n (m.src w.t b l)
    Computes (.and w a b) w w.t (fun m l => (A m l &&& B m l).toNat) ∧
    Computes (.or w a b) w w.t (fun m l => (A m l ||| B m l).toNat) ∧
    Computes (.xor w a b) w w.t (fun m l => (A m l ^^^ B m l).toNat) ∧
    Computes (.not w a) w w.t (fun m l => (~~~(A m l)).toNat) ∧
    Computes (.popc w a) w w.t (fun m l => ((List.range n).filter fun j => (A m l).getLsbD j).length) ∧
    Computes (.brev w a) w w.t (fun m l => (A m l).reverse.toNat) ∧
    Computes (.clz w a) w w.t (fun m l => ((List.range n).find? fun j => (A m l).getMsbD j).getD n) ∧
    Computes (.ctz w a) w w.t (fun m l => ((List.range n).find? fun j => (A m l).getLsbD j).getD n)

/-- R375, R364: shifts and the rotation by k mod n, at every count. -/
def Sys2Proof.Claims.ShiftsTakeTheirCountModuloTheWidth : Prop :=
  ∀ (w : Alu) (a b : Src), w.t.isInt = true →
    let n := w.t.bits
    let A (m : Member) (l : Nat) : BitVec n := BitVec.ofNat n (m.src w.t a l)
    let K (m : Member) (l : Nat) : Nat := (BitVec.ofNat n (m.src w.t b l)).toNat % n
    Computes (.shl w a b) w w.t (fun m l => (A m l <<< K m l).toNat) ∧
    Computes (.shr w a b) w w.t (fun m l => (A m l >>> K m l).toNat) ∧
    Computes (.sar w a b) w w.t (fun m l => ((A m l).sshiftRight (K m l)).toNat) ∧
    Computes (.rot w a b) w w.t (fun m l => ((A m l).rotateLeft (K m l)).toNat)

/-- R315: BFX and BFI take the field at p = min(ctl[7:0], n) of width min(ctl[15:8], n - p). -/
def Sys2Proof.Claims.BitFieldWordsCutTheFieldAtTheWidth : Prop :=
  ∀ (w : Alu) (a b c : Src), w.t.isInt = true →
    let n := w.t.bits
    let pos (x : Nat) : Nat := min (x % 256) n
    let wid (x : Nat) : Nat := min (x / 256 % 256) (n - pos x)
    Computes (.bfx w a b) w w.t (fun m l =>
      let x := m.src w.t b l
      let f := m.src w.t a l / 2 ^ pos x % 2 ^ wid x
      if wid x = 0 then 0 else if w.t.isI then ((BitVec.ofNat (wid x) f).signExtend n).toNat else f) ∧
    Computes (.bfi w a b c) w w.t (fun m l =>
      let x := m.src w.t c l
      let mask : BitVec n := BitVec.ofNat n ((2 ^ wid x - 1) * 2 ^ pos x)
      ((BitVec.ofNat n (m.src w.t a l) &&& ~~~mask) ||| BitVec.ofNat n (m.src w.t b l % 2 ^ wid x * 2 ^ pos x)).toNat)

/-- R307, R308, R315, R318, R364, R375, R393: the bitwise words, the bit counts, the shifts and the bit-field words. -/
def Obligations.BitwiseWordsComputeTheirBits : Prop :=
  BitWordsComputeBitByBit ∧ ShiftsTakeTheirCountModuloTheWidth ∧ BitFieldWordsCutTheFieldAtTheWidth

/-- R342: IADDC adds a carry from a predicate and leaves the carry out in it; under U both are of the lowest enabled lane; an NW word
writes neither. -/
def Sys2Proof.Claims.IaddcCarriesThroughAPredicate : Prop :=
  ∀ (w : Alu) (a b : Src) (q : BitVec 3) (s : State) (k : Nat) (m : Member), Issues s k m → EvenDest w.t w.u w.d → w.t.isInt = true →
    let n := w.t.bits
    let en := if w.u then acting s k m w.h else m.enabled w.h
    let at' (l : Nat) : Nat := if w.u then lowest en else l
    let sum (l : Nat) : Nat := m.src w.t a (at' l) % 2 ^ n + m.src w.t b (at' l) % 2 ^ n + (if m.qbit q.toNat (at' l) then 1 else 0)
    ∃ m', Steps (.iaddc w a b q) s k m m' ∧ AluDone m m' w w.t en (fun l => sum l % 2 ^ n) ∧
      (w.nw = true → m'.q = m.q) ∧
      (w.nw = false → PredSet m m' q.toNat en fun l => sum l / 2 ^ n == 1)

/-- R360, R361, R376: moves, immediates and the selection by a predicate carry the bits that they name. -/
def Sys2Proof.Claims.MoveWordsCarryBitsUnchanged : Prop :=
  ∀ (w : Alu) (a b : Src) (q : BitVec 3) (imm : BitVec 20) (sh : BitVec 8),
    Computes (.mov w a) w w.t (fun m l => m.src w.t a l) ∧
    Computes (.sel w a b q) w w.t (fun m l => if m.qbit q.toNat l then m.src w.t a l else m.src w.t b l) ∧
    Computes (.movi w imm) w w.t (fun _ _ => (imm.signExtend w.t.bits).toNat) ∧
    (sh.toNat + 20 ≤ w.t.bits →
      Computes (.movh w imm sh) w w.t (fun m l =>
        let old : BitVec w.t.bits := BitVec.ofNat _ (if w.u then (m.sreg w.d.toNat).toNat else m.vval w.t l w.d.toNat)
        ((old &&& ~~~(BitVec.ofNat w.t.bits (0xFFFFF * 2 ^ sh.toNat))) ||| BitVec.ofNat w.t.bits (imm.toNat * 2 ^ sh.toNat)).toNat))

/-- R342, R360, R361, R376: the carry word and the moves. -/
def Obligations.MovesAndCarriesWriteTheirResult : Prop :=
  IaddcCarriesThroughAPredicate ∧ MoveWordsCarryBitsUnchanged

/-- R334, R335, R337: the arithmetic of the float group in each enabled lane, one rounding of the exact result in the format of the type. -/
def Sys2Proof.Claims.FloatWordsRoundOnce : Prop :=
  ∀ (w : Alu) (a b c : Src) (rm : BitVec 2),
    let F := Fp.fmtOf w.t
    let X (m : Member) (l : Nat) := m.fsrc w.t a l
    let Y (m : Member) (l : Nat) := m.fsrc w.t b l
    Computes (.fadd w a b rm) w w.t (fun m l => Fp.add F rm (X m l) (Y m l)) ∧
    Computes (.fsub w a b rm) w w.t (fun m l => Fp.add F rm (X m l) (Y m l).neg) ∧
    Computes (.fmul w a b rm) w w.t (fun m l => Fp.round F rm (Fp.mul (X m l) (Y m l))) ∧
    Computes (.ffma w a b c rm) w w.t (fun m l => Fp.fma F rm (X m l) (Y m l) (m.fsrc w.t c l)) ∧
    Computes (.fdiv w a b rm) w w.t (fun m l => Fp.div F rm (X m l) (Y m l)) ∧
    Computes (.fsqrt w a rm) w w.t (fun m l => Fp.sqrt F rm (X m l)) ∧
    Computes (.frcp w a rm) w w.t (fun m l => Fp.div F rm (Fp.ofInt 1) (X m l)) ∧
    Computes (.frsq w a rm) w w.t (fun m l => Fp.rsqrt F rm (X m l)) ∧
    Computes (.frnd w a rm) w w.t (fun m l => Fp.roundInt F rm (X m l)) ∧
    Computes (.fmin w a b) w w.t (fun m l => Fp.minmax F false (m.src w.t a l) (m.src w.t b l)) ∧
    Computes (.fmax w a b) w w.t (fun m l => Fp.minmax F true (m.src w.t a l) (m.src w.t b l))

/-- R328, R336, R337: the functions of the float group and the dot products; FCLASS and the dot products write 32 bits whatever the type
of their operands. -/
def Sys2Proof.Claims.FloatFunctionWordsWriteTheirResult : Prop :=
  ∀ (w : Alu) (a b c : Src) (rm : BitVec 2),
    Computes (.fexp2 w a) w w.t (fun m l => Fp.exp2 (m.src w.t a l)) ∧
    Computes (.flog2 w a) w w.t (fun m l => Fp.log2 (m.src w.t a l)) ∧
    Computes (.fsin w a) w w.t (fun m l => Fp.sin (m.src w.t a l)) ∧
    Computes (.fcos w a) w w.t (fun m l => Fp.cos (m.src w.t a l)) ∧
    Computes (.ftanh w a) w w.t (fun m l => Fp.tanh (m.src w.t a l)) ∧
    Computes (.fclass w a) w .n32 (fun m l => Fp.fclass (Fp.fmtOf w.t) (m.src w.t a l)) ∧
    Computes (.dot2 w a b c rm) w .n32 (fun m l => dotRes w.t rm (m.src32 a l) (m.src32 b l) (m.fsrc .f32 c l)) ∧
    Computes (.dot4 w a b c rm) w .n32 (fun m l => dotRes w.t rm (m.src32 a l) (m.src32 b l) (m.fsrc .f32 c l))

/-- R328, R334 to R337: the float group and the dot products. -/
def Obligations.FloatWordsWriteTheirResult : Prop :=
  FloatWordsRoundOnce ∧ FloatFunctionWordsWriteTheirResult

/-- R114, R121, R326, R367, R387: the conversions. A word that needs no codebook completes in every state in which it issues; one of type CB4
completes when the slot that its register names is a CB4 slot, whatever lanes are enabled. -/
def Obligations.ConversionWordsWriteTheirResult : Prop :=
  (∀ (w : Alu) (src : Ty) (a : Src) (rm : BitVec 2),
    Computes (.cvt w src a rm) w w.t (fun m l =>
      convert w.t src rm (if src.isF then m.fsrc src a l else .nan) (tyVal src (m.src src a l)))) ∧
  (∀ (w : Alu) (a b : Src) (p : BitVec 3) (sf : Option (BitVec 6)) (s : State) (k : Nat) (m : Member) (cb : List Fp.FVal),
    Issues s k m → s.codebook (issOf k m w.h) sf = .ok cb →
    let en := if w.u then acting s k m w.h else m.enabled w.h
    (∃ m', Steps (.pack w a b p sf) s k m m' ∧
      AluDone m m' w .n32 en (fun l => packRes w.t cb (m.fsrc .f32 a l) (m.src32 b l) p.toNat) ∧ m'.q = m.q) ∧
    (∃ m', Steps (.unpk w a p sf) s k m m' ∧
      AluDone m m' w .n32 en (fun l => unpkRes w.t cb (m.src32 a l) p.toNat) ∧ m'.q = m.q)) ∧
  (∀ (h : Hdr) (t : Ty) (d : BitVec 6) (a b : Src) (sf : Option (BitVec 6)) (rm : BitVec 2) (s : State) (k : Nat) (m : Member)
    (cb : List Fp.FVal), Issues s k m → s.codebook (issOf k m h) sf = .ok cb →
    (∃ m', Steps (.cvtq h t d a b sf rm) s k m m' ∧
      VecSet m m' .n32 d.toNat (on m h) (fun l =>
        if m.src32 b l % 256 = 255 then (if t = .cb4 then 0 else (Fp.fmtOf t).nan)
        else Fp.quantise t cb rm (m.fsrc .f32 a l) (some (Fp.sc8 (m.src32 b l % 256)))) ∧
      m'.s = m.s ∧ m'.c = m.c ∧ m'.q = m.q ∧ m'.x = m.x ∧ m'.lat = m.lat) ∧
    (∃ m', Steps (.cvtd h t d a b sf) s k m m' ∧
      VecSet m m' .n32 d.toNat (on m h) (fun l => cvtdRes t cb (m.src32 a l) (m.src32 b l % 256)) ∧
      m'.s = m.s ∧ m'.c = m.c ∧ m'.q = m.q ∧ m'.x = m.x ∧ m'.lat = m.lat)) ∧
  ∀ (s : State) (i : Iss), s.codebook i none = .ok []

/-! ### Predicates, lanes, index registers, pairs, capabilities -/

/-- R137, R170, R321, R344, R368, R388: the words that write a predicate in the enabled lanes. ICMP compares exact integers, PLOP looks its
bit up, VOTE takes all or any of the enabled lanes, and CAPCHK and JPOLL answer the same for every lane; a JPOLL that finds its job
finished acquires. (That an acquire leaves its cell no LEASE copy is log 66, the model's choice.) -/
def Obligations.TestWordsWriteOnlyTheirPredicate : Prop :=
  ∀ (h : Hdr) (t : Ty) (q qa qb qc : BitVec 3) (a b : Src) (cond : BitVec 3) (lut : BitVec 8) (ca : BitVec 4) (sj : BitVec 6),
    (t.isInt = true → Tests (.icmp h t q a b cond) h q (fun _ _ m l =>
      let x := exact t (m.src t a l)
      let y := exact t (m.src t b l)
      match cond.toNat with
      | 0 => x = y
      | 1 => x ≠ y
      | 2 => x < y
      | 3 => x ≤ y
      | 4 => y < x
      | _ => y ≤ x)) ∧
    Tests (.fcmp h t q a b cond) h q (fun _ _ m l => Fp.fcmp (Fp.fmtOf t) cond (m.src t a l) (m.src t b l)) ∧
    Tests (.plop h q qa qb qc lut) h q (fun _ _ m l =>
      lut.getLsbD ((if m.qbit qa.toNat l then 1 else 0) + (if m.qbit qb.toNat l then 2 else 0) + (if m.qbit qc.toNat l then 4 else 0))) ∧
    Votes (.vote h .all (q.setWidth 6) qa) h q (fun m _ => (on m h).all fun l => m.qbit qa.toNat l) ∧
    Votes (.vote h .any (q.setWidth 6) qa) h q (fun m _ => (on m h).any fun l => m.qbit qa.toNat l) ∧
    Tests (.capchk h q ca b) h q (fun _ _ m _ => capchkRes (m.creg ca.toNat) (m.src64 b)) ∧
    ∀ s k m, Issues s k m →
      let opens : Bool := s.jobOpen (clusterOfCell (cellOf k)) ((m.sreg sj.toNat).toNat % 2 ^ 16)
      ∃ t m', exec (.jpoll h q sj) s = .next (t.setMember k m') ∧ (opens = true ∨ m.enabled h = 0 → t = s) ∧
        (opens = false → m.enabled h ≠ 0 → Acquired s t k) ∧ Rest m m' ∧ PredSet m m' q.toNat (m.enabled h) (fun _ => !opens) ∧
        m'.v = m.v ∧ m'.pv = m.pv ∧ m'.s = m.s ∧ m'.c = m.c ∧ m'.x = m.x ∧ m'.lat = m.lat

/-- R312, R353, R354, R369, R377, R385, R388: words across lanes read every enabled lane before any lane is written; LRED acts once,
for the lanes without an open region where some have one (R219), and BCAST writes every enabled lane. -/
def Sys2Proof.Claims.LaneWordsReadBeforeTheyWrite : Prop :=
  ∀ (h : Hdr) (d a : BitVec 6) (b : Src) (t : Ty) (op : BitVec 3) (exc : Bool) (qa : BitVec 3),
    (∀ (mode : ShflMode) (w : BitVec 3) s k m, Issues s k m → Unmixed s k m h → m.scalar = false →
      ∃ m', Steps (.shfl h mode d a b w) s k m m' ∧
        VecSet m m' .n32 d.toNat (on m h) (fun l => (m.vreg (shflSrc mode w.toNat l (m.src32 b l)) a.toNat).toNat) ∧
        m'.s = m.s ∧ m'.c = m.c ∧ m'.q = m.q ∧ m'.x = m.x ∧ m'.lat = m.lat) ∧
    Combines (.vote h .ballot d qa) h .n32 d (fun m _ => (m.enabled h &&& m.qmask qa.toNat).toNat) ∧
    WritesOnce (.lred h t false d b op) h t d (fun m en => combineIn m t op ((lanesOf en).map fun l => m.src t b l)) ∧
    Combines (.lscan h t d b op exc) h t d (fun m l =>
      combineIn m t op (((on m h).filter fun j => if exc then j < l else j ≤ l).map fun j => m.src t b j)) ∧
    Writes (.lidx h d) h .n32 d (fun _ _ _ l => l) ∧
    Writes (.pmovTov h d) h .n32 d (fun _ _ m l => ((List.range 8).map fun j => if m.qbit j l then 2 ^ j else 0).sum) ∧
    Writes (.trs h d) h .n32 d (fun _ _ m l => (m.rstatOf l).toNat) ∧
    Writes (.bcast h t false d a b) h t d (fun _ _ m _ => m.vval t (if m.scalar then 0 else m.src32 b 0 % 32) a.toNat)

/-- R60, R312, R354: with U, LRED and BCAST write sD once when a lane is enabled, extended to 64 bits, and nothing otherwise. -/
def Sys2Proof.Claims.LaneWordsWithUWriteOneUniformRegister : Prop :=
  ∀ (h : Hdr) (t : Ty) (d a : BitVec 6) (b : Src) (op : BitVec 3) (s : State) (k : Nat) (m : Member), Issues s k m →
    (m.enabled h = 0 → exec (.lred h t true d b op) s = .next (s.setMember k m.advance) ∧
      exec (.bcast h t true d a b) s = .next (s.setMember k m.advance)) ∧
    (m.enabled h ≠ 0 →
      (∃ m', Steps (.lred h t true d b op) s k m m' ∧
        UniSet m m' d.toNat (BitVec.ofNat 64 (extendTo t 64 (combineIn m t op ((lanesOf (acting s k m h)).map fun l => m.src t b l)))) ∧
        m'.v = m.v ∧ m'.c = m.c ∧ m'.q = m.q ∧ m'.x = m.x ∧ m'.lat = m.lat) ∧
      (∃ m', Steps (.bcast h t true d a b) s k m m' ∧
        UniSet m m' d.toNat (BitVec.ofNat 64 (m.vval t (if m.scalar then 0 else m.src32 b 0 % 32) a.toNat)) ∧
        m'.v = m.v ∧ m'.c = m.c ∧ m'.q = m.q ∧ m'.x = m.x ∧ m'.lat = m.lat))

/-- R63, R64, R369: index registers, and registers named through them while every enabled lane's index lies in its bounds; PMOV.FROMV writes
the predicates that its mask names. -/
def Obligations.IndexRegistersNameRegistersWithinTheirBounds : Prop :=
  ∀ (h : Hdr) (d : BitVec 6) (j : BitVec 2) (imm lo hi : BitVec 6) (b : Src) (mask : BitVec 6) (s : State) (k : Nat) (m : Member),
    Issues s k m → NoRegion s k m h →
    let idx (l : Nat) : Int := (m.xreg l j.toNat).val.toInt + imm.toInt
    ((∀ l ∈ on m h, ((m.xreg l j.toNat).lo.toNat : Int) ≤ idx l ∧ idx l ≤ (m.xreg l j.toNat).hi.toNat) →
      (∃ m', Steps (.movxRead h d j imm) s k m m' ∧
        VecSet m m' .n32 d.toNat (on m h) (fun l => (m.vreg l (idx l).toNat).toNat) ∧ m'.x = m.x ∧ m'.s = m.s ∧ m'.q = m.q) ∧
      (∃ m', Steps (.movxWrite h j imm b) s k m m' ∧
        (∀ l n, l < 32 → n < 64 →
          m'.vreg l n = if l ∈ on m h ∧ n = (idx l).toNat then BitVec.ofNat 32 (m.src32 b l) else m.vreg l n) ∧
        m'.x = m.x ∧ m'.s = m.s ∧ m'.q = m.q)) ∧
    (lo.toNat ≤ hi.toNat →
      ∃ m', Steps (.xsetSet h j b lo hi) s k m m' ∧
        (∀ l i, l < 32 → i < 4 →
          m'.xreg l i = if l ∈ on m h ∧ i = j.toNat then ⟨BitVec.ofNat 8 (m.src32 b l), hi, lo⟩ else m.xreg l i) ∧
        m'.v = m.v ∧ m'.s = m.s ∧ m'.q = m.q) ∧
    (∃ m', Steps (.xsetAdd h j b) s k m m' ∧
      (∀ l i, l < 32 → i < 4 →
        m'.xreg l i = if l ∈ on m h ∧ i = j.toNat then { m.xreg l i with val := (m.xreg l i).val + BitVec.ofNat 8 (m.src32 b l) }
          else m.xreg l i) ∧
      m'.v = m.v ∧ m'.s = m.s ∧ m'.q = m.q) ∧
    (∃ m', Steps (.pmovFromv h b mask) s k m m' ∧
      (∀ n l, l < 32 → m'.qbit n l =
        if 1 ≤ n ∧ n ≤ 6 ∧ mask.getLsbD (n - 1) = true ∧ l ∈ on m h then (m.src32 b l).testBit n else m.qbit n l) ∧
      m'.v = m.v ∧ m'.s = m.s ∧ m'.x = m.x)

/-- R101 to R104: both halves of a pair word read before either writes; each writes vD of its own lanes, the NOP half nothing; no latch
and no predicate changes. The banks of R104 keep their destinations apart. -/
def Obligations.PairHalvesReadBeforeEitherWrites : Prop :=
  ∀ (h0 h1 : Half) (s : State) (k : Nat) (m : Member), Issues s k m → (h0.op = .nop ∨ h1.op = .nop ∨ h0.d ≠ h1.d) →
    let en := m.enabled ⟨0, false, 7⟩
    let res (h : Half) (l : Nat) : Word :=
      BitVec.ofNat 32 (halfRes h.op (m.vreg l h.d.toNat).toNat (m.src (if HalfOp.isFloat h.op then .f32 else .n32) h.src l) h.k.toInt)
    let does (h : Half) (l n : Nat) : Prop := h.op ≠ .nop ∧ l ∈ lanesOf (en &&& Half.pg h m) ∧ n = h.d.toNat
    ∃ m', Steps (.pairWord h0 h1) s k m m' ∧
      (∀ l n, l < 32 → n < 64 →
        (does h0 l n → m'.vreg l n = res h0 l) ∧ (does h1 l n → m'.vreg l n = res h1 l) ∧
        (¬does h0 l n → ¬does h1 l n → m'.vreg l n = m.vreg l n)) ∧
      m'.s = m.s ∧ m'.c = m.c ∧ m'.q = m.q ∧ m'.x = m.x ∧ m'.lat = m.lat

/-- R320, R321: capabilities derived from a tagged one: CAPINC moves the cursor, CAPSET sets bounds, CAPPERM clears permissions; an untagged
source traps with CAP_TAG and derives nothing. -/
def Sys2Proof.Claims.CapabilityWordsDeriveFromTaggedOnes : Prop :=
  ∀ (h : Hdr) (cd ca : BitVec 4) (b : Src) (s : State) (k : Nat) (m : Member),
    Issues s k m → NoRegion s k m h → m.enabled h ≠ 0 →
    let c := m.creg ca.toNat
    let puts (i : Instr) (r : Cap) : Prop := exec i s = .next (s.setMember k (m.setC cd.toNat r).advance)
    (c.tag = true →
      puts (.capinc h cd ca b) (c.moveTo (c.cursor + BitVec.ofNat 64 (m.src64 b))) ∧
      puts (.capperm h cd ca b) { c with perm := c.perm &&& BitVec.ofNat 8 (m.src64 b) } ∧
      (∀ r, c.base ≤ c.cursor.toNat → c.cursor.toNat + m.src64 b ≤ c.top → c.withBounds c.cursor.toNat (m.src64 b) = some r →
        puts (.capset h cd ca b) r)) ∧
    (c.tag = false → ∀ i, i ∈ [Instr.capset h cd ca b, .capinc h cd ca b, .capperm h cd ca b] →
      exec i s = .next (s.raise (issOf k m h) { cause := Cause.capTag }))

/-- R139: CAPINC.M walks a structure interleaved in slabs of 2^w bytes over the cells of the device, clears the tag where it leaves them, and
gives the rule's own example. -/
def Obligations.CapincMWalksTheSlabsOfTheDevice : Prop :=
  (∀ (h : Hdr) (cd ca : BitVec 4) (b : Src) (w : BitVec 5) (s : State) (k : Nat) (m : Member),
    Issues s k m → NoRegion s k m h → m.enabled h ≠ 0 → w.toNat ≤ 18 →
    let c := m.creg ca.toNat
    c.tag = true → c.space = 3 → c.cursor.toNat < 2 ^ 27 →
    let W : Int := 2 ^ w.toNat
    let off : Int := (c.cursor.toNat % 2 ^ 18 : Nat)
    let lo := off % W
    let L : Int := (c.cursor.toNat / 2 ^ 18 : Nat)
    let pos := L * W + lo + (BitVec.ofNat 64 (m.src64 b)).toInt
    exec (.capincM h cd ca b w) s = .next (s.setMember k (m.setC cd.toNat
      (if pos < 0 ∨ 512 * W ≤ pos then { c with tag := false }
       else c.moveTo (BitVec.ofInt 64 (pos / W * 2 ^ 18 + (off - lo + pos % W))))).advance)) ∧
  (capincmRes { Cap.null with tag := true, space := 3, cursor := 0x13813F0 } 0x820 10).cursor = 0x1441010

/-- R321: CAPGET reads a field of a capability, tagged or not, into the pair of each enabled lane, or once into sD. -/
def Sys2Proof.Claims.CapgetReadsOneField : Prop :=
  ∀ (h : Hdr) (f : CapField) (d : BitVec 6) (ca : BitVec 4) (s : State) (k : Nat) (m : Member), Issues s k m → m.enabled h ≠ 0 →
    let x := capgetRes (m.creg ca.toNat) f
    (d.toNat % 2 = 0 → ∃ m', Steps (.capget h f false d ca) s k m m' ∧ VecSet m m' .n64 d.toNat (on m h) (fun _ => x) ∧
      m'.s = m.s ∧ m'.c = m.c ∧ m'.q = m.q) ∧
    (∃ m', Steps (.capget h f true d ca) s k m m' ∧ UniSet m m' d.toNat (BitVec.ofNat 64 x) ∧ m'.v = m.v ∧ m'.c = m.c ∧ m'.q = m.q)

/-- R320, R321: the words that derive a capability and the word that reads one. -/
def Obligations.CapabilityWordsDeriveAndReadCapabilities : Prop :=
  CapabilityWordsDeriveFromTaggedOnes ∧ CapgetReadsOneField

/-! ### Control flow -/

/-- R97, R156, R157, R319, R345, R363, R374, R395: branches, calls and returns of a group whose lanes agree, and the split of one whose lanes
do not: with two free split entries and no serial stack the lanes that stay and the lanes that go are groups of their own. -/
def Obligations.BranchesMoveOrSplitTheGroup : Prop :=
  ∀ (h : Hdr) (t : BitVec 20) (j : BitVec 16) (sd sa : BitVec 6) (s : State) (k : Nat) (m : Member), Issues s k m →
    let target : Addr := m.pc + 8 * t.signExtend 57
    (m.enabled h = m.curGrp.mask → exec (.bra h t j) s = .next (s.setMember k (m.goto target))) ∧
    (m.enabled h = 0 → exec (.bra h t j) s = .next (s.setMember k m.advance) ∧ exec (.call h sd t) s = .next (s.setMember k m.advance) ∧
      exec (.ret h sa) s = .next (s.setMember k m.advance)) ∧
    (m.enabled h ≠ 0 → m.enabled h ≠ m.curGrp.mask → m.serial = [] → 2 ≤ (s.freeSplits (cellOf k)).length →
      ∃ m' g1 g2, exec (.bra h t j) s = .next (s.setMember k m') ∧ g1 ≠ g2 ∧
        (m'.grp g1).mask = m.curGrp.mask &&& ~~~(m.enabled h) ∧ (m'.grp g1).pc = nextPc m.pc ∧
        (m'.grp g2).mask = m.enabled h ∧ (m'.grp g2).pc = target ∧ m'.v = m.v ∧ m'.s = m.s ∧ m'.q = m.q ∧ m'.c = m.c) ∧
    (m.enabled h ≠ 0 →
      exec (.call h sd t) s = .next (s.setMember k ((m.setS sd.toNat ((nextPc m.pc).setWidth 64)).goto target))) ∧
    (m.enabled h ≠ 0 → NoRegion s k m h → (m.sreg sa.toNat).toNat % 8 = 0 →
      exec (.ret h sa) s = .next (s.setMember k (m.goto ((m.sreg sa.toNat).setWidth 57)))) ∧
    (m.enabled h ≠ 0 → NoRegion s k m h → (m.sreg sa.toNat).toNat % 8 ≠ 0 →
      exec (.ret h sa) s = .next (s.raise (issOf k m h) { cause := Cause.pcAlign }))

/-- R164: BRX of a group whose one enabled lane is the whole group goes to the word of its table that the index names, when the index lies
within the table, the access passes its checks, and the word is aligned; the table lies in a DIR page. -/
def Obligations.BrxGoesToTheTableEntry : Prop :=
  ∀ (h : Hdr) (n : BitVec 6) (ca : BitVec 4) (b : Src) (off join : BitVec 8) (s : State) (k l pa : Nat) (m : Member) (lf : Leaf),
    Issues s k m → NoRegion s k m h → on m h = [l] → m.enabled h = m.curGrp.mask →
    let c := m.creg ca.toNat
    let ix : Int := sextN (modN (m.idxVal b l) 32) 32
    let a : Nat := modN (c.cursor.toNat + 8 * ix + sextN off.toNat 8) 64
    0 ≤ ix → ix ≤ n.toNat →
    s.capCheck m.ctx (cellOf k) c [spGlobal] permX 8 8 [(l, a)] = .ok () →
    s.lateCheck m.ctx (cellOf k) spGlobal 8 true false true [(l, a)] = .ok () →
    s.reach m.ctx (cellOf k) spGlobal a 8 true false = .ok (.dev pa (some lf)) → lf.coh = 0 → lf.pa = pa → (BitVec.ofNat 57 (s.num pa 8)).toNat % 8 = 0 →
    GoesOn' (.brx h n ca b off join) s k fun t m' =>
      m'.curGrp.pc = BitVec.ofNat 57 (s.num pa 8) ∧ MemSame s t ∧ m'.v = m.v ∧ m'.s = m.s ∧ m'.q = m.q ∧ m'.c = m.c

/-- R159, R161, R363, R395: words that leave every register as it is. JOIN passes in a scalar thread and where the innermost join is not
its address; NOP always; YLD takes a new stamp for its group, whose place a group that has waited longer takes where one can issue, and its cell
notes that it yielded, so that another slot of its engine or core goes first (see AStepRunsTheDecodedInstruction); in serial mode and in a scalar
thread it keeps its group. That the member after its own in slot order is served next (State.turn) is log 3, the model's choice. -/
def Sys2Proof.Claims.PassingWordsChangeNoRegister : Prop :=
  ∀ (h : Hdr) (ec : BitVec 2) (s : State) (k : Nat) (m : Member), Issues s k m →
    exec (.nop h) s = .next (s.setMember k m.advance) ∧
    (m.q0 ≠ 0 → m.scalar = true ∨ m.innermost m.cur ≠ some m.pc → exec (.join ec) s = .next (s.setMember k m.advance)) ∧
    (NoRegion s k m h →
      (m.enabled h = 0 → exec (.yld h) s = .next (s.setMember k m.advance)) ∧
      (m.enabled h ≠ 0 → ∃ (t : State) (m' : Member), exec (.yld h) s = .next t ∧
        t = ({ s.setMember k m' with turn := k + 1 }).modCell (cellOf k) (fun c => { c with yielded := slotOf k :: c.yielded }) ∧
        (m'.grp m.cur).pc = nextPc m.pc ∧ m'.v = m.v ∧ m'.s = m.s ∧ m'.q = m.q ∧ m'.c = m.c ∧ m'.x = m.x ∧
        (m.scalar = false → m.serial = [] → (m'.grp m.cur).stamp = m.nextStamp ∧ m'.lat = [] ∧ m'.inRow = 0 ∧ m'.canIssue m'.cur = true) ∧
        (m.scalar = true ∨ m.serial ≠ [] → m'.cur = m.cur)))

/-- R159: the last of two groups of the root to reach their join merges with the other into the root, which goes on from there with the lanes
of both, and both entries are free. -/
def Sys2Proof.Claims.JoinMergesTheGroupsIntoTheRoot : Prop :=
  ∀ (ec : BitVec 2) (s : State) (k e f : Nat) (m : Member) (x y : Group), Issues s k m → m.scalar = false → m.serial = [] → m.q0 ≠ 0 →
    m.trapLanes = 0 → m.root.st = .parent → m.cur = some e → FMap.find? m.subs e = some x → x.join = some x.pc → FMap.sorted m.subs = true →
    m.subs = [(e, x), (f, y)] ∨ m.subs = [(f, y), (e, x)] → x.parent = none → y.parent = none → y.join = x.join → y.st = .parked → y.wait = none →
    y.pc = x.pc →
    ∃ m', exec (.join ec) s = .next (s.setMember k m') ∧ m'.subs = [] ∧ m'.cur = none ∧
      m'.root = { m.root with st := .run, mask := y.mask ||| x.mask, pc := x.pc, wait := none } ∧ m'.lat = [] ∧
      m'.v = m.v ∧ m'.s = m.s ∧ m'.q = m.q ∧ m'.c = m.c ∧ m'.x = m.x

/-- R159: a group at its innermost join, while another group of the same parent and join still runs elsewhere, parks there and frees its entry or
waits in it: it issues no further word, and no lane is lost. -/
def Sys2Proof.Claims.JoinParksTheGroupAtItsJoin : Prop :=
  ∀ (ec : BitVec 2) (s : State) (k e f : Nat) (m : Member) (x y : Group), Issues s k m → m.scalar = false → m.serial = [] → m.q0 ≠ 0 →
    m.trapLanes = 0 → m.root.st = .parent → m.cur = some e → FMap.find? m.subs e = some x → x.join = some x.pc → FMap.sorted m.subs = true →
    m.subs = [(e, x), (f, y)] ∨ m.subs = [(f, y), (e, x)] → y.parent = x.parent → y.join = x.join → y.st = .run → y.wait = none → y.mask ≠ 0 →
    ∃ m', exec (.join ec) s = .next (s.setMember k m') ∧ m'.grp (some e) = { x with st := .parked, stamp := m.nextStamp } ∧ m'.cur = some f ∧
      m'.grp (some f) = y ∧ m'.v = m.v ∧ m'.s = m.s ∧ m'.q = m.q

/-- R159, R161, R363, R395: NOP, YLD and JOIN, passing, parking or merging, change no register. -/
def Obligations.JoinAndPassingWordsKeepEveryRegister : Prop :=
  PassingWordsChangeNoRegister ∧ JoinParksTheGroupAtItsJoin ∧ JoinMergesTheGroupsIntoTheRoot

/-- R38, R161, R207: EXIT lowers the team's live count by the lanes that leave and clears their q0; no other lane of the wave loses it, and memory
stays. Behind an arrival of these lanes that waits for their held writes, the count falls later (log 69, the model's reading). -/
def Sys2Proof.Claims.ExitLowersTheLiveCount : Prop :=
  ∀ (h : Hdr) (s : State) (k : Nat) (m : Member) (tm : Team), Issues s k m → NoRegion s k m h → m.enabled h ≠ 0 →
    s.team? m.ctx m.team = some tm → (laneCount (m.enabled h) < tm.live ∨ s.hasChildren m.ctx m.team = false) →
    let late : Bool := s.late.any fun e => e.uid == m.uid && e.lanes &&& m.enabled h != 0
    ∃ t, exec (.exit h) s = .next t ∧ MemSame s t ∧
      (late = false → ((t.team? m.ctx m.team).map Team.live) = some (tm.live - laneCount (m.enabled h))) ∧
      (late = true → ((t.team? m.ctx m.team).map Team.live) = some tm.live ∧
        t.late = s.late ++ [⟨m.uid, m.enabled h, m.ctx, m.team, .leave (laneCount (m.enabled h))⟩]) ∧
      (∀ m', t.member? k = some m' → m'.q0 = m.q0 &&& ~~~(m.enabled h) ∧ m'.v = m.v ∧ m'.s = m.s) ∧
      (∀ j, j ≠ k → t.member? j = s.member? j)

/-- R38: the last thread of a team with live children parks at its EXIT instead of leaving. -/
def Sys2Proof.Claims.ExitWaitsForChildLaunches : Prop :=
  ∀ (h : Hdr) (s : State) (k l : Nat) (m : Member) (tm : Team), Issues s k m → NoRegion s k m h → on m h = [l] →
    s.team? m.ctx m.team = some tm → tm.live ≤ 1 → s.hasChildren m.ctx m.team = true →
    exec (.exit h) s = .next (s.setMember k (asleepAs m (.exitPark (laneMask l))))

/-- R255: EXIT.TEAM ends the team: its live count falls to 0, its barriers, mailbox and baton are gone, and no evicted member of it is left;
the memories beyond the host link stay. -/
def Sys2Proof.Claims.ExitTeamEndsTheTeam : Prop :=
  ∀ (h : Hdr) (s : State) (k : Nat) (m : Member) (tm : Team), Issues s k m → NoRegion s k m h → m.enabled h ≠ 0 →
    s.team? m.ctx m.team = some tm → tm.trap.v = false →
    ∃ t tm', exec (.exitTeam h) s = .next t ∧ t.team? m.ctx m.team = some tm' ∧ tm'.live = 0 ∧ tm'.bars = [] ∧ tm'.mail = [] ∧
      tm'.baton = none ∧ (∀ n ∈ t.evicted, ¬(n.ctx = m.ctx ∧ n.team = m.team)) ∧ t.hostMem = s.hostMem ∧ t.peerMem = s.peerMem

/-- R38, R161, R255: EXIT lowers the live count, or waits for child launches, and EXIT.TEAM ends the team. -/
def Obligations.ExitWordsLowerTheLiveCountOrWait : Prop :=
  ExitLowersTheLiveCount ∧ ExitWaitsForChildLaunches ∧ ExitTeamEndsTheTeam

/-! ### Memory -/

/-- R136, R349, R350, R351: LD and LD.CAP of a thread on its own scratchpad, or another one's window, write what the bytes hold, extended by
type, while no write of a thread waits at its home; no byte of memory and no other register changes. -/
def Obligations.ScratchpadLoadsWriteWhatMemoryHolds : Prop :=
  ∀ (h : Hdr) (t : Ty) (d : BitVec 6) (o : MemOp) (cd : BitVec 4) (s : State) (k : Nat) (m : Member),
    Issues s k m → NoRegion s k m h → m.enabled h ≠ 0 → OwnUid s k m → SlotExists k → s.heldW = [] →
    let c := m.creg o.cap.toNat
    (c.space = 2 ∨ c.space = 3) →
    let base : Nat := if c.space = 2 then spadBase + cellOf k * 2 ^ 18 else spadBase
    let lanes : List (Nat × Nat) := (on m h).map fun l => (l, m.addr o l)
    let first : List (Nat × Nat) := lanes.take 1
    let at' : Nat := base + m.addr o (lowest (m.enabled h))
    (EvenDest t false d → s.capCheck m.ctx (cellOf k) c threadSpaces permR t.bytes t.bytes lanes = .ok () →
      s.lateCheck m.ctx (cellOf k) c.space.toNat t.bytes true false true lanes = .ok () →
      ∃ m', StepsAcq (.ld h t false d o) s k m m' ∧ VecSet m m' t d.toNat (on m h) (fun l => s.num (base + m.addr o l) t.bytes) ∧
        m'.s = m.s ∧ m'.c = m.c ∧ m'.q = m.q ∧ m'.x = m.x ∧ m'.lat = m.lat) ∧
    (s.capCheck m.ctx (cellOf k) c threadSpaces permR t.bytes t.bytes first = .ok () →
      s.lateCheck m.ctx (cellOf k) c.space.toNat t.bytes true false true first = .ok () →
      StepsAcq (.ld h t true d o) s k m (m.setS d.toNat (BitVec.ofNat 64 (extendTo t 64 (s.num at' t.bytes)))).advance) ∧
    (s.capCheck m.ctx (cellOf k) c threadSpaces (permR ||| permLC) 16 16 first = .ok () →
      s.lateCheck m.ctx (cellOf k) c.space.toNat 16 true false true first = .ok () →
      ∃ r, StepsAcq (.ldCap h false cd o) s k m (m.setC cd.toNat r).advance ∧
        r.toNat128 = s.num at' 16 ∧ (r.tag = true → s.tagAt at' = true))

/-- R136, R237, R240, R243: LD and LD.CAP of global memory complete when their checks pass and no write waits at its home: the group goes on,
no byte of memory changes, and no register but the destination does. In a DIR or UNC page an LD of one lane writes what memory holds, and an
LD.CAP the capability with the tag of its slot. -/
def Sys2Proof.Claims.GlobalLoadsChangeNoMemory : Prop :=
  ∀ (h : Hdr) (t : Ty) (u : Bool) (d : BitVec 6) (o : MemOp) (cd : BitVec 4) (s : State) (k : Nat) (m : Member),
    Issues s k m → NoRegion s k m h → m.enabled h ≠ 0 → (m.creg o.cap.toNat).space = 1 → s.heldW = [] →
    let c := m.creg o.cap.toNat
    let lanes : List (Nat × Nat) := (on m h).map fun l => (l, m.addr o l)
    let a := m.addr o (lowest (m.enabled h))
    let acts : List (Nat × Nat) := if u then lanes.take 1 else lanes
    (s.capCheck m.ctx (cellOf k) c threadSpaces permR t.bytes t.bytes acts = .ok () →
      (loadView s k m).lateCheck m.ctx (cellOf k) 1 t.bytes true false true acts = .ok () →
      GoesOn (.ld h t u d o) s k m fun _ m' => m'.c = m.c ∧ m'.q = m.q ∧ m'.x = m.x ∧ (u = true → m'.v = m.v) ∧ (u = false → m'.s = m.s) ∧
        ∀ pa lf, s.reach m.ctx (cellOf k) 1 a t.bytes true false = .ok (.dev pa (some lf)) → lf.coh ≠ 1 →
          (u = true → UniSet m m' d.toNat (BitVec.ofNat 64 (extendTo t 64 (s.num lf.pa t.bytes)))) ∧
          (∀ l, u = false → on m h = [l] → EvenDest t false d → VecSet m m' t d.toNat [l] (fun _ => s.num lf.pa t.bytes))) ∧
    (s.capCheck m.ctx (cellOf k) c threadSpaces (permR ||| permLC) 16 16 (lanes.take 1) = .ok () →
      (loadView s k m).lateCheck m.ctx (cellOf k) 1 16 true false true (lanes.take 1) = .ok () →
      GoesOn (.ldCap h u cd o) s k m fun _ m' => m'.v = m.v ∧ m'.s = m.s ∧ m'.q = m.q ∧ m'.x = m.x ∧
        (∀ n, n ≠ cd.toNat → m'.creg n = m.creg n) ∧
        ∀ pa lf, s.reach m.ctx (cellOf k) 1 a 16 true false = .ok (.dev pa (some lf)) → lf.coh ≠ 1 →
          (m'.creg cd.toNat).toNat128 = s.num lf.pa 16 ∧ ((m'.creg cd.toNat).tag = true → s.tagAt lf.pa = true))

/-- R352: an LDF without enabled lanes goes on; with lanes that pass its checks it writes its destination in them alone and changes no
memory; with one lane whose element and scale lie in DIR or UNC pages it writes the element of the page's format that it finds, times its scale,
rounded to its type. -/
def Sys2Proof.Claims.LdfWritesItsDestinationAlone : Prop :=
  ∀ (h : Hdr) (t : Ty) (d : BitVec 6) (o : MemOp) (s : State) (k : Nat) (m : Member),
    Issues s k m → NoRegion s k m h → s.heldW = [] →
    (m.enabled h = 0 → exec (.ldf h t d o) s = .next (s.setMember k m.advance)) ∧
    (∀ l x pa lf ft, on m h = [l] → EvenDest t false d →
      (loadView s k m).ldfLane (issOf k m h) (m.creg o.cap.toNat) (m.addr o l) true = .ok x →
      s.reach m.ctx (cellOf k) 1 (m.addr o l) x.n true false = .ok (.dev pa (some lf)) → lf.coh ≠ 1 →
      (∀ va, x.scaleVa = some va → ∃ qa lg, s.reach m.ctx (cellOf k) 1 va 1 true false = .ok (.dev qa (some lg)) ∧ lg.coh ≠ 1) →
      Ty.ofNat? (s.fmtEntry m.ctx x.slot).efmt = some ft →
      let byte := s.num lf.pa x.n
      let code := if ft = .cb4 then (if o.hint = 1 then byte / 16 % 16 else byte % 16) else byte
      let e := Fp.element ft (s.fmtEntry m.ctx x.slot).cb code
      let scale : Option Nat := x.scaleVa.map fun va => match s.reach m.ctx (cellOf k) 1 va 1 true false with
        | .ok (.dev _ (some lg)) => s.num lg.pa 1
        | _ => 0
      let v := match scale with
        | some c => if c = 255 then .nan else Fp.mul e (Fp.sc8 c)
        | none => e
      GoesOn (.ldf h t d o) s k m fun _ m' => VecSet m m' t d.toNat [l] (fun _ => Fp.round (Fp.fmtOf t) Fp.rne v)) ∧ (
    (loadView s k m).ldfCheck (issOf k m h) (m.creg o.cap.toNat) ((on m h).map fun l => (l, m.addr o l)) = .ok () →
    GoesOn (.ldf h t d o) s k m fun _ m' =>
      (∀ l n, l < 32 → n < 64 → ¬(l ∈ on m h ∧ (n = d.toNat ∨ n = d.toNat + 1)) → m'.vreg l n = m.vreg l n) ∧
      m'.s = m.s ∧ m'.c = m.c ∧ m'.q = m.q ∧ m'.x = m.x)

/-- R136, R237, R240, R243, R352: loads of global memory, and LDF, leave device memory as it is. -/
def Obligations.FloatAndGlobalLoadsChangeNoMemory : Prop :=
  GlobalLoadsChangeNoMemory ∧ LdfWritesItsDestinationAlone

/-- R142, R381: a store of n bytes within a line at a device address writes them there and changes no other byte of device memory, wherever a
mapped line leads it, once the home performs it. -/
def Obligations.StoreWritesExactlyItsBytes : Prop :=
  ∀ (s : State) (cell ctx va n pa x hint : Nat) (lf : Option Leaf) (acq tg : Bool), pa % 128 + n ≤ 128 →
    let t := (s.access cell ctx va n (.dev pa lf) hint acq (.store x tg)).1
    (∀ a, (∀ i, i < n → s.redirect (pa + i) ≠ a) → FMap.get 0 t.mem a = FMap.get 0 s.mem a) ∧
    (∀ i, i < n → isRegw (s.redirect (pa + i)) = false →
      FMap.get 0 t.mem (s.redirect (pa + i)) = BitVec.ofNat 8 (x / 256 ^ i)) ∧
    t.hostMem = s.hostMem ∧ t.peerMem = s.peerMem

/-- R229, R371, R381, R382: ST, ST.CAP and RED submit their lanes in increasing order once the checks at issue pass, each at the place that
the steps after the cursor checks give it; a lane that fails such a step queues its imprecise fault and writes nothing (R147). A write that is
submitted is performed, unless a solo region, a block lent in a register window (R68, log 33) or an earlier write of its thread holds it at its
home, or it goes to another die, whose memory it reaches later (R248, log 83); a held ST.CAP belongs to every enabled lane (R191). -/
def Obligations.StoresPerformTheirLanesInOrder : Prop :=
  ∀ (h : Hdr) (t : Ty) (o : MemOp) (x : Src) (cs : BitVec 4) (op : AtomOp) (w : BitVec 2) (s : State) (k : Nat) (m : Member),
    Issues s k m → NoRegion s k m h → m.enabled h ≠ 0 →
    let c := m.creg o.cap.toNat
    let i := issOf k m h
    (c.space = 1 ∨ c.space = 2 ∨ c.space = 3) →
    let lanes : List (Nat × Nat) := (on m h).map fun l => (l, m.addr o l)
    let lane (own : Nat → Word) (n : Nat) (rd : Bool) (hint : Nat) (act : Nat → AccOp) (s : State) (p : Nat × Nat) : State :=
      match s.reach m.ctx (cellOf k) c.space.toNat p.2 n rd true with
      | .error e => s.queueFault i e p.1 p.2
      | .ok (.dev pa page) => (s.submit i p.1 (own p.1) p.2 n pa page hint (act p.1) .none).1
      | .ok _ => s
    let ends (u : State) : State := (u.next i).repick k
    (s.capCheck m.ctx (cellOf k) c threadSpaces permW t.bytes t.bytes lanes = .ok () →
      exec (.st h t o x) s =
        .next (ends (lanes.foldl (lane laneMask t.bytes false o.hint.toNat fun l => .store (storeData m t x l) false) s))) ∧
    (s.capCheck m.ctx (cellOf k) c [spGlobal, spSpad, spSpadw] (permW ||| permSC) 16 16 (lanes.take 1) = .ok () →
      ((m.creg cs.toNat).tag = true → c.space = 1 → (m.creg cs.toNat).has permGL = true) →
      exec (.stCap h o cs) s =
        .next (ends ((lanes.take 1).foldl (lane (fun _ => m.enabled h) 16 false o.hint.toNat fun _ => .store (m.creg cs.toNat).toNat128 (m.creg cs.toNat).tag) s))) ∧
    (s.capCheck m.ctx (cellOf k) c threadSpaces permRWAT (atomBytes op w) (atomBytes op w) lanes = .ok () →
      exec (.red h op w o x) s = .next (ends (lanes.foldl (lane laneMask (atomBytes op w) true 0 fun l => .atom op w (m.src (atomTy op w) x l)) s))) ∧
    ∀ (l n pa hint : Nat) (ls : Word) (page : Option Leaf) (act : AccOp) (s : State),
      let way := s.wayTo (cellOf k) pa
      (way = [] → s.soloHolds pa n = none → s.windowLent pa = false → (∀ e ∈ s.heldW, e.uid ≠ m.uid) →
        (s.submit i l ls (m.addr o l) n pa page hint act .none).1 = (s.access (cellOf k) m.ctx (m.addr o l) n (.dev pa page) hint false act).1) ∧
      (way ≠ [] ∨ s.soloHolds pa n ≠ none ∨ s.windowLent pa = true →
        let sent := if way = [] then s else s.countTrip (dieOfCell (cellOf k)) (dieOfPa pa)
        ∃ e, (s.submit i l ls (m.addr o l) n pa page hint act .none).1 = { sent with heldW := s.heldW ++ [e] } ∧ e.uid = m.uid ∧ e.lane = l ∧
          e.lanes = ls ∧ e.pa = pa ∧ e.n = n ∧ e.op = act ∧ e.way.map (fun w => (w.1, w.2.2.cause)) = if way = [] then none else some (way, Cause.linkLost))

/-- R209, R210: ATOM, CAS and RED of one lane in a scratchpad: the destination of ATOM and CAS takes the old value, memory takes f(old, b), or
the new value where the expected one stood, and no other byte of memory changes. -/
def Obligations.AtomicsReturnTheOldValue : Prop :=
  ∀ (h : Hdr) (op : AtomOp) (w : BitVec 2) (t : Ty) (d : BitVec 6) (o : MemOp) (b : Src) (s : State) (k l : Nat) (m : Member),
    Issues s k m → NoRegion s k m h → on m h = [l] → NoSolo s → s.heldW = [] → SlotExists k → (m.creg o.cap.toNat).space = 2 →
    let c := m.creg o.cap.toNat
    let pa := spadBase + cellOf k * 2 ^ 18 + m.addr o l
    let ready (n : Nat) : Prop :=
      s.capCheck m.ctx (cellOf k) c threadSpaces permRWAT n n [(l, m.addr o l)] = .ok () ∧
      s.lateCheck m.ctx (cellOf k) 2 n true true true [(l, m.addr o l)] = .ok ()
    let memHas (t' : State) (n x : Nat) : Prop :=
      (∀ a, a < pa ∨ pa + n ≤ a → FMap.get 0 t'.mem a = FMap.get 0 s.mem a) ∧
      ∀ j, j < n → FMap.get 0 t'.mem (pa + j) = BitVec.ofNat 8 (x / 256 ^ j)
    let goes (i : Instr) (n : Nat) (ty : Ty) (new : Nat → Nat) : Prop :=
      ready n → EvenDest ty false d →
      ∃ t' m', exec i s = .next t' ∧ t'.member? k = some m' ∧ VecSet m m' ty d.toNat [l] (fun _ => s.num pa n) ∧
        m'.curGrp.pc = nextPc m.pc ∧ m'.s = m.s ∧ m'.c = m.c ∧ m'.q = m.q ∧ memHas t' n (new (s.num pa n))
    goes (.atom h op w d o b) (atomBytes op w) (atomTy op w) (fun old => atomF op w old (m.src (atomTy op w) b l)) ∧
    (t = .n32 ∨ t = .n64 → goes (.cas h t d o b) t.bytes t (fun old => if old = m.vval t l d.toNat then m.src t b l else old)) ∧
    (ready (atomBytes op w) → ∃ t' m', exec (.red h op w o b) s = .next t' ∧ t'.member? k = some m' ∧
      m'.v = m.v ∧ m'.s = m.s ∧ m'.c = m.c ∧ m'.q = m.q ∧ m'.curGrp.pc = nextPc m.pc ∧
      memHas t' (atomBytes op w) (atomF op w (s.num pa (atomBytes op w)) (m.src (atomTy op w) b l)))

/-- R195, R197, R338, R366: ORD keeps its order for the target and goes on when its set is not empty and the target accepts the order; FENCE
goes on when its set is not empty, marks the held writes of its lanes with what now comes after them, and acquires unless it is a REL; an empty
set is ORD_FORM whatever the guard, and so is a target that decodes and does not take the order, while one that breaks the chain rules raises its
own cause in its turn (R66, R108). (That an acquire drops every LEASE copy of its cell is the model's choice, log 66, and so is that ORD_FORM
aborts a region lane, log 95.) -/
def Sys2Proof.Claims.OrdersNeedASetAndATarget : Prop :=
  ∀ (h : Hdr) (ec : BitVec 2) (o : Order) (set : BitVec 8) (s : State) (k : Nat) (m : Member), Issues s k m →
    let en := m.enabled h &&& ~~~(s.regionLanes (cellOf k) m.uid)
    (set ≠ 0 → en = 0 → exec (.fence h o set) s = .next (s.setMember k m.advance)) ∧
    (set ≠ 0 → en ≠ 0 →
      ∃ t : State, exec (.fence h o set) s = .next (t.setMember k m.advance) ∧ t = { s with heldW := t.heldW, coh := t.coh } ∧
        t.heldW = (s.heldW.map fun (e : HeldWrite) =>
          if e.uid = m.uid ∧ e.job = none ∧ en &&& e.lanes ≠ 0 then e.fenced o en else e) ∧
        (o = .rel → t.coh = s.coh) ∧ (o ≠ .rel → ∀ n, n < 2 ^ 46 → (t.l1 (cellOf k) n).lease = none)) ∧
    (exec (.fence h o 0) s = .next (s.raiseAny (issOf k m h) { cause := Cause.ordForm })) ∧
    (∀ i, s.instrAt (cellOf k) m.ctx (nextPc m.pc) = .ok i →
      (set ≠ 0 → ordAccepts o i = true →
        exec (.ord ec o set) s = .next (s.setMember k (Member.advance { m with ord := some ⟨o, set, m.pc⟩ }))) ∧
      (chainCause 0 i = none → set = 0 ∨ ordAccepts o i = false →
        exec (.ord ec o set) s = .next (s.raiseAny (issOf k m ⟨ec, false, 7⟩) { cause := Cause.ordForm })) ∧
      (chainCause 0 i ≠ none → exec (.ord ec o set) s = .next (s.setMember k (Member.advance { m with ord := some ⟨o, set, m.pc⟩ }))))

/-- R322, R370: PREF and CFLUSH complete when their checks pass; neither changes a byte of memory or a register. -/
def Sys2Proof.Claims.CacheWordsChangeNoMemoryAndNoRegister : Prop :=
  ∀ (h : Hdr) (o : MemOp) (s : State) (k : Nat) (m : Member), Issues s k m → NoRegion s k m h →
    let c := m.creg o.cap.toNat
    let lanes : List (Nat × Nat) := (on m h).map fun l => (l, m.addr o l)
    (capRange c threadSpaces permR 1 (fun _ => true) lanes = .ok () →
      GoesOn (.pref h o) s k m fun t m' => m' = m.advance ∧ t.teams = s.teams) ∧
    (s.capCheck m.ctx (cellOf k) c threadSpaces permW 1 1 lanes = .ok () →
      s.lateCheck m.ctx (cellOf k) c.space.toNat 1 false true false lanes = .ok () →
      GoesOn (.cflush h o) s k m fun t m' => m' = m.advance ∧ t.teams = s.teams)

/-- R195, R322, R338, R366, R370: ORD, FENCE, PREF and CFLUSH. -/
def Obligations.OrdersAndCacheWordsKeepEveryByte : Prop :=
  OrdersNeedASetAndATarget ∧ CacheWordsChangeNoMemoryAndNoRegister

/-! ### Continuations, queues and launches -/

namespace Sys2Proof.Claims

/-- The records on their way to a place. -/
def inboundAt (s : State) : PoolTarget → List Rec
  | .carousel c => (s.cluster c).inbound
  | .ready c => (s.cell c).inbound
  | .handler d => (s.die d).hin.map HandlerRec.rcd

/-- The record that a lane sends (R19, R23, R32): the context's next SEQ, the team's depth, and v0 to v11 of the lane. -/
def recOf (s : State) (m : Member) (l entry kind : Nat) (ldr : Bool) : Rec :=
  { entry := BitVec.ofNat 48 (entry / 8), depth := BitVec.ofNat 4 (((s.team? m.ctx m.team).map Team.depth).getD 0), kind := BitVec.ofNat 4 kind,
    rsv := 0, spill := false, ldr := ldr, team := BitVec.ofNat 24 m.team, ctx := BitVec.ofNat 6 m.ctx, seq := (s.ctx m.ctx).seq,
    a := (List.range 12).map fun n => m.vreg l n, owner := m.ctx, setq := none }

/-- The lane l of member k, the only one enabled, has left its wave with a record on its way (R33): its q0 falls, SEQ rises, the team's live
count and memory stay. -/
def Left (i : Instr) (s : State) (k l : Nat) (m : Member) (dst : PoolTarget) (r : Rec) : Prop :=
  ∃ t, exec i s = .next t ∧ MemSame s t ∧ inboundAt t dst = inboundAt s dst ++ [r] ∧ (t.ctx m.ctx).seq = (s.ctx m.ctx).seq + 1 ∧
    (t.team? m.ctx m.team).map Team.live = (s.team? m.ctx m.team).map Team.live ∧
    (∀ m', t.member? k = some m' → m'.q0 = m.q0 &&& ~~~(laneMask l) ∧ m'.v = m.v) ∧ ∀ j, j ≠ k → t.member? j = s.member? j

/-- No steal request waits at a slot. -/
def NoThief (s : State) (k : Nat) : Prop := FMap.get [] (s.cell (cellOf k)).steal (slotOf k) = []

end Sys2Proof.Claims

/-- R32, R54, R379: SPAWN of one lane, without a thief and with room, delivers a record of kind 1 to where its target's mark sends it, raises
the live count by one, and leaves every register. -/
def Sys2Proof.Claims.SpawnDeliversARecordAndRaisesTheLiveCount : Prop :=
  ∀ (h : Hdr) (tgt : BitVec 20) (s : State) (k l kind : Nat) (m : Member), Issues s k m → NoRegion s k m h → on m h = [l] → NoThief s k →
    let target := (m.pc + 8 * tgt.signExtend 57).toNat
    let dst := State.homeOf (issOf k m h) (kind != 1)
    markCheck s m.ctx target [1, 2, 3] = .ok kind → s.hasRoom dst (recOf s m l target 1 false) = true →
    ∃ t, exec (.spawn h tgt) s = .next t ∧ MemSame s t ∧ t.member? k = some m.advance ∧ inboundAt t dst = inboundAt s dst ++ [recOf s m l target 1 false] ∧
      (t.ctx m.ctx).seq = (s.ctx m.ctx).seq + 1 ∧
      (t.team? m.ctx m.team).map Team.live = ((s.team? m.ctx m.team).map Team.live).map (· + 1)

/-- R26, R32, R33, R340, R357, R384: GATHER, MIGR and SUSP of one lane with room send its record, of kinds 3, 2 and 6, to its cluster's
Carousel, its cell's ready queue, and its own re-entry place, and the lane leaves. -/
def Sys2Proof.Claims.SuspendingWordsSendTheLaneAway : Prop :=
  ∀ (h : Hdr) (tgt : BitVec 20) (s : State) (k l kind : Nat) (m : Member), Issues s k m → NoRegion s k m h → on m h = [l] → NoThief s k →
    let target := (m.pc + 8 * tgt.signExtend 57).toNat
    let c : PoolTarget := .carousel (clusterOfCell (cellOf k))
    let q : PoolTarget := .ready (cellOf k)
    let own := State.homeOf (issOf k m h) m.scalar
    let goes (i : Instr) (entry knd : Nat) (dst : PoolTarget) : Prop :=
      s.hasRoom dst (recOf s m l entry knd (m.ldr.getLsbD l)) = true → Left i s k l m dst (recOf s m l entry knd (m.ldr.getLsbD l))
    (markCheck s m.ctx target [1, 3] = .ok kind → goes (.gather h tgt) target 3 c) ∧
    (markCheck s m.ctx target [2, 3] = .ok kind → goes (.migr h tgt) target 2 q) ∧
    goes (.susp h) (nextPc m.pc).toNat 6 own

/-- R54, R383: STEAL of one lane suspends it; with no victim its record goes home with predicate 0, and otherwise it waits in the victim's
mailbox. -/
def Sys2Proof.Claims.StealWaitsInTheVictimsMailbox : Prop :=
  ∀ (h : Hdr) (q : BitVec 3) (b : Src) (s : State) (k l : Nat) (m : Member), Issues s k m → NoRegion s k m h → on m h = [l] → NoThief s k →
    let i := issOf k m h
    let dst := State.homeOf i m.scalar
    let r := recOf s m l (nextPc m.pc).toNat 6 (m.ldr.getLsbD l)
    s.hasRoom dst r = true →
    (stealVictim s i (m.src64 b) = none → Left (.steal h q b) s k l m dst { r with setq := some (q, false) }) ∧
    (∀ v, stealVictim s i (m.src64 b) = some v → ∃ t, exec (.steal h q b) s = .next t ∧
      FMap.get [] (t.cell (cellOf v)).steal (slotOf v) = FMap.get [] (s.cell (cellOf v)).steal (slotOf v) ++ [⟨r, q, dst⟩] ∧
      (∀ m', t.member? k = some m' → m'.q0 = m.q0 &&& ~~~(laneMask l) ∧ m'.v = m.v) ∧ MemSame s t)

/-- R26, R32, R33, R54, R340, R357, R379, R383, R384: SPAWN, GATHER, MIGR, SUSP and STEAL deliver their records. -/
def Obligations.RecordWordsSendTheirRecords : Prop :=
  SpawnDeliversARecordAndRaisesTheLiveCount ∧ SuspendingWordsSendTheLaneAway ∧ StealWaitsInTheVictimsMailbox

/-- R55, R330: an ENQ whose lanes all find a place writes each lane's v0 to v11 and 16 bytes of zeros to the slots from the old TAIL on, in lane
order, then raises TAIL at the node's home by their number, and goes on with every lane and register as it was. Its context knows the node from
then on (log 43, the model's reading: a node that an ENQ has named stays known to its context). -/
def Sys2Proof.Claims.EnqAppendsItsLanes : Prop :=
  ∀ (h : Hdr) (o : MemOp) (s : State) (k d : Nat) (n : Node) (m : Member), Issues s k m → NoRegion s k m h → m.enabled h ≠ 0 →
    let i := issOf k m h
    enqCheck i o s = .ok (d, n) → laneCount (m.enabled h) ≤ n.free →
    let tail := (n.tail + laneCount (m.enabled h)) % 2 ^ 32
    let put := (on m h).zipIdx.foldl (fun s p => s.putElement i (n.slot (n.tail + p.2)) p.1) s
    let taken := put.homeUpdate i 1 d 64 28 tail (m.enabled h)
    (∃ t, exec (.enq h o) s = .next t ∧ t.mem = taken.mem ∧ t.heldW = taken.heldW ∧ (t.ctx m.ctx).gwaits = (s.ctx m.ctx).gwaits ∧
      d ∈ (t.ctx m.ctx).nodes ∧ (∀ x, x ∈ (t.ctx m.ctx).nodes ↔ x = d ∨ x ∈ (s.ctx m.ctx).nodes) ∧
      (∃ m', t.member? k = some m' ∧ m'.q0 = m.q0 ∧ m'.s = m.s ∧ m'.c = m.c ∧ m'.q = m.q ∧ m'.curGrp.pc = nextPc m.pc) ∧
      t.hostMem = s.hostMem ∧ t.peerMem = s.peerMem) ∧
    (∀ (u : State) (pa : Nat) (page : Option Leaf), u.reach m.ctx (cellOf k) 1 d 64 true true = .ok (.dev pa page) → isHbm (pa + 63) = true →
      u.mapped = [] → NoSolo u → u.heldW = [] →
      let v := u.homeUpdate i 1 d 64 28 tail (m.enabled h)
      v.num (pa + 28) 4 = tail ∧ ∀ a, a < pa + 28 ∨ pa + 32 ≤ a → FMap.get 0 v.mem a = FMap.get 0 u.mem a) ∧
    ∀ (u : State) (va l x pa : Nat) (page : Option Leaf), dieOfPa pa = dieOfCell (cellOf k) → u.reach m.ctx (cellOf k) 1 va 16 false true = .ok (.dev pa page) →
      isHbm (pa + 15) = true → u.mapped = [] → NoSolo u → u.heldW = [] → x < 2 ^ 128 →
      (u.gwrite i l va 16 x).num pa 16 = x ∧ ∀ a, a < pa ∨ pa + 16 ≤ a → FMap.get 0 (u.gwrite i l va 16 x).mem a = FMap.get 0 u.mem a

/-- R55, R330: a lane that finds the ring full suspends at its ENQ with its record among those that wait for the node, and its q0 falls. -/
def Sys2Proof.Claims.EnqOfAFullRingSuspends : Prop :=
  ∀ (h : Hdr) (o : MemOp) (s : State) (k l d : Nat) (n : Node) (m : Member), Issues s k m → NoRegion s k m h → on m h = [l] → NoThief s k →
    enqCheck (issOf k m h) o s = .ok (d, n) → n.free = 0 →
    ∃ t, exec (.enq h o) s = .next t ∧
      (t.ctx m.ctx).gwaits = (s.ctx m.ctx).gwaits ++
        [(d, State.homeOf (issOf k m h) m.scalar, recOf s m l m.pc.toNat 6 (m.ldr.getLsbD l))] ∧
      (t.ctx m.ctx).seq = (s.ctx m.ctx).seq + 1 ∧ d ∈ (t.ctx m.ctx).nodes ∧ t.hostMem = s.hostMem ∧ t.peerMem = s.peerMem ∧
      ∀ m', t.member? k = some m' → m'.q0 = m.q0 &&& ~~~(laneMask l) ∧ m'.s = m.s

/-- R55, R330: ENQ appends, or suspends on a full ring. -/
def Obligations.EnqGoesOnWhileTheRingHasPlaces : Prop := EnqAppendsItsLanes ∧ EnqOfAFullRingSuspends

/-- R162, R163: REFILL.Q fills as many idle lanes as the queue has elements, and no more than its operand allows, and raises HEAD at the queue's
home by their number; each filled lane takes its 12 words from its element, from the one at HEAD on, as a read after the reads of the lanes before it
finds them, with zeros above; D tells how many in every enabled lane, and the live count rises by them. -/
def Sys2Proof.Claims.RefillQFillsIdleLanes : Prop :=
  ∀ (h : Hdr) (d : BitVec 6) (o : MemOp) (b : Src) (s : State) (k a : Nat) (q : QueueHdr) (m : Member), Issues s k m → NoRegion s k m h →
    m.enabled h ≠ 0 → m.scalar = false →
    let idle := idleLanes m (m.src64 b)
    let take (q : QueueHdr) : Nat := min idle.length ((q.tail + 2 ^ 32 - q.head) % 2 ^ 32)
    refillCheck (issOf k m h) o take s = .ok (a, q) →
    let i := issOf k m h
    let sp := (m.creg o.cap.toNat).space.toNat
    let head := (q.head + take q) % 2 ^ 32
    let taken := s.homeUpdate i sp a 24 0 head 0
    let elem (u : State) (j : Nat) : List Byte := (u.sread i sp (a + 64 + 64 * ((q.head + j) % 2 ^ q.log2)) 3).2
    (∃ t m', exec (.refillQ h d o b) s = .next t ∧ t.mem = taken.mem ∧ t.hostMem = s.hostMem ∧ t.peerMem = s.peerMem ∧
      t.member? k = some m' ∧ m'.curGrp.pc = nextPc m.pc ∧
      (∀ l, l ∈ on m h ++ idle.take (take q) → m'.vreg l d.toNat = BitVec.ofNat 32 (take q)) ∧
      (∀ j l, (idle.take (take q))[j]? = some l → ∃ u : State,
        u = { taken with members := u.members, coh := u.coh, links := u.links, lineQ := u.lineQ } ∧ (j = 0 → u = taken.acquire (cellOf k)) ∧
        ∀ n, n < 64 → n ≠ d.toNat → m'.vreg l n = if n < 12 then BitVec.ofNat 32 (ofBytes (((elem u j).drop (4 * n)).take 4)) else 0) ∧
      (taken.member? k = some m → ∀ l n, l < 32 → n < 64 → l ∉ idle.take (take q) → ¬(l ∈ on m h ∧ n = d.toNat) →
        m'.vreg l n = m.vreg l n) ∧
      m'.q0 = m.q0 ||| maskOf (idle.take (take q)) ∧ m'.s = m.s ∧ m'.c = m.c ∧
      (t.team? m.ctx m.team).map Team.live = ((s.team? m.ctx m.team).map Team.live).map (· + take q)) ∧
    ∀ pa page, s.reach m.ctx (cellOf k) sp a 24 true true = .ok (.dev pa page) → isHbm (pa + 23) = true → s.mapped = [] → NoSolo s → s.heldW = [] →
      taken.num pa 4 = head ∧ ∀ x, x < pa ∨ pa + 4 ≤ x → FMap.get 0 taken.mem x = FMap.get 0 s.mem x

/-- R162, R373: REFILL.BKT takes the records of a bucket of its own team and of the word after it (the first of several with that key: log 94, the
model's choice) into idle lanes, each with its record's arguments; D tells how many in every enabled and every filled lane, and the live count stays. -/
def Sys2Proof.Claims.RefillBktFillsIdleLanes : Prop :=
  ∀ (h : Hdr) (d : BitVec 6) (b : Src) (s : State) (k kind : Nat) (m : Member), Issues s k m → NoRegion s k m h → m.enabled h ≠ 0 →
    m.scalar = false → markCheck s m.ctx (nextPc m.pc).toNat [1, 3] = .ok kind →
    let idle := idleLanes m (m.src64 b)
    let recs := ((((s.cluster (clusterOfCell (cellOf k))).buckets.find? fun x =>
      x.ctx == m.ctx && x.team == m.team && x.entry == entryOf (nextPc m.pc).toNat).map Bucket.recs).getD [])
    let n := min idle.length recs.length
    (∀ r ∈ recs, recFaulty s r = false ∧ r.setq = none) →
    ∃ t m', exec (.refillBkt h d b) s = .next t ∧ MemSame s t ∧ t.member? k = some m' ∧ m'.curGrp.pc = nextPc m.pc ∧
      (∀ l, l ∈ on m h ++ idle.take n → m'.vreg l d.toNat = BitVec.ofNat 32 n) ∧ m'.q0 = m.q0 ||| maskOf (idle.take n) ∧
      (∀ (j l : Nat) (r : Rec), (idle.take n)[j]? = some l → recs[j]? = some r → ∀ x, x < 64 → x ≠ d.toNat → m'.vreg l x = r.a.getD x 0) ∧
      (∀ l x, l < 32 → x < 64 → l ∉ idle.take n → ¬(l ∈ on m h ∧ x = d.toNat) → m'.vreg l x = m.vreg l x) ∧ m'.s = m.s ∧ m'.c = m.c ∧
      (t.team? m.ctx m.team).map Team.live = (s.team? m.ctx m.team).map Team.live

/-- R162, R163, R373: REFILL.Q and REFILL.BKT fill idle lanes. -/
def Obligations.RefillWordsFillIdleLanes : Prop :=
  RefillQFillsIdleLanes ∧ RefillBktFillsIdleLanes

/-- R35, R348, R392: LAUNCH of one lane writes its packet at the queue's tail and posts it as a child of the team; WAITCH goes on without live
children, and acquires, and sleeps otherwise. That an acquire leaves its cell no LEASE copy is log 66, the model's choice. -/
def Obligations.LaunchPostsAChildAndWaitchWaitsForIt : Prop :=
  ∀ (h : Hdr) (o : MemOp) (sq : BitVec 6) (s : State) (k l : Nat) (m : Member), Issues s k m → NoRegion s k m h → m.enabled h ≠ 0 →
    let i := issOf k m h
    let qn := (m.sreg sq.toNat).toNat % 256
    let read := s.sread i (m.creg o.cap.toNat).space.toNat (m.addr o l) 8
    let host := ((s.queue qn).packetAt (s.queue qn).tail.toNat).1
    let at' := ((s.queue qn).packetAt (s.queue qn).tail.toNat).2
    (on m h = [l] → launchCheck i o sq s = .ok () → packetCheck read.1 m.ctx read.2 = .ok () →
      ∃ t, exec (.launch h o sq) s = .next t ∧
        t.posted = s.posted ++ [⟨m.ctx, qn, (s.queue qn).tail, m.team, ((s.team? m.ctx m.team).map Team.depth).getD 0 + 1⟩] ∧
        t.queue qn = { s.queue qn with tail := (s.queue qn).tail + 1 } ∧ t.peerMem = s.peerMem ∧
        (host = true → t.extBytes false at' 128 = read.2 ∧ t.mem = s.mem ∧
          ∀ a, ¬(at' ≤ a ∧ a < at' + 128) → t.extByte false a = s.extByte false a) ∧
        (host = false → NoSolo s → s.heldW = [] → s.mapped = [] → s.linesWait at' 128 none = false → isHbm (at' + 127) = true →
          t.bytes at' 128 = read.2 ∧
          t.hostMem = s.hostMem ∧ ∀ a, ¬(at' ≤ a ∧ a < at' + 128) → FMap.get 0 t.mem a = FMap.get 0 s.mem a) ∧
        ∃ m', t.member? k = some m' ∧ m'.q0 = m.q0 ∧ m'.s = m.s ∧ m'.c = m.c ∧ m'.curGrp.pc = nextPc m.pc) ∧
    (s.hasChildren m.ctx m.team = false → ∃ t, exec (.waitch h) s = .next (t.setMember k m.advance) ∧ Acquired s t k) ∧
    (s.hasChildren m.ctx m.team = true → exec (.waitch h) s = .next (s.setMember k (asleepAs m .child)))

/-! ### Barriers, waits and messages -/

/-- R207, R261, R310: arrivals count towards the phase, which advances when they reach the live count; BAR.ARV writes the token of the phase it arrived
in, BAR.SYNC goes on, and acquires, when its own arrival ends the phase and sleeps otherwise. An arrival comes after the held writes of its lanes:
behind one it waits (log 69, the model's reading). That an acquire leaves its cell no LEASE copy is log 66, the model's choice. -/
def Sys2Proof.Claims.BarriersAdvanceWhenTheLiveCountArrives : Prop :=
  (∀ (t : Team) (b n : Nat), 0 < n → (t.arriveBar b n).bar b =
    if t.live ≤ (t.bar b).arr + n then ⟨(t.bar b).ph + 1, 0⟩ else { t.bar b with arr := (t.bar b).arr + n }) ∧
  ∀ (h : Hdr) (d : BitVec 6) (b : BitVec 3) (s : State) (k : Nat) (m : Member) (tm : Team), Issues s k m → NoRegion s k m h →
    m.enabled h ≠ 0 → s.team? m.ctx m.team = some tm →
    let n := laneCount (m.enabled h)
    let late : Bool := s.lateFor m.uid (m.enabled h)
    let s1 : State := if late then { s with late := s.late ++ [⟨m.uid, m.enabled h, m.ctx, m.team, .arrive b.toNat n⟩] }
      else s.modTeam m.ctx m.team fun t => t.arriveBar b.toNat n
    (∃ m', exec (.barArv h d b) s = .next (s1.setMember k m') ∧ Rest m m' ∧
      VecSet m m' .n32 d.toNat (on m h) (fun _ => b.toNat * 2 ^ 16 + (tm.bar b.toNat).ph.toNat) ∧ m'.q = m.q ∧ m'.s = m.s) ∧
    (late = false → tm.live ≤ (tm.bar b.toNat).arr + n → ∃ t, exec (.barSync h b) s = .next (t.setMember k m.advance) ∧ Acquired s1 t k) ∧
    (late = true ∨ (tm.bar b.toNat).arr + n < tm.live → exec (.barSync h b) s = .next (s1.setMember k
      (asleepAs m (.bar none (m.enabled h) 0 [(b.toNat, (tm.bar b.toNat).ph.toNat)]))))

/-- R207, R261, R310: BAR.WAIT goes on, and acquires, when no enabled lane's token is of the present phase of its barrier, and tells each lane whether its token was
stale; it sleeps while some are of the present phase; a token of a future phase or a malformed one is BAR_TOKEN. That an acquire leaves its cell no LEASE
copy is log 66, the model's choice. -/
def Sys2Proof.Claims.BarWaitGoesOnPastItsPhase : Prop :=
  ∀ (h : Hdr) (q : BitVec 3) (b : Src) (s : State) (k : Nat) (m : Member), Issues s k m → NoRegion s k m h →
    let age (l : Nat) : Option Nat := tokenAge s (issOf k m h) (m.src32 b l)
    ((∀ l ∈ on m h, ∃ n, age l = some (n + 1)) →
      ∃ t m', exec (.barWait h q b) s = .next (t.setMember k m') ∧ Acquired s t k ∧ Rest m m' ∧
        PredSet m m' q.toNat (m.enabled h) (fun l => 2 ≤ (age l).getD 0) ∧ m'.v = m.v ∧ m'.s = m.s ∧ m'.c = m.c ∧ m'.x = m.x) ∧
    ((∀ l ∈ on m h, age l ≠ none) → (∃ l ∈ on m h, age l = some 0) →
      ∃ stale toks, exec (.barWait h q b) s = .next (s.setMember k (asleepAs m (.bar (some q) (m.enabled h) stale toks)))) ∧
    (∀ l, (on m h).find? (fun l => age l = none) = some l →
      exec (.barWait h q b) s = .next (s.raise (issOf k m h) { cause := Cause.barToken, lane := some l }))

/-- R261, R310: the barrier words. -/
def Obligations.BarriersCountArrivalsAndPhases : Prop :=
  BarriersAdvanceWhenTheLiveCountArrives ∧ BarWaitGoesOnPastItsPhase

/-- R170, R203, R204, R346: a wait goes on at once when its condition holds, and acquires, and sleeps at its own word otherwise; FFR never
waits, and acquires when it names a tag. A tag's index is written to the enabled lanes, 64 for an empty mask. That an acquire leaves its cell no LEASE
copy is log 66, the model's choice. -/
def Sys2Proof.Claims.WaitsSleepUntilTheirConditionHolds : Prop :=
  ∀ (h : Hdr) (cls : BitVec 3) (n : BitVec 8) (d : BitVec 6) (b : Src) (sj : BitVec 6) (s : State) (k : Nat) (m : Member),
    Issues s k m → NoRegion s k m h → m.enabled h ≠ 0 →
    let mask := m.src64 b
    let done := s.doneSet (cellOf k) m.ctx mask
    let id := (m.sreg sj.toNat).toNat % 2 ^ 16
    let goes (i : Instr) : Prop := ∃ t, exec i s = .next (t.setMember k m.advance) ∧ Acquired s t k
    let sleeps (i : Instr) (w : Wait) : Prop := exec i s = .next (s.setMember k (asleepAs m w))
    let writes (i : Instr) (acq : Prop) : Prop := ∃ t m', exec i s = .next (t.setMember k m') ∧ (acq → Acquired s t k) ∧ (¬acq → t = s) ∧
      Rest m m' ∧ VecSet m m' .n32 d.toNat (on m h) (fun _ => lowestTag done) ∧ m'.s = m.s ∧ m'.c = m.c ∧ m'.q = m.q ∧ m'.x = m.x ∧
      m'.lat = m.lat
    (m.count cls.toNat ≤ n.toNat → goes (.waitc h cls n)) ∧
    (n.toNat < m.count cls.toNat → sleeps (.waitc h cls n) (.cnt cls.toNat n.toNat)) ∧
    (done = mask → goes (.waitall h b)) ∧ (done ≠ mask → sleeps (.waitall h b) (.allTags (BitVec.ofNat 64 mask))) ∧
    (done ≠ 0 ∨ mask = 0 → writes (.waitany h d b) True) ∧
    (done = 0 → mask ≠ 0 → sleeps (.waitany h d b) (.anyTag d.toNat (BitVec.ofNat 64 mask) (m.enabled h))) ∧
    writes (.ffr h d b) (done ≠ 0) ∧
    (s.jobOpen (clusterOfCell (cellOf k)) id = false → goes (.jwait h sj)) ∧
    (s.jobOpen (clusterOfCell (cellOf k)) id = true → sleeps (.jwait h sj) (.job id))

/-- R389: WAITADR of one lane in its scratchpad writes what it read and goes on when the value meets the condition, equal or different by HINT,
and sleeps otherwise. -/
def Sys2Proof.Claims.WaitadrComparesWhatItReads : Prop :=
  ∀ (h : Hdr) (t : Ty) (d : BitVec 6) (o : MemOp) (b : Src) (s : State) (k l : Nat) (m : Member), Issues s k m → NoRegion s k m h →
    on m h = [l] → SlotExists k → (m.creg o.cap.toNat).space = 2 → EvenDest t false d →
    let lanes : List (Nat × Nat) := [(l, m.addr o l)]
    let x := s.num (spadBase + cellOf k * 2 ^ 18 + m.addr o l) t.bytes
    let val := m.src t b l
    let meets : Prop := if o.hint = 1 then x = val else x ≠ val
    s.capCheck m.ctx (cellOf k) (m.creg o.cap.toNat) threadSpaces permR t.bytes t.bytes lanes = .ok () →
    s.lateCheck m.ctx (cellOf k) 2 t.bytes true false true lanes = .ok () →
    (meets → ∃ m', StepsAcq (.waitadr h t d o b) s k m m' ∧ VecSet m m' t d.toNat [l] (fun _ => x) ∧
      m'.s = m.s ∧ m'.c = m.c ∧ m'.q = m.q ∧ m'.x = m.x) ∧
    (¬meets → ∃ t' w, exec (.waitadr h t d o b) s = .next (t'.setMember k (asleepAs m w)) ∧ t' = { s with coh := t'.coh } ∧
      (m.ord = none → t' = s))

/-- R170, R203, R204, R346, R389: the waiting words. -/
def Obligations.WaitsSleepUntilTheirConditionIsMet : Prop :=
  WaitsSleepUntilTheirConditionHolds ∧ WaitadrComparesWhatItReads

/-- R286, R288, R306, R378: AMSG of one lane and SIG send a message per lane whose accesses pass, counted in MSG: a record of kind 5 to the die's
handler queue, a decrement to the counter that the word names. -/
def Obligations.MessagesAreCountedUntilTheyArrive : Prop :=
  ∀ (h : Hdr) (die : BitVec 2) (o : MemOp) (sh sd : BitVec 6) (b : Src) (s : State) (k l e index dn n : Nat) (m : Member),
    Issues s k m → NoRegion s k m h → m.enabled h ≠ 0 →
    let i := issOf k m h
    (on m h = [l] → amsgCheck i die o sh s = .ok e → (amsgLane i die.toNat e o s l).isSome = true →
      ∃ t m' hr, exec (.amsg h die o sh) s = .next t ∧ t.member? k = some m' ∧ m'.count 4 = m.count 4 + 1 ∧ m'.v = m.v ∧ m'.s = m.s ∧
        m'.q = m.q ∧ m'.curGrp.pc = nextPc m.pc ∧ (t.die die.toNat).hin = (s.die die.toNat).hin ++ [hr] ∧ hr.rcd.kind = 5 ∧
        hr.rcd.entry = BitVec.ofNat 48 (e / 8) ∧ hr.rcd.owner = m.ctx ∧ hr.uid = m.uid ∧ MemSame s t) ∧
    (sigWord (m.sreg sd.toNat).toNat = some (index, dn, n) → s.trusted dn = true → s.reaches (dieOfCell (cellOf k)) dn = true →
      s.capCheck m.ctx (cellOf k) (m.creg o.cap.toNat) threadSpaces permW 4 4 ((on m h).map fun l => (l, m.addr o l)) = .ok () →
      (∀ l ∈ on m h, ∃ t, s.reach m.ctx (cellOf k) (m.creg o.cap.toNat).space.toNat (m.addr o l) 4 false true = .ok t) →
      ∃ t m', exec (.sig h sd o b) s = .next t ∧ t.member? k = some m' ∧ m'.count 4 = m.count 4 + laneCount (m.enabled h) ∧
        m'.s = m.s ∧ m'.q = m.q ∧ m'.curGrp.pc = nextPc m.pc ∧
        (t.die dn).sigs.map (fun g : SigMsg => (g.index, g.d, g.ctx, g.uid)) =
          (s.die dn).sigs.map (fun g : SigMsg => (g.index, g.d, g.ctx, g.uid)) ++ List.replicate (laneCount (m.enabled h)) (index, n, m.ctx, m.uid))

/-- R355, R356: MBXS appends the words of the first enabled lanes while the channel holds fewer than 32 and tells each lane in its predicate; MBXR
hands its words out in lane order with 1 beside them, and acquires, and 0 to the lanes that get none. Words of lanes with held writes keep their
places among the 32 and stand in the channel once those are performed (log 69, the model's reading). That an acquire leaves its cell no LEASE copy
is log 66, the model's choice. -/
def Obligations.MailboxesKeepTheOrderOfTheirWords : Prop :=
  ∀ (h : Hdr) (q : BitVec 3) (b : Src) (ch : BitVec 3) (d : BitVec 6) (s : State) (k : Nat) (m : Member) (tm : Team),
    Issues s k m → NoRegion s k m h → s.team? m.ctx m.team = some tm →
    let box : List Word := FMap.get [] tm.mail ch.toNat
    let fit := (on m h).take (32 - (box.length + s.boxLate m.ctx m.team ch.toNat))
    let words := fit.map fun l => BitVec.ofNat 32 (m.src32 b l)
    let puts (x : List Word) : State := s.modTeam m.ctx m.team fun t => { t with mail := FMap.put [] t.mail ch.toNat x }
    let sent : State := if s.lateFor m.uid (m.enabled h) then { s with late := s.late ++ [⟨m.uid, m.enabled h, m.ctx, m.team, .post ch.toNat words⟩] }
      else puts (box ++ words)
    (∃ m', exec (.mbxs h q b ch) s = .next (sent.setMember k m') ∧ Rest m m' ∧
      PredSet m m' q.toNat (m.enabled h) (fun l => fit.contains l) ∧ m'.v = m.v ∧ m'.s = m.s ∧ m'.c = m.c) ∧
    (d.toNat % 2 = 0 →
      ∃ (t : State) (m' : Member), exec (.mbxr h d ch) s = .next (t.setMember k m') ∧ t = { puts (box.drop (on m h).length) with coh := t.coh } ∧
        (on m h = [] ∨ box = [] → t.coh = s.coh) ∧ (on m h ≠ [] → box ≠ [] → ∀ n, n < 2 ^ 46 → (t.l1 (cellOf k) n).lease = none) ∧ Rest m m' ∧
        (∀ (n l : Nat), (on m h)[n]? = some l → ∀ x : Word, box[n]? = some x → m'.vreg l d.toNat = x ∧ m'.vreg l (d.toNat + 1) = 1) ∧
        (∀ (n l : Nat), (on m h)[n]? = some l → box.length ≤ n → m'.vreg l d.toNat = m.vreg l d.toNat ∧ m'.vreg l (d.toNat + 1) = 0) ∧
        (∀ l n, l < 32 → n < 64 → ¬(l ∈ on m h ∧ (n = d.toNat ∨ n = d.toNat + 1)) → m'.vreg l n = m.vreg l n) ∧
        m'.s = m.s ∧ m'.q = m.q ∧ m'.c = m.c)

/-! ### Engines -/

namespace Sys2Proof.Claims

/-- An engine command whose checks answer a job is accepted (R167, R168, R396): the job stands last in its cluster with the next ID, JLAST and
the counter of its class tell of it, and the group goes on with its registers as they were. -/
def Accepts (i : Instr) (h : Hdr) (cls : Nat) (chk : Iss → State → Chk JobOp) (wave : Bool) : Prop :=
  ∀ s k m op, Issues s k m → NoRegion s k m h → m.enabled h ≠ 0 → (wave = true → m.scalar = false) → chk (issOf k m h) s = .ok op →
    let c := clusterOfCell (cellOf k)
    let id := (s.cluster c).nextJob
    ∃ t m', exec i s = .next t ∧ t.member? k = some m' ∧
      (t.cluster c).jobs = (s.cluster c).jobs ++ [(issOf k m h).job (s.cluster c).nextKey id.toNat cls op (some (s.cluster c).accepted)] ∧
      (t.cluster c).nextJob = id + 1 ∧ m'.jlast = id ∧ m'.count cls = m.count cls + 1 ∧
      m'.v = m.v ∧ m'.s = m.s ∧ m'.c = m.c ∧ m'.q = m.q ∧ m'.curGrp.pc = nextPc m.pc ∧ t.hostMem = s.hostMem ∧ t.peerMem = s.peerMem

end Sys2Proof.Claims

/-- R166 to R168, R172, R176 to R182, R187 to R189, R396: every engine command that passes its checks is accepted as one job of its class. -/
def Sys2Proof.Claims.EngineWordsAcceptOneJob : Prop :=
  ∀ (h : Hdr) (t : Ty) (tile n : BitVec 6) (hi r : Bool) (sf : Option (BitVec 6)) (o : MemOp) (sn : BitVec 6) (cs : BitVec 4),
    Accepts (.mma h t tile hi sf r) h clsMatrix (mmaCheck t tile hi sf) true ∧
    Accepts (.mmas h t tile o sn) h clsMatrix (mmasCheck t tile o sn) false ∧
    Accepts (.drain h t tile o sn) h clsMatrix (drainCheck t tile o sn) false ∧
    Accepts (.cpy h o cs sn) h clsCopy (cpyCheck o cs sn) false ∧
    Accepts (.bgath h o cs sn) h clsBase (bgathCheck o cs sn) false ∧
    Accepts (.bred h t o cs sn) h clsBase (bredCheck t o cs sn) false ∧
    Accepts (.bcvt h o cs sn) h clsBase (bcvtCheck o cs sn) false ∧
    Accepts (.accz h tile n) h clsMatrix (fun i s =>
      if 64 < tile.toNat + (n.toNat + 1) then .error { cause := Cause.accRange }
      else if ∃ j, j < n.toNat + 1 ∧ ∃ x, FMap.find? (s.cluster (clusterOfCell i.cell)).acc (tile.toNat + j) = some x ∧ x ≠ i.ctx then
        .error { cause := Cause.accOwner }
      else .ok (.accz tile.toNat (n.toNat + 1))) false

/-- R182: CPYM that passes its checks makes two jobs under one ID, the copy accepted and its follow-on MMAS not yet, and raises both
counters; R175: OMAP keeps the map that its operands name and nothing else; R177: MMA with R keeps its block and type in the A latch, and lends
the block unless A came from there. -/
def Sys2Proof.Claims.CpymOmapAndTheALatch : Prop :=
  ∀ (h : Hdr) (o : MemOp) (cs : BitVec 4) (sn : BitVec 6) (t : Ty) (tile : BitVec 6) (hi r : Bool) (sf : Option (BitVec 6)) (s : State)
    (k : Nat) (m : Member) (op : JobOp) (f : MmasOp) (om : OMap), Issues s k m → NoRegion s k m h → m.enabled h ≠ 0 →
    let i := issOf k m h
    let c := clusterOfCell (cellOf k)
    let id := (s.cluster c).nextJob
    (cpymCheck o cs sn i s = .ok (op, f) →
      ∃ t' m', exec (.cpym h o cs sn) s = .next t' ∧ t'.member? k = some m' ∧
        (t'.cluster c).jobs = (s.cluster c).jobs ++
          [i.job (s.cluster c).nextKey id.toNat clsCopy op (some (s.cluster c).accepted),
           i.job ((s.cluster c).nextKey + 1) id.toNat clsMatrix (.mmas f) none] ∧
        m'.jlast = id ∧ m'.count clsCopy = m.count clsCopy + 1 ∧ m'.count clsMatrix = m.count clsMatrix + 1 ∧ m'.v = m.v ∧ m'.s = m.s ∧
        m'.q = m.q ∧ m'.curGrp.pc = nextPc m.pc ∧ MemSame s t') ∧
    (omapCheck i o sn s = .ok om → exec (.omap h o sn) s = .next (s.setMember k (Member.advance { m with omap := some om }))) ∧
    (m.scalar = false → mmaCheck t tile hi sf i s = .ok op →
      ∃ t' m', exec (.mma h t tile hi sf r) s = .next t' ∧ t'.member? k = some m' ∧ m'.alatch = (if r then some (hi, t) else none) ∧
        m'.lent = if m.alatch = some (hi, t) then m.lent else m.lent ++ [(hi, (s.cluster c).nextKey)])

/-- R166 to R168, R172, R175 to R182, R187 to R189, R396: engine commands become jobs; CPYM, OMAP and the A latch. -/
def Obligations.EngineCommandsAreAcceptedAsJobs : Prop :=
  EngineWordsAcceptOneJob ∧ CpymOmapAndTheALatch

/-- R183, R311: BATON.RING arms a disarmed ring of distinct waves of the team with its first wave as holder, BATON.PASS hands it from the holder
to the next in ring order, wrapping round, and BATON.END disarms it; from a wave that does not hold it both are BATON_STATE. -/
def Obligations.BatonWordsPassTheRing : Prop :=
  ∀ (h : Hdr) (sl : BitVec 6) (n : BitVec 4) (s : State) (k : Nat) (m : Member) (tm : Team), Issues s k m → NoRegion s k m h →
    m.enabled h ≠ 0 → m.scalar = false → s.team? m.ctx m.team = some tm →
    let ms := ringOf (m.sreg sl.toNat) n
    let sets (i : Instr) (b : Option (List Nat × Nat)) : Prop :=
      exec i s = .next ((s.modTeam m.ctx m.team fun t => { t with baton := b }).setMember k m.advance)
    (tm.baton = none → (∀ x ∈ ms, s.isWave m.ctx m.team x = true) → ms.Nodup → sets (.batonRing h sl n) (some (ms, ms.headD 0))) ∧
    (∀ pre suf x y, tm.baton = some (pre ++ x :: y :: suf, x) → x ∉ pre → x = m.idx → sets (.batonPass h) (some (pre ++ x :: y :: suf, y))) ∧
    (∀ pre x y, tm.baton = some (y :: pre ++ [x], x) → x ∉ y :: pre → x = m.idx → sets (.batonPass h) (some (y :: pre ++ [x], y))) ∧
    (∀ ring, tm.baton = some (ring, m.idx) → sets (.batonEnd h) none) ∧
    (∀ ring x, tm.baton = some (ring, x) → x ≠ m.idx →
      exec (.batonPass h) s = .next (s.raise (issOf k m h) { cause := Cause.batonState }) ∧
      exec (.batonEnd h) s = .next (s.raise (issOf k m h) { cause := Cause.batonState }))

/-- R130, R131: KCM hashes a row, a column, a stream and a key per lane, or once into sD; it is a function of those alone. -/
def Sys2Proof.Claims.KcmWritesItsHash : Prop :=
  ∀ (h : Hdr) (d : BitVec 6) (r c : Src) (sk : BitVec 6),
    let val (m : Member) (l : Nat) : Word :=
      Fp.kcm (BitVec.ofNat 32 (m.src32 r l)) (BitVec.ofNat 32 (m.src32 c l)) ((m.sreg (sk.toNat + 1)).setWidth 32) (m.sreg sk.toNat)
    Writes (.kcm h false d r c sk) h .n32 d (fun _ _ m l => (val m l).toNat) ∧
    ∀ s k m, Issues s k m → m.enabled h ≠ 0 →
      ∃ m', Steps (.kcm h true d r c sk) s k m m' ∧ UniSet m m' d.toNat ((val m (lowest (acting s k m h))).setWidth 64) ∧
        m'.v = m.v ∧ m'.q = m.q ∧ m'.c = m.c ∧ m'.lat = m.lat

/-- R60, R130, R312, R353, R354, R369, R377, R385, R388: the words across lanes, with and without U, and KCM. -/
def Obligations.LaneWordsReadEveryLaneFirst : Prop :=
  LaneWordsReadBeforeTheyWrite ∧ LaneWordsWithUWriteOneUniformRegister ∧ KcmWritesItsHash

/-- R276, R278: BEAM of one lane that passes its checks accepts a beam job that waits in its cluster, writes its ID to the lane and counts it;
BRES writes the status of the job that each lane names, and acquires when one of them has DONE; that an acquire leaves its cell no LEASE copy is
log 66, the model's choice. -/
def Obligations.BeamWordsAcceptAndReportJobs : Prop :=
  ∀ (h : Hdr) (d p : BitVec 6) (o : MemOp) (b : Src),
    (∀ s k m, Issues s k m → Unmixed s k m h →
      let st (l : Nat) : Nat := s.beamStatus (clusterOfCell (cellOf k)) m.ctx (m.src32 b l % 2 ^ 16)
      ∃ t m', exec (.bres h d b) s = .next (t.setMember k m') ∧ ((∀ l ∈ on m h, (st l).testBit 31 = false) → t = s) ∧
        ((∃ l ∈ on m h, (st l).testBit 31 = true) → Acquired s t k) ∧ Rest m m' ∧ VecSet m m' .n32 d.toNat (on m h) st ∧
        m'.s = m.s ∧ m'.c = m.c ∧ m'.q = m.q ∧ m'.x = m.x ∧ m'.lat = m.lat) ∧
    ∀ s k l m, Issues s k m → NoRegion s k m h → on m h = [l] → beamCheck (issOf k m h) o s = .ok () →
      let c := clusterOfCell (cellOf k)
      let id := (s.cluster c).nextJob
      let goes (i : Instr) (piece : Option (Word × Word × Word)) : Prop :=
        ∃ t m' j, exec i s = .next t ∧ t.member? k = some m' ∧ (t.cluster c).beams = (s.cluster c).beams ++ [j] ∧ j.id = id.toNat ∧
          j.addr = m.addr o l ∧ j.st = .waiting ∧ j.piece = piece ∧ m'.vreg l d.toNat = id.setWidth 32 ∧ m'.count clsBeam = m.count clsBeam + 1 ∧
          m'.s = m.s ∧ m'.q = m.q ∧ m'.curGrp.pc = nextPc m.pc ∧ MemSame s t
      goes (.beamQuery h d o) none ∧
      goes (.beamResume h d o p) (some (m.vreg l p.toNat, m.vreg l (p.toNat + 1), m.vreg l (p.toNat + 2)))

/-! ### Regions -/

/-- R216 to R218, R225, R226: TRB of one lane without an open region, of fewer than eight aborts and while no solo region stands, opens a region with v0
to v11 saved, at the lowest free entry of its die's table (log 102, the model's choice: the spec asks for a free one); TRE without an open region passes, and with one brings it to AT_TRE and sleeps; TRA aborts the
lane's region and puts its code into the status. All of this is stated for one enabled lane. -/
def Obligations.RegionWordsOpenEndAndAbortRegions : Prop :=
  ∀ (h : Hdr) (tgt : BitVec 20) (join : BitVec 16) (code : BitVec 8) (s : State) (k l n : Nat) (m : Member), Issues s k m → on m h = [l] →
    let d := dieOfCell (cellOf k)
    (NoRegion s k m h → abortsOf (m.rstatOf l) < 8 → s.soloBusy d = false →
      firstFree 256 (fun n => (FMap.find? (s.die d).regions n).isSome) = some n →
      ∃ t m' r, exec (.trb h tgt join) s = .next t ∧ MemSame s t ∧ t.member? k = some m' ∧ m'.curGrp.pc = nextPc m.pc ∧ m'.v = m.v ∧ m'.q = m.q ∧
        FMap.find? (t.die d).regions n = some r ∧ r.st = .run ∧ r.uid = m.uid ∧ r.lane = l ∧ r.solo = false ∧
        r.abort = m.pc + 8 * tgt.signExtend 57 ∧ r.ckV = (List.range 12).map (fun j => m.vreg l j) ∧ r.reads = [] ∧ r.writes = [] ∧
        (m'.rstatOf l).getLsbD 31 = true) ∧
    (NoRegion s k m h → exec (.tre h) s = .next (s.setMember k m.advance) ∧ exec (.tra h code) s = .next (s.setMember k m.advance)) ∧
    (∀ r, s.regionOf d m.uid l = some (n, r) → r.isOpen = true → FMap.find? (s.die d).regions n = some r →
      (∃ t m' r', exec (.tre h) s = .next t ∧ MemSame s t ∧ t.member? k = some m' ∧ FMap.find? (t.die d).regions n = some r' ∧ r'.st = .atTre ∧
        (m'.grp m.cur).wait = some (.tre (laneMask l)) ∧ m'.v = m.v ∧ m'.q = m.q) ∧
      (∃ t m' r', exec (.tra h code) s = .next t ∧ t.member? k = some m' ∧ FMap.find? (t.die d).regions n = some r' ∧ r'.st = .aborted ∧
        bits (m'.rstatOf l).toNat 23 16 = code.toNat ∧ m'.curGrp.pc = nextPc m.pc ∧ m'.v = m.v ∧ m'.q = m.q))

/-! ### Traps and special registers -/

namespace Sys2Proof.Claims

/-- Member m runs in a team with a handler and no trap under way, and is found under its identity; no solo region is open. -/
structure CanTrap (s : State) (k : Nat) (m : Member) (tm : Team) : Prop where
  team : s.team? m.ctx m.team = some tm
  idle : tm.trap.v = false
  handler : tm.handler ≠ 0
  runs : m.run = .run
  found : s.byUid m.uid = some m
  own : OwnUid s k m
  noSolo : NoSolo s

/-- A trap has been taken (R251 to R254): the team's area holds cause, lane, member, code and the PCs, and the faulting group stands at the
handler with its lanes as they were and its latches invalid. -/
def Trapped (t : State) (k : Nat) (m : Member) (tm : Team) (cause : Cause) (lane : Nat) (code : BitVec 8) (tpc : Addr) (addr : Nat) : Prop :=
  ∃ tm' m', t.team? m.ctx m.team = some tm' ∧ t.member? k = some m' ∧
    tm'.trap.v = true ∧ tm'.trap.imp = false ∧ tm'.trap.cause = cause ∧ tm'.trap.lane = BitVec.ofNat 6 lane ∧
    tm'.trap.member = BitVec.ofNat 6 m.memberIdx ∧ tm'.trap.code = code ∧ tm'.trap.tpc = tpc ∧ tm'.trap.tfpc = m.pc ∧
    tm'.trap.taddr = BitVec.ofNat 64 addr ∧ m'.curGrp.pc = tm.handler ∧ m'.curGrp.mask = m.curGrp.mask ∧ m'.lat = [] ∧ m'.run = .run ∧
    m'.v = m.v ∧ m'.s = m.s ∧ m'.c = m.c ∧ m'.q = m.q

end Sys2Proof.Claims

/-- R251, R252, R254, R255, R316, R386: TRAP and BKPT take their trap with CODE and the next word's address in TPC. -/
def Sys2Proof.Claims.TrapAndBkptEnterTheHandler : Prop :=
  ∀ (h : Hdr) (code : BitVec 8) (s : State) (k : Nat) (m : Member) (tm : Team), Issues s k m → NoRegion s k m h → m.enabled h ≠ 0 →
    CanTrap s k m tm →
    (∃ t, exec (.trap h code) s = .next t ∧ Trapped t k m tm Cause.trapInstr (lowest (m.enabled h)) code (nextPc m.pc) 0) ∧
    (∃ t, exec (.bkpt h code) s = .next t ∧ Trapped t k m tm Cause.breakpoint (lowest (m.enabled h)) code (nextPc m.pc) 0)

/-- R251 to R255: a precise cause of any word is taken the same way with the word's own address, or the first of its chain or pair, in TPC; without a
handler the team ends, its live count is 0 and NO_HANDLER goes to its context's log, and with a trap under way HANDLER_FAULT does. The other fields of
the entry describe the cause that was raised, which stands in CAUSE2 (log 75, the model's choice). -/
def Sys2Proof.Claims.PreciseCausesEnterTheHandlerOrEndTheTeam : Prop :=
  ∀ (h : Hdr) (s : State) (k : Nat) (e : Exn) (m : Member) (tm : Team), Issues s k m → e.cause ≠ Cause.trapInstr → e.cause ≠ Cause.breakpoint →
    (CanTrap s k m tm →
      Trapped (s.raise (issOf k m h) e) k m tm e.cause (e.lane.getD (lowest (m.enabled h))) e.code m.savedPc e.addr) ∧
    (s.team? m.ctx m.team = some tm → s.byUid m.uid = some m → m.run = .run → (tm.trap.v = true ∨ tm.handler = 0) →
      let t := s.raise (issOf k m h) e
      let r := (s.ctx m.ctx).log
      (t.team? m.ctx m.team).map Team.live = some 0 ∧
      (r.en = true → (r.tail - r.head).toNat < 2 ^ r.logsize.toNat → (t.ctx m.ctx).log = { r with tail := r.tail + 1 } ∧
        (r.base.getLsbD 63 = true → ∃ a : TrapArea, a.cause = e.cause ∧ a.code = e.code ∧ a.tfpc = m.pc ∧ a.taddr = BitVec.ofNat 64 e.addr ∧
          t.extBytes false (r.base.toNat % 2 ^ 63 + 32 * (r.tail.toNat % 2 ^ r.logsize.toNat)) 32 =
            State.wordBytes (State.trapLog tm (if tm.trap.v then Cause.handlerFault else Cause.noHandler) e.cause.toNat a).words)))

/-- R251 to R255, R316, R386: what taking a trap saves and where it goes. -/
def Obligations.TrapsEnterTheHandlerOrEndTheTeam : Prop :=
  TrapAndBkptEnterTheHandler ∧ PreciseCausesEnterTheHandlerOrEndTheTeam

/-- R253, R255: ERET resumes the team: V and every stop record are cleared, the issuing group goes on at TPC, every member of the team runs, and
held causes follow; without a trap it is ERET_STATE, and a TPC that is not a multiple of 8 is PC_ALIGN. -/
def Obligations.EretResumesTheTeam : Prop :=
  ∀ (h : Hdr) (s : State) (k : Nat) (m : Member) (tm : Team), Issues s k m → NoRegion s k m h → m.enabled h ≠ 0 →
    s.team? m.ctx m.team = some tm →
    (tm.trap.v = true → tm.trap.tpc.toNat % 8 = 0 →
      ∃ t tm' m', exec (.eret h) s = .next t ∧ t.team? m.ctx m.team = some tm' ∧ tm'.trap = { tm.trap with v := false, tsib := [] } ∧
        tm'.held = [] ∧ tm'.live = tm.live ∧ t.impFaults = tm.held ++ s.impFaults ∧ t.member? k = some m' ∧ m'.curGrp.pc = tm.trap.tpc ∧
        m'.run = .run ∧ m'.v = m.v ∧ m'.s = m.s ∧ m'.q = m.q ∧ MemSame s t ∧
        (∀ j n, t.member? j = some n → n.ctx = m.ctx → n.team = m.team → n.run = .run)) ∧
    (tm.trap.v = false → exec (.eret h) s = .next (s.raise (issOf k m h) { cause := Cause.eretState })) ∧
    (tm.trap.v = true → tm.trap.tpc.toNat % 8 ≠ 0 → exec (.eret h) s = .next (s.raise (issOf k m h) { cause := Cause.pcAlign }))

/-- R16, R150, R167, R184, R252, R324, R325: CSRR writes the value of every assigned register to sD and nothing else; an unassigned number is
CSR_ACCESS. What some of them hold. -/
def Sys2Proof.Claims.CsrrReadsEveryAssignedRegister : Prop :=
  ∀ (h : Hdr) (d : BitVec 6) (n : BitVec 12) (s : State) (k : Nat) (m : Member) (tm : Team), Issues s k m → NoRegion s k m h →
    m.enabled h ≠ 0 → s.team? m.ctx m.team = some tm →
    let i := issOf k m h
    (∀ x, s.csrVal i n.toNat = some x →
      exec (.csrr h d n) s = .next (s.setMember k (m.setS d.toNat (BitVec.ofNat 64 x)).advance)) ∧
    (s.csrVal i n.toNat = none → exec (.csrr h d n) s = .next (s.raise i { cause := Cause.csrAccess })) ∧
    s.csrVal i 0x102 = some m.jlast.toNat ∧ s.csrVal i 0x104 = some m.engst.toNat ∧ s.csrVal i 0x141 = some tm.trap.tpc.toNat ∧
    s.csrVal i 0x142 = some tm.trap.taddr.toNat ∧ s.csrVal i 0x143 = some tm.trap.tfpc.toNat ∧
    s.csrVal i 0x103 = some (FMap.get 0 (s.ctx m.ctx).budget (dieOfCell (cellOf k)))

/-- R142, R190, R324, R325: CSRW writes TPC, ENGST and the address of a mapping entry that is not in use, every bit of which it keeps (log 26, the
model's reading); a register that is read-only or unassigned is CSR_ACCESS. -/
def Sys2Proof.Claims.CsrwWritesTheWritableRegisters : Prop :=
  ∀ (h : Hdr) (b : Src) (s : State) (k : Nat) (m : Member) (tm : Team), Issues s k m → NoRegion s k m h → m.enabled h ≠ 0 →
    s.team? m.ctx m.team = some tm →
    let x := BitVec.ofNat 64 (m.src64 b)
    exec (.csrw h 0x141 b) s = .next ((s.modTeam m.ctx m.team fun t => { t with trap := { t.trap with tpc := x.setWidth 57 } }).setMember k m.advance) ∧
    (∃ m' : Member, exec (.csrw h 0x104 b) s = .next (s.setMember k m'.advance) ∧ m' = { m with engst := m'.engst } ∧
      (∀ j, j < 64 → m'.engst.getLsbD j = if j < 5 ∨ 39 ≤ j then x.getLsbD j else false)) ∧
    (∀ n, n < 16 → (s.spEntry (cellOf k) n).v = false →
      ∃ t, exec (.csrw h (BitVec.ofNat 12 (0x110 + 2 * n)) b) s = .next t ∧
        t.spEntry (cellOf k) n = { s.spEntry (cellOf k) n with gva := x.setWidth 57 } ∧ t.member? k = some m.advance ∧ MemSame s t) ∧
    exec (.csrw h 0x102 b) s = .next (s.raise (issOf k m h) { cause := Cause.csrAccess }) ∧
    exec (.csrw h 0x140 b) s = .next (s.raise (issOf k m h) { cause := Cause.csrAccess })

/-- R142, R143: registering a range inside the team's extent, whose pages and lines are free, sets its entry for the team; deregistering an entry of
the team clears V; an entry in use, a reserved bit, a length of 0 or above 1,024, a place that is no multiple of 256 or not wholly inside the team's
extent, and lines that are no free writable DIR lines or named twice are SPAD_MAP, and so is an address that is no multiple of 256 (log 26, the model's
reading). -/
def Sys2Proof.Claims.ScratchpadMappingsBelongToTheirTeam : Prop :=
  ∀ (n : Nat) (val : DWord) (ks : List Nat) (s : State) (k : Nat) (m : Member) (tm : Team), n < 16 → Issues s k m →
    NoRegion s k m ⟨0, false, 7⟩ → m.enabled ⟨0, false, 7⟩ ≠ 0 → s.team? m.ctx m.team = some tm → NoSolo s →
    let e := s.spEntry (cellOf k) n
    let off := bits val.toNat 17 0
    let len := bits val.toNat 28 18
    (e.v = false → bits val.toNat 62 29 = 0 → 1 ≤ len → len ≤ 1024 → off % 256 = 0 → e.gva.toNat % 256 = 0 → tm.spbase ≤ off →
      off + len * 256 ≤ tm.spbase + tm.splen → s.mapLines (cellOf k) m.ctx e.gva.toNat (len * 256) = some ks → hasDup ks = false →
      ∃ t e', exec (.spmapRegister n val) s = .next t ∧ t.spEntry (cellOf k) n = e' ∧ e'.v = true ∧ e'.ctx = m.ctx ∧ e'.team = m.team ∧
        e'.gva = e.gva ∧ e'.len = BitVec.ofNat 11 len ∧ e'.spoff = BitVec.ofNat 18 off ∧ t.mem = s.mem) ∧
    (e.v = false → (bits val.toNat 62 29 ≠ 0 ∨ len = 0 ∨ 1024 < len ∨ off % 256 ≠ 0 ∨ e.gva.toNat % 256 ≠ 0 ∨ off < tm.spbase ∨
        tm.spbase + tm.splen < off + len * 256 ∨ s.mapLines (cellOf k) m.ctx e.gva.toNat (len * 256) = none ∨
        (s.mapLines (cellOf k) m.ctx e.gva.toNat (len * 256)).any hasDup = true) →
      exec (.spmapRegister n val) s = .next (s.raise (issOf k m ⟨0, false, 7⟩) { cause := Cause.spadMap })) ∧
    (e.v = true → e.ctx = m.ctx → e.team = m.team →
      exec (.spmapRegister n val) s = .next (s.raise (issOf k m ⟨0, false, 7⟩) { cause := Cause.spadMap }) ∧
      ∃ t, exec (.spmapDeregister n val) s = .next t ∧ (t.spEntry (cellOf k) n).v = false ∧ t.hostMem = s.hostMem) ∧
    (e.v = true → ¬(e.ctx = m.ctx ∧ e.team = m.team) →
      exec (.spmapRegister n val) s = .next (s.raise (issOf k m ⟨0, false, 7⟩) { cause := Cause.csrAccess }) ∧
      exec (.spmapDeregister n val) s = .next (s.raise (issOf k m ⟨0, false, 7⟩) { cause := Cause.csrAccess }))

/-- R16, R142, R143, R150, R167, R184, R190, R252, R324, R325: CSRR, CSRW and the scratchpad mappings. -/
def Obligations.SpecialRegistersReadAndWrite : Prop :=
  CsrrReadsEveryAssignedRegister ∧ CsrwWritesTheWritableRegisters ∧ ScratchpadMappingsBelongToTheirTeam

/-! ### Launch queues, records and teams -/

namespace Sys2Proof.Claims

/-- An instruction answers a next state of which a property holds. -/
def Gives (i : Instr) (s : State) (p : State → Prop) : Prop := ∃ t, exec i s = .next t ∧ p t

/-- A member that starts at a record's entry with one lane filled from its arguments (R23). -/
def Started (m : Member) (l : Nat) (entry : BitVec 48) (a : List Word) : Prop :=
  m.q0.getLsbD l = true ∧ m.root.mask.getLsbD l = true ∧ m.root.pc = BitVec.ofNat 57 (entry.toNat * 8) ∧
    ∀ n, n < 64 → m.vreg l n = a.getD n 0

/-- R41, R42: a write of QTAIL posts packets, or disables the queue when it overruns the ring; a write of QCFG configures a queue that is not
enabled, enables it empty, or disables it. That a disabled queue drops the children posted to it is log 41, and that EN asks for a live context
log 49: the model's choices. -/
def QueueRegistersTakeHostWrites : Prop :=
  (∀ (q : Nat) (tail : BitVec 32) (s : State), q < 256 → s.host.recovery = false → (s.queue q).en = true → (s.queue q).dev = false →
    Gives (.queueDoorbell q tail) s fun t => (∀ n, n ≠ q → t.queue n = s.queue n) ∧
      if (tail - (s.queue q).head).toNat ≤ 2 ^ (s.queue q).logsize.toNat then
        t = { s with queues := t.queues } ∧ t.queue q = { s.queue q with tail := tail }
      else t.queue q = { s.queue q with en := false } ∧ ∀ p ∈ t.posted, p.queue ≠ q) ∧
  ∀ (q : Nat) (val : DWord) (s : State), q < 256 → s.host.recovery = false →
    ((s.queue q).en = true → val.getLsbD 0 = false → Gives (.qcfgWrite q val) s fun t =>
      t = { s with queues := t.queues, posted := t.posted } ∧ t.queue q = { s.queue q with en := false } ∧
        (∀ n, n ≠ q → t.queue n = s.queue n) ∧ ∀ p, p ∈ t.posted ↔ p ∈ s.posted ∧ p.queue ≠ q) ∧
    ((s.queue q).en = false → Gives (.qcfgWrite q val) s fun t =>
      let x := t.queue q
      t = { s with queues := t.queues } ∧ (∀ n, n ≠ q → t.queue n = s.queue n) ∧ x.base = (s.queue q).base ∧
        x.msix = val.extractLsb' 37 11 ∧ x.logsize = val.extractLsb' 32 5 ∧ x.prio = val.extractLsb' 30 2 ∧ x.ctx = val.extractLsb' 24 6 ∧
        x.dmask = val.extractLsb' 2 4 ∧ x.dev = val.getLsbD 1 ∧
        (x.en = true ↔ val.getLsbD 0 = true ∧ 4 ≤ x.logsize.toNat ∧ x.logsize.toNat ≤ 16 ∧ (s.ctx x.ctx.toNat).en = true) ∧
        (x.en = true → x.head = 0 ∧ x.tail = 0))

/-- R43, R44, R263: a controller reads the next packet of a queue that has none in admission and whose context is not halted, once the writes of the host
and of the LAUNCH before it have been performed, and turns one that passes its checks into a launch, whose threads start at the packet's ENTRY
(log 91); what the controller reads waits for held writes whose release has passed (log 69). -/
def PacketsBecomeLaunches : Prop :=
  ∀ (q : Nat) (s : State), q < 256 → (s.queue q).en = true → (s.queue q).pending ≠ 0 → (s.queue q).cur = none →
    s.queueDies (s.queue q) ≠ [] → s.threadHeld 0 1 = false → s.packetHeld (s.queue q) = false → s.told = false →
    (s.ctx (s.queue q).ctx.toNat).halted = false →
    let place := (s.queue q).packetAt (s.queue q).head.toNat
    let x := (s.queue q).ctx.toNat
    let bs := if place.1 then s.extBytes false place.2 128 else s.bytes place.2 128
    let p := Packet.ofBytes bs
    s.packetCause x bs p = none → (if place.1 then s else s.touchHome place.2 128 false).lineQ = [] →
    Gives (.packetRead q) s fun t => MemSame s t ∧ t.members = s.members ∧ t.teams = s.teams ∧
      t.queue q = { s.queue q with head := (s.queue q).head + 1, cur := some (x, State.provisional q) } ∧
      ∃ l, t.launches = s.launches ++ [l] ∧ l.ctx = x ∧ l.queue = q ∧ l.entry = p.entry ∧ l.tdesc = p.tdesc ∧ l.acap = p.acap ∧ l.args = p.args ∧
        l.teams = p.teams ∧ l.admitted = 0 ∧ l.stok = p.stok ∧ l.wtok = p.wtok ∧ l.wval = p.wval ∧ l.irq = p.irq

/-- R36, R46 to R50: the next team of the launch in turn is admitted at its place, with its handle, its index, its live count and its extent; when
every thread starts in a slot, lane l of wave n starts at the entry with its thread index in v0 and its lane in v1. -/
def TeamsAreAdmittedInTurn : Prop :=
  ∀ (q : Nat) (c : AdmitChoice) (s0 : State) (l : Launch) (d : TeamDesc) (die cell off bind : Nat),
    let s := s0.newRound
    s.mayServe q = true → s.curLaunch q = some l → s.desc? l.ctx l.tdesc = some d → s.placeFor q d = some (die, cell, off, bind) →
    s.choiceOk l.ctx cell d.waves d.threads c = true → s.poolRoom l.ctx (s.recordCount cell d.waves d.threads c) = true →
    Gives (.teamAdmit q c) s0 fun t => ∃ tm, t.teams = s.teams ++ [tm] ∧ tm.ctx = l.ctx ∧ tm.handle = c.handle ∧ tm.tidx = l.admitted ∧
      tm.count = l.teams ∧ tm.args = l.args ∧ tm.entry = l.entry ∧ tm.waves = d.waves ∧ tm.threads = d.threads ∧ tm.die = die ∧ tm.cell = cell ∧
      tm.spbase = off ∧ tm.splen = d.spad ∧ tm.live = 32 * d.waves + d.threads ∧ tm.trap = TrapArea.zero ∧
      (t.queue q).lastDie = die ∧ (t.queue q).cur = (if l.admitted + 1 = l.teams then none else some (l.ctx, tm.lid)) ∧
      (s.recordCount cell d.waves d.threads c = 0 → ∀ n slot : Nat, (s.directWaves cell d.waves c)[n]? = some slot →
        ∃ m, t.member? (waveKey cell slot) = some m ∧ m.scalar = false ∧ m.ctx = l.ctx ∧ m.team = c.handle ∧ m.idx = n ∧
          ∀ i, i < 32 → Started m i l.entry [BitVec.ofNat 32 (n * 32 + i), BitVec.ofNat 32 i])

/-- R55, R56, R331: a consumer team whose turn it is is admitted for a node with a launch of its own and one live thread per element (the launch of one
team, its depth 1 and the live count are the model's reading: logs 43, 74); a record suspended at a node with space goes on its way. -/
def NodesGetConsumersAndResumeProducers : Prop :=
  (∀ (ctx node : Nat) (c : AdmitChoice) (s0 : State) (k : State.Consumer),
    let s := s0.newRound
    s.consumerFor ctx node = some k → node ∈ (s.ctx ctx).nodes → s.consumerTurn ctx node k.node.level = true →
    s.choiceOk ctx k.place.2.1 (if k.wave then max 1 k.desc.waves else k.desc.waves)
      (if k.wave then k.desc.threads else max 1 k.desc.threads) c = true →
    Gives (.consumerAdmit ctx node c) s0 fun t => ∃ tm l, t.teams = s.teams ++ [tm] ∧ t.launches = s0.launches ++ [l] ∧ tm.ctx = ctx ∧
      tm.handle = c.handle ∧ tm.lid = l.lid ∧ tm.live = k.elems.length ∧ tm.level = k.node.level ∧ tm.entry = k.node.entry ∧
      tm.cell = k.place.2.1 ∧ l.ctx = ctx ∧ l.teams = 1 ∧ l.admitted = 1 ∧ l.depth = 1) ∧
  ∀ (ctx node : Nat) (s : State) (g : Nat × PoolTarget × Rec) (n : Node) (w : Nat),
    (s.ctx ctx).gwaits.find? (fun g => g.1 == node) = some g → s.nodeAt ctx node = some (n, w) → n.free ≠ 0 →
    s.hasRoom g.2.1 g.2.2 = true → s.arrivalWaits g.2.1 = false →
    Gives (.enqResume ctx node) s fun t => MemSame s t ∧ (t.ctx ctx).gwaits = (s.ctx ctx).gwaits.erase g ∧
      inboundAt t g.2.1 = inboundAt s g.2.1 ++ [g.2.2]

/-- R29, R30: a record that arrives at a Carousel joins the first bucket of its key with room, or opens one; a bucket is ready after 2,048 clk; a
record spilled from a place comes back when the place has room, and its slot of the pool is free. (A record whose sender has released a write that is
still held waits: log 69, the model's reading.) -/
def RecordsGatherInBucketsAndQueues : Prop :=
  (∀ (c : Nat) (s : State) (r : Rec) (rest : List Rec), (s.cluster c).inbound = r :: rest → s.arrivalWaits (.carousel c) = false →
    s.spilledFor (.carousel c) = [] →
    (s.cluster c).buckets.length < 64 →
    Gives (.carouselArrival c) s fun t => MemSame s t ∧ t.members = s.members ∧ (t.cluster c).inbound = rest ∧
      ((∀ b ∈ (s.cluster c).buckets, b.hasKey r = true → b.recs.length = 32) →
        (t.cluster c).buckets = (s.cluster c).buckets ++ [newBucket r s.clk]) ∧
      ∀ pre b suf, (s.cluster c).buckets = pre ++ b :: suf → (∀ x ∈ pre, x.hasKey r = false) → b.hasKey r = true → b.recs.length < 32 →
        (t.cluster c).buckets = pre ++ { b with recs := b.recs ++ [r], ready := b.ready || decide (b.recs.length = 31) } :: suf) ∧
  (∀ (c : Nat) (s : State), Gives (.bucketTimeout c) s fun t => t = { s with clusters := t.clusters } ∧
    ∀ n : Nat, (t.cluster c).buckets[n]? =
      ((s.cluster c).buckets[n]?).map fun b : Bucket => { b with ready := b.ready || decide (b.first + 2048 ≤ s.clk) }) ∧
  ∀ (s : State) (x : Nat) (p : Spilled),
    (∀ c, s.spilledFor (.ready c) = [(x, [p])] → (s.cell c).ready.length < 128 →
      Gives (.poolRefill (.ready c)) s fun t => MemSame s t ∧ (t.cell c).ready = insertBySeq (s.unspill x p).2 (s.cell c).ready ∧
        ∀ y ∈ (t.ctx x).spilled, y.slot ≠ p.slot) ∧
    (∀ d, s.spilledFor (.handler d) = [(x, [p])] → (s.die d).hq.length < 1024 →
      Gives (.poolRefill (.handler d)) s fun t => MemSame s t ∧ (t.die d).hq = (s.die d).hq ++ [⟨(s.unspill x p).2, p.orig, 0⟩] ∧
        ∀ y ∈ (t.ctx x).spilled, y.slot ≠ p.slot) ∧
    ∀ c, s.spilledFor (.carousel c) = [(x, [p])] → (s.cluster c).buckets.length < 64 →
      Gives (.poolRefill (.carousel c)) s fun t => MemSame s t ∧
        (t.cluster c).buckets = (s.cluster c).buckets ++ [newBucket (s.unspill x p).2 s.clk] ∧ ∀ y ∈ (t.ctx x).spilled, y.slot ≠ p.slot

/-- R23, R29, R30, R37, R51: the only ready bucket of a cluster starts as a wave, one record a lane, and the only record of a ready queue as a
scalar thread, in the slot and with the index that their team takes. -/
def RecordsStartThreads : Prop :=
  (∀ (c k idx : Nat) (s : State) (b : Bucket) (tm : Team), (s.cluster c).buckets.filter Bucket.ready = [b] →
    s.team? b.ctx b.team = some tm → s.takeSlot tm false = some (k, idx) → b.recs.length ≤ 32 →
    (∀ r ∈ b.recs, recFaulty s r = false ∧ r.setq = none ∧ r.a.length = 12) →
    Gives (.bucketDispatch c) s fun t => MemSame s t ∧ (t.cluster c).buckets = (s.cluster c).buckets.erase b ∧
      ∃ m, t.member? k = some m ∧ m.scalar = false ∧ m.ctx = b.ctx ∧ m.team = b.team ∧ m.idx = idx ∧ m.q0 = lanesBelow b.recs.length ∧
        ∀ (l : Nat) (r : Rec), b.recs[l]? = some r → Started m l b.entry r.a ∧ m.ldr.getLsbD l = r.ldr) ∧
  ∀ (c k idx : Nat) (s : State) (r : Rec) (tm : Team), (s.cell c).ready = [r] → (s.cell c).inbound = [] →
    s.team? r.owner r.team.toNat = some tm → s.takeSlot tm true = some (k, idx) → recFaulty s r = false → r.setq = none → r.a.length = 12 →
    Gives (.readyQueueDispatch c) s fun t => MemSame s t ∧ (t.cell c).ready = [] ∧
      ∃ m, t.member? k = some m ∧ m.scalar = true ∧ m.ctx = r.owner ∧ m.team = r.team.toNat ∧ m.idx = idx ∧ m.q0 = 1 ∧ Started m 0 r.entry r.a

/-- R52, R53, R158, R262: for the first work that lacks something and has victims within the numbers of waves and scalar threads that the event names,
members are evicted, never more than those numbers; where it names one member the first victim leaves whole; and whole a member comes back to the
lowest free slot of its team (the rule allows any: log 16); a group with 1,024 words in a row gives way to another that can issue. -/
def MembersLeaveAndComeBackWhole : Prop :=
  (∀ (cell waves threads k : Nat) (s : State) (w : State.Incoming) (m : Member),
    let may (k : Nat) : Bool := if slotOf k < 16 then waves ≠ 0 else threads ≠ 0
    let served := (s.incoming cell).find? fun w => s.lacks cell w && (s.victims cell w).any may
    (served = none ∨ (waves = 0 ∧ threads = 0) → exec (.partialEviction cell waves threads) s = .next s) ∧
    Gives (.partialEviction cell waves threads) s (fun t => s.evicted.length ≤ t.evicted.length ∧
      t.evicted.length ≤ s.evicted.length + waves + threads) ∧
    (served = some w → (s.victims cell w).find? may = some k → s.member? k = some m →
      (∀ e ∈ (s.die (dieOfCell (cellOf k))).regions, e.2.uid ≠ m.uid) → waves + threads = 1 →
      Gives (.partialEviction cell waves threads) s fun t => MemSame s t ∧ t.member? k = none ∧ (∀ j, j ≠ k → t.member? j = s.member? j) ∧
        ∃ m', t.evicted = s.evicted ++ [m'] ∧ m' = { m with root := m'.root, subs := m'.subs, lat := [], chain := 0, ord := none })) ∧
  (∀ (uid k : Nat) (s : State) (m : Member) (tm : Team), s.evicted.find? (fun m => m.uid == uid) = some m → s.team? m.ctx m.team = some tm →
    (if m.scalar then (s.freeScals tm.cell tm.tmask).head?.map (scalKey tm.cell)
      else (s.freeWaves tm.cell tm.wmask).head?.map (waveKey tm.cell)) = some k →
    m.run = .run → (s.ctx m.ctx).halted = false → m.subs.length ≤ (s.freeSplits tm.cell).length →
    Gives (.memberRestore uid) s fun t => MemSame s t ∧ (∀ x ∈ t.evicted, x.uid ≠ uid) ∧ (∀ j, j ≠ k → t.member? j = s.member? j) ∧
      ∃ m', t.member? k = some m' ∧ RegsSame m m' ∧ m'.root = m.root ∧ m'.uid = uid ∧ m'.idx = m.idx ∧ m'.entered = s.clk ∧
        m'.subs.length = m.subs.length) ∧
  ∀ (k : Nat) (s : State) (m : Member) (g : Option Nat), s.member? k = some m → 1024 ≤ m.inRow → m.chain = 0 → m.ord = none →
    m.serial = [] → g ∈ m.names → m.canIssue g = true → g ≠ m.cur →
    Gives (.groupSwitchLimit k) s fun t => ∃ m', t = s.setMember k m' ∧ m'.cur ∈ m.names ∧ m'.cur ≠ m.cur ∧ m.canIssue m'.cur = true ∧ m'.inRow = 0 ∧
      m'.lat = [] ∧ m'.v = m.v ∧ m'.s = m.s ∧ m'.c = m.c ∧ m'.q = m.q

/-- R38, R45, R143: a team without live threads, child launches and jobs retires: its slots are free, and its launch retires with the last of its
teams and raises its token. -/
def TeamsAndLaunchesRetire : Prop :=
  ∀ (ctx handle : Nat) (s : State) (tm : Team), s.team? ctx handle = some tm → s.canRetire tm = true →
    Gives (.teamRetire ctx handle) s fun t => t.hostMem = s.hostMem ∧ t.peerMem = s.peerMem ∧ t.team? ctx handle = none ∧
      (∀ e ∈ t.members, ¬(e.2.ctx = ctx ∧ e.2.team = handle)) ∧
      ∀ l, s.launch? ctx tm.lid = some l → l.admitted = l.teams → (∀ u ∈ s.teams, u.ctx = ctx → u.lid = tm.lid → u.handle = handle) →
        t.launch? ctx tm.lid = none ∧
          (l.stok ≠ 0 → FMap.get 0 (t.ctx ctx).tok l.stok = FMap.get 0 (s.ctx ctx).tok l.stok + 1)

end Sys2Proof.Claims

/-- R36, R41 to R50, R55, R56, R331: launch queues and their packets, the admission of teams, and the consumers of nodes. -/
def Obligations.QueuesAdmitTeams : Prop :=
  QueueRegistersTakeHostWrites ∧ PacketsBecomeLaunches ∧ TeamsAreAdmittedInTurn ∧ NodesGetConsumersAndResumeProducers

/-- R22, R23, R29, R30, R37, R51: records gather, come back from the pool, and start threads. -/
def Obligations.RecordsGatherAndStartThreads : Prop := RecordsGatherInBucketsAndQueues ∧ RecordsStartThreads

/-- R38, R45, R52, R53, R143, R158, R262: members leave their slots and come back, and teams and launches retire. -/
def Obligations.SlotsAreFreedAndFilled : Prop := MembersLeaveAndComeBackWhole ∧ TeamsAndLaunchesRetire

/-! ### Engines at work -/

namespace Sys2Proof.Claims

/-- A job started where it stands: its state alone changes. -/
def startedIn (j : Job) (js : List Job) : List Job :=
  js.map fun x => if x.key = j.key then { x with st := .started } else x

/-- The only job of a cluster has completed and reported (R168): no job is left, and the counter of its class has fallen in its issuer. -/
def Reported (s t : State) (c : Nat) (j : Job) : Prop :=
  (t.cluster c).jobs = [] ∧
    ∀ k m, s.member? k = some m → m.uid = j.uid → OwnUid s k m → m.q0 ≠ 0 →
      ∃ m', t.member? k = some m' ∧ m'.count j.cls = m.count j.cls - 1 ∧ m'.s = m.s ∧ m'.c = m.c ∧ m'.q = m.q

/-- R68, R124, R166, R177, R201: the matrix engine starts the first queued job in acceptance order when none runs and what its issuer wrote
has been performed; an MMA takes its block of the issuer into the A operand latched for it and gives the block back. -/
def MatrixJobsStartInOrder : Prop :=
  ∀ (c : Nat) (s : State) (j : Job), s.runningMatrix c = none → s.firstQueued c (fun j => j.cls == clsMatrix) = some j →
    s.threadHeld j.uid 0xFFFFFFFF = false →
    Gives (.matrixJobStart c) s fun t => (t.cluster c).jobs = startedIn j (s.cluster c).jobs ∧ t.hostMem = s.hostMem ∧ t.peerMem = s.peerMem ∧
      ∀ ty tile rows hi slot om k m, j.op = .mma ty tile rows hi false slot om → s.member? k = some m → m.uid = j.uid → OwnUid s k m →
        ∀ l r, l < 32 → r < 32 →
          FMap.get 0 (FMap.get [] (t.cluster c).alatch j.uid) (l * 32 + r) = m.vreg l ((if hi then 32 else 0) + r)

/-- R123, R166, R168, R178, R202: the running matrix job has its effect on memory and reports, or waits for its writes that are held; ACCZ
clears its tiles and no other byte of memory. The effect is stated through the model's own matrixEffect, and performed in one step (log 19, the
model's choice). -/
def MatrixJobsComplete : Prop :=
  ∀ (c : Nat) (s : State) (j : Job), (s.cluster c).jobs = [j] → j.cls = clsMatrix → j.st = .started →
    let r := s.matrixEffect c j
    (r.1.lineQ = [] →
      (r.1.jobHeld c j.key = false → Gives (.matrixJobComplete c) s fun t => (t.cluster c).jobs = [] ∧ t.mem = r.1.mem ∧
        t.hostMem = r.1.hostMem ∧ t.peerMem = r.1.peerMem) ∧
      (r.1.jobHeld c j.key = true → Gives (.matrixJobComplete c) s fun t =>
        (t.cluster c).jobs = [{ j with st := .ending, status := r.2 }] ∧ t.mem = r.1.mem)) ∧
    ∀ tile n, c < 64 → tile + n ≤ 64 → j.op = .accz tile n → s.lineQ = [] → s.jobHeld c j.key = false →
      Gives (.matrixJobComplete c) s fun t => Reported s t c j ∧ t.hostMem = s.hostMem ∧ t.peerMem = s.peerMem ∧
        ∀ a, FMap.get 0 t.mem a = if tileAddr c tile ≤ a ∧ a < tileAddr c tile + n * 2 ^ 14 then 0 else FMap.get 0 s.mem a

/-- R70, R150, R166, R181, R201: copies start while fewer than 16 run; a sector lands whole, with the bytes that its source holds, and no other
byte changes; a copy whose sectors have landed and been performed completes, reports, and makes its tag DONE. -/
def CopiesLandBySectors : Prop :=
  (∀ (c : Nat) (s : State) (j : Job), ((s.cluster c).jobs.filter fun j => j.cls == clsCopy && j.st == .started).length < 16 →
    s.firstQueued c (fun j => j.cls == clsCopy) = some j → s.threadHeld j.uid 0xFFFFFFFF = false →
    Gives (.copyJobStart c) s fun t => t = { s with clusters := t.clusters } ∧ (t.cluster c).jobs = startedIn j (s.cluster c).jobs) ∧
  (∀ (c key n pa qa : Nat) (s : State) (r : State.CopyRun) (lf lf' : Option Leaf), s.copyRun? c key = some r → n < r.len / 32 →
    FMap.find? r.job.landed n = none →
    s.reach r.job.ctx r.job.cell r.scap.space.toNat (r.scap.cursor.toNat + 32 * n) 32 true false = .ok (.dev pa lf) →
    s.reach r.job.ctx r.job.cell r.dcap.space.toNat (r.daddr + 32 * n) 32 false true = .ok (.dev qa lf') →
    isRegw pa = false → isRegw qa = false → isHbm qa = false → qa % 32 = 0 → NoSolo s → s.heldW = [] →
    (s.landSector c r n).lineQ = [] → (∀ i, i < 4 → s.poisoned (pa + 8 * i) 8 = false) →
    Gives (.copySectorLand c key n) s fun t => t.hostMem = s.hostMem ∧ t.peerMem = s.peerMem ∧
      (∀ i, i < 32 → FMap.get 0 t.mem (qa + i) = s.byte (pa + i)) ∧
      (∀ a, a < qa ∨ qa + 32 ≤ a → FMap.get 0 t.mem a = FMap.get 0 s.mem a) ∧
      ∃ j', t.job? c key = some j' ∧ FMap.find? j'.landed n = some true ∧ j'.status = r.job.status) ∧
  ∀ (c key : Nat) (s : State) (r : State.CopyRun), (s.cluster c).jobs = [r.job] → s.copyRun? c key = some r →
    r.len / 32 ≤ r.job.landed.length → s.jobHeld c key = false →
    Gives (.copyJobComplete c key) s fun t => MemSame s t ∧ Reported s t c r.job ∧
      ∀ g x, r.tag = some g → FMap.find? (s.cell r.job.cell).tag g = some x →
        FMap.find? (t.cell r.job.cell).tag g = some { x with done := true, err := r.job.status.isSome }

/-- R168, R186 to R189, R201: a base-die job whose issuer's writes have been performed has its effect on memory, and completes, or waits for its
writes that are held; with an empty count it changes no byte. The effect of BGATH, BRED and BCVT is stated through the model's own baseEffect, and
performed in one step (log 19, the model's choice). -/
def BaseJobsComplete : Prop :=
  ∀ (c key : Nat) (s : State) (j : Job), (s.cluster c).jobs = [j] → s.job? c key = some j → j.cls = clsBase → j.st ≠ .ending →
    s.threadHeld j.uid 0xFFFFFFFF = false → s.bredWaits j = false →
    let r := s.baseEffect j
    (r.1.lineQ = [] →
      (r.1.jobHeld c key = false → Gives (.baseJobComplete c key) s fun t => (t.cluster c).jobs = [] ∧ t.mem = r.1.mem ∧
        t.hostMem = r.1.hostMem ∧ t.peerMem = r.1.peerMem) ∧
      (r.1.jobHeld c key = true → Gives (.baseJobComplete c key) s fun t =>
        (t.cluster c).jobs = [{ j with st := .ending, status := r.2 }] ∧ t.mem = r.1.mem)) ∧
    ∀ dcap daddr tcap icap, j.op = .bgath dcap daddr tcap icap 0 → s.lineQ = [] → s.jobHeld c key = false →
      Gives (.baseJobComplete c key) s fun t => MemSame s t ∧ Reported s t c j

/-- R266, R274, R277, R279, R281: the job whose turn it is starts, once its record passes its checks: a QUERY with the root and the whole grid,
when STATUS and the miss values are written, and a RESUME with its piece; a RESUME that clashes with a job that has started ends with
BEAM_SAVE. -/
def BeamJobsStartAtTheRoot : Prop :=
  ∀ (c : Nat) (s : State) (j : BeamJob), s.beamsRunning c < 8 → s.nextBeam c = some j → j.st = .waiting →
    s.threadHeld j.uid 0xFFFFFFFF = false → (s.startBeam c j).lineQ = [] →
    (∀ q, s.beamClash c j = false → s.readQuery j = .ok q → s.queryOk q j = true →
      let s1 := (s.engTouch j.asJob j.cap.space.toNat j.addr 128).writeStatus j 0
      let runs (fs bs : List BeamItem) : Prop := Gives (.beamJobStart c) s fun t => ∃ x, t.beam? c j.key = some x ∧ x.st = .running ∧
        x.q = some q ∧ x.beams = bs ∧ x.frames = fs
      (j.piece = none → s1.2 = none → (s1.1.writeMisses j q).2 = none →
        runs [{ node := 0, next := 0, col := 0, row := 0, ncol := q.g1, nrow := q.g2, leaf := false, lvl := 0 }] []) ∧
      ∀ a0 a1 a2 n, j.piece = some (a0, a1, a2) → bits a1.toNat 31 20 = 0 → a1.getLsbD 3 = false →
        rectOk q (pieceItem a0 a1) = true → a2.toNat ≤ 63 → s.readNode j q a0.toNat = .ok n →
        n.cmask.testBit (pieceItem a0 a1).next = true → runs [] [pieceItem a0 a1]) ∧
    (s.beamClash c j = true → s.jobHeld c j.key = false → Gives (.beamJobStart c) s fun t => t.beam? c j.key = none ∧
      (t.cluster c).beamDone.head? = some (j.id, j.ctx, State.statusWord j (some Cause.beamSave)))

/-- R274, R277: a step of a running job that leaves work keeps it running with that work; one that leaves none, or meets a cause, ends the job with
its status remembered once its writes have been performed. -/
def BeamStepsGoOnUntilNothingIsLeft : Prop :=
  ∀ (c key : Nat) (s s' : State) (j j' : BeamJob) (q : Query) (e : Option Cause), s.beam? c key = some j → j.st = .running → j.q = some q →
    s.mustSave c j = false → s.jobHeld c key = false → (∀ f, j.frames.getLast? = some f → s.mergeWaits j q f = false) →
    s.beamAdvance j q = (s', j', e) →
    (e = none → ¬(j'.frames = [] ∧ j'.beams = []) → s'.lineQ = [] → exec (.beamStep c key) s = .next (s'.modBeam c key fun _ => j')) ∧
    (e.isSome = true ∨ (j'.frames = [] ∧ j'.beams = []) → (s'.endBeam c j' e).lineQ = [] →
      (s'.writeStatus j' (State.statusWord j' e)).1.jobHeld c j'.key = false → Gives (.beamStep c key) s fun t => t.beam? c j'.key = none ∧
        (t.cluster c).beamDone.head? = some (j'.id, j'.ctx, State.statusWord j' e))

/-- R137, R279, R280, R281: a running job that must make way is saved in its area, as words of 8 bytes that pass the cursor check, or ends if a write fails; a saved job whose turn
it is takes up what its area holds, or ends with the cause that the area meets. -/
def BeamJobsAreSavedAndRestored : Prop :=
  (∀ (c key : Nat) (s : State) (j : BeamJob) (q : Query), s.beam? c key = some j → j.st = .running → j.q = some q → s.mustSave c j = true →
    s.jobHeld c key = false →
    let put (acc : State × Option Cause) (a w : Nat) : State × Option Cause :=
      ((acc.1.beamWrite j q.save.space.toNat a (toBytes 8 w)).1,
        acc.2.orElse fun _ => (acc.1.beamWrite j q.save.space.toNat a (toBytes 8 w)).2)
    let a := q.save.cursor.toNat + 512 * j.area
    let x := put (s, none) a (State.saveWord c j)
    let x := j.beams.zipIdx.foldl (fun x p => put x (a + 64 + 8 * p.2) (State.itemWord p.1 false)) x
    let x := j.frames.zipIdx.foldl (fun x p => put x (a + 192 + 8 * p.2) (State.itemWord p.1 true)) x
    (x.2 = none → x.1.lineQ = [] → exec (.beamJobSave c key) s =
      .next (x.1.modBeam c j.key fun j => { j with st := .saved, q := none, frames := [], beams := [], preempted := true })) ∧
    ∀ e, x.2 = some e → (x.1.endBeam c j (some e)).lineQ = [] →
      (x.1.writeStatus j (State.statusWord j (some e))).1.jobHeld c j.key = false →
      Gives (.beamJobSave c key) s fun t => t.beam? c j.key = none ∧ (t.cluster c).beamDone.head? = some (j.id, j.ctx, State.statusWord j (some e))) ∧
  ∀ (c : Nat) (s : State) (j : BeamJob) (q : Query), s.beamsRunning c < 8 → s.nextBeam c = some j → j.st = .saved →
    s.readQuery j = .ok q → s.queryOk q j = true → s.jobHeld c j.key = false → (s.restoreBeam c j).lineQ = [] →
    (∀ j', s.loadArea c j q = .ok j' →
      (s.beamWrite j q.save.space.toNat (q.save.cursor.toNat + 512 * j.area) (toBytes 8 0)).2 = none →
      Gives (.beamJobRestore c j.key) s fun t => t.beam? c j.key = some j' ∧ j'.st = .running ∧ j'.q = some q) ∧
    ∀ e, s.loadArea c j q = .error e → (s.writeStatus j (State.statusWord j (some e))).1.jobHeld c j.key = false →
      Gives (.beamJobRestore c j.key) s fun t => t.beam? c j.key = none

/-- R184, R185, R294: a refill gives each context with a team on the die its share, up to twice the share, and lets its stalled words try again; a
division gives each die tokens in proportion to its activity, within the limit of a die, and lowered where its sensors read too much heat. The
amounts that the spec does not give, Config.powerTokens, dieTokens, hotDie and cooled, and how a division is lowered, are log 35 (the model's choice). -/
def BudgetsAndTokensAreShared : Prop :=
  (∀ (d : Nat) (s : State), Gives (.budgetRefill d) s fun t => t = { s with ctxs := t.ctxs } ∧
    ∀ x, let c := s.ctx x
      let share := s.shareOf d x
      (x ∈ s.ctxsOn d → FMap.get 0 (t.ctx x).budget d = min (2 ^ 32 - 1) (min (FMap.get 0 c.budget d + share) (2 * share)) ∧
        FMap.get false (t.ctx x).stalled d = false) ∧
      (x ∉ s.ctxsOn d → t.ctx x = c)) ∧
  ∀ (act : List Nat) (s : State),
    let total := (act.take 4).foldl (· + ·) 0
    Gives (.powerTokenDivision act) s fun t => t = { s with dies := t.dies, fresh := s.fresh + 4 } ∧ (total = 0 → t.dies = s.dies) ∧
      (total ≠ 0 → ∀ d, d < 4 →
        let share := min (Config.powerTokens s.host.pwrlim.toNat * act.getD d 0 / total) Config.dieTokens
        t.die d = { s.die d with
          tokens := if Config.hotDie (s.fresh + d) then min share (Config.cooled (s.fresh + d)) else share })

/-- R226, R229: the oldest region at TRE without sources commits when its reads still hold: its bytes reach memory at once, its entry is free, and its
lane's status tells of it; a region whose reads do not hold aborts with REGION_VALIDATE. The solo token passes to the lane that asked first. -/
def RegionsCommitTheirWrites : Prop :=
  (∀ (d n k : Nat) (s : State) (r : Region) (m : Member), s.committable d = some n → FMap.find? (s.die d).regions n = some r → NoSolo s →
    s.mapped = [] → s.heldW = [] → s.commitWaits r = false → FMap.sorted r.writes = true → (∀ e ∈ r.writes, isHbm e.1 = true) → s.member? k = some m → m.uid = r.uid → OwnUid s k m →
    r.st = .atTre → (∀ e ∈ (s.die d).regions, e.2.uid = r.uid → e.2.lane = r.lane → e.1 = n) →
    (s.readsHold r = true → Gives (.regionCommit d) s fun t => t.hostMem = s.hostMem ∧ t.peerMem = s.peerMem ∧
      FMap.find? (t.die d).regions n = none ∧ (∀ a, FMap.get 0 t.mem a = (FMap.find? r.writes a).getD (FMap.get 0 s.mem a)) ∧
      ∃ m', t.member? k = some m' ∧ m'.rstatOf r.lane = rstatCommit (m.rstatOf r.lane) ∧ m'.v = m.v ∧ m'.q = m.q) ∧
    (s.readsHold r = false → Gives (.regionCommit d) s fun t => MemSame s t ∧
      ((FMap.find? (t.die d).regions n).map Region.st) = some .aborted ∧
      ∃ m', t.member? k = some m' ∧ bits (m'.rstatOf r.lane).toNat 8 0 = Cause.regionValidate.toNat ∧ m'.v = m.v ∧ m'.q = m.q)) ∧
  ∀ (d : Nat) (s : State) (p : Nat × Nat) (rest : List (Nat × Nat)), s.soloReady d = true → ((s.pruneSolo d).die d).soloQ = p :: rest →
    Gives (.soloTokenGrant d) s fun t => (t.die d).soloGrant = some p ∧ (t.die d).soloQ = rest ∧ (t.die d).regions = (s.die d).regions ∧
      t = { s with dies := t.dies }

end Sys2Proof.Claims

/-- R68, R70, R123, R124, R150, R166, R168, R177, R178, R181, R186 to R189: the engines start jobs in order, perform them, and report. -/
def Obligations.EnginesPerformTheirJobs : Prop := MatrixJobsStartInOrder ∧ MatrixJobsComplete ∧ CopiesLandBySectors ∧ BaseJobsComplete

/-- R266, R274, R277, R279 to R281: the beam unit starts, steps, saves and restores its jobs. -/
def Obligations.BeamJobsRunToTheirEnd : Prop := BeamJobsStartAtTheRoot ∧ BeamStepsGoOnUntilNothingIsLeft ∧ BeamJobsAreSavedAndRestored

/-- R184, R185, R226, R229, R294: budgets, tokens, commits and the solo token. -/
def Obligations.SharesAndCommitsAreGranted : Prop := BudgetsAndTokensAreShared ∧ RegionsCommitTheirWrites

/-! ### Coherence messages -/

namespace Sys2Proof.Claims

/-- No step waits for a line, and tags enough are free for every sender (R238, R239). -/
def CanSend (s : State) : Prop := s.lineQ = [] ∧ s.tagsInUse.length ≤ 2048

/-- A message in flight that its receiver has not applied and can answer (R238). -/
structure Arrived (s : State) (k : MsgKind) (tag : Nat) (m : Msg) : Prop where
  here : s.msg? k tag = some m
  fresh : s.coh.applied.contains tag = false
  free : CanSend s

/-- A request that its home can take up: it is in flight, its line is an unmapped HBM line that is not BUSY, no lease holds it back, and no solo
region the words of a write (R229, R239, R246). -/
structure Ready (s : State) (k : MsgKind) (tag : Nat) (m : Msg) : Prop where
  here : Arrived s k tag m
  go : s.reqWaits m = false
  hbm : isHbm (m.line * 128) = true
  free : FMap.find? s.mapped m.line = none
  idle : (s.line m.line).queue = []
  cell : m.cell < 512
  line : m.line < 2 ^ 46
  solo : k = .wrt ∨ k = .atm → NoSolo s

/-- A request is answered: DATA goes to its cell. -/
def Answered (t : State) (m : Msg) (p : Msg → Prop) : Prop :=
  ∃ r ∈ t.coh.net, r.kind = .data ∧ r.re = m.tag ∧ r.line = m.line ∧ r.cell = m.cell ∧ p r

/-- R237 to R240, R244, R245, R248: a request without snoops is performed at its home. RDS makes the requester's cluster a sharer and brings the
words; RDO and UPG make its cell the owner of the span, and a UPG whose copy has gone brings the words too; LRD brings a line with its stamps, and URD the words of its span; WRT writes its words;
ATM performs its operation at the byte that it names, a compare and swap among them, and brings the old value. With snoops the line is BUSY until they are answered; a
request that finds it BUSY joins its queue while the slice has room, and is refused with NACK otherwise. -/
def RequestsAreServedAtTheirHome : Prop :=
  ∀ (tag : Nat) (s : State) (m : Msg),
    (s.snoops m = [] →
      (Ready s .rds tag m → Gives (.rds tag) s fun t => MemSame s t ∧
        Answered t m (fun r => r.span = m.span ∧ r.flag = false ∧ r.data = s.spanBytes m.line m.span) ∧
        (t.line m.line).mode = .dir ∧ (t.line m.line).sharers.getLsbD (clusterOfCell m.cell) = true) ∧
      (Ready s .rdo tag m → Gives (.rdo tag) s fun t => MemSame s t ∧
        Answered t m (fun r => r.span = m.span ∧ r.flag = true ∧ (m.flag = true → r.data = s.spanBytes m.line m.span)) ∧
        (t.line m.line).mode = .dir ∧ ∃ o ∈ (t.line m.line).owners, o.1 = m.cell ∧ m.span &&& ~~~o.2 = 0) ∧
      (Ready s .upg tag m → Gives (.upg tag) s fun t => MemSame s t ∧ Answered t m (fun r => r.span = m.span ∧ r.flag = true ∧
          ((s.line m.line).mode = .dir → (s.l1 m.cell m.line).valid &&& m.span ≠ m.span → r.data = s.spanBytes m.line m.span)) ∧
        (t.line m.line).mode = .dir ∧ ∃ o ∈ (t.line m.line).owners, o.1 = m.cell ∧ m.span &&& ~~~o.2 = 0) ∧
      (Ready s .lrd tag m → Gives (.lrd tag) s fun t => MemSame s t ∧ (t.line m.line).mode = .lease ∧
        Answered t m (fun r => r.data = s.lineBytes m.line ∧
          ((s.line m.line).mode = .lease → dieOfCell m.cell = dieOfPa (m.line * 128) →
            r.wts = (s.line m.line).wts ∧ r.exp = smax m.pts (s.line m.line).wts + m.exp))) ∧
      (Ready s .urd tag m → Gives (.urd tag) s fun t => MemSame s t ∧ Answered t m (fun r => r.data = s.spanBytes m.line m.span)) ∧
      (Ready s .wrt tag m → m.data.length = 4 * laneCount m.span → Gives (.wrt tag) s fun t => Answered t m (fun _ => True) ∧
        t.hostMem = s.hostMem ∧ t.peerMem = s.peerMem ∧
        ∀ w, w < 32 → t.num (m.line * 128 + 4 * w) 4 =
          match (lanesOf m.span).idxOf? w with
          | some n => ofBytes ((m.data.drop (4 * n)).take 4)
          | none => s.num (m.line * 128 + 4 * w) 4) ∧
      (Ready s .atm tag m →
        let a := m.line * 128 + m.off.toNat
        let back (n : Nat) (r : Msg) : Prop := r.data = toBytes (4 * laneCount m.span) (s.num a n) ∨ r.op = some (.store (s.num a n) false)
        (∀ op w b, m.op = some (.atom op w b) → m.off.toNat + atomBytes op w ≤ 128 →
          Gives (.atm tag) s fun t => Answered t m (back (atomBytes op w)) ∧ t.hostMem = s.hostMem ∧ t.peerMem = s.peerMem ∧
            t.bytes a (atomBytes op w) = toBytes (atomBytes op w) (atomF op w (s.num a (atomBytes op w)) b)) ∧
        ∀ e x, m.op = some (.cas e x) →
          let n := 4 * laneCount m.span
          m.off.toNat + n ≤ 128 →
          Gives (.atm tag) s fun t => Answered t m (back n) ∧ t.hostMem = s.hostMem ∧ t.peerMem = s.peerMem ∧
            t.bytes a n = if s.num a n = e % 2 ^ (8 * n) then toBytes n x else s.bytes a n)) ∧
    (m.kind ∈ [MsgKind.rds, .rdo, .upg, .lrd, .wrt, .urd, .atm] →
      (Ready s m.kind m.tag m → s.snoops m ≠ [] → (s.snoops m).length ≤ 1024 → Gives (State.msgInstr m) s fun t => MemSame s t ∧
        (t.line m.line).tx = some ⟨m, (s.snoops m).length, 0⟩ ∧ ∀ x ∈ s.snoops m, ∃ y ∈ t.coh.net, y = { x with tag := y.tag }) ∧
      (Arrived s m.kind m.tag m → NoSolo s → isHbm (m.line * 128) = true → FMap.find? s.mapped m.line = none → s.busy m.line = true →
        (s.sliceQueued m.line < 992 → Gives (State.msgInstr m) s fun t => MemSame s t ∧
          (t.line m.line).queue = (s.line m.line).queue ++ [m] ∧ t.coh.retry = s.coh.retry) ∧
        (1024 ≤ s.sliceQueued m.line → Gives (State.msgInstr m) s fun t => MemSame s t ∧ t.coh.lines = s.coh.lines ∧
          t.coh.retry = s.coh.retry ++ [{ m with nacks := m.nacks + 1, re := 0 }] ∧
          ∃ r ∈ t.coh.net, r.kind = .nack ∧ r.re = m.tag ∧ r.cell = m.cell)))

/-- R237, R238, R248: a snooped owner answers SNS and SNI with its words, which leave its dirty words and, for SNI, its copy and the other cells of
its cluster; one whose write-back is in flight answers WBIF, and that write-back answers the snoop. INV takes the span from every cell of its cluster but the requester and owned words,
and is answered with IACK. That SNI takes the span from the owner's whole cluster is log 20, the model's reading. -/
def SnoopsAreAnswered : Prop :=
  ∀ (tag : Nat) (s : State) (m : Msg), m.line < 2 ^ 46 →
    let crosses (x : Msg) : Bool := x.kind == .wb && x.line == m.line && x.cell == m.cell && x.span &&& m.span != 0 && x.re == 0
    let own (c : Nat) : Word := (((s.line m.line).owners.find? fun o => o.1 == c).map Prod.snd).getD 0
    let answer (inv : Bool) (t : State) : Prop := MemSame s t ∧
      (s.coh.net.any crosses = false →
        (t.l1 m.cell m.line).dirty = (s.l1 m.cell m.line).dirty &&& ~~~m.span ∧
        (inv = false → (t.l1 m.cell m.line).valid = (s.l1 m.cell m.line).valid) ∧
        (inv = true → (t.l1 m.cell m.line).valid &&& m.span = 0 ∧
          ((s.line m.line).tx = none → (t.l1 m.cell m.line).valid = (s.l1 m.cell m.line).valid &&& ~~~m.span)) ∧
        ∃ r ∈ t.coh.net, r.kind = .sdat ∧ r.re = m.re ∧ r.line = m.line ∧ r.cell = m.cell ∧ r.span = m.span ∧ r.flag = !inv ∧
          r.data = s.spanBytes m.line m.span) ∧
      (s.coh.net.any crosses = true → (∃ r ∈ t.coh.net, r.kind = .wbif ∧ r.re = m.re ∧ r.line = m.line ∧ r.cell = m.cell) ∧
        ∃ r ∈ t.coh.net, r.kind = .wb ∧ r.re = m.re + 1 ∧ r.line = m.line ∧ r.cell = m.cell) ∧
      (inv = false → s.coh.net.any crosses = true → t.coh.l1 = s.coh.l1)
    (Arrived s .sns tag m → Gives (.sns tag) s (answer false)) ∧
    (Arrived s .sni tag m → Gives (.sni tag) s fun t => answer true t ∧
      ∀ x c, (s.line m.line).tx = some x → clusterOfCell c = clusterOfCell m.cell → c ≠ x.req.cell → c ≠ m.cell →
        (t.l1 c m.line).valid = (s.l1 c m.line).valid &&& (~~~(State.reqSpan x.req) ||| own c)) ∧
    (Arrived s .inv tag m → Gives (.inv tag) s fun t => MemSame s t ∧
      (∃ r ∈ t.coh.net, r.kind = .iack ∧ r.re = m.re ∧ r.line = m.line ∧ r.cluster = m.cluster) ∧
      ∀ c, clusterOfCell c = m.cluster → c ≠ m.cell → (t.l1 c m.line).valid = (s.l1 c m.line).valid &&& (~~~m.span ||| own c))

/-- R237 to R239, R248: IACK, SDAT and the crossed WB count a response of the transaction that they answer, and its last response performs and
answers the request; the words of SDAT and WB leave their cell's ownership; WBIF alone leaves the transaction waiting; EVN clears its
cluster's sharer bit, once the transaction is complete whose INV it crosses. A second copy of a message that has been applied changes nothing but the
messages in flight (R238). That an owner that keeps its words after SDAT has its cluster's sharer bit set is log 20, the model's reading. -/
def ResponsesCompleteTransactions : Prop :=
  ∀ (tag : Nat) (s : State) (m : Msg) (tx : Tx),
    let counts (t : State) (re : Nat) : Prop := MemSame s t ∧
      ((s.line m.line).tx = some tx → tx.req.tag = re → 1 < tx.awaits → (t.line m.line).tx = some { tx with awaits := tx.awaits - 1 })
    (Arrived s .iack tag m → Gives (.iack tag) s fun t =>
      ((s.line m.line).tx = some tx → 1 < tx.awaits → counts t m.re) ∧
      ((s.line m.line).tx = some tx → tx.req.tag = m.re → tx.awaits = 1 → (s.line m.line).queue = [] → tx.req.line = m.line →
        tx.req.kind = .rdo → Answered t tx.req (fun r => r.span = tx.req.span ∧ r.flag = true) ∧ (t.line m.line).tx = none)) ∧
    (Arrived s .sdat tag m → 1 < tx.awaits → (s.line m.line).tx = some tx → Gives (.sdat tag) s fun t => counts t m.re ∧
      (∀ o ∈ (t.line m.line).owners, o.1 = m.cell → o.2 &&& m.span = 0) ∧
      (m.flag = true → m.cell < 512 → (t.line m.line).sharers.getLsbD (clusterOfCell m.cell) = true)) ∧
    (Arrived s .wb tag m → 1 < tx.awaits → (s.line m.line).tx = some tx → Gives (.wb tag) s fun t =>
      (m.re ≠ 0 → counts t (m.re - 1)) ∧
      ∀ o ∈ (t.line m.line).owners, o.1 = m.cell → o.2 &&& (m.span &&& ~~~(s.l1 m.cell m.line).dirty) = 0) ∧
    (s.msg? .wbif tag = some m → s.lineQ = [] → Gives (.wbif tag) s fun t =>
      t = { s with coh := { s.coh with net := s.coh.net.erase m, applied := t.coh.applied } }) ∧
    let crosses : Bool := s.coh.net.any fun x => (x.kind == .inv || x.kind == .iack) && x.line == m.line && x.cluster == m.cluster
    (Arrived s .evn tag m → (s.line m.line).tx = none ∨ crosses = false → s.clusterHolds m.cluster m.line = false → Gives (.evn tag) s fun t =>
      MemSame s t ∧ (t.line m.line).sharers.getLsbD m.cluster = false) ∧
    (Arrived s .evn tag m → (s.line m.line).tx = some tx → crosses = true → Gives (.evn tag) s fun t =>
      MemSame s t ∧ (t.line m.line).tx = some { tx with gone := tx.gone ||| BitVec.ofNat 64 (2 ^ m.cluster) }) ∧
    (s.msg? m.kind tag = some m → s.coh.applied.contains tag = true → m.kind ∈ [MsgKind.iack, .sdat, .wb, .wbif, .data, .nack, .inv, .sns, .sni] →
      Gives (State.msgInstr m) s fun t => t = { s with coh := { s.coh with net := s.coh.net.erase m, applied := t.coh.applied } })

/-- R237 to R240: a grant gives its cell the words that the directory still names it for; a LEASE reply leaves a copy with its stamps and raises
the cell's clock. A refused request is sent again 32·2^min(n, 5) clk after its NACK. -/
def GrantsAndRefusalsArrive : Prop :=
  ∀ (tag : Nat) (s : State) (m : Msg),
    (Arrived s .data tag m → m.line < 2 ^ 46 →
      (∀ w, (s.line m.line).mode = .dir → m.flag = true → ((s.line m.line).owners.find? fun o => o.1 == m.cell) = some (m.cell, w) →
        Gives (.data tag) s fun t => MemSame s t ∧ (t.l1 m.cell m.line).valid = (s.l1 m.cell m.line).valid ||| (m.span &&& w) ∧
          (t.l1 m.cell m.line).dirty = (s.l1 m.cell m.line).dirty ||| (m.span &&& w)) ∧
      ((s.line m.line).mode = .lease → m.data.length = 128 → dieOfCell m.cell = dieOfPa (m.line * 128) → m.op = none →
        ltS m.exp (s.die (dieOfCell m.cell)).floor = false →
        Gives (.data tag) s fun t => MemSame s t ∧ (t.l1 m.cell m.line).lease = some ⟨m.wts, m.exp, m.data, m.tags, m.poison⟩ ∧
          (t.cell m.cell).pts = smax (s.cell m.cell).pts m.wts)) ∧
    (Arrived s .nack tag m → Gives (.nack tag) s fun t => MemSame s t ∧
      ∀ n : Nat, t.coh.retry[n]? = (s.coh.retry[n]?).map fun x : Msg => if x.tag = m.re then { x with re := s.clk + 32 * 2 ^ min x.nacks 5 } else x) ∧
    (s.coh.retry.find? (fun m => m.tag == tag) = some m →
      (CanSend s → m.re ≠ 0 → m.re ≤ s.clk → Gives (.nackRetry tag) s fun t => MemSame s t ∧ t.coh.retry = s.coh.retry.erase m ∧
        ∃ y, t.coh.net = s.coh.net ++ [{ m with re := 0, tag := y }]) ∧
      (m.re = 0 ∨ s.clk < m.re → exec (.nackRetry tag) s = .next s))

/-- R240, R241, R246, R247: the clocks of a die tick together; a rebase raises its floor and every clock to it; the host takes a half of a DIR line
from its owners. -/
def ClocksTickAndHalvesMove : Prop :=
  (∀ (d : Nat) (s : State), Gives (.ptsTick d) s fun t =>
    (∀ c, (t.cell c).pts = if dieOfCell c = d then (s.cell c).pts + 1 else (s.cell c).pts) ∧
    ((∀ e ∈ s.coh.lines, e.2.queue = []) → MemSame s t ∧ t.members = s.members)) ∧
  (∀ (d : Nat) (s : State), (s.die d).floor ≠ floorFor (s.die d).tmax → Gives (.leaseRebase d) s fun t => MemSame s t ∧
    (t.die d).floor = floorFor (s.die d).tmax ∧
    ∀ c, (t.cell c).pts = if dieOfCell c = d then atLeast (floorFor (s.die d).tmax) (s.cell c).pts else (s.cell c).pts) ∧
  ∀ (n : Nat) (half : Bool) (s : State), isHbm (n * 128) = true → FMap.find? s.mapped n = none → s.busy n = false →
    (s.line n).mode = .dir ∨ (s.line n).mode = .empty → Gives (.hostHalfRequest n half) s fun t => MemSame s t ∧ (t.line n).mode = .dir ∧
      (t.line n).hown.getLsbD (if half then 1 else 0) = true ∧
      ∀ o ∈ (t.line n).owners, o.2 &&& (if half then 0xFFFF0000 else 0x0000FFFF) = 0

end Sys2Proof.Claims

/-- R237 to R240, R244 to R246, R248: what a home does with a request. -/
def Obligations.RequestsAreServed : Prop := RequestsAreServedAtTheirHome

/-- R236 to R241, R246 to R248: snoops, responses, grants, refusals and clocks. -/
def Obligations.CoherenceMessagesArrive : Prop :=
  SnoopsAreAnswered ∧ ResponsesCompleteTransactions ∧ GrantsAndRefusalsArrive ∧ ClocksTickAndHalvesMove

/-! ### The host, the links and the dies -/

namespace Sys2Proof.Claims

/-- Every byte of n from pa is backed, and both ends lie behind TRUSTED dies (R141, R291). -/
def Reachable (s : State) (pa n : Nat) : Prop :=
  (∀ i, i < n → backed (pa + i) = true) ∧ s.trusted (dieOfPa pa) = true ∧ s.trusted (dieOfPa (pa + n - 1)) = true

/-- R135, R141, R206, R229, R239, R295: a host write puts its bytes into device memory and no other byte changes, where none of its lines is BUSY and
nothing holds it; a host read receives what memory holds, after the host's held writes; an address that R141 does not back is an error, which
stops the machine (log 12, the model's choice). A write behind a die that is not TRUSTED is dropped, and a read there is open (log 45, the model's
choice). -/
def HostAccessesReachBackedMemory : Prop :=
  (∀ (pa : Nat) (bs : List Byte) (s : State), s.host.recovery = false →
    ((∃ i, i < bs.length ∧ backed (pa + i) = false) → exec (.hostWrite pa bs) s = .fault .unbackedAddress) ∧
    (Reachable s pa bs.length → bs ≠ [] → NoSolo s → s.mapped = [] → s.heldW = [] →
      (∀ i, i < bs.length → s.windowLent (pa + i) = false ∧ s.busy ((pa + i) / 128) = false) → Gives (.hostWrite pa bs) s fun t =>
      t.hostMem = s.hostMem ∧ t.peerMem = s.peerMem ∧
      ∀ a, isRegw a = false → FMap.get 0 t.mem a = if pa ≤ a ∧ a < pa + bs.length then bs.getD (a - pa) 0 else FMap.get 0 s.mem a) ∧
    ((∀ i, i < bs.length → backed (pa + i) = true) → s.trusted (dieOfPa pa) = false → exec (.hostWrite pa bs) s = .next s)) ∧
  ∀ (pa n : Nat) (s : State), s.host.recovery = false →
    ((∃ i, i < n ∧ backed (pa + i) = false) → exec (.hostRead pa n) s = .fault .unbackedAddress) ∧
    (Reachable s pa n → s.threadHeld 0 1 = false → (s.touchHome pa n false).lineQ = [] → Gives (.hostRead pa n) s fun t =>
      MemSame s t ∧ t.host.readData = s.bytes pa n ∧ t.members = s.members) ∧
    (Reachable s pa n → s.threadHeld 0 1 = true → exec (.hostRead pa n) s = .next s)

/-- R212, R300: a completion performs its request at the host or the peer and gives the old value to the lane that waits; one that meets an error
gives poison to the lane, or drops a posted store, as a peer that refuses one does, with an entry of the event log. -/
def RequestsOverTheHostLinkComplete : Prop :=
  let told (s t : State) : Prop := s.host.ev.en = true → (s.host.ev.tail - s.host.ev.head).toNat < 2 ^ s.host.ev.logsize.toNat →
    t.host.ev.tail = s.host.ev.tail + 1
  (∀ (s : State) (r : PcieReq) (rest : List PcieReq), s.pcie = r :: rest →
    let old := ofBytes (s.extBytes r.peer r.addr r.n)
    let gives (t : State) (x : Option Nat) : Prop := ∀ k m g dst ord left got poison held turn, r.posted = false → s.member? k = some m → m.uid = r.uid →
      OwnUid s k m → State.pcieGrp m r.lane = some g → (m.grp g).wait = some (.access dst ord left got poison held turn) →
      ∃ m', t.member? k = some m' ∧ (m'.grp g).wait = some (State.tookPcie r.lane r.addr x (.access dst ord left got poison held turn)) ∧
        m'.v = m.v ∧ m'.s = m.s ∧ m'.q = m.q
    (Gives (.pcieCompletion .ok) s fun t => t.pcie = rest ∧ t.mem = s.mem ∧ t.tags = s.tags ∧
      (∀ x, r.op.newVal r.n old = some x → t.extBytes r.peer r.addr r.n = toBytes r.n x) ∧
      (∀ a, ¬(r.addr ≤ a ∧ a < r.addr + r.n) → t.extByte r.peer a = s.extByte r.peer a) ∧ (∀ a, t.extByte (!r.peer) a = s.extByte (!r.peer) a) ∧
      gives t (some old)) ∧
    (r.op.reads = true → Gives (.pcieCompletion .error) s fun t => t.pcie = rest ∧ MemSame s t ∧ gives t none) ∧
    (∀ x tg, r.op = .store x tg → r.posted = true → Gives (.pcieCompletion .error) s fun t => t.pcie = rest ∧ t.peerMem = s.peerMem ∧ told s t)) ∧
  (∀ dst ord left got poison held turn lane addr x,
    State.tookPcie lane addr (some x) (.access dst ord left got poison held turn) = .access dst ord (left - 1) (got ++ [(lane, x)]) poison held turn) ∧
  ∀ (s : State) (r : PcieReq), s.pcie.find? (fun r => r.peer && r.posted && !r.op.reads) = some r → Gives .peerWriteFail s fun t =>
    t.pcie = s.pcie.erase r ∧ t.peerMem = s.peerMem ∧ told s t

/-- R45, R146, R263, R284, R287, R294, R296 to R298: what writes of the host's registers leave; an FLCFG keeps its LOGSIZE as written (log 52, the
model's choice). -/
def HostRegistersTakeWrites : Prop :=
  ∀ (s : State) (val : DWord), s.host.recovery = false →
    (1000 ≤ val.toNat % 2 ^ 12 → val.toNat % 2 ^ 12 ≤ 2700 → Gives (.registerWrite 0x160 val) s fun t =>
      t = { s with host := { s.host with pwrlim := val.setWidth 12 } }) ∧
    (val.extractLsb' 6 2 = 0 → Gives (.registerWrite 0x1008 val) s fun t => t = { s with host := { s.host with ctxctl := val.setWidth 6 } }) ∧
    (∀ x, x < 64 → (s.ctx x).en = false → Gives (.registerWrite (0x40000 + 256 * x) val) s fun t =>
      t = { s with ctxs := t.ctxs } ∧ t.ctx x = { s.ctx x with root := val &&& 0x000FFFFFFFFFF000 } ∧ ∀ y, y ≠ x → t.ctx y = s.ctx y) ∧
    (∀ d i, d < 4 → i < 4096 → (s.counter d i).v = false → Gives (.counterArm d i val) s fun t =>
      t.counter d i = { s.counter d i with v := true, ctx := val.extractLsb' 57 6, tdesc := val.extractLsb' 36 12, count := val.setWidth 32 } ∧
        t = { s with dies := t.dies }) ∧
    (∀ d i, d < 4 → i < 4096 → Gives (.counterDisarm d i val) s fun t => (t.counter d i).v = false ∧ t = { s with dies := t.dies }) ∧
    (∀ d, d < 4 → (val.extractLsb' 0 7).toNat ≤ 64 → Gives (.diehtWrite d val) s fun t =>
      t = { s with dies := t.dies } ∧ t.die d = { s.die d with dieht := val.extractLsb' 0 7 }) ∧
    (∀ x, x < 64 → Gives (.flcfgWrite (some x) val) s fun t => t = { s with ctxs := t.ctxs } ∧ (t.ctx x).log.en = val.getLsbD 16 ∧
      (t.ctx x).log.logsize = val.extractLsb' 0 5 ∧ (t.ctx x).log.vec = val.extractLsb' 5 11 ∧ (t.ctx x).log.base = (s.ctx x).log.base ∧
      ((s.ctx x).log.en = false → val.getLsbD 16 = true → (t.ctx x).log.head = 0 ∧ (t.ctx x).log.tail = 0)) ∧
    (∀ x, x < 64 → val.getLsbD 0 = true → (s.ctx x).en = false → (s.ctx x).tablesOk = true → Gives (.ctxenWrite x val) s fun t =>
      t = { s with ctxs := t.ctxs } ∧ (t.ctx x).en = true ∧ (t.ctx x).seq = 0 ∧ (t.ctx x).nextLid = 0 ∧ (∀ n, FMap.get 0 (t.ctx x).tok n = 0) ∧
        (t.ctx x).root = (s.ctx x).root) ∧
    (∀ x, x < 64 → val.getLsbD 0 = false → (∀ l ∈ s.launches, l.ctx ≠ x) → (∀ q ∈ s.queueKeys, (s.queue q).ctx.toNat = x → (s.queue q).en = false) →
      Gives (.ctxenWrite x val) s fun t => t = { s with ctxs := t.ctxs } ∧ t.ctx x = { s.ctx x with en := false }) ∧
    (∀ x, x < 64 → let pa := tableAddr (s.ctx x).captab + 16 * (val.toNat % 256)
      val.getLsbD 8 = true → isHbm pa = true → pa % 128 + 16 ≤ 128 → FMap.find? s.mapped (pa / 128) = none → NoSolo s → s.heldW = [] →
      s.linesWait pa 16 none = false → Gives (.capw x val) s fun t =>
        t.bytes pa 16 = toBytes 8 (s.ctx x).caplo.toNat ++ toBytes 8 (s.ctx x).caphi.toNat ∧ t.hostMem = s.hostMem) ∧
    (val.getLsbD 63 = true → s.host.tlbDone = true → Gives (.tlbinv val) s fun t => t.host.tlbDone = false ∧ MemSame s t ∧
      (∀ e ∈ t.coh.tlb ++ t.coh.tlb2, ∀ x ∈ e.2, x.ctx = (val.extractLsb' 57 6).toNat →
        val.getLsbD 1 = false ∧ x.va / 2 ^ x.bits ≠ (val.extractLsb' 16 41).toNat * 2 ^ 16 / 2 ^ x.bits) ∧
      ∀ e ∈ t.coh.walks, ∀ x ∈ e.2, x.ctx = (val.extractLsb' 57 6).toNat →
        val.getLsbD 1 = false ∧ x.va ≠ (val.extractLsb' 16 41).toNat * 2 ^ 16 / 2 ^ x.sh) ∧
    ((∀ m, m ∈ FMap.vals s.members ++ s.evicted → ∀ g ∈ m.names, (m.grp g).wait = none) →
      ((∀ e ∈ s.heldW, e.uid = 0 ∧ e.job = none) → (∀ e ∈ s.dies, ∀ r ∈ e.2.regions, r.2.ctx ≠ s.host.tlbCtx.toNat ∨ r.2.writes = []) →
        Gives .tlbinvDone s fun t => t = { s with host := { s.host with tlbDone := true } }) ∧
      ((∃ e ∈ s.heldW, e.uid ≠ 0 ∧ e.ctx = s.host.tlbCtx.toNat) → exec .tlbinvDone s = .next s) ∧
      ((∃ e ∈ s.dies, ∃ r ∈ e.2.regions, r.2.isOpen = true ∧ r.2.ctx = s.host.tlbCtx.toNat ∧ r.2.writes ≠ []) → exec .tlbinvDone s = .next s)) ∧
    (∀ x, x < 64 → (s.ctx x).halted = false → Gives (.ctxctlHalt x) s fun t => (t.ctx x).halted = true ∧ t.host.ctxctl.toNat = x ∧
      t.hostMem = s.hostMem ∧ t.peerMem = s.peerMem) ∧
    ∀ x, x < 64 → (s.ctx x).halted = true → Gives (.ctxctlGo x) s fun t => MemSame s t ∧ (t.ctx x).halted = false ∧ t.host.ctxctl.toNat = x ∧
      ∀ k m tm, t.member? k = some m → m.ctx = x → s.team? m.ctx m.team = some tm → tm.trap.v = false → m.run = .run

/-- R41, R284, R294, R296, R298: what reads of BAR0 return (through the model's function bar0Read, since no row of the table reads them: log 57): the
registers as they stand, DEVID a free value (log 9), a WEIGHT of 0 as 16, and 0 at an offset that the table does not list. -/
def RegistersReadBack : Prop :=
  ∀ (s : State), s.host.recovery = false → s.bar0Read 0 = Config.devid ∧ s.bar0Read 0x160 = s.host.pwrlim.setWidth 64 ∧
    (∀ d, d < 4 → s.bar0Read (0x100 + 8 * d) = (s.die d).dieht.setWidth 64) ∧
    (∀ x, x < 64 → s.bar0Read (0x40000 + 256 * x) = (s.ctx x).root ∧
      s.bar0Read (0x40008 + 256 * x) = BitVec.ofNat 64 (if (s.ctx x).weight = 0 then 16 else (s.ctx x).weight.toNat)) ∧
    (∀ q, q < 256 → s.bar0Read (0x100000 + 32 * q) = (s.queue q).base ∧ s.bar0Read (0x100010 + 32 * q) = (s.queue q).head.setWidth 64) ∧
    ∀ off, 0x8 ≤ off → off < 0x100 → s.bar0Read off = 0

/-- R248, R249, R293: a failed flit is sent again with the key it went with: the old key of its direction while none has gone with the new; and when the
retries are over so is every message on the link; a link whose recovery fails is down and carries no message, the lines of its messages and of the
accesses under way on it are poisoned, each lane of a thread that made one has its fault queued, and a store among them is not performed (how long an
access is under way is log 83, the model's choice); a key update, which 2^32 flits of a direction or an hour bring about by themselves,
installs a new key per direction beside the old ones, and its acknowledgement makes them the keys, while a receiver still takes the old one for
1,024 flits. When the retries are over and what the keys are are free values (log 8, the model's choice). -/
def LinksRetryFailAndChangeKeys : Prop :=
  ∀ (n : Nat) (s : State), n < 8 →
    Gives (.flitCrcFail n) s (fun t => t = { s with links := t.links, fresh := s.fresh + 1, coh := { s.coh with net := t.coh.net } } ∧
      (t.link n).retries = (s.link n).retries + 1 ∧ (t.link n).up = (s.link n).up ∧
      (∀ x y : LinkDir, (x, y) ∈ [((s.link n).out, (t.link n).out), ((s.link n).back, (t.link n).back)] →
        y = { x with resent := some (if x.flits = 0 then x.oldKey.getD x.key else x.key) }) ∧
      (∀ j, j ≠ n → t.link j = s.link j) ∧
      t.coh.net = s.coh.net ++ if Config.retriesOver s.fresh then s.coh.net.filter (s.crossesLink n) else []) ∧
    ((s.link n).up = true → Gives (.linkRecoveryFail n) s fun t => (t.link n).up = false ∧ (∀ m ∈ t.coh.net, t.crossesLink n m = false) ∧
      (∀ j, j ≠ n → (t.link j).up = (s.link j).up) ∧
      ((∀ e ∈ s.coh.lines, e.2.queue = []) → s.host.ev.en = false → s.mapped = [] →
        let lost (k : Nat) (who : Option ImpFault) : Prop :=
          (isHbm (k * 128 + 127) = true → ∀ i, i < 128 → t.bytePoisoned (k * 128 + i) = true) ∧
            ∀ f, who = some f → ∃ g ∈ t.impFaults, g.uid = f.uid ∧ g.lane = f.lane
        (∀ m ∈ s.coh.net, s.crossesLink n m = true → lost m.line m.who) ∧
        (∀ f ∈ s.coh.flights, n ∈ f.links → lost f.line (some f.who)) ∧
        ∀ e ∈ s.heldW, ∀ w, e.way = some w → n ∈ w.1 → lost (e.pa / 128) (some w.2.2) ∧ e ∉ t.heldW)) ∧
    (s.linkLive n = true → (s.link n).out.newKey = none →
      let begun (t : State) : Prop := t = { s with links := t.links, fresh := s.fresh + 2 } ∧
        (t.link n).out = { (s.link n).out with newKey := some (Config.linkKey s.fresh) } ∧
        (t.link n).back = { (s.link n).back with newKey := some (Config.linkKey (s.fresh + 1)) }
      let due : Prop := 2 ^ 32 ≤ (s.link n).out.flits ∨ 2 ^ 32 ≤ (s.link n).back.flits ∨ (s.link n).since + hourClk ≤ s.clk
      Gives (.keyUpdate n) s begun ∧ (due → Gives (.keyRollover n) s begun) ∧ (¬due → exec (.keyRollover n) s = .next s)) ∧
    ∀ x y, (s.link n).out.newKey = some x → (s.link n).back.newKey = some y → Gives (.keyUpdateAck n) s fun t => t = { s with links := t.links } ∧
      (t.link n).since = s.clk ∧
      (t.link n).out = { (s.link n).out with key := x, index := !(s.link n).out.index, newKey := none, flits := 0,
                                             oldKey := some (s.link n).out.key, grace := 1024 } ∧
      (t.link n).back = { (s.link n).back with key := y, index := !(s.link n).back.index, newKey := none, flits := 0,
                                               oldKey := some (s.link n).back.key, grace := 1024 }

/-- R290: each message of SPDM that a die out of RESET, or the IOD in its DOE mailbox (responder 4), answers is noted. That a message needs the ones
before it is the model's choice (log 46). -/
def SpdmMessagesAreAnswered : Prop :=
  ∀ (d : Nat) (s : State), d = 4 ∨ (d < 4 ∧ (s.die d).st ≠ .reset) →
    let sets (i : Instr) (ms : List SpdmMsg) : Prop := Gives i s fun t => t.spdmOf d = ms ∧ (∀ e, e ≤ 4 → e ≠ d → t.spdmOf e = s.spdmOf e) ∧
      t = { s with dies := t.dies, host := { s.host with doe := t.host.doe } } ∧ ∀ e, (t.die e).st = (s.die e).st
    let noted (i : Instr) (m : SpdmMsg) (needs : List SpdmMsg) : Prop :=
      m ∉ s.spdmOf d → (∀ n ∈ needs, n ∈ s.spdmOf d) → sets i (s.spdmOf d ++ [m])
    sets (.getVersion d) [.getVersion] ∧
    noted (.getCapabilities d) .getCapabilities [.getVersion] ∧ noted (.negotiateAlgorithms d) .negotiateAlgorithms [.getCapabilities] ∧
    noted (.getDigests d) .getDigests [.negotiateAlgorithms] ∧ noted (.getCertificate d) .getCertificate [.negotiateAlgorithms] ∧
    noted (.challenge d) .challenge [.negotiateAlgorithms] ∧ noted (.getMeasurements d) .getMeasurements [.negotiateAlgorithms] ∧
    noted (.keyExchange d) .keyExchange [.negotiateAlgorithms] ∧ noted (.finish d) .finish [.keyExchange] ∧
    (SpdmMsg.finish ∈ s.spdmOf d → sets (.endSession d) ((s.spdmOf d).filter fun m => m ≠ .keyExchange ∧ m ≠ .finish))

/-- R291, R292: a die goes from RESET by a verified image to ATTESTING, by attestation to TRUSTED or QUARANTINED, by the host's request to DRAINING, and
by the end of its work to RESET, where its teams have ended; a refused image puts every die in RESET (R301). -/
def DiesMoveThroughTheirStates : Prop :=
  ∀ (d : Nat) (s : State), d < 4 →
    (∀ v, (s.die d).st = .reset → s.host.recovery = false → s.host.fwVersion = v → s.host.fwMin ≤ v → Gives (.firmwareVerify d true v) s fun t =>
      (t.die d).st = .attesting ∧ t.host.fwMin = v ∧ t.host.fwVersion = v) ∧
    (∀ signed v, (s.die d).st = .reset → s.host.recovery = false → s.host.fwVersion = v → signed = false ∨ v < s.host.fwMin → Gives (.firmwareVerify d signed v) s fun t =>
      t.host.recovery = true ∧ ∀ e, e < 4 → (t.die e).st = .reset) ∧
    ((s.die d).st = .attesting → Gives (.attestationResult d false) s fun t => (t.die d).st = .quarantined) ∧
    ((s.die d).st = .attesting → SpdmMsg.finish ∈ (s.die d).spdm → Gives (.attestationResult d true) s fun t => (t.die d).st = .trusted) ∧
    (∀ val : DWord, val.getLsbD 0 = true → (s.die d).st ≠ .reset → (s.die d).st ≠ .draining → s.host.recovery = false →
      Gives (.dieResetRequest d val) s fun t => (t.die d).st = .draining) ∧
    ((s.die d).st = .draining → (s.dieBusy d = false → Gives (.dieDrainComplete d) s fun t => (t.die d).st = .reset ∧
      ∀ tm ∈ t.teams, tm.die = d → tm.live = 0) ∧ (s.dieBusy d = true → s.heldW = [] → exec (.dieDrainComplete d) s = .next s))

/-- R12 to R16, R241, R291, R293: a reset of a die begins its state anew, keeps what the host set, applies its retirement record to its cell table, and
brings every link of the die up; power-up puts every die in RESET and keeps the fuses; a frozen device issues nothing until then (R263). The model's
choices here: that memory which nothing has written reads as 0 (log 1), that the next move stands in State.schedule (log 3), that a channel's failure
counts at once (log 51), and what a reset and a power-up keep: a die's memory, host memory and the image (log 55). -/
def ResetsBeginAnew : Prop :=
  (∀ (d : Nat) (s : State), d < 4 → (s.die d).st = .reset → (∀ e ∈ s.coh.lines, e.2.queue = []) → Gives (.dieReset d) s fun t => MemSame s t ∧
    (t.die d).st = .reset ∧ (t.die d).tmax = 0xFFF0 ∧ (t.die d).floor = 0xC000 ∧ (t.die d).dieht = (s.die d).dieht ∧ (t.die d).counters = [] ∧
    (t.die d).regions = [] ∧ (t.die d).pending = [] ∧ (t.die d).cellTab = (s.die d).applyRetired.cellTab ∧
    (t.die d).retired = ((s.die d).retired ++ (s.die d).pending).eraseDups ∧ (∀ c, dieOfCell c = d → t.cell c = Cell.init) ∧
    (∀ c, dieOfCluster c = d → t.cluster c = Cluster.init) ∧ (∀ k, dieOfCell (cellOf k) = d → t.member? k = none) ∧
    (∀ n, n < 8 → (linkEnds n).1 = d ∨ (linkEnds n).2 = some d → (t.link n).up = true) ∧ ∀ e, e ≠ d → (t.die e).st = (s.die e).st) ∧
  (∀ s : State, Gives .powerUp s fun t => t.mem = [] ∧ t.tags = [] ∧ t.members = [] ∧ t.teams = [] ∧ t.launches = [] ∧ t.hostMem = s.hostMem ∧
    t.host.fwMin = s.host.fwMin ∧ t.frozen = false ∧ ∀ d, d < 4 → (t.die d).st = .reset ∧
      (t.die d).cellTab = (s.die d).applyRetired.cellTab ∧ (t.die d).retired = ((s.die d).retired ++ (s.die d).pending).eraseDups) ∧
  (∀ s : State, exec .deviceFreeze s = .next { s with frozen := true }) ∧
  ∀ (s : State) (k : Nat) (rest : List Move), s.frozen = true →
    (s.schedule = [] → step s = .next s.tick) ∧ (s.schedule = .issue k :: rest → step s = .next { s with schedule := rest, clk := s.clk + 1 })

/-- R13, R15, R148: a corrected error is counted; an uncorrectable one in HBM poisons what holds it, and one in a register poisons that; one in a wave's
vector registers counts towards the retirement of its cell's site, and one in a uniform or capability register does not; a failed channel of a stack
counts until its third is an event of its own. -/
def StorageErrorsAreCountedAndPoison : Prop :=
  (∀ (c w : Nat) (s : State), c < 512 → Gives (.storageError (.corrected c w)) s fun t =>
    FMap.get 0 (t.cell c).corr w = FMap.get 0 (s.cell c).corr w + 1) ∧
  (∀ (pa : Nat) (s : State), isHbm pa = true → s.mapped = [] → Gives (.storageError (.uncorrectable pa)) s fun t =>
    t.mem = s.mem ∧ t.members = s.members ∧ ∀ a, a / 32 = pa / 32 → t.bytePoisoned a = true) ∧
  (∀ (k l p : Nat) (s : State) (m : Member), l < 32 → p < 32 → s.member? k = some m → NoSolo s → (s.cell (cellOf k)).uncorr ≠ 1 →
    Gives (.storageError (.registerFile k l p)) s fun t => ∃ m', t.member? k = some m' ∧ m'.v = m.v ∧
      FMap.get false m'.pv (l * 32 + p) = true ∧
      (t.cell (cellOf k)).uncorr = if slotOf k < 16 then (s.cell (cellOf k)).uncorr + 1 else (s.cell (cellOf k)).uncorr) ∧
  (∀ (k n w : Nat) (s : State) (m : Member), s.member? k = some m →
    (n < 64 → Gives (.storageError (.uniformFile k n)) s fun t => t = { s with members := t.members } ∧
      ∃ m', t.member? k = some m' ∧ m'.s = m.s ∧ FMap.get false m'.ps n = true) ∧
    (n < 16 → w < 2 → Gives (.storageError (.capabilityFile k n w)) s fun t => t = { s with members := t.members } ∧
      ∃ m', t.member? k = some m' ∧ m'.c = m.c ∧ FMap.get false m'.pk (2 * n + w) = true)) ∧
  ∀ (d st ch : Nat) (s : State), d < 4 → st < 3 → ch < 32 → Gives (.storageError (.channel d st ch)) s fun t =>
    if FMap.get 0 (s.die d).chret st < 2 then FMap.get 0 (t.die d).chret st = FMap.get 0 (s.die d).chret st + 1
    else (t.die d).chx.getLsbD st = true

/-- R301: an update verifies, then programs the image that it verified; only a signed image of at least the fused version is programmed. -/
def FirmwareUpdatesVerifyThenProgram : Prop :=
  ∀ s : State,
    (∀ val : DWord, val.getLsbD 63 = true → s.host.fwState ≠ 1 → s.host.fwState ≠ 2 → Gives (.firmwareUpdate val) s fun t =>
      t = { s with host := { s.host with fwState := 1 } }) ∧
    ∀ signed v prog, Gives (.firmwareUpdateEnd signed v prog) s fun t =>
      (s.host.fwState = 1 → t = { s with host :=
        { s.host with fwState := if signed = false then 4 else if v < s.host.fwMin then 5 else 2, fwNew := v } }) ∧
      (s.host.fwState = 2 → prog = true → t = { s with host := { s.host with fwState := 3, fwVersion := s.host.fwNew, recovery := false } }) ∧
      (s.host.fwState = 2 → prog = false → t = { s with host := { s.host with fwState := 6 } })

end Sys2Proof.Claims

/-- R135, R141, R206, R212, R295, R300: traffic between the device, the host and its peers. -/
def Obligations.HostTrafficReachesMemory : Prop := HostAccessesReachBackedMemory ∧ RequestsOverTheHostLinkComplete

/-- R41, R45, R146, R263, R284, R287, R294, R296 to R298: the registers of the host. -/
def Obligations.HostRegistersKeepTheirWrites : Prop := HostRegistersTakeWrites ∧ RegistersReadBack

/-- R248, R290, R293: links, keys and SPDM messages. -/
def Obligations.LinksAndSessionsAdvance : Prop := LinksRetryFailAndChangeKeys ∧ SpdmMessagesAreAnswered

/-- R12 to R16, R148, R241, R263, R291, R292, R301: the states of the dies, resets, storage errors and firmware. -/
def Obligations.DiesResetAttestAndRetire : Prop :=
  DiesMoveThroughTheirStates ∧ ResetsBeginAnew ∧ StorageErrorsAreCountedAndPoison ∧ FirmwareUpdatesVerifyThenProgram

/-! ### Wakes, faults and handlers -/

namespace Sys2Proof.Claims

/-- A resident member whose only group sleeps in a wait, in a context that is not all asleep. -/
structure Sleeps (s : State) (k : Nat) (m : Member) (w : Wait) : Prop where
  here : s.member? k = some m
  run : m.run = .run
  alone : m.subs = [] ∧ m.cur = none ∧ m.serial = [] ∧ m.trapLanes = 0
  root : m.root.st = .run ∧ m.root.mask ≠ 0 ∧ m.root.wait = some w
  awake : (s.ctx m.ctx).asleep = false

/-- The member once its group has gone on at the next word. -/
def woken (m : Member) : Member := { m with root := { m.root with wait := none, pc := nextPc m.root.pc } }

/-- R170, R203, R204, R207, R218, R226, R229, R261, R310, R392: a sleeping group goes on when its condition holds, with what its word writes, its
cell keeping no LEASE copy then (log 66), and sleeps on otherwise; one that waits for the solo token, or behind a held write (log 31), tries its word again; one in TRE goes on when none of its
lanes has an open region (log 24). -/
def SleepersWakeWhenTheirConditionHolds : Prop :=
  ∀ (s : State) (k : Nat) (m : Member),
    let goes (m' : Member) : Prop := ∃ t, exec (.waitWake k) s = .next (t.setMember k (woken m')) ∧ Acquired s t k
    let again : Prop := exec (.waitWake k) s = .next (s.setMember k { m with root := { m.root with wait := none } })
    let stays : Prop := exec (.waitWake k) s = .next s
    (∀ cls n, Sleeps s k m (.cnt cls n) → (m.count cls ≤ n → goes m) ∧ (n < m.count cls → stays)) ∧
    (∀ mask, Sleeps s k m (.allTags mask) →
      (s.doneSet (cellOf k) m.ctx mask.toNat = mask.toNat → goes m) ∧ (s.doneSet (cellOf k) m.ctx mask.toNat ≠ mask.toNat → stays)) ∧
    (∀ d mask en, Sleeps s k m (.anyTag d mask en) → m.lent = [] →
      (s.doneSet (cellOf k) m.ctx mask.toNat ≠ 0 →
        goes (m.setLanes .n32 d (lanesOf en) fun _ => lowestTag (s.doneSet (cellOf k) m.ctx mask.toNat))) ∧
      (s.doneSet (cellOf k) m.ctx mask.toNat = 0 → stays)) ∧
    (∀ id, Sleeps s k m (.job id) →
      (s.jobOpen (clusterOfCell (cellOf k)) id = false → goes m) ∧ (s.jobOpen (clusterOfCell (cellOf k)) id = true → stays)) ∧
    (∀ q en stale toks, Sleeps s k m (.bar (some q) en stale toks) →
      (s.barPassed m.ctx m.team toks = true → goes (m.writeQ q.toNat en stale)) ∧ (s.barPassed m.ctx m.team toks = false → stays)) ∧
    (∀ en stale toks, Sleeps s k m (.bar none en stale toks) →
      (s.barPassed m.ctx m.team toks = true → goes m) ∧ (s.barPassed m.ctx m.team toks = false → stays)) ∧
    (Sleeps s k m .child → (s.hasChildren m.ctx m.team = false → goes m) ∧ (s.hasChildren m.ctx m.team = true → stays)) ∧
    (∀ en, Sleeps s k m (.tre en) →
      (s.regionLanes (cellOf k) m.uid &&& en = 0 → goes m) ∧ (s.regionLanes (cellOf k) m.uid &&& en ≠ 0 → stays)) ∧
    (Sleeps s k m .solo →
      (s.soloGo (dieOfCell (cellOf k)) m none = true → again) ∧ (s.soloGo (dieOfCell (cellOf k)) m none = false → stays)) ∧
    (∀ pa n, Sleeps s k m (.behind pa n) →
      (s.threadHeld m.uid m.root.mask = false → n = 0 ∨ (s.soloHolds pa n = none ∧ s.heldAt pa n = false) → again) ∧
      (s.threadHeld m.uid m.root.mask = true → stays)) ∧
    ∀ last, Sleeps s k m (.exitPark last) → s.hasChildren m.ctx m.team = true → stays

/-- R389: a WAITADR of one lane on its scratchpad reads again, which it may do at any time (log 37, the model's choice): it goes on with what it read when
that meets the condition, and sleeps on otherwise. -/
def WaitadrReadsAgain : Prop :=
  ∀ (s : State) (k l a val d : Nat) (m : Member) (w64 eq : Bool) (c : Cap), Sleeps s k m (.adr w64 eq d 0 false c [(l, a, val)]) → SlotExists k →
    c.space = 2 → m.lent = [] →
    let t : Ty := if w64 then .n64 else .n32
    let x := s.num (spadBase + cellOf k * 2 ^ 18 + a) t.bytes
    s.lateCheck m.ctx (cellOf k) 2 t.bytes true false true [(l, a)] = .ok () →
    ((if eq then x = val else x ≠ val) → exec (.waitadrWake k) s = .next (s.setMember k (woken (m.setVal t l d x)))) ∧
    (¬(if eq then x = val else x ≠ val) → exec (.waitadrWake k) s = .next s)

/-- A trap taken at a time of the device's own choice: the team's trap area holds its cause, and the interrupted group stands at the handler. -/
def TrappedBy (t : State) (k : Nat) (m : Member) (tm : Team) (imp : Bool) (cause : BitVec 9) (lane : Nat) (tpc tfpc : Addr) (addr : DWord) : Prop :=
  ∃ tm' m', t.team? m.ctx m.team = some tm' ∧ t.member? k = some m' ∧ tm'.trap.v = true ∧ tm'.trap.imp = imp ∧ tm'.trap.oex = false ∧
    tm'.trap.cause = cause ∧ tm'.trap.lane = BitVec.ofNat 6 lane ∧ tm'.trap.tpc = tpc ∧ tm'.trap.tfpc = tfpc ∧ tm'.trap.taddr = addr ∧
    m'.cur = m.cur ∧ m'.curGrp.pc = tm.handler ∧ m'.curGrp.wait = none ∧ m'.curGrp.mask = m.curGrp.mask ∧ m'.run = .run ∧ m'.lat = [] ∧
    m'.v = m.v ∧ m'.s = m.s ∧ m'.c = m.c ∧ m'.q = m.q

/-- R253, R254, R257: an imprecise fault enters the handler of its team, at the member that caused it, with the PC at which its group resumes; while a
trap is under way it is held; and the fault of a retired team goes to the log of its context, with IMP and OEX, and nowhere else. -/
def ImpreciseFaultsAreDelivered : Prop :=
  ∀ (s : State) (k : Nat) (m : Member) (tm : Team) (f : ImpFault), s.impFaults = [f] →
    (CanTrap s k m tm → f.uid = m.uid → f.ctx = m.ctx → f.team = m.team → f.lid = tm.lid → m.q0 ≠ 0 → m.curGrp.st = .run →
      m.curGrp.mask ≠ 0 → Gives .impreciseFault s fun t => t.impFaults = [] ∧ TrappedBy t k m tm true f.cause f.lane m.savedPc f.pc f.addr) ∧
    (s.team? f.ctx f.team = some tm → f.lid = tm.lid → tm.trap.v = true → Gives .impreciseFault s fun t =>
      t.impFaults = [] ∧ MemSame s t ∧ t.members = s.members ∧ (t.team? f.ctx f.team).map Team.held = some (tm.held ++ [f])) ∧
    (s.team? f.ctx f.team = none → Gives .impreciseFault s fun t =>
      let r := (s.ctx f.ctx).log
      t.impFaults = [] ∧ t.teams = s.teams ∧ t.members = s.members ∧
      (r.en = true → (r.tail - r.head).toNat < 2 ^ r.logsize.toNat → (t.ctx f.ctx).log = { r with tail := r.tail + 1 } ∧
        (r.base.getLsbD 63 = true → t.extBytes false (r.base.toNat % 2 ^ 63 + 32 * (r.tail.toNat % 2 ^ r.logsize.toNat)) 32 =
          State.wordBytes (State.LogEntry.words
            { launch := f.lid, oex := true, imp := true, cause := f.cause, pc := f.pc.toNat, addr := f.addr.toNat, team := f.team,
              ctx := f.ctx, die := f.die, cell := f.cell % 128, member := f.member }))))

/-- R259, R260: a context all asleep raises ALL_ASLEEP at the lowest sleeper of its team; one whose sleep the host or a peer can end is only marked,
and an entry of its log says so. -/
def SleepingContextsAreFound : Prop :=
  ∀ (s : State) (x k : Nat) (m : Member) (tm : Team), s.allAsleep x = true →
    let armed : Bool := (FMap.vals s.members ++ s.evicted).any fun m =>
      m.ctx == x && m.names.any fun g => ((m.grp g).wait.map State.armedOutside).getD false
    (armed = false → s.teams.filter (fun t => t.ctx == x) = [tm] → s.lowestSleeper tm = some m → CanTrap s k m tm →
      m.curGrp.st = .run → m.curGrp.mask ≠ 0 → m.curGrp.wait.map State.deepWait = some true → Gives (.allAsleep x) s fun t =>
        TrappedBy t k m tm false Cause.allAsleep (lowest m.curGrp.mask) m.pc m.pc 0) ∧
    (armed = true → (s.ctx x).asleep = false → Gives (.allAsleep x) s fun t => (t.ctx x).asleep = true ∧ t.teams = s.teams ∧
      ((s.ctx x).log.en = true → ((s.ctx x).log.tail - (s.ctx x).log.head).toNat < 2 ^ (s.ctx x).log.logsize.toNat →
        (t.ctx x).log.tail = (s.ctx x).log.tail + 1))

/-- R168, R284, R285, R287, R288: a decrement whose lane's stores are performed lowers its counter, and the last one disarms it and, when HPC and RECPTR pass
their checks, sends a handler record with the 48 bytes at RECPTR, and lowers the message count of its sender, where that still has lanes; one for
another context's counter is an imprecise SIG_COUNTER; a handler record is queued, once no
held write that its sender has released is left (log 69, the model's reading), and starts a team of one thread at its entry with its arguments. -/
def SignalsStartHandlers : Prop :=
  (∀ (d : Nat) (s : State) (g : SigMsg) (rest : List SigMsg), (s.die d).sigs = g :: rest → s.laneStored g.uid g.lane = true →
    let c := s.counter d g.index
    (c.v = true → c.ctx.toNat = g.ctx → c.count.toNat - g.d ≠ 0 → Gives (.sigDecrement d) s fun t => MemSame s t ∧ (t.die d).sigs = rest ∧
      t.counter d g.index = { c with count := BitVec.ofNat 32 (c.count.toNat - g.d) } ∧ (t.die d).hin = (s.die d).hin) ∧
    (c.v = true → c.ctx.toNat = g.ctx → c.count.toNat - g.d = 0 → Gives (.sigDecrement d) s fun t => (t.die d).sigs = rest ∧
      (t.counter d g.index).v = false ∧ (t.counter d g.index).count = 0 ∧
      ∀ kind, s.markKind g.ctx (c.hpc.toNat * 8) = some kind → kind ≠ 1 → c.recptr.toNat % 16 = 0 →
        ∀ (pa : Nat) (lf : Nat → Option Leaf), isHbm pa = true → pa % 128 + 48 ≤ 128 → (∀ i, i < 3 →
          s.reach g.ctx (d * 128) spGlobal (c.recptr.toNat + 16 * i) 16 true false = .ok (.dev (pa + 16 * i) (lf i))) → s.poisoned pa 48 = false →
          (∀ m, m ∈ FMap.vals s.members ++ s.evicted → m.uid = g.uid → m.q0 ≠ 0) →
          MemSame s t ∧ (∀ k m, s.member? k = some m → OwnUid s k m →
            t.member? k = some (if m.uid = g.uid then m.setCount 4 (m.count 4 - 1) else m)) ∧
          ∃ h, (t.die d).hin = (s.die d).hin ++ [h] ∧ h.rcd.kind = 5 ∧ h.rcd.entry = c.hpc ∧ h.rcd.owner = g.ctx ∧
            h.rcd.seq = (s.ctx g.ctx).seq ∧ ∀ n, n < 12 → h.rcd.a.getD n 0 = BitVec.ofNat 32 (s.num (pa + 4 * n) 4)) ∧
    ((c.v = true → c.ctx.toNat ≠ g.ctx) → Gives (.sigDecrement d) s fun t => MemSame s t ∧ (t.die d).sigs = rest ∧ t.counter d g.index = c ∧
      ∃ f, t.impFaults = s.impFaults ++ [f] ∧ f.cause = Cause.sigCounter ∧ f.pc = g.pc ∧ f.uid = g.uid)) ∧
  (∀ (d : Nat) (s : State) (h : HandlerRec) (rest : List HandlerRec), (s.die d).hin = h :: rest → (s.die d).hq.length < 1024 →
    s.arrivalWaits (.handler d) = false → s.spilledFor (.handler d) = [] → Gives (.handlerRecordArrival d) s fun t => MemSame s t ∧ (t.die d).hin = rest ∧
      (t.die d).hq = (s.die d).hq ++ [h]) ∧
  ∀ (d c n : Nat) (s : State) (h : HandlerRec), (s.die d).hq.find? (fun h => !(s.ctx h.rcd.owner).halted) = some h →
    State.handlerFaulty h.rcd = false → s.trusted d = true → s.handlerSlot d = some (c, n) →
    Gives (.handlerDispatch d) s fun t => MemSame s t ∧ (t.die d).hq = (s.die d).hq.erase h ∧
      ∃ tm m, t.teams = s.teams ++ [tm] ∧ tm.ctx = h.rcd.owner ∧ tm.isHandler = true ∧ tm.entry = h.rcd.entry ∧ tm.depth = h.rcd.depth.toNat ∧
        tm.live = 1 ∧ tm.lid = h.orig.lid ∧ tm.cell = c ∧ tm.splen = 0 ∧
        t.member? (scalKey c n) = some m ∧ m.scalar = true ∧ m.ctx = h.rcd.owner ∧ m.team = tm.handle ∧ m.q0 = 1 ∧ Started m 0 h.rcd.entry h.rcd.a

end Sys2Proof.Claims

/-- R170, R203, R204, R218, R226, R261, R310, R389, R392: how sleeping groups wake. -/
def Obligations.SleepersWake : Prop := SleepersWakeWhenTheirConditionHolds ∧ WaitadrReadsAgain

/-- R147, R253, R254, R257, R259, R260, R284, R285, R287, R288: faults, sleep and signals that the device delivers. -/
def Obligations.DeviceDeliversFaultsAndSignals : Prop := ImpreciseFaultsAreDelivered ∧ SleepingContextsAreFound ∧ SignalsStartHandlers

/-! ### Completion -/

namespace Sys2Proof.Claims

/-- A word answers a next state in which its group goes on at the next word with its uniform registers as they were. -/
def Completes (i : Instr) (s : State) (k : Nat) (m : Member) : Prop := GoesOn' i s k fun _ m' => m'.curGrp.pc = nextPc m.pc ∧ m'.s = m.s

/-- A trap word answers a next state in which the team's trap area holds its cause and code, and the group stands at the handler. -/
def EntersHandler (i : Instr) (s : State) (k : Nat) (m : Member) (tm : Team) (cause : Cause) (code : BitVec 8) : Prop :=
  GoesOn' i s k fun t m' => m'.curGrp.pc = tm.handler ∧
    (t.team? m.ctx m.team).map (fun x => (x.trap.v, x.trap.cause, x.trap.code, x.trap.tpc)) = some (true, cause, code, nextPc m.pc)

/-- R142, R143: the write that registers a free, aligned range of the team's scratchpad, and the one that deregisters the team's own entry,
complete. -/
def MappingWritesComplete : Prop :=
  ∀ (n : Nat) (val : DWord) (ks : List Nat) (s : State) (k : Nat) (m : Member) (tm : Team), n < 16 → Issues s k m →
    NoRegion s k m ⟨0, false, 7⟩ → m.enabled ⟨0, false, 7⟩ ≠ 0 → s.team? m.ctx m.team = some tm →
    let e := s.spEntry (cellOf k) n
    let off := bits val.toNat 17 0
    let len := bits val.toNat 28 18
    (e.v = false → bits val.toNat 62 29 = 0 → 1 ≤ len → len ≤ 1024 → off % 256 = 0 → e.gva.toNat % 256 = 0 → tm.spbase ≤ off →
      off + len * 256 ≤ tm.spbase + tm.splen → s.mapLines (cellOf k) m.ctx e.gva.toNat (len * 256) = some ks → hasDup ks = false →
      GoesOn' (.spmapRegister n val) s k fun t m' => (t.spEntry (cellOf k) n).v = true ∧ m'.curGrp.pc = nextPc m.pc) ∧
    (e.v = true → e.ctx = m.ctx → e.team = m.team →
      GoesOn' (.spmapDeregister n val) s k fun t m' => (t.spEntry (cellOf k) n).v = false ∧ m'.curGrp.pc = nextPc m.pc)

/-- R55, R159, R162, R252, R255, R324, R330, R348, R352, R363, R392, R395: the words of the queues, of traps and of special registers complete when
their own checks pass: they go on at the next word, and TRAP and BKPT at the handler. -/
def QueueTrapAndRegisterWordsComplete : Prop :=
  ∀ (h : Hdr) (t : Ty) (d : BitVec 6) (o : MemOp) (b : Src) (sq : BitVec 6) (code : BitVec 8) (csr : BitVec 12) (s : State) (k : Nat) (m : Member)
    (tm : Team), Issues s k m → NoRegion s k m h → m.enabled h ≠ 0 → s.team? m.ctx m.team = some tm →
    let i := issOf k m h
    let lanes : List (Nat × Nat) := (on m h).map fun l => (l, m.addr o l)
    let idle := idleLanes m (m.src64 b)
    let next : State := s.setMember k m.advance
    exec (.nop h) s = .next next ∧
    (m.q0 ≠ 0 → m.scalar = true → exec (.join h.ec) s = .next next) ∧
    (m.scalar = true → Completes (.yld h) s k m) ∧
    (s.heldW = [] → s.ldfCheck i (m.creg o.cap.toNat) lanes = .ok () → Completes (.ldf h t d o) s k m) ∧
    (∀ a n, enqCheck i o s = .ok (a, n) → laneCount (m.enabled h) ≤ n.free → Completes (.enq h o) s k m) ∧
    (∀ a q, m.scalar = false → refillCheck i o (fun q => min idle.length ((q.tail + 2 ^ 32 - q.head) % 2 ^ 32)) s = .ok (a, q) →
      Completes (.refillQ h d o b) s k m) ∧
    (∀ kind, m.scalar = false → markCheck s m.ctx (nextPc m.pc).toNat [1, 3] = .ok kind →
      (∀ x ∈ (s.cluster (clusterOfCell (cellOf k))).buckets, ∀ r ∈ x.recs, recFaulty s r = false ∧ r.setq = none) →
      Completes (.refillBkt h d b) s k m) ∧
    (∀ l, on m h = [l] → launchCheck i o sq s = .ok () →
      packetCheck (s.sread i (m.creg o.cap.toNat).space.toNat (m.addr o l) 8).1 m.ctx
        (s.sread i (m.creg o.cap.toNat).space.toNat (m.addr o l) 8).2 = .ok () → Completes (.launch h o sq) s k m) ∧
    (s.hasChildren m.ctx m.team = false → Completes (.waitch h) s k m) ∧
    (CanTrap s k m tm → EntersHandler (.trap h code) s k m tm Cause.trapInstr code ∧ EntersHandler (.bkpt h code) s k m tm Cause.breakpoint code) ∧
    (∀ x, s.csrVal i csr.toNat = some x →
      exec (.csrr h d csr) s = .next (s.setMember k (m.setS d.toNat (BitVec.ofNat 64 x)).advance)) ∧
    Completes (.csrw h 0x141 b) s k m ∧ Completes (.csrw h 0x104 b) s k m

/-- R237 to R241, R247, R248: the rows of the coherence protocol complete. A request that its home can take up and that snoops no cell is answered
with DATA; another message for a line that is not BUSY, of which one copy is in flight, is taken out of flight, and memory and every thread
stay; the clocks of a die tick, its floor rises, and the host takes a half of a line. -/
def CoherenceRowsComplete : Prop :=
  ∀ (tag : Nat) (s : State) (m : Msg),
    let answers (k : MsgKind) (i : Instr) : Prop :=
      Ready s k tag m → s.snoops m = [] → Gives i s fun t => t.hostMem = s.hostMem ∧ t.peerMem = s.peerMem ∧ Answered t m fun _ => True
    let quiet (k : MsgKind) (i : Instr) : Prop :=
      Arrived s k tag m → s.busy m.line = false → s.coh.net.count m = 1 → Gives i s fun t => MemSame s t ∧ t.members = s.members ∧ m ∉ t.coh.net
    answers .rds (.rds tag) ∧ answers .rdo (.rdo tag) ∧ answers .upg (.upg tag) ∧ answers .lrd (.lrd tag) ∧ answers .urd (.urd tag) ∧
    answers .wrt (.wrt tag) ∧ answers .atm (.atm tag) ∧
    quiet .sns (.sns tag) ∧ quiet .sni (.sni tag) ∧ quiet .inv (.inv tag) ∧ quiet .iack (.iack tag) ∧ quiet .sdat (.sdat tag) ∧
    quiet .wb (.wb tag) ∧ quiet .wbif (.wbif tag) ∧ quiet .evn (.evn tag) ∧ quiet .data (.data tag) ∧ quiet .nack (.nack tag) ∧
    (CanSend s → s.coh.retry.find? (fun x => x.tag == tag) = some m → m.re ≠ 0 → m.re ≤ s.clk → Gives (.nackRetry tag) s fun t =>
      MemSame s t ∧ t.coh.retry = s.coh.retry.erase m) ∧
    (∀ d, (∀ e ∈ s.coh.lines, e.2.queue = []) → Gives (.ptsTick d) s fun t => MemSame s t ∧ t.members = s.members) ∧
    (∀ d, (s.die d).floor ≠ floorFor (s.die d).tmax → Gives (.leaseRebase d) s fun t => MemSame s t ∧ (t.die d).floor = floorFor (s.die d).tmax) ∧
    ∀ n half, isHbm (n * 128) = true → FMap.find? s.mapped n = none → s.busy n = false → (s.line n).mode = .dir →
      Gives (.hostHalfRequest n half) s fun t => MemSame s t ∧ (t.line n).hown.getLsbD (if half then 1 else 0) = true

/-- R184, R185, R226, R229, R274, R277, R279, R281, R294: the rows that share power, commit regions, grant the solo token, and run the beam unit
complete when the unit can act and no line makes it wait. -/
def ControllerRowsComplete : Prop :=
  ∀ (s : State) (c d : Nat) (j : BeamJob) (q : Query),
    (Gives (.budgetRefill d) s fun t => t = { s with ctxs := t.ctxs }) ∧
    (∀ act, Gives (.powerTokenDivision act) s fun t => t = { s with dies := t.dies, fresh := s.fresh + 4 }) ∧
    (∀ n r, s.committable d = some n → FMap.find? (s.die d).regions n = some r → s.commitWaits r = false → s.readsHold r = true →
      Gives (.regionCommit d) s fun t => FMap.find? (t.die d).regions n = none ∧ t.hostMem = s.hostMem ∧ t.peerMem = s.peerMem) ∧
    (∀ p rest, s.soloReady d = true → ((s.pruneSolo d).die d).soloQ = p :: rest →
      Gives (.soloTokenGrant d) s fun t => (t.die d).soloGrant = some p ∧ (t.die d).soloQ = rest) ∧
    (s.beamsRunning c < 8 → s.nextBeam c = some j →
      (j.st = .waiting → s.threadHeld j.uid 0xFFFFFFFF = false → (s.startBeam c j).lineQ = [] →
        exec (.beamJobStart c) s = .next (s.startBeam c j)) ∧
      (j.st = .saved → s.jobHeld c j.key = false → (s.restoreBeam c j).lineQ = [] →
        exec (.beamJobRestore c j.key) s = .next (s.restoreBeam c j))) ∧
    (s.beam? c j.key = some j → j.st = .running → j.q = some q → s.jobHeld c j.key = false →
      (s.mustSave c j = true → (s.saveBeam c j q).lineQ = [] → exec (.beamJobSave c j.key) s = .next (s.saveBeam c j q)) ∧
      (s.mustSave c j = false → (∀ f, j.frames.getLast? = some f → s.mergeWaits j q f = false) →
        (s.beamAdvance j q).2.2 = none → ¬((s.beamAdvance j q).2.1.frames = [] ∧ (s.beamAdvance j q).2.1.beams = []) →
        (s.beamAdvance j q).1.lineQ = [] →
        exec (.beamStep c j.key) s = .next ((s.beamAdvance j q).1.modBeam c j.key fun _ => (s.beamAdvance j q).2.1)))

/-- The device refuses no instruction: every row answers a next state in every state, but for an access of the host to an address that R141 does
not back, outside recovery mode, which stops the machine (log 12, the model's choice). -/
def NoInstructionIsRefused : Prop :=
  ∀ (i : Instr) (s : State),
    (∀ pa bs, i = .hostWrite pa bs → s.host.recovery = true ∨ ∀ n, n < bs.length → backed (pa + n) = true) →
    (∀ pa n, i = .hostRead pa n → s.host.recovery = true ∨ ∀ j, j < n → backed (pa + j) = true) → ∃ t, exec i s = .next t

end Sys2Proof.Claims

/-- R55, R142, R143, R159, R162, R252, R255, R324, R330, R348, R352, R363, R392, R395: the words of queues, traps, special registers and mappings
complete when their own checks pass. -/
def Obligations.QueueTrapAndMappingWritesComplete : Prop := QueueTrapAndRegisterWordsComplete ∧ MappingWritesComplete

/-- R141, R184, R185, R226, R229, R237 to R241, R247, R248, R274, R277, R279, R281, R294: every instruction answers a next state, but for the host's
accesses to unbacked addresses; the rows of controllers and of the coherence protocol have the effect that is theirs. -/
def Obligations.EveryInstructionAnswersANextState : Prop := NoInstructionIsRefused ∧ ControllerRowsComplete ∧ CoherenceRowsComplete

/-! ### Encoding, steps, invariants, reset -/

/-- R96, R105 to R107: words that the spec prints, and what they are. -/
def Obligations.PrintedWordsDecodeToTheirInstructions : Prop :=
  decode 0x01830402CF007000 = .ok (.and ⟨⟨0, false, 7⟩, .n32, false, false, 4⟩ (.v 2) (.imm 15)) ∧
  decode 0x01A30402CF007000 = .ok (.or ⟨⟨0, false, 7⟩, .n32, false, false, 4⟩ (.v 2) (.imm 15)) ∧
  decode 0x02410402C4007000 = .ok (.sar ⟨⟨0, false, 7⟩, .i32, false, false, 4⟩ (.v 2) (.imm 4)) ∧
  decode 0x0343020000007001 = .ok (.icmp ⟨0, false, 7⟩ .n32 2 (.v 0) (.v 0) 1) ∧
  decode 0x0CA0000000001000 = .ok (.exit ⟨0, false, 1⟩) ∧
  decode 0x0CC0000000007000 = .ok (.nop ⟨0, false, 7⟩)

/-- R96 to R108: decoding the word of a well-formed instruction gives it back, with every operand, and what decodes is well formed and has a
word. -/
def Obligations.DecodeInvertsEncode : Prop :=
  (∀ (i : Instr) (w : DWord), i.wf = true → encode i = some w → decode w = .ok i) ∧
    ∀ (w : DWord) (i : Instr), decode w = .ok i → i.wf = true ∧ (encode i).isSome = true

/-- R69: bits 11 to 7 of a register window's offset name the lane, bits 6 to 2 the register above v32, and bits 1 and 0 the byte. -/
def Obligations.RegisterWindowsShowTheUpperRegisters : Prop :=
  ∀ (s : State) (cell slot o : Nat) (m : Member), cell < 512 → slot < 16 → o < 2 ^ 12 → s.member? (waveKey cell slot) = some m →
    let pa := regwBase + cell * 2 ^ 16 + slot * 2 ^ 12 + o
    let lane := o / 2 ^ 7
    let reg := 32 + o / 4 % 32
    s.byte pa = (m.vreg lane reg).extractLsb' (8 * (o % 4)) 8 ∧
    ∀ x : Byte, ∃ m', s.setByte pa x = s.setMember (waveKey cell slot) m' ∧ (m'.vreg lane reg).extractLsb' (8 * (o % 4)) 8 = x ∧
      (∀ b, b < 4 → b ≠ o % 4 → (m'.vreg lane reg).extractLsb' (8 * b) 8 = (m.vreg lane reg).extractLsb' (8 * b) 8) ∧
      ∀ l n, l < 32 → n < 64 → ¬(l = lane ∧ n = reg) → m'.vreg l n = m.vreg l n

/-- R28, R39, R61, R96, R108, R149, R153, R239: when the next move is a member's that does not yield to another one, and no fault and no abort comes first,
and its word decodes and need not wait, the step is that word's effect with the member as the issuer, after the translation of its page is kept,
its energy is paid, and what it releases past its own held writes is noted (log 69), and followed by what ends every word; a wave's word in a scalar thread, and a word that consumes poison, trap instead; a word that meets a line which makes it wait has no effect. A scheduled
event's step is its effect, and time passes first where it is a write of the host's registers behind a held write of the host (R295, log 100). -/
def Obligations.AStepRunsTheDecodedInstruction : Prop :=
  (∀ (s : State) (k : Nat) (m : Member) (i : Instr) (lf : Leaf) (rest : List Move), s.schedule = .issue k :: rest → s.frozen = false →
    s.runnable k = true → s.yieldTo k = k → s.member? k = some m → s.adriftFor m = none → s.abortedHere k m = [] →
    let s0 := ({ s with schedule := rest }).beginWord k m
    s0.instrAt (cellOf k) m.ctx m.pc = .ok i → s0.fetchLeaf (cellOf k) m.ctx m.pc = .ok lf → chainCause m.chain i = none →
    let s1 := s0.fillTlb (cellOf k) m.ctx m.pc.toNat lf
    let iss : Iss := ⟨k, m, m.cur, m.enabled (Instr.header i)⟩
    let wave : Bool := Instr.waveOnly i && m.scalar
    (wave = true → step s = .next ((s1.raiseAny iss { cause := Cause.waveOnly }).finishWord k m i)) ∧
    (wave = false → s1.stalls iss i = false → s1.beamFull iss i = false →
      (∀ l ls, poisonLanes s1 iss i = l :: ls → s1.regionLanes (cellOf k) m.uid = 0 →
        step s = .next ((s1.raise iss { cause := Cause.poison, lane := some l }).finishWord k m i)) ∧
      (poisonLanes s1 iss i = [] → s1.behind iss i = none →
        (∀ t, exec i ((s1.tell iss i).debit iss (Instr.cost i)) = .next t →
          (t.lineQ = [] → step s = .next (t.finishWord k m i)) ∧ (t.lineQ ≠ [] → step s = (s1.markAll t.lineQ).waitWord k)) ∧
        (∀ f, exec i ((s1.tell iss i).debit iss (Instr.cost i)) = .fault f → step s = .fault f)))) ∧
  ∀ (s : State) (i : Instr) (rest : List Move), s.schedule = .event i :: rest →
    (s.eventWaits i = false → step s = exec i { s with schedule := rest, issuer := none }) ∧ (s.eventWaits i = true → step s = s.freeStep)

/-- The invariant of memory holds at reset: nothing is listed. -/
def Obligations.ResetMemoryIsCanonical : Prop := State.reset.MemOk

/-- Every step keeps device, host and peer memory in canonical form, so that equal memories are equal data. -/
def Obligations.EveryStepKeepsMemoryCanonical : Prop := ∀ s t : State, s.MemOk → step s = .next t → t.MemOk

/-- R12, R16, R41, R234, R240, R241, R263, R284, R291, R297, R298: what reset leaves: every die in RESET and nothing resident. (Where the spec states
no value, the value is the model's, of log 2, and no clause here names it.) -/
def Obligations.ResetLeavesEveryDieInReset : Prop :=
  let s := State.reset
  (∀ d, d < 4 → (s.die d).st = .reset ∧ (s.die d).dieht = 16 ∧ (s.die d).tmax = 0xFFF0 ∧ (s.die d).floor = 0xC000 ∧ (s.die d).hq = [] ∧
    (s.die d).regions = [] ∧ (s.die d).soloHolder = none ∧ s.trusted d = false) ∧
  (∀ c, c < 512 → (s.cell c).pts = 0xFFF0 ∧ (s.cell c).ready = [] ∧ (s.cell c).tag = []) ∧
  (∀ k, s.member? k = none) ∧ s.teams = [] ∧ s.launches = [] ∧ (∀ q, (s.queue q).en = false ∧ (s.queue q).head = 0 ∧ (s.queue q).tail = 0) ∧
  (∀ x, (s.ctx x).en = false ∧ (s.ctx x).halted = false) ∧ (∀ n, (s.line n).mode = .empty) ∧ s.frozen = false
end

