-- ==== Sys2Proof/Laws/FMap.lean ====
section
/-!
SUPPORT. Laws/FMap.lean: what a sparse map holds after a write, and that every operation keeps its canonical form.
-/
namespace Sys2Proof.FMap

variable {β : Type}

/-! ### Reading after writing -/

@[simp] theorem find?_nil (n : Nat) : find? ([] : FMap β) n = none := rfl
@[simp] theorem get_nil (d : β) (n : Nat) : get d ([] : FMap β) n = d := rfl

@[simp] theorem find?_del_self (m : FMap β) (n : Nat) : find? (del m n) n = none := by
  induction m with
  | nil => rfl
  | cons p t ih =>
    obtain ⟨k, v⟩ := p
    by_cases h : k = n <;> simp_all [del, find?]

theorem find?_del_ne (m : FMap β) {n k : Nat} (h : k ≠ n) : find? (del m n) k = find? m k := by
  induction m with
  | nil => rfl
  | cons p t ih =>
    obtain ⟨l, v⟩ := p
    by_cases g : l = n
    · subst g; simp_all [del, find?, Ne.symm h]
    · by_cases e : l = k <;> simp_all [del, find?]

/-- Inserting a key that the map does not list: the key is found, and every other key as before. -/
theorem find?_insertOrd (m : FMap β) (n k : Nat) (v : β) (h : find? m n = none) :
    find? (insertOrd m n v) k = if n = k then some v else find? m k := by
  induction m with
  | nil => rfl
  | cons p t ih =>
    obtain ⟨l, w⟩ := p
    by_cases e : l = n
    · simp [find?, e] at h
    · simp only [find?, e, if_false] at h
      by_cases g : n < l
      · simp [insertOrd, g, find?]
      · simp only [insertOrd, g, if_false, find?, ih h]
        by_cases c : n = k
        · subst c; simp [e]
        · simp [c]

@[simp] theorem find?_ins_self (m : FMap β) (n : Nat) (v : β) : find? (ins m n v) n = some v := by
  simp [ins, find?_insertOrd]

theorem find?_ins_ne (m : FMap β) {n k : Nat} (v : β) (h : k ≠ n) : find? (ins m n v) k = find? m k := by
  simp [ins, find?_insertOrd, Ne.symm h, find?_del_ne m h]

@[simp] theorem get_put_self [DecidableEq β] (d : β) (m : FMap β) (n : Nat) (v : β) : get d (put d m n v) n = v := by
  by_cases h : v = d <;> simp [get, put, h]

theorem get_put_ne [DecidableEq β] (d : β) (m : FMap β) {n k : Nat} (v : β) (h : k ≠ n) : get d (put d m n v) k = get d m k := by
  by_cases g : v = d
  · simp [get, put, g, find?_del_ne m h]
  · simp [get, put, g, find?_ins_ne m v h]

/-- A written key reads as written, and every other one as before. -/
theorem get_put [DecidableEq β] (d : β) (m : FMap β) (n k : Nat) (v : β) :
    get d (put d m n v) k = if k = n then v else get d m k := by
  by_cases h : k = n
  · subst h; simp
  · simp [h, get_put_ne d m v h]

/-- A key that is found is listed with its value. -/
theorem mem_of_find? {m : FMap β} {n : Nat} {v : β} (h : find? m n = some v) : (n, v) ∈ m := by
  induction m with
  | nil => cases h
  | cons p t ih =>
    obtain ⟨k, w⟩ := p
    by_cases e : k = n
    · simp only [find?, e, if_true, Option.some.injEq] at h; simp [e, h]
    · simp only [find?, e, if_false] at h; simp [ih h]

/-- What holds of the default and of every listed value holds of every read. -/
theorem get_ind {p : β → Prop} {d : β} {m : FMap β} (hd : p d) (h : ∀ e ∈ m, p e.2) (n : Nat) : p (get d m n) := by
  unfold get
  cases g : find? m n with
  | none => exact hd
  | some v => exact h _ (mem_of_find? g)

/-! ### Writing twice -/

theorem del_insertOrd (m : FMap β) (n : Nat) (v : β) : del (insertOrd m n v) n = del m n := by
  induction m with
  | nil => simp [insertOrd, del]
  | cons p t ih =>
    obtain ⟨l, w⟩ := p
    by_cases g : n < l
    · simp [insertOrd, g, del]
    · simp only [insertOrd, g, if_false, del] at ih ⊢
      by_cases e : l = n <;> simp_all

@[simp] theorem del_ins (m : FMap β) (n : Nat) (v : β) : del (ins m n v) n = del m n := by
  rw [ins, del_insertOrd]; simp [del]

/-- The last of two writes of a key counts. -/
@[simp] theorem ins_ins (m : FMap β) (n : Nat) (v w : β) : ins (ins m n v) n w = ins m n w := by
  show insertOrd (del (ins m n v) n) n w = _
  rw [del_ins]; rfl

/-! ### The canonical form -/

theorem wf_tail [DecidableEq β] {d : β} {p : Nat × β} {m : FMap β} (h : wf d (p :: m) = true) : wf d m = true := by
  cases m with
  | nil => rfl
  | cons q t => simp_all [wf]

/-- Every key after the first is greater. -/
theorem wf_lt [DecidableEq β] {d : β} {k : Nat} {v : β} {m : FMap β} (h : wf d ((k, v) :: m) = true) : ∀ p ∈ m, k < p.1 := by
  induction m generalizing k v with
  | nil => simp
  | cons q t ih =>
    obtain ⟨l, w⟩ := q
    simp only [wf, Bool.and_eq_true, decide_eq_true_eq] at h
    intro p hp
    cases List.mem_cons.1 hp with
    | inl e => subst e; exact h.1.2
    | inr e => exact Nat.lt_trans h.1.2 (ih h.2 p e)

theorem wf_ne [DecidableEq β] {d : β} {k : Nat} {v : β} {m : FMap β} (h : wf d ((k, v) :: m) = true) : v ≠ d := by
  cases m with
  | nil => simpa [wf] using h
  | cons q t => simp_all [wf]

/-- A pair before greater keys. -/
theorem wf_cons [DecidableEq β] {d : β} {k : Nat} {v : β} {m : FMap β} (hv : v ≠ d) (hm : wf d m = true) (hk : ∀ p ∈ m, k < p.1) :
    wf d ((k, v) :: m) = true := by
  cases m with
  | nil => simpa [wf] using hv
  | cons q t => simp [wf, hv, hm, hk q (by simp)]

/-- Dropping entries keeps the form. -/
theorem wf_filter [DecidableEq β] {d : β} (p : Nat × β → Bool) {m : FMap β} (h : wf d m = true) : wf d (List.filter p m) = true := by
  induction m with
  | nil => rfl
  | cons q t ih =>
    obtain ⟨k, v⟩ := q
    rw [List.filter_cons]
    split
    · exact wf_cons (wf_ne h) (ih (wf_tail h)) fun x hx => wf_lt h x (List.mem_filter.1 hx).1
    · exact ih (wf_tail h)

theorem wf_del [DecidableEq β] {d : β} {m : FMap β} (n : Nat) (h : wf d m = true) : wf d (del m n) = true := wf_filter _ h

theorem mem_insertOrd {m : FMap β} {n : Nat} {v : β} {p : Nat × β} (h : p ∈ insertOrd m n v) : p = (n, v) ∨ p ∈ m := by
  induction m with
  | nil => simpa [insertOrd] using h
  | cons q t ih =>
    obtain ⟨k, w⟩ := q
    by_cases g : n < k
    · simpa [insertOrd, g] using h
    · simp only [insertOrd, g, if_false, List.mem_cons] at h
      rcases h with h | h
      · exact .inr (by simp [h])
      · rcases ih h with e | e
        · exact .inl e
        · exact .inr (by simp [e])

theorem wf_insertOrd [DecidableEq β] {d : β} {m : FMap β} {n : Nat} {v : β} (hv : v ≠ d) (hm : wf d m = true)
    (hn : ∀ p ∈ m, p.1 ≠ n) : wf d (insertOrd m n v) = true := by
  induction m with
  | nil => simpa [insertOrd, wf] using hv
  | cons q t ih =>
    obtain ⟨k, w⟩ := q
    by_cases g : n < k
    · simp only [insertOrd, g, if_true]
      refine wf_cons hv hm fun p hp => ?_
      cases List.mem_cons.1 hp with
      | inl e => subst e; exact g
      | inr e => exact Nat.lt_trans g (wf_lt hm p e)
    · simp only [insertOrd, g, if_false]
      refine wf_cons (wf_ne hm) (ih (wf_tail hm) fun p hp => hn p (by simp [hp])) fun p hp => ?_
      rcases mem_insertOrd hp with e | e
      · subst e
        have := hn (k, w) (by simp)
        simp only at this ⊢; omega
      · exact wf_lt hm p e

/-- A write keeps the form. -/
theorem wf_put [DecidableEq β] {d : β} {m : FMap β} (n : Nat) (v : β) (h : wf d m = true) : wf d (put d m n v) = true := by
  by_cases g : v = d
  · simpa [put, g] using wf_del n h
  · simp only [put, g, if_false, ins]
    exact wf_insertOrd g (wf_del n h) fun p hp => by simpa using (List.mem_filter.1 hp).2

end Sys2Proof.FMap
end

