-- ==== Sys2Proof/Laws/State.lean ====
section
/-!
SUPPORT. Laws/State.lean: what each part of the state is after each update of one part: the part written as it was written, every
other one as before.
-/
namespace Sys2Proof.Machine

namespace State

/-! ### setDie -/

@[simp] theorem setDie_mem (s : State) (d : Nat) (x : Die) : (s.setDie d x).mem = s.mem := rfl
@[simp] theorem setDie_tags (s : State) (d : Nat) (x : Die) : (s.setDie d x).tags = s.tags := rfl
@[simp] theorem setDie_poisonW (s : State) (d : Nat) (x : Die) : (s.setDie d x).poisonW = s.poisonW := rfl
@[simp] theorem setDie_poisonS (s : State) (d : Nat) (x : Die) : (s.setDie d x).poisonS = s.poisonS := rfl
@[simp] theorem setDie_mapped (s : State) (d : Nat) (x : Die) : (s.setDie d x).mapped = s.mapped := rfl
@[simp] theorem setDie_hostMem (s : State) (d : Nat) (x : Die) : (s.setDie d x).hostMem = s.hostMem := rfl
@[simp] theorem setDie_peerMem (s : State) (d : Nat) (x : Die) : (s.setDie d x).peerMem = s.peerMem := rfl
@[simp] theorem setDie_clusters (s : State) (d : Nat) (x : Die) : (s.setDie d x).clusters = s.clusters := rfl
@[simp] theorem setDie_cells (s : State) (d : Nat) (x : Die) : (s.setDie d x).cells = s.cells := rfl
@[simp] theorem setDie_members (s : State) (d : Nat) (x : Die) : (s.setDie d x).members = s.members := rfl
@[simp] theorem setDie_evicted (s : State) (d : Nat) (x : Die) : (s.setDie d x).evicted = s.evicted := rfl
@[simp] theorem setDie_teams (s : State) (d : Nat) (x : Die) : (s.setDie d x).teams = s.teams := rfl
@[simp] theorem setDie_launches (s : State) (d : Nat) (x : Die) : (s.setDie d x).launches = s.launches := rfl
@[simp] theorem setDie_posted (s : State) (d : Nat) (x : Die) : (s.setDie d x).posted = s.posted := rfl
@[simp] theorem setDie_queues (s : State) (d : Nat) (x : Die) : (s.setDie d x).queues = s.queues := rfl
@[simp] theorem setDie_ctxs (s : State) (d : Nat) (x : Die) : (s.setDie d x).ctxs = s.ctxs := rfl
@[simp] theorem setDie_arbUsed (s : State) (d : Nat) (x : Die) : (s.setDie d x).arbUsed = s.arbUsed := rfl
@[simp] theorem setDie_lastQ (s : State) (d : Nat) (x : Die) : (s.setDie d x).lastQ = s.lastQ := rfl
@[simp] theorem setDie_coh (s : State) (d : Nat) (x : Die) : (s.setDie d x).coh = s.coh := rfl
@[simp] theorem setDie_pcie (s : State) (d : Nat) (x : Die) : (s.setDie d x).pcie = s.pcie := rfl
@[simp] theorem setDie_heldW (s : State) (d : Nat) (x : Die) : (s.setDie d x).heldW = s.heldW := rfl
@[simp] theorem setDie_late (s : State) (d : Nat) (x : Die) : (s.setDie d x).late = s.late := rfl
@[simp] theorem setDie_impFaults (s : State) (d : Nat) (x : Die) : (s.setDie d x).impFaults = s.impFaults := rfl
@[simp] theorem setDie_links (s : State) (d : Nat) (x : Die) : (s.setDie d x).links = s.links := rfl
@[simp] theorem setDie_host (s : State) (d : Nat) (x : Die) : (s.setDie d x).host = s.host := rfl
@[simp] theorem setDie_frozen (s : State) (d : Nat) (x : Die) : (s.setDie d x).frozen = s.frozen := rfl
@[simp] theorem setDie_clk (s : State) (d : Nat) (x : Die) : (s.setDie d x).clk = s.clk := rfl
@[simp] theorem setDie_issuer (s : State) (d : Nat) (x : Die) : (s.setDie d x).issuer = s.issuer := rfl
@[simp] theorem setDie_nextUid (s : State) (d : Nat) (x : Die) : (s.setDie d x).nextUid = s.nextUid := rfl
@[simp] theorem setDie_lineQ (s : State) (d : Nat) (x : Die) : (s.setDie d x).lineQ = s.lineQ := rfl
@[simp] theorem setDie_fresh (s : State) (d : Nat) (x : Die) : (s.setDie d x).fresh = s.fresh := rfl
@[simp] theorem setDie_turn (s : State) (d : Nat) (x : Die) : (s.setDie d x).turn = s.turn := rfl
@[simp] theorem setDie_schedule (s : State) (d : Nat) (x : Die) : (s.setDie d x).schedule = s.schedule := rfl

/-! ### setCluster -/

@[simp] theorem setCluster_mem (s : State) (c : Nat) (x : Cluster) : (s.setCluster c x).mem = s.mem := rfl
@[simp] theorem setCluster_tags (s : State) (c : Nat) (x : Cluster) : (s.setCluster c x).tags = s.tags := rfl
@[simp] theorem setCluster_poisonW (s : State) (c : Nat) (x : Cluster) : (s.setCluster c x).poisonW = s.poisonW := rfl
@[simp] theorem setCluster_poisonS (s : State) (c : Nat) (x : Cluster) : (s.setCluster c x).poisonS = s.poisonS := rfl
@[simp] theorem setCluster_mapped (s : State) (c : Nat) (x : Cluster) : (s.setCluster c x).mapped = s.mapped := rfl
@[simp] theorem setCluster_hostMem (s : State) (c : Nat) (x : Cluster) : (s.setCluster c x).hostMem = s.hostMem := rfl
@[simp] theorem setCluster_peerMem (s : State) (c : Nat) (x : Cluster) : (s.setCluster c x).peerMem = s.peerMem := rfl
@[simp] theorem setCluster_dies (s : State) (c : Nat) (x : Cluster) : (s.setCluster c x).dies = s.dies := rfl
@[simp] theorem setCluster_cells (s : State) (c : Nat) (x : Cluster) : (s.setCluster c x).cells = s.cells := rfl
@[simp] theorem setCluster_members (s : State) (c : Nat) (x : Cluster) : (s.setCluster c x).members = s.members := rfl
@[simp] theorem setCluster_evicted (s : State) (c : Nat) (x : Cluster) : (s.setCluster c x).evicted = s.evicted := rfl
@[simp] theorem setCluster_teams (s : State) (c : Nat) (x : Cluster) : (s.setCluster c x).teams = s.teams := rfl
@[simp] theorem setCluster_launches (s : State) (c : Nat) (x : Cluster) : (s.setCluster c x).launches = s.launches := rfl
@[simp] theorem setCluster_posted (s : State) (c : Nat) (x : Cluster) : (s.setCluster c x).posted = s.posted := rfl
@[simp] theorem setCluster_queues (s : State) (c : Nat) (x : Cluster) : (s.setCluster c x).queues = s.queues := rfl
@[simp] theorem setCluster_ctxs (s : State) (c : Nat) (x : Cluster) : (s.setCluster c x).ctxs = s.ctxs := rfl
@[simp] theorem setCluster_arbUsed (s : State) (c : Nat) (x : Cluster) : (s.setCluster c x).arbUsed = s.arbUsed := rfl
@[simp] theorem setCluster_lastQ (s : State) (c : Nat) (x : Cluster) : (s.setCluster c x).lastQ = s.lastQ := rfl
@[simp] theorem setCluster_coh (s : State) (c : Nat) (x : Cluster) : (s.setCluster c x).coh = s.coh := rfl
@[simp] theorem setCluster_pcie (s : State) (c : Nat) (x : Cluster) : (s.setCluster c x).pcie = s.pcie := rfl
@[simp] theorem setCluster_heldW (s : State) (c : Nat) (x : Cluster) : (s.setCluster c x).heldW = s.heldW := rfl
@[simp] theorem setCluster_late (s : State) (c : Nat) (x : Cluster) : (s.setCluster c x).late = s.late := rfl
@[simp] theorem setCluster_impFaults (s : State) (c : Nat) (x : Cluster) : (s.setCluster c x).impFaults = s.impFaults := rfl
@[simp] theorem setCluster_links (s : State) (c : Nat) (x : Cluster) : (s.setCluster c x).links = s.links := rfl
@[simp] theorem setCluster_host (s : State) (c : Nat) (x : Cluster) : (s.setCluster c x).host = s.host := rfl
@[simp] theorem setCluster_frozen (s : State) (c : Nat) (x : Cluster) : (s.setCluster c x).frozen = s.frozen := rfl
@[simp] theorem setCluster_clk (s : State) (c : Nat) (x : Cluster) : (s.setCluster c x).clk = s.clk := rfl
@[simp] theorem setCluster_issuer (s : State) (c : Nat) (x : Cluster) : (s.setCluster c x).issuer = s.issuer := rfl
@[simp] theorem setCluster_nextUid (s : State) (c : Nat) (x : Cluster) : (s.setCluster c x).nextUid = s.nextUid := rfl
@[simp] theorem setCluster_lineQ (s : State) (c : Nat) (x : Cluster) : (s.setCluster c x).lineQ = s.lineQ := rfl
@[simp] theorem setCluster_fresh (s : State) (c : Nat) (x : Cluster) : (s.setCluster c x).fresh = s.fresh := rfl
@[simp] theorem setCluster_turn (s : State) (c : Nat) (x : Cluster) : (s.setCluster c x).turn = s.turn := rfl
@[simp] theorem setCluster_schedule (s : State) (c : Nat) (x : Cluster) : (s.setCluster c x).schedule = s.schedule := rfl

/-! ### setCell -/

@[simp] theorem setCell_mem (s : State) (c : Nat) (x : Cell) : (s.setCell c x).mem = s.mem := rfl
@[simp] theorem setCell_tags (s : State) (c : Nat) (x : Cell) : (s.setCell c x).tags = s.tags := rfl
@[simp] theorem setCell_poisonW (s : State) (c : Nat) (x : Cell) : (s.setCell c x).poisonW = s.poisonW := rfl
@[simp] theorem setCell_poisonS (s : State) (c : Nat) (x : Cell) : (s.setCell c x).poisonS = s.poisonS := rfl
@[simp] theorem setCell_mapped (s : State) (c : Nat) (x : Cell) : (s.setCell c x).mapped = s.mapped := rfl
@[simp] theorem setCell_hostMem (s : State) (c : Nat) (x : Cell) : (s.setCell c x).hostMem = s.hostMem := rfl
@[simp] theorem setCell_peerMem (s : State) (c : Nat) (x : Cell) : (s.setCell c x).peerMem = s.peerMem := rfl
@[simp] theorem setCell_dies (s : State) (c : Nat) (x : Cell) : (s.setCell c x).dies = s.dies := rfl
@[simp] theorem setCell_clusters (s : State) (c : Nat) (x : Cell) : (s.setCell c x).clusters = s.clusters := rfl
@[simp] theorem setCell_members (s : State) (c : Nat) (x : Cell) : (s.setCell c x).members = s.members := rfl
@[simp] theorem setCell_evicted (s : State) (c : Nat) (x : Cell) : (s.setCell c x).evicted = s.evicted := rfl
@[simp] theorem setCell_teams (s : State) (c : Nat) (x : Cell) : (s.setCell c x).teams = s.teams := rfl
@[simp] theorem setCell_launches (s : State) (c : Nat) (x : Cell) : (s.setCell c x).launches = s.launches := rfl
@[simp] theorem setCell_posted (s : State) (c : Nat) (x : Cell) : (s.setCell c x).posted = s.posted := rfl
@[simp] theorem setCell_queues (s : State) (c : Nat) (x : Cell) : (s.setCell c x).queues = s.queues := rfl
@[simp] theorem setCell_ctxs (s : State) (c : Nat) (x : Cell) : (s.setCell c x).ctxs = s.ctxs := rfl
@[simp] theorem setCell_arbUsed (s : State) (c : Nat) (x : Cell) : (s.setCell c x).arbUsed = s.arbUsed := rfl
@[simp] theorem setCell_lastQ (s : State) (c : Nat) (x : Cell) : (s.setCell c x).lastQ = s.lastQ := rfl
@[simp] theorem setCell_coh (s : State) (c : Nat) (x : Cell) : (s.setCell c x).coh = s.coh := rfl
@[simp] theorem setCell_pcie (s : State) (c : Nat) (x : Cell) : (s.setCell c x).pcie = s.pcie := rfl
@[simp] theorem setCell_heldW (s : State) (c : Nat) (x : Cell) : (s.setCell c x).heldW = s.heldW := rfl
@[simp] theorem setCell_late (s : State) (c : Nat) (x : Cell) : (s.setCell c x).late = s.late := rfl
@[simp] theorem setCell_impFaults (s : State) (c : Nat) (x : Cell) : (s.setCell c x).impFaults = s.impFaults := rfl
@[simp] theorem setCell_links (s : State) (c : Nat) (x : Cell) : (s.setCell c x).links = s.links := rfl
@[simp] theorem setCell_host (s : State) (c : Nat) (x : Cell) : (s.setCell c x).host = s.host := rfl
@[simp] theorem setCell_frozen (s : State) (c : Nat) (x : Cell) : (s.setCell c x).frozen = s.frozen := rfl
@[simp] theorem setCell_clk (s : State) (c : Nat) (x : Cell) : (s.setCell c x).clk = s.clk := rfl
@[simp] theorem setCell_issuer (s : State) (c : Nat) (x : Cell) : (s.setCell c x).issuer = s.issuer := rfl
@[simp] theorem setCell_nextUid (s : State) (c : Nat) (x : Cell) : (s.setCell c x).nextUid = s.nextUid := rfl
@[simp] theorem setCell_lineQ (s : State) (c : Nat) (x : Cell) : (s.setCell c x).lineQ = s.lineQ := rfl
@[simp] theorem setCell_fresh (s : State) (c : Nat) (x : Cell) : (s.setCell c x).fresh = s.fresh := rfl
@[simp] theorem setCell_turn (s : State) (c : Nat) (x : Cell) : (s.setCell c x).turn = s.turn := rfl
@[simp] theorem setCell_schedule (s : State) (c : Nat) (x : Cell) : (s.setCell c x).schedule = s.schedule := rfl

/-! ### setCtx -/

@[simp] theorem setCtx_mem (s : State) (n : Nat) (x : Ctx) : (s.setCtx n x).mem = s.mem := rfl
@[simp] theorem setCtx_tags (s : State) (n : Nat) (x : Ctx) : (s.setCtx n x).tags = s.tags := rfl
@[simp] theorem setCtx_poisonW (s : State) (n : Nat) (x : Ctx) : (s.setCtx n x).poisonW = s.poisonW := rfl
@[simp] theorem setCtx_poisonS (s : State) (n : Nat) (x : Ctx) : (s.setCtx n x).poisonS = s.poisonS := rfl
@[simp] theorem setCtx_mapped (s : State) (n : Nat) (x : Ctx) : (s.setCtx n x).mapped = s.mapped := rfl
@[simp] theorem setCtx_hostMem (s : State) (n : Nat) (x : Ctx) : (s.setCtx n x).hostMem = s.hostMem := rfl
@[simp] theorem setCtx_peerMem (s : State) (n : Nat) (x : Ctx) : (s.setCtx n x).peerMem = s.peerMem := rfl
@[simp] theorem setCtx_dies (s : State) (n : Nat) (x : Ctx) : (s.setCtx n x).dies = s.dies := rfl
@[simp] theorem setCtx_clusters (s : State) (n : Nat) (x : Ctx) : (s.setCtx n x).clusters = s.clusters := rfl
@[simp] theorem setCtx_cells (s : State) (n : Nat) (x : Ctx) : (s.setCtx n x).cells = s.cells := rfl
@[simp] theorem setCtx_members (s : State) (n : Nat) (x : Ctx) : (s.setCtx n x).members = s.members := rfl
@[simp] theorem setCtx_evicted (s : State) (n : Nat) (x : Ctx) : (s.setCtx n x).evicted = s.evicted := rfl
@[simp] theorem setCtx_teams (s : State) (n : Nat) (x : Ctx) : (s.setCtx n x).teams = s.teams := rfl
@[simp] theorem setCtx_launches (s : State) (n : Nat) (x : Ctx) : (s.setCtx n x).launches = s.launches := rfl
@[simp] theorem setCtx_posted (s : State) (n : Nat) (x : Ctx) : (s.setCtx n x).posted = s.posted := rfl
@[simp] theorem setCtx_queues (s : State) (n : Nat) (x : Ctx) : (s.setCtx n x).queues = s.queues := rfl
@[simp] theorem setCtx_arbUsed (s : State) (n : Nat) (x : Ctx) : (s.setCtx n x).arbUsed = s.arbUsed := rfl
@[simp] theorem setCtx_lastQ (s : State) (n : Nat) (x : Ctx) : (s.setCtx n x).lastQ = s.lastQ := rfl
@[simp] theorem setCtx_coh (s : State) (n : Nat) (x : Ctx) : (s.setCtx n x).coh = s.coh := rfl
@[simp] theorem setCtx_pcie (s : State) (n : Nat) (x : Ctx) : (s.setCtx n x).pcie = s.pcie := rfl
@[simp] theorem setCtx_heldW (s : State) (n : Nat) (x : Ctx) : (s.setCtx n x).heldW = s.heldW := rfl
@[simp] theorem setCtx_late (s : State) (n : Nat) (x : Ctx) : (s.setCtx n x).late = s.late := rfl
@[simp] theorem setCtx_impFaults (s : State) (n : Nat) (x : Ctx) : (s.setCtx n x).impFaults = s.impFaults := rfl
@[simp] theorem setCtx_links (s : State) (n : Nat) (x : Ctx) : (s.setCtx n x).links = s.links := rfl
@[simp] theorem setCtx_host (s : State) (n : Nat) (x : Ctx) : (s.setCtx n x).host = s.host := rfl
@[simp] theorem setCtx_frozen (s : State) (n : Nat) (x : Ctx) : (s.setCtx n x).frozen = s.frozen := rfl
@[simp] theorem setCtx_clk (s : State) (n : Nat) (x : Ctx) : (s.setCtx n x).clk = s.clk := rfl
@[simp] theorem setCtx_issuer (s : State) (n : Nat) (x : Ctx) : (s.setCtx n x).issuer = s.issuer := rfl
@[simp] theorem setCtx_nextUid (s : State) (n : Nat) (x : Ctx) : (s.setCtx n x).nextUid = s.nextUid := rfl
@[simp] theorem setCtx_lineQ (s : State) (n : Nat) (x : Ctx) : (s.setCtx n x).lineQ = s.lineQ := rfl
@[simp] theorem setCtx_fresh (s : State) (n : Nat) (x : Ctx) : (s.setCtx n x).fresh = s.fresh := rfl
@[simp] theorem setCtx_turn (s : State) (n : Nat) (x : Ctx) : (s.setCtx n x).turn = s.turn := rfl
@[simp] theorem setCtx_schedule (s : State) (n : Nat) (x : Ctx) : (s.setCtx n x).schedule = s.schedule := rfl

/-! ### setQueue -/

@[simp] theorem setQueue_mem (s : State) (q : Nat) (x : Queue) : (s.setQueue q x).mem = s.mem := rfl
@[simp] theorem setQueue_tags (s : State) (q : Nat) (x : Queue) : (s.setQueue q x).tags = s.tags := rfl
@[simp] theorem setQueue_poisonW (s : State) (q : Nat) (x : Queue) : (s.setQueue q x).poisonW = s.poisonW := rfl
@[simp] theorem setQueue_poisonS (s : State) (q : Nat) (x : Queue) : (s.setQueue q x).poisonS = s.poisonS := rfl
@[simp] theorem setQueue_mapped (s : State) (q : Nat) (x : Queue) : (s.setQueue q x).mapped = s.mapped := rfl
@[simp] theorem setQueue_hostMem (s : State) (q : Nat) (x : Queue) : (s.setQueue q x).hostMem = s.hostMem := rfl
@[simp] theorem setQueue_peerMem (s : State) (q : Nat) (x : Queue) : (s.setQueue q x).peerMem = s.peerMem := rfl
@[simp] theorem setQueue_dies (s : State) (q : Nat) (x : Queue) : (s.setQueue q x).dies = s.dies := rfl
@[simp] theorem setQueue_clusters (s : State) (q : Nat) (x : Queue) : (s.setQueue q x).clusters = s.clusters := rfl
@[simp] theorem setQueue_cells (s : State) (q : Nat) (x : Queue) : (s.setQueue q x).cells = s.cells := rfl
@[simp] theorem setQueue_members (s : State) (q : Nat) (x : Queue) : (s.setQueue q x).members = s.members := rfl
@[simp] theorem setQueue_evicted (s : State) (q : Nat) (x : Queue) : (s.setQueue q x).evicted = s.evicted := rfl
@[simp] theorem setQueue_teams (s : State) (q : Nat) (x : Queue) : (s.setQueue q x).teams = s.teams := rfl
@[simp] theorem setQueue_launches (s : State) (q : Nat) (x : Queue) : (s.setQueue q x).launches = s.launches := rfl
@[simp] theorem setQueue_posted (s : State) (q : Nat) (x : Queue) : (s.setQueue q x).posted = s.posted := rfl
@[simp] theorem setQueue_ctxs (s : State) (q : Nat) (x : Queue) : (s.setQueue q x).ctxs = s.ctxs := rfl
@[simp] theorem setQueue_arbUsed (s : State) (q : Nat) (x : Queue) : (s.setQueue q x).arbUsed = s.arbUsed := rfl
@[simp] theorem setQueue_lastQ (s : State) (q : Nat) (x : Queue) : (s.setQueue q x).lastQ = s.lastQ := rfl
@[simp] theorem setQueue_coh (s : State) (q : Nat) (x : Queue) : (s.setQueue q x).coh = s.coh := rfl
@[simp] theorem setQueue_pcie (s : State) (q : Nat) (x : Queue) : (s.setQueue q x).pcie = s.pcie := rfl
@[simp] theorem setQueue_heldW (s : State) (q : Nat) (x : Queue) : (s.setQueue q x).heldW = s.heldW := rfl
@[simp] theorem setQueue_late (s : State) (q : Nat) (x : Queue) : (s.setQueue q x).late = s.late := rfl
@[simp] theorem setQueue_impFaults (s : State) (q : Nat) (x : Queue) : (s.setQueue q x).impFaults = s.impFaults := rfl
@[simp] theorem setQueue_links (s : State) (q : Nat) (x : Queue) : (s.setQueue q x).links = s.links := rfl
@[simp] theorem setQueue_host (s : State) (q : Nat) (x : Queue) : (s.setQueue q x).host = s.host := rfl
@[simp] theorem setQueue_frozen (s : State) (q : Nat) (x : Queue) : (s.setQueue q x).frozen = s.frozen := rfl
@[simp] theorem setQueue_clk (s : State) (q : Nat) (x : Queue) : (s.setQueue q x).clk = s.clk := rfl
@[simp] theorem setQueue_issuer (s : State) (q : Nat) (x : Queue) : (s.setQueue q x).issuer = s.issuer := rfl
@[simp] theorem setQueue_nextUid (s : State) (q : Nat) (x : Queue) : (s.setQueue q x).nextUid = s.nextUid := rfl
@[simp] theorem setQueue_lineQ (s : State) (q : Nat) (x : Queue) : (s.setQueue q x).lineQ = s.lineQ := rfl
@[simp] theorem setQueue_fresh (s : State) (q : Nat) (x : Queue) : (s.setQueue q x).fresh = s.fresh := rfl
@[simp] theorem setQueue_turn (s : State) (q : Nat) (x : Queue) : (s.setQueue q x).turn = s.turn := rfl
@[simp] theorem setQueue_schedule (s : State) (q : Nat) (x : Queue) : (s.setQueue q x).schedule = s.schedule := rfl

/-! ### setMember -/

@[simp] theorem setMember_mem (s : State) (k : Nat) (m : Member) : (s.setMember k m).mem = s.mem := rfl
@[simp] theorem setMember_tags (s : State) (k : Nat) (m : Member) : (s.setMember k m).tags = s.tags := rfl
@[simp] theorem setMember_poisonW (s : State) (k : Nat) (m : Member) : (s.setMember k m).poisonW = s.poisonW := rfl
@[simp] theorem setMember_poisonS (s : State) (k : Nat) (m : Member) : (s.setMember k m).poisonS = s.poisonS := rfl
@[simp] theorem setMember_mapped (s : State) (k : Nat) (m : Member) : (s.setMember k m).mapped = s.mapped := rfl
@[simp] theorem setMember_hostMem (s : State) (k : Nat) (m : Member) : (s.setMember k m).hostMem = s.hostMem := rfl
@[simp] theorem setMember_peerMem (s : State) (k : Nat) (m : Member) : (s.setMember k m).peerMem = s.peerMem := rfl
@[simp] theorem setMember_dies (s : State) (k : Nat) (m : Member) : (s.setMember k m).dies = s.dies := rfl
@[simp] theorem setMember_clusters (s : State) (k : Nat) (m : Member) : (s.setMember k m).clusters = s.clusters := rfl
@[simp] theorem setMember_cells (s : State) (k : Nat) (m : Member) : (s.setMember k m).cells = s.cells := rfl
@[simp] theorem setMember_evicted (s : State) (k : Nat) (m : Member) : (s.setMember k m).evicted = s.evicted := rfl
@[simp] theorem setMember_teams (s : State) (k : Nat) (m : Member) : (s.setMember k m).teams = s.teams := rfl
@[simp] theorem setMember_launches (s : State) (k : Nat) (m : Member) : (s.setMember k m).launches = s.launches := rfl
@[simp] theorem setMember_posted (s : State) (k : Nat) (m : Member) : (s.setMember k m).posted = s.posted := rfl
@[simp] theorem setMember_queues (s : State) (k : Nat) (m : Member) : (s.setMember k m).queues = s.queues := rfl
@[simp] theorem setMember_ctxs (s : State) (k : Nat) (m : Member) : (s.setMember k m).ctxs = s.ctxs := rfl
@[simp] theorem setMember_arbUsed (s : State) (k : Nat) (m : Member) : (s.setMember k m).arbUsed = s.arbUsed := rfl
@[simp] theorem setMember_lastQ (s : State) (k : Nat) (m : Member) : (s.setMember k m).lastQ = s.lastQ := rfl
@[simp] theorem setMember_coh (s : State) (k : Nat) (m : Member) : (s.setMember k m).coh = s.coh := rfl
@[simp] theorem setMember_pcie (s : State) (k : Nat) (m : Member) : (s.setMember k m).pcie = s.pcie := rfl
@[simp] theorem setMember_heldW (s : State) (k : Nat) (m : Member) : (s.setMember k m).heldW = s.heldW := rfl
@[simp] theorem setMember_late (s : State) (k : Nat) (m : Member) : (s.setMember k m).late = s.late := rfl
@[simp] theorem setMember_impFaults (s : State) (k : Nat) (m : Member) : (s.setMember k m).impFaults = s.impFaults := rfl
@[simp] theorem setMember_links (s : State) (k : Nat) (m : Member) : (s.setMember k m).links = s.links := rfl
@[simp] theorem setMember_host (s : State) (k : Nat) (m : Member) : (s.setMember k m).host = s.host := rfl
@[simp] theorem setMember_frozen (s : State) (k : Nat) (m : Member) : (s.setMember k m).frozen = s.frozen := rfl
@[simp] theorem setMember_clk (s : State) (k : Nat) (m : Member) : (s.setMember k m).clk = s.clk := rfl
@[simp] theorem setMember_issuer (s : State) (k : Nat) (m : Member) : (s.setMember k m).issuer = s.issuer := rfl
@[simp] theorem setMember_nextUid (s : State) (k : Nat) (m : Member) : (s.setMember k m).nextUid = s.nextUid := rfl
@[simp] theorem setMember_lineQ (s : State) (k : Nat) (m : Member) : (s.setMember k m).lineQ = s.lineQ := rfl
@[simp] theorem setMember_fresh (s : State) (k : Nat) (m : Member) : (s.setMember k m).fresh = s.fresh := rfl
@[simp] theorem setMember_turn (s : State) (k : Nat) (m : Member) : (s.setMember k m).turn = s.turn := rfl
@[simp] theorem setMember_schedule (s : State) (k : Nat) (m : Member) : (s.setMember k m).schedule = s.schedule := rfl

/-! ### dropMember -/

@[simp] theorem dropMember_mem (s : State) (k : Nat) : (s.dropMember k).mem = s.mem := rfl
@[simp] theorem dropMember_tags (s : State) (k : Nat) : (s.dropMember k).tags = s.tags := rfl
@[simp] theorem dropMember_poisonW (s : State) (k : Nat) : (s.dropMember k).poisonW = s.poisonW := rfl
@[simp] theorem dropMember_poisonS (s : State) (k : Nat) : (s.dropMember k).poisonS = s.poisonS := rfl
@[simp] theorem dropMember_mapped (s : State) (k : Nat) : (s.dropMember k).mapped = s.mapped := rfl
@[simp] theorem dropMember_hostMem (s : State) (k : Nat) : (s.dropMember k).hostMem = s.hostMem := rfl
@[simp] theorem dropMember_peerMem (s : State) (k : Nat) : (s.dropMember k).peerMem = s.peerMem := rfl
@[simp] theorem dropMember_dies (s : State) (k : Nat) : (s.dropMember k).dies = s.dies := rfl
@[simp] theorem dropMember_clusters (s : State) (k : Nat) : (s.dropMember k).clusters = s.clusters := rfl
@[simp] theorem dropMember_cells (s : State) (k : Nat) : (s.dropMember k).cells = s.cells := rfl
@[simp] theorem dropMember_evicted (s : State) (k : Nat) : (s.dropMember k).evicted = s.evicted := rfl
@[simp] theorem dropMember_teams (s : State) (k : Nat) : (s.dropMember k).teams = s.teams := rfl
@[simp] theorem dropMember_launches (s : State) (k : Nat) : (s.dropMember k).launches = s.launches := rfl
@[simp] theorem dropMember_posted (s : State) (k : Nat) : (s.dropMember k).posted = s.posted := rfl
@[simp] theorem dropMember_queues (s : State) (k : Nat) : (s.dropMember k).queues = s.queues := rfl
@[simp] theorem dropMember_ctxs (s : State) (k : Nat) : (s.dropMember k).ctxs = s.ctxs := rfl
@[simp] theorem dropMember_arbUsed (s : State) (k : Nat) : (s.dropMember k).arbUsed = s.arbUsed := rfl
@[simp] theorem dropMember_lastQ (s : State) (k : Nat) : (s.dropMember k).lastQ = s.lastQ := rfl
@[simp] theorem dropMember_coh (s : State) (k : Nat) : (s.dropMember k).coh = s.coh := rfl
@[simp] theorem dropMember_pcie (s : State) (k : Nat) : (s.dropMember k).pcie = s.pcie := rfl
@[simp] theorem dropMember_heldW (s : State) (k : Nat) : (s.dropMember k).heldW = s.heldW := rfl
@[simp] theorem dropMember_late (s : State) (k : Nat) : (s.dropMember k).late = s.late := rfl
@[simp] theorem dropMember_impFaults (s : State) (k : Nat) : (s.dropMember k).impFaults = s.impFaults := rfl
@[simp] theorem dropMember_links (s : State) (k : Nat) : (s.dropMember k).links = s.links := rfl
@[simp] theorem dropMember_host (s : State) (k : Nat) : (s.dropMember k).host = s.host := rfl
@[simp] theorem dropMember_frozen (s : State) (k : Nat) : (s.dropMember k).frozen = s.frozen := rfl
@[simp] theorem dropMember_clk (s : State) (k : Nat) : (s.dropMember k).clk = s.clk := rfl
@[simp] theorem dropMember_issuer (s : State) (k : Nat) : (s.dropMember k).issuer = s.issuer := rfl
@[simp] theorem dropMember_nextUid (s : State) (k : Nat) : (s.dropMember k).nextUid = s.nextUid := rfl
@[simp] theorem dropMember_lineQ (s : State) (k : Nat) : (s.dropMember k).lineQ = s.lineQ := rfl
@[simp] theorem dropMember_fresh (s : State) (k : Nat) : (s.dropMember k).fresh = s.fresh := rfl
@[simp] theorem dropMember_turn (s : State) (k : Nat) : (s.dropMember k).turn = s.turn := rfl
@[simp] theorem dropMember_schedule (s : State) (k : Nat) : (s.dropMember k).schedule = s.schedule := rfl

/-! ### modTeam -/

@[simp] theorem modTeam_mem (s : State) (n h : Nat) (f : Team → Team) : (s.modTeam n h f).mem = s.mem := rfl
@[simp] theorem modTeam_tags (s : State) (n h : Nat) (f : Team → Team) : (s.modTeam n h f).tags = s.tags := rfl
@[simp] theorem modTeam_poisonW (s : State) (n h : Nat) (f : Team → Team) : (s.modTeam n h f).poisonW = s.poisonW := rfl
@[simp] theorem modTeam_poisonS (s : State) (n h : Nat) (f : Team → Team) : (s.modTeam n h f).poisonS = s.poisonS := rfl
@[simp] theorem modTeam_mapped (s : State) (n h : Nat) (f : Team → Team) : (s.modTeam n h f).mapped = s.mapped := rfl
@[simp] theorem modTeam_hostMem (s : State) (n h : Nat) (f : Team → Team) : (s.modTeam n h f).hostMem = s.hostMem := rfl
@[simp] theorem modTeam_peerMem (s : State) (n h : Nat) (f : Team → Team) : (s.modTeam n h f).peerMem = s.peerMem := rfl
@[simp] theorem modTeam_dies (s : State) (n h : Nat) (f : Team → Team) : (s.modTeam n h f).dies = s.dies := rfl
@[simp] theorem modTeam_clusters (s : State) (n h : Nat) (f : Team → Team) : (s.modTeam n h f).clusters = s.clusters := rfl
@[simp] theorem modTeam_cells (s : State) (n h : Nat) (f : Team → Team) : (s.modTeam n h f).cells = s.cells := rfl
@[simp] theorem modTeam_members (s : State) (n h : Nat) (f : Team → Team) : (s.modTeam n h f).members = s.members := rfl
@[simp] theorem modTeam_evicted (s : State) (n h : Nat) (f : Team → Team) : (s.modTeam n h f).evicted = s.evicted := rfl
@[simp] theorem modTeam_launches (s : State) (n h : Nat) (f : Team → Team) : (s.modTeam n h f).launches = s.launches := rfl
@[simp] theorem modTeam_posted (s : State) (n h : Nat) (f : Team → Team) : (s.modTeam n h f).posted = s.posted := rfl
@[simp] theorem modTeam_queues (s : State) (n h : Nat) (f : Team → Team) : (s.modTeam n h f).queues = s.queues := rfl
@[simp] theorem modTeam_ctxs (s : State) (n h : Nat) (f : Team → Team) : (s.modTeam n h f).ctxs = s.ctxs := rfl
@[simp] theorem modTeam_arbUsed (s : State) (n h : Nat) (f : Team → Team) : (s.modTeam n h f).arbUsed = s.arbUsed := rfl
@[simp] theorem modTeam_lastQ (s : State) (n h : Nat) (f : Team → Team) : (s.modTeam n h f).lastQ = s.lastQ := rfl
@[simp] theorem modTeam_coh (s : State) (n h : Nat) (f : Team → Team) : (s.modTeam n h f).coh = s.coh := rfl
@[simp] theorem modTeam_pcie (s : State) (n h : Nat) (f : Team → Team) : (s.modTeam n h f).pcie = s.pcie := rfl
@[simp] theorem modTeam_heldW (s : State) (n h : Nat) (f : Team → Team) : (s.modTeam n h f).heldW = s.heldW := rfl
@[simp] theorem modTeam_late (s : State) (n h : Nat) (f : Team → Team) : (s.modTeam n h f).late = s.late := rfl
@[simp] theorem modTeam_impFaults (s : State) (n h : Nat) (f : Team → Team) : (s.modTeam n h f).impFaults = s.impFaults := rfl
@[simp] theorem modTeam_links (s : State) (n h : Nat) (f : Team → Team) : (s.modTeam n h f).links = s.links := rfl
@[simp] theorem modTeam_host (s : State) (n h : Nat) (f : Team → Team) : (s.modTeam n h f).host = s.host := rfl
@[simp] theorem modTeam_frozen (s : State) (n h : Nat) (f : Team → Team) : (s.modTeam n h f).frozen = s.frozen := rfl
@[simp] theorem modTeam_clk (s : State) (n h : Nat) (f : Team → Team) : (s.modTeam n h f).clk = s.clk := rfl
@[simp] theorem modTeam_issuer (s : State) (n h : Nat) (f : Team → Team) : (s.modTeam n h f).issuer = s.issuer := rfl
@[simp] theorem modTeam_nextUid (s : State) (n h : Nat) (f : Team → Team) : (s.modTeam n h f).nextUid = s.nextUid := rfl
@[simp] theorem modTeam_lineQ (s : State) (n h : Nat) (f : Team → Team) : (s.modTeam n h f).lineQ = s.lineQ := rfl
@[simp] theorem modTeam_fresh (s : State) (n h : Nat) (f : Team → Team) : (s.modTeam n h f).fresh = s.fresh := rfl
@[simp] theorem modTeam_turn (s : State) (n h : Nat) (f : Team → Team) : (s.modTeam n h f).turn = s.turn := rfl
@[simp] theorem modTeam_schedule (s : State) (n h : Nat) (f : Team → Team) : (s.modTeam n h f).schedule = s.schedule := rfl

/-! ### modLaunch -/

@[simp] theorem modLaunch_mem (s : State) (n l : Nat) (f : Launch → Launch) : (s.modLaunch n l f).mem = s.mem := rfl
@[simp] theorem modLaunch_tags (s : State) (n l : Nat) (f : Launch → Launch) : (s.modLaunch n l f).tags = s.tags := rfl
@[simp] theorem modLaunch_poisonW (s : State) (n l : Nat) (f : Launch → Launch) : (s.modLaunch n l f).poisonW = s.poisonW := rfl
@[simp] theorem modLaunch_poisonS (s : State) (n l : Nat) (f : Launch → Launch) : (s.modLaunch n l f).poisonS = s.poisonS := rfl
@[simp] theorem modLaunch_mapped (s : State) (n l : Nat) (f : Launch → Launch) : (s.modLaunch n l f).mapped = s.mapped := rfl
@[simp] theorem modLaunch_hostMem (s : State) (n l : Nat) (f : Launch → Launch) : (s.modLaunch n l f).hostMem = s.hostMem := rfl
@[simp] theorem modLaunch_peerMem (s : State) (n l : Nat) (f : Launch → Launch) : (s.modLaunch n l f).peerMem = s.peerMem := rfl
@[simp] theorem modLaunch_dies (s : State) (n l : Nat) (f : Launch → Launch) : (s.modLaunch n l f).dies = s.dies := rfl
@[simp] theorem modLaunch_clusters (s : State) (n l : Nat) (f : Launch → Launch) : (s.modLaunch n l f).clusters = s.clusters := rfl
@[simp] theorem modLaunch_cells (s : State) (n l : Nat) (f : Launch → Launch) : (s.modLaunch n l f).cells = s.cells := rfl
@[simp] theorem modLaunch_members (s : State) (n l : Nat) (f : Launch → Launch) : (s.modLaunch n l f).members = s.members := rfl
@[simp] theorem modLaunch_evicted (s : State) (n l : Nat) (f : Launch → Launch) : (s.modLaunch n l f).evicted = s.evicted := rfl
@[simp] theorem modLaunch_teams (s : State) (n l : Nat) (f : Launch → Launch) : (s.modLaunch n l f).teams = s.teams := rfl
@[simp] theorem modLaunch_posted (s : State) (n l : Nat) (f : Launch → Launch) : (s.modLaunch n l f).posted = s.posted := rfl
@[simp] theorem modLaunch_queues (s : State) (n l : Nat) (f : Launch → Launch) : (s.modLaunch n l f).queues = s.queues := rfl
@[simp] theorem modLaunch_ctxs (s : State) (n l : Nat) (f : Launch → Launch) : (s.modLaunch n l f).ctxs = s.ctxs := rfl
@[simp] theorem modLaunch_arbUsed (s : State) (n l : Nat) (f : Launch → Launch) : (s.modLaunch n l f).arbUsed = s.arbUsed := rfl
@[simp] theorem modLaunch_lastQ (s : State) (n l : Nat) (f : Launch → Launch) : (s.modLaunch n l f).lastQ = s.lastQ := rfl
@[simp] theorem modLaunch_coh (s : State) (n l : Nat) (f : Launch → Launch) : (s.modLaunch n l f).coh = s.coh := rfl
@[simp] theorem modLaunch_pcie (s : State) (n l : Nat) (f : Launch → Launch) : (s.modLaunch n l f).pcie = s.pcie := rfl
@[simp] theorem modLaunch_heldW (s : State) (n l : Nat) (f : Launch → Launch) : (s.modLaunch n l f).heldW = s.heldW := rfl
@[simp] theorem modLaunch_late (s : State) (n l : Nat) (f : Launch → Launch) : (s.modLaunch n l f).late = s.late := rfl
@[simp] theorem modLaunch_impFaults (s : State) (n l : Nat) (f : Launch → Launch) : (s.modLaunch n l f).impFaults = s.impFaults := rfl
@[simp] theorem modLaunch_links (s : State) (n l : Nat) (f : Launch → Launch) : (s.modLaunch n l f).links = s.links := rfl
@[simp] theorem modLaunch_host (s : State) (n l : Nat) (f : Launch → Launch) : (s.modLaunch n l f).host = s.host := rfl
@[simp] theorem modLaunch_frozen (s : State) (n l : Nat) (f : Launch → Launch) : (s.modLaunch n l f).frozen = s.frozen := rfl
@[simp] theorem modLaunch_clk (s : State) (n l : Nat) (f : Launch → Launch) : (s.modLaunch n l f).clk = s.clk := rfl
@[simp] theorem modLaunch_issuer (s : State) (n l : Nat) (f : Launch → Launch) : (s.modLaunch n l f).issuer = s.issuer := rfl
@[simp] theorem modLaunch_nextUid (s : State) (n l : Nat) (f : Launch → Launch) : (s.modLaunch n l f).nextUid = s.nextUid := rfl
@[simp] theorem modLaunch_lineQ (s : State) (n l : Nat) (f : Launch → Launch) : (s.modLaunch n l f).lineQ = s.lineQ := rfl
@[simp] theorem modLaunch_fresh (s : State) (n l : Nat) (f : Launch → Launch) : (s.modLaunch n l f).fresh = s.fresh := rfl
@[simp] theorem modLaunch_turn (s : State) (n l : Nat) (f : Launch → Launch) : (s.modLaunch n l f).turn = s.turn := rfl
@[simp] theorem modLaunch_schedule (s : State) (n l : Nat) (f : Launch → Launch) : (s.modLaunch n l f).schedule = s.schedule := rfl

/-! ### setLink -/

@[simp] theorem setLink_mem (s : State) (n : Nat) (x : Link) : (s.setLink n x).mem = s.mem := rfl
@[simp] theorem setLink_tags (s : State) (n : Nat) (x : Link) : (s.setLink n x).tags = s.tags := rfl
@[simp] theorem setLink_poisonW (s : State) (n : Nat) (x : Link) : (s.setLink n x).poisonW = s.poisonW := rfl
@[simp] theorem setLink_poisonS (s : State) (n : Nat) (x : Link) : (s.setLink n x).poisonS = s.poisonS := rfl
@[simp] theorem setLink_mapped (s : State) (n : Nat) (x : Link) : (s.setLink n x).mapped = s.mapped := rfl
@[simp] theorem setLink_hostMem (s : State) (n : Nat) (x : Link) : (s.setLink n x).hostMem = s.hostMem := rfl
@[simp] theorem setLink_peerMem (s : State) (n : Nat) (x : Link) : (s.setLink n x).peerMem = s.peerMem := rfl
@[simp] theorem setLink_dies (s : State) (n : Nat) (x : Link) : (s.setLink n x).dies = s.dies := rfl
@[simp] theorem setLink_clusters (s : State) (n : Nat) (x : Link) : (s.setLink n x).clusters = s.clusters := rfl
@[simp] theorem setLink_cells (s : State) (n : Nat) (x : Link) : (s.setLink n x).cells = s.cells := rfl
@[simp] theorem setLink_members (s : State) (n : Nat) (x : Link) : (s.setLink n x).members = s.members := rfl
@[simp] theorem setLink_evicted (s : State) (n : Nat) (x : Link) : (s.setLink n x).evicted = s.evicted := rfl
@[simp] theorem setLink_teams (s : State) (n : Nat) (x : Link) : (s.setLink n x).teams = s.teams := rfl
@[simp] theorem setLink_launches (s : State) (n : Nat) (x : Link) : (s.setLink n x).launches = s.launches := rfl
@[simp] theorem setLink_posted (s : State) (n : Nat) (x : Link) : (s.setLink n x).posted = s.posted := rfl
@[simp] theorem setLink_queues (s : State) (n : Nat) (x : Link) : (s.setLink n x).queues = s.queues := rfl
@[simp] theorem setLink_ctxs (s : State) (n : Nat) (x : Link) : (s.setLink n x).ctxs = s.ctxs := rfl
@[simp] theorem setLink_arbUsed (s : State) (n : Nat) (x : Link) : (s.setLink n x).arbUsed = s.arbUsed := rfl
@[simp] theorem setLink_lastQ (s : State) (n : Nat) (x : Link) : (s.setLink n x).lastQ = s.lastQ := rfl
@[simp] theorem setLink_coh (s : State) (n : Nat) (x : Link) : (s.setLink n x).coh = s.coh := rfl
@[simp] theorem setLink_pcie (s : State) (n : Nat) (x : Link) : (s.setLink n x).pcie = s.pcie := rfl
@[simp] theorem setLink_heldW (s : State) (n : Nat) (x : Link) : (s.setLink n x).heldW = s.heldW := rfl
@[simp] theorem setLink_late (s : State) (n : Nat) (x : Link) : (s.setLink n x).late = s.late := rfl
@[simp] theorem setLink_impFaults (s : State) (n : Nat) (x : Link) : (s.setLink n x).impFaults = s.impFaults := rfl
@[simp] theorem setLink_host (s : State) (n : Nat) (x : Link) : (s.setLink n x).host = s.host := rfl
@[simp] theorem setLink_frozen (s : State) (n : Nat) (x : Link) : (s.setLink n x).frozen = s.frozen := rfl
@[simp] theorem setLink_clk (s : State) (n : Nat) (x : Link) : (s.setLink n x).clk = s.clk := rfl
@[simp] theorem setLink_issuer (s : State) (n : Nat) (x : Link) : (s.setLink n x).issuer = s.issuer := rfl
@[simp] theorem setLink_nextUid (s : State) (n : Nat) (x : Link) : (s.setLink n x).nextUid = s.nextUid := rfl
@[simp] theorem setLink_lineQ (s : State) (n : Nat) (x : Link) : (s.setLink n x).lineQ = s.lineQ := rfl
@[simp] theorem setLink_fresh (s : State) (n : Nat) (x : Link) : (s.setLink n x).fresh = s.fresh := rfl
@[simp] theorem setLink_turn (s : State) (n : Nat) (x : Link) : (s.setLink n x).turn = s.turn := rfl
@[simp] theorem setLink_schedule (s : State) (n : Nat) (x : Link) : (s.setLink n x).schedule = s.schedule := rfl

/-! ### Reading the part written -/

@[simp] theorem die_setDie (s : State) (n : Nat) (x : Die) : (s.setDie n x).die n = x := FMap.get_put_self _ _ _ _
theorem die_setDie_ne (s : State) {n k : Nat} (x : Die) (h : k ≠ n) : (s.setDie n x).die k = s.die k := FMap.get_put_ne _ _ _ h
@[simp] theorem cluster_setCluster (s : State) (n : Nat) (x : Cluster) : (s.setCluster n x).cluster n = x := FMap.get_put_self _ _ _ _
theorem cluster_setCluster_ne (s : State) {n k : Nat} (x : Cluster) (h : k ≠ n) : (s.setCluster n x).cluster k = s.cluster k := FMap.get_put_ne _ _ _ h
@[simp] theorem cell_setCell (s : State) (n : Nat) (x : Cell) : (s.setCell n x).cell n = x := FMap.get_put_self _ _ _ _
theorem cell_setCell_ne (s : State) {n k : Nat} (x : Cell) (h : k ≠ n) : (s.setCell n x).cell k = s.cell k := FMap.get_put_ne _ _ _ h
@[simp] theorem ctx_setCtx (s : State) (n : Nat) (x : Ctx) : (s.setCtx n x).ctx n = x := FMap.get_put_self _ _ _ _
theorem ctx_setCtx_ne (s : State) {n k : Nat} (x : Ctx) (h : k ≠ n) : (s.setCtx n x).ctx k = s.ctx k := FMap.get_put_ne _ _ _ h
@[simp] theorem queue_setQueue (s : State) (n : Nat) (x : Queue) : (s.setQueue n x).queue n = x := FMap.get_put_self _ _ _ _
theorem queue_setQueue_ne (s : State) {n k : Nat} (x : Queue) (h : k ≠ n) : (s.setQueue n x).queue k = s.queue k := FMap.get_put_ne _ _ _ h
@[simp] theorem link_setLink (s : State) (n : Nat) (x : Link) : (s.setLink n x).link n = x := FMap.get_put_self _ _ _ _
theorem link_setLink_ne (s : State) {n k : Nat} (x : Link) (h : k ≠ n) : (s.setLink n x).link k = s.link k := FMap.get_put_ne _ _ _ h
@[simp] theorem member?_setMember (s : State) (k : Nat) (m : Member) : (s.setMember k m).member? k = some m := FMap.find?_ins_self _ _ _
theorem member?_setMember_ne (s : State) {k j : Nat} (m : Member) (h : j ≠ k) : (s.setMember k m).member? j = s.member? j :=
  FMap.find?_ins_ne _ _ h
@[simp] theorem member?_dropMember (s : State) (k : Nat) : (s.dropMember k).member? k = none := FMap.find?_del_self _ _
theorem member?_dropMember_ne (s : State) {k j : Nat} (h : j ≠ k) : (s.dropMember k).member? j = s.member? j := FMap.find?_del_ne _ h
@[simp] theorem setMember_setMember (s : State) (k : Nat) (m n : Member) : (s.setMember k m).setMember k n = s.setMember k n := by
  simp [setMember]

/-- A member changed where one stands. -/
theorem modMember_eq {s : State} {k : Nat} {m : Member} (h : s.member? k = some m) (f : Member → Member) :
    s.modMember k f = s.setMember k (f m) := by
  simp [modMember, h]

@[simp] theorem modMember_setMember (s : State) (k : Nat) (m : Member) (f : Member → Member) :
    (s.setMember k m).modMember k f = s.setMember k (f m) := by
  rw [modMember_eq (member?_setMember s k m), setMember_setMember]

end State

namespace Member

/-! ### setV -/

@[simp] theorem setV_uid (m : Member) (l r : Nat) (y : Word) : (m.setV l r y).uid = m.uid := rfl
@[simp] theorem setV_scalar (m : Member) (l r : Nat) (y : Word) : (m.setV l r y).scalar = m.scalar := rfl
@[simp] theorem setV_ctx (m : Member) (l r : Nat) (y : Word) : (m.setV l r y).ctx = m.ctx := rfl
@[simp] theorem setV_team (m : Member) (l r : Nat) (y : Word) : (m.setV l r y).team = m.team := rfl
@[simp] theorem setV_idx (m : Member) (l r : Nat) (y : Word) : (m.setV l r y).idx = m.idx := rfl
@[simp] theorem setV_pv (m : Member) (l r : Nat) (y : Word) : (m.setV l r y).pv = m.pv := rfl
@[simp] theorem setV_s (m : Member) (l r : Nat) (y : Word) : (m.setV l r y).s = m.s := rfl
@[simp] theorem setV_c (m : Member) (l r : Nat) (y : Word) : (m.setV l r y).c = m.c := rfl
@[simp] theorem setV_ps (m : Member) (l r : Nat) (y : Word) : (m.setV l r y).ps = m.ps := rfl
@[simp] theorem setV_pk (m : Member) (l r : Nat) (y : Word) : (m.setV l r y).pk = m.pk := rfl
@[simp] theorem setV_q (m : Member) (l r : Nat) (y : Word) : (m.setV l r y).q = m.q := rfl
@[simp] theorem setV_x (m : Member) (l r : Nat) (y : Word) : (m.setV l r y).x = m.x := rfl
@[simp] theorem setV_lat (m : Member) (l r : Nat) (y : Word) : (m.setV l r y).lat = m.lat := rfl
@[simp] theorem setV_chain (m : Member) (l r : Nat) (y : Word) : (m.setV l r y).chain = m.chain := rfl
@[simp] theorem setV_chainPc (m : Member) (l r : Nat) (y : Word) : (m.setV l r y).chainPc = m.chainPc := rfl
@[simp] theorem setV_ord (m : Member) (l r : Nat) (y : Word) : (m.setV l r y).ord = m.ord := rfl
@[simp] theorem setV_root (m : Member) (l r : Nat) (y : Word) : (m.setV l r y).root = m.root := rfl
@[simp] theorem setV_subs (m : Member) (l r : Nat) (y : Word) : (m.setV l r y).subs = m.subs := rfl
@[simp] theorem setV_cur (m : Member) (l r : Nat) (y : Word) : (m.setV l r y).cur = m.cur := rfl
@[simp] theorem setV_serial (m : Member) (l r : Nat) (y : Word) : (m.setV l r y).serial = m.serial := rfl
@[simp] theorem setV_serialG (m : Member) (l r : Nat) (y : Word) : (m.setV l r y).serialG = m.serialG := rfl
@[simp] theorem setV_nextStamp (m : Member) (l r : Nat) (y : Word) : (m.setV l r y).nextStamp = m.nextStamp := rfl
@[simp] theorem setV_inRow (m : Member) (l r : Nat) (y : Word) : (m.setV l r y).inRow = m.inRow := rfl
@[simp] theorem setV_alatch (m : Member) (l r : Nat) (y : Word) : (m.setV l r y).alatch = m.alatch := rfl
@[simp] theorem setV_omap (m : Member) (l r : Nat) (y : Word) : (m.setV l r y).omap = m.omap := rfl
@[simp] theorem setV_cnt (m : Member) (l r : Nat) (y : Word) : (m.setV l r y).cnt = m.cnt := rfl
@[simp] theorem setV_jlast (m : Member) (l r : Nat) (y : Word) : (m.setV l r y).jlast = m.jlast := rfl
@[simp] theorem setV_engst (m : Member) (l r : Nat) (y : Word) : (m.setV l r y).engst = m.engst := rfl
@[simp] theorem setV_rstat (m : Member) (l r : Nat) (y : Word) : (m.setV l r y).rstat = m.rstat := rfl
@[simp] theorem setV_ldr (m : Member) (l r : Nat) (y : Word) : (m.setV l r y).ldr = m.ldr := rfl
@[simp] theorem setV_lent (m : Member) (l r : Nat) (y : Word) : (m.setV l r y).lent = m.lent := rfl
@[simp] theorem setV_entered (m : Member) (l r : Nat) (y : Word) : (m.setV l r y).entered = m.entered := rfl
@[simp] theorem setV_issued (m : Member) (l r : Nat) (y : Word) : (m.setV l r y).issued = m.issued := rfl
@[simp] theorem setV_run (m : Member) (l r : Nat) (y : Word) : (m.setV l r y).run = m.run := rfl
@[simp] theorem setV_trapLanes (m : Member) (l r : Nat) (y : Word) : (m.setV l r y).trapLanes = m.trapLanes := rfl

/-! ### setS -/

@[simp] theorem setS_uid (m : Member) (n : Nat) (y : DWord) : (m.setS n y).uid = m.uid := rfl
@[simp] theorem setS_scalar (m : Member) (n : Nat) (y : DWord) : (m.setS n y).scalar = m.scalar := rfl
@[simp] theorem setS_ctx (m : Member) (n : Nat) (y : DWord) : (m.setS n y).ctx = m.ctx := rfl
@[simp] theorem setS_team (m : Member) (n : Nat) (y : DWord) : (m.setS n y).team = m.team := rfl
@[simp] theorem setS_idx (m : Member) (n : Nat) (y : DWord) : (m.setS n y).idx = m.idx := rfl
@[simp] theorem setS_v (m : Member) (n : Nat) (y : DWord) : (m.setS n y).v = m.v := rfl
@[simp] theorem setS_pv (m : Member) (n : Nat) (y : DWord) : (m.setS n y).pv = m.pv := rfl
@[simp] theorem setS_c (m : Member) (n : Nat) (y : DWord) : (m.setS n y).c = m.c := rfl
@[simp] theorem setS_pk (m : Member) (n : Nat) (y : DWord) : (m.setS n y).pk = m.pk := rfl
@[simp] theorem setS_q (m : Member) (n : Nat) (y : DWord) : (m.setS n y).q = m.q := rfl
@[simp] theorem setS_x (m : Member) (n : Nat) (y : DWord) : (m.setS n y).x = m.x := rfl
@[simp] theorem setS_lat (m : Member) (n : Nat) (y : DWord) : (m.setS n y).lat = m.lat := rfl
@[simp] theorem setS_chain (m : Member) (n : Nat) (y : DWord) : (m.setS n y).chain = m.chain := rfl
@[simp] theorem setS_chainPc (m : Member) (n : Nat) (y : DWord) : (m.setS n y).chainPc = m.chainPc := rfl
@[simp] theorem setS_ord (m : Member) (n : Nat) (y : DWord) : (m.setS n y).ord = m.ord := rfl
@[simp] theorem setS_root (m : Member) (n : Nat) (y : DWord) : (m.setS n y).root = m.root := rfl
@[simp] theorem setS_subs (m : Member) (n : Nat) (y : DWord) : (m.setS n y).subs = m.subs := rfl
@[simp] theorem setS_cur (m : Member) (n : Nat) (y : DWord) : (m.setS n y).cur = m.cur := rfl
@[simp] theorem setS_serial (m : Member) (n : Nat) (y : DWord) : (m.setS n y).serial = m.serial := rfl
@[simp] theorem setS_serialG (m : Member) (n : Nat) (y : DWord) : (m.setS n y).serialG = m.serialG := rfl
@[simp] theorem setS_nextStamp (m : Member) (n : Nat) (y : DWord) : (m.setS n y).nextStamp = m.nextStamp := rfl
@[simp] theorem setS_inRow (m : Member) (n : Nat) (y : DWord) : (m.setS n y).inRow = m.inRow := rfl
@[simp] theorem setS_alatch (m : Member) (n : Nat) (y : DWord) : (m.setS n y).alatch = m.alatch := rfl
@[simp] theorem setS_omap (m : Member) (n : Nat) (y : DWord) : (m.setS n y).omap = m.omap := rfl
@[simp] theorem setS_cnt (m : Member) (n : Nat) (y : DWord) : (m.setS n y).cnt = m.cnt := rfl
@[simp] theorem setS_jlast (m : Member) (n : Nat) (y : DWord) : (m.setS n y).jlast = m.jlast := rfl
@[simp] theorem setS_engst (m : Member) (n : Nat) (y : DWord) : (m.setS n y).engst = m.engst := rfl
@[simp] theorem setS_rstat (m : Member) (n : Nat) (y : DWord) : (m.setS n y).rstat = m.rstat := rfl
@[simp] theorem setS_ldr (m : Member) (n : Nat) (y : DWord) : (m.setS n y).ldr = m.ldr := rfl
@[simp] theorem setS_lent (m : Member) (n : Nat) (y : DWord) : (m.setS n y).lent = m.lent := rfl
@[simp] theorem setS_entered (m : Member) (n : Nat) (y : DWord) : (m.setS n y).entered = m.entered := rfl
@[simp] theorem setS_issued (m : Member) (n : Nat) (y : DWord) : (m.setS n y).issued = m.issued := rfl
@[simp] theorem setS_run (m : Member) (n : Nat) (y : DWord) : (m.setS n y).run = m.run := rfl
@[simp] theorem setS_trapLanes (m : Member) (n : Nat) (y : DWord) : (m.setS n y).trapLanes = m.trapLanes := rfl

/-! ### setC -/

@[simp] theorem setC_uid (m : Member) (n : Nat) (y : Cap) : (m.setC n y).uid = m.uid := rfl
@[simp] theorem setC_scalar (m : Member) (n : Nat) (y : Cap) : (m.setC n y).scalar = m.scalar := rfl
@[simp] theorem setC_ctx (m : Member) (n : Nat) (y : Cap) : (m.setC n y).ctx = m.ctx := rfl
@[simp] theorem setC_team (m : Member) (n : Nat) (y : Cap) : (m.setC n y).team = m.team := rfl
@[simp] theorem setC_idx (m : Member) (n : Nat) (y : Cap) : (m.setC n y).idx = m.idx := rfl
@[simp] theorem setC_v (m : Member) (n : Nat) (y : Cap) : (m.setC n y).v = m.v := rfl
@[simp] theorem setC_pv (m : Member) (n : Nat) (y : Cap) : (m.setC n y).pv = m.pv := rfl
@[simp] theorem setC_s (m : Member) (n : Nat) (y : Cap) : (m.setC n y).s = m.s := rfl
@[simp] theorem setC_ps (m : Member) (n : Nat) (y : Cap) : (m.setC n y).ps = m.ps := rfl
@[simp] theorem setC_q (m : Member) (n : Nat) (y : Cap) : (m.setC n y).q = m.q := rfl
@[simp] theorem setC_x (m : Member) (n : Nat) (y : Cap) : (m.setC n y).x = m.x := rfl
@[simp] theorem setC_lat (m : Member) (n : Nat) (y : Cap) : (m.setC n y).lat = m.lat := rfl
@[simp] theorem setC_chain (m : Member) (n : Nat) (y : Cap) : (m.setC n y).chain = m.chain := rfl
@[simp] theorem setC_chainPc (m : Member) (n : Nat) (y : Cap) : (m.setC n y).chainPc = m.chainPc := rfl
@[simp] theorem setC_ord (m : Member) (n : Nat) (y : Cap) : (m.setC n y).ord = m.ord := rfl
@[simp] theorem setC_root (m : Member) (n : Nat) (y : Cap) : (m.setC n y).root = m.root := rfl
@[simp] theorem setC_subs (m : Member) (n : Nat) (y : Cap) : (m.setC n y).subs = m.subs := rfl
@[simp] theorem setC_cur (m : Member) (n : Nat) (y : Cap) : (m.setC n y).cur = m.cur := rfl
@[simp] theorem setC_serial (m : Member) (n : Nat) (y : Cap) : (m.setC n y).serial = m.serial := rfl
@[simp] theorem setC_serialG (m : Member) (n : Nat) (y : Cap) : (m.setC n y).serialG = m.serialG := rfl
@[simp] theorem setC_nextStamp (m : Member) (n : Nat) (y : Cap) : (m.setC n y).nextStamp = m.nextStamp := rfl
@[simp] theorem setC_inRow (m : Member) (n : Nat) (y : Cap) : (m.setC n y).inRow = m.inRow := rfl
@[simp] theorem setC_alatch (m : Member) (n : Nat) (y : Cap) : (m.setC n y).alatch = m.alatch := rfl
@[simp] theorem setC_omap (m : Member) (n : Nat) (y : Cap) : (m.setC n y).omap = m.omap := rfl
@[simp] theorem setC_cnt (m : Member) (n : Nat) (y : Cap) : (m.setC n y).cnt = m.cnt := rfl
@[simp] theorem setC_jlast (m : Member) (n : Nat) (y : Cap) : (m.setC n y).jlast = m.jlast := rfl
@[simp] theorem setC_engst (m : Member) (n : Nat) (y : Cap) : (m.setC n y).engst = m.engst := rfl
@[simp] theorem setC_rstat (m : Member) (n : Nat) (y : Cap) : (m.setC n y).rstat = m.rstat := rfl
@[simp] theorem setC_ldr (m : Member) (n : Nat) (y : Cap) : (m.setC n y).ldr = m.ldr := rfl
@[simp] theorem setC_lent (m : Member) (n : Nat) (y : Cap) : (m.setC n y).lent = m.lent := rfl
@[simp] theorem setC_entered (m : Member) (n : Nat) (y : Cap) : (m.setC n y).entered = m.entered := rfl
@[simp] theorem setC_issued (m : Member) (n : Nat) (y : Cap) : (m.setC n y).issued = m.issued := rfl
@[simp] theorem setC_run (m : Member) (n : Nat) (y : Cap) : (m.setC n y).run = m.run := rfl
@[simp] theorem setC_trapLanes (m : Member) (n : Nat) (y : Cap) : (m.setC n y).trapLanes = m.trapLanes := rfl

/-! ### setX -/

@[simp] theorem setX_uid (m : Member) (l n : Nat) (y : XReg) : (m.setX l n y).uid = m.uid := rfl
@[simp] theorem setX_scalar (m : Member) (l n : Nat) (y : XReg) : (m.setX l n y).scalar = m.scalar := rfl
@[simp] theorem setX_ctx (m : Member) (l n : Nat) (y : XReg) : (m.setX l n y).ctx = m.ctx := rfl
@[simp] theorem setX_team (m : Member) (l n : Nat) (y : XReg) : (m.setX l n y).team = m.team := rfl
@[simp] theorem setX_idx (m : Member) (l n : Nat) (y : XReg) : (m.setX l n y).idx = m.idx := rfl
@[simp] theorem setX_v (m : Member) (l n : Nat) (y : XReg) : (m.setX l n y).v = m.v := rfl
@[simp] theorem setX_pv (m : Member) (l n : Nat) (y : XReg) : (m.setX l n y).pv = m.pv := rfl
@[simp] theorem setX_s (m : Member) (l n : Nat) (y : XReg) : (m.setX l n y).s = m.s := rfl
@[simp] theorem setX_c (m : Member) (l n : Nat) (y : XReg) : (m.setX l n y).c = m.c := rfl
@[simp] theorem setX_ps (m : Member) (l n : Nat) (y : XReg) : (m.setX l n y).ps = m.ps := rfl
@[simp] theorem setX_pk (m : Member) (l n : Nat) (y : XReg) : (m.setX l n y).pk = m.pk := rfl
@[simp] theorem setX_q (m : Member) (l n : Nat) (y : XReg) : (m.setX l n y).q = m.q := rfl
@[simp] theorem setX_lat (m : Member) (l n : Nat) (y : XReg) : (m.setX l n y).lat = m.lat := rfl
@[simp] theorem setX_chain (m : Member) (l n : Nat) (y : XReg) : (m.setX l n y).chain = m.chain := rfl
@[simp] theorem setX_chainPc (m : Member) (l n : Nat) (y : XReg) : (m.setX l n y).chainPc = m.chainPc := rfl
@[simp] theorem setX_ord (m : Member) (l n : Nat) (y : XReg) : (m.setX l n y).ord = m.ord := rfl
@[simp] theorem setX_root (m : Member) (l n : Nat) (y : XReg) : (m.setX l n y).root = m.root := rfl
@[simp] theorem setX_subs (m : Member) (l n : Nat) (y : XReg) : (m.setX l n y).subs = m.subs := rfl
@[simp] theorem setX_cur (m : Member) (l n : Nat) (y : XReg) : (m.setX l n y).cur = m.cur := rfl
@[simp] theorem setX_serial (m : Member) (l n : Nat) (y : XReg) : (m.setX l n y).serial = m.serial := rfl
@[simp] theorem setX_serialG (m : Member) (l n : Nat) (y : XReg) : (m.setX l n y).serialG = m.serialG := rfl
@[simp] theorem setX_nextStamp (m : Member) (l n : Nat) (y : XReg) : (m.setX l n y).nextStamp = m.nextStamp := rfl
@[simp] theorem setX_inRow (m : Member) (l n : Nat) (y : XReg) : (m.setX l n y).inRow = m.inRow := rfl
@[simp] theorem setX_alatch (m : Member) (l n : Nat) (y : XReg) : (m.setX l n y).alatch = m.alatch := rfl
@[simp] theorem setX_omap (m : Member) (l n : Nat) (y : XReg) : (m.setX l n y).omap = m.omap := rfl
@[simp] theorem setX_cnt (m : Member) (l n : Nat) (y : XReg) : (m.setX l n y).cnt = m.cnt := rfl
@[simp] theorem setX_jlast (m : Member) (l n : Nat) (y : XReg) : (m.setX l n y).jlast = m.jlast := rfl
@[simp] theorem setX_engst (m : Member) (l n : Nat) (y : XReg) : (m.setX l n y).engst = m.engst := rfl
@[simp] theorem setX_rstat (m : Member) (l n : Nat) (y : XReg) : (m.setX l n y).rstat = m.rstat := rfl
@[simp] theorem setX_ldr (m : Member) (l n : Nat) (y : XReg) : (m.setX l n y).ldr = m.ldr := rfl
@[simp] theorem setX_lent (m : Member) (l n : Nat) (y : XReg) : (m.setX l n y).lent = m.lent := rfl
@[simp] theorem setX_entered (m : Member) (l n : Nat) (y : XReg) : (m.setX l n y).entered = m.entered := rfl
@[simp] theorem setX_issued (m : Member) (l n : Nat) (y : XReg) : (m.setX l n y).issued = m.issued := rfl
@[simp] theorem setX_run (m : Member) (l n : Nat) (y : XReg) : (m.setX l n y).run = m.run := rfl
@[simp] theorem setX_trapLanes (m : Member) (l n : Nat) (y : XReg) : (m.setX l n y).trapLanes = m.trapLanes := rfl

/-! ### setCount -/

@[simp] theorem setCount_uid (m : Member) (n j : Nat) : (m.setCount n j).uid = m.uid := rfl
@[simp] theorem setCount_scalar (m : Member) (n j : Nat) : (m.setCount n j).scalar = m.scalar := rfl
@[simp] theorem setCount_ctx (m : Member) (n j : Nat) : (m.setCount n j).ctx = m.ctx := rfl
@[simp] theorem setCount_team (m : Member) (n j : Nat) : (m.setCount n j).team = m.team := rfl
@[simp] theorem setCount_idx (m : Member) (n j : Nat) : (m.setCount n j).idx = m.idx := rfl
@[simp] theorem setCount_v (m : Member) (n j : Nat) : (m.setCount n j).v = m.v := rfl
@[simp] theorem setCount_pv (m : Member) (n j : Nat) : (m.setCount n j).pv = m.pv := rfl
@[simp] theorem setCount_s (m : Member) (n j : Nat) : (m.setCount n j).s = m.s := rfl
@[simp] theorem setCount_c (m : Member) (n j : Nat) : (m.setCount n j).c = m.c := rfl
@[simp] theorem setCount_ps (m : Member) (n j : Nat) : (m.setCount n j).ps = m.ps := rfl
@[simp] theorem setCount_pk (m : Member) (n j : Nat) : (m.setCount n j).pk = m.pk := rfl
@[simp] theorem setCount_q (m : Member) (n j : Nat) : (m.setCount n j).q = m.q := rfl
@[simp] theorem setCount_x (m : Member) (n j : Nat) : (m.setCount n j).x = m.x := rfl
@[simp] theorem setCount_lat (m : Member) (n j : Nat) : (m.setCount n j).lat = m.lat := rfl
@[simp] theorem setCount_chain (m : Member) (n j : Nat) : (m.setCount n j).chain = m.chain := rfl
@[simp] theorem setCount_chainPc (m : Member) (n j : Nat) : (m.setCount n j).chainPc = m.chainPc := rfl
@[simp] theorem setCount_ord (m : Member) (n j : Nat) : (m.setCount n j).ord = m.ord := rfl
@[simp] theorem setCount_root (m : Member) (n j : Nat) : (m.setCount n j).root = m.root := rfl
@[simp] theorem setCount_subs (m : Member) (n j : Nat) : (m.setCount n j).subs = m.subs := rfl
@[simp] theorem setCount_cur (m : Member) (n j : Nat) : (m.setCount n j).cur = m.cur := rfl
@[simp] theorem setCount_serial (m : Member) (n j : Nat) : (m.setCount n j).serial = m.serial := rfl
@[simp] theorem setCount_serialG (m : Member) (n j : Nat) : (m.setCount n j).serialG = m.serialG := rfl
@[simp] theorem setCount_nextStamp (m : Member) (n j : Nat) : (m.setCount n j).nextStamp = m.nextStamp := rfl
@[simp] theorem setCount_inRow (m : Member) (n j : Nat) : (m.setCount n j).inRow = m.inRow := rfl
@[simp] theorem setCount_alatch (m : Member) (n j : Nat) : (m.setCount n j).alatch = m.alatch := rfl
@[simp] theorem setCount_omap (m : Member) (n j : Nat) : (m.setCount n j).omap = m.omap := rfl
@[simp] theorem setCount_jlast (m : Member) (n j : Nat) : (m.setCount n j).jlast = m.jlast := rfl
@[simp] theorem setCount_engst (m : Member) (n j : Nat) : (m.setCount n j).engst = m.engst := rfl
@[simp] theorem setCount_rstat (m : Member) (n j : Nat) : (m.setCount n j).rstat = m.rstat := rfl
@[simp] theorem setCount_ldr (m : Member) (n j : Nat) : (m.setCount n j).ldr = m.ldr := rfl
@[simp] theorem setCount_lent (m : Member) (n j : Nat) : (m.setCount n j).lent = m.lent := rfl
@[simp] theorem setCount_entered (m : Member) (n j : Nat) : (m.setCount n j).entered = m.entered := rfl
@[simp] theorem setCount_issued (m : Member) (n j : Nat) : (m.setCount n j).issued = m.issued := rfl
@[simp] theorem setCount_run (m : Member) (n j : Nat) : (m.setCount n j).run = m.run := rfl
@[simp] theorem setCount_trapLanes (m : Member) (n j : Nat) : (m.setCount n j).trapLanes = m.trapLanes := rfl

/-! ### Reading the register written -/

@[simp] theorem vreg_setV (m : Member) (l r : Nat) (y : Word) : (m.setV l r y).vreg l r = y := FMap.get_put_self _ _ _ _
theorem vreg_setV_ne (m : Member) {l r j n : Nat} (y : Word) (h : j * 64 + n ≠ l * 64 + r) : (m.setV l r y).vreg j n = m.vreg j n :=
  FMap.get_put_ne _ _ _ h
@[simp] theorem sreg_setS (m : Member) (n : Nat) (y : DWord) : (m.setS n y).sreg n = y := FMap.get_put_self _ _ _ _
theorem sreg_setS_ne (m : Member) {n j : Nat} (y : DWord) (h : j ≠ n) : (m.setS n y).sreg j = m.sreg j := FMap.get_put_ne _ _ _ h
@[simp] theorem creg_setC (m : Member) (n : Nat) (y : Cap) : (m.setC n y).creg n = y := FMap.get_put_self _ _ _ _
theorem creg_setC_ne (m : Member) {n j : Nat} (y : Cap) (h : j ≠ n) : (m.setC n y).creg j = m.creg j := FMap.get_put_ne _ _ _ h
@[simp] theorem xreg_setX (m : Member) (l n : Nat) (y : XReg) : (m.setX l n y).xreg l n = y := FMap.get_put_self _ _ _ _
@[simp] theorem count_setCount (m : Member) (n j : Nat) : (m.setCount n j).count n = j := FMap.get_put_self _ _ _ _

end Member

end Sys2Proof.Machine
end

