-- ==== Sys2Proof/Laws/Memory.lean ====
section
/-!
SUPPORT. Laws/Memory.lean: that the operations over memory keep its canonical form, and what a byte reads as after a write.
-/
namespace Sys2Proof.Machine
namespace State

/-- The memory of the state after reset is in canonical form. -/
theorem reset_mem_wf : Memory.wf State.reset.mem = true := rfl

/-- Memory in canonical form stays so where the three memories are as before. -/
theorem MemOk.congr {s t : State} (h : s.MemOk) (a : t.mem = s.mem) (b : t.hostMem = s.hostMem) (c : t.peerMem = s.peerMem) : t.MemOk := by
  simpa [MemOk, a, b, c] using h

theorem memOk_modMember {s : State} (k : Nat) (f : Member → Member) (h : s.MemOk) : (s.modMember k f).MemOk := by
  unfold modMember; split
  · exact h.congr rfl rfl rfl
  · exact h

theorem memOk_modUid {s : State} (u : Nat) (f : Member → Member) (h : s.MemOk) : (s.modUid u f).MemOk := h.congr rfl rfl rfl
theorem memOk_modTeam {s : State} (x n : Nat) (f : Team → Team) (h : s.MemOk) : (s.modTeam x n f).MemOk := h.congr rfl rfl rfl
theorem memOk_modDie {s : State} (d : Nat) (f : Die → Die) (h : s.MemOk) : (s.modDie d f).MemOk := h.congr rfl rfl rfl
theorem memOk_modCell {s : State} (d : Nat) (f : Cell → Cell) (h : s.MemOk) : (s.modCell d f).MemOk := h.congr rfl rfl rfl
theorem memOk_modCtx {s : State} (d : Nat) (f : Ctx → Ctx) (h : s.MemOk) : (s.modCtx d f).MemOk := h.congr rfl rfl rfl
theorem memOk_modCluster {s : State} (d : Nat) (f : Cluster → Cluster) (h : s.MemOk) : (s.modCluster d f).MemOk := h.congr rfl rfl rfl

/-- One byte written keeps the form. -/
theorem memOk_setByte {s : State} (pa : Nat) (x : Byte) (h : s.MemOk) : (s.setByte pa x).MemOk := by
  unfold setByte
  extract_lets
  split
  · exact memOk_modMember _ _ h
  · exact ⟨FMap.wf_put _ _ h.1, h.2.1, h.2.2⟩

/-- Bytes written keep the form. -/
theorem memOk_setBytes {s : State} (pa : Nat) (bs : List Byte) (h : s.MemOk) : (s.setBytes pa bs).MemOk := by
  induction bs generalizing s pa with
  | nil => exact h
  | cons b t ih => exact ih _ (memOk_setByte pa b h)

/-- A byte of host or peer memory written keeps the form. -/
theorem memOk_setExtByte {s : State} (p : Bool) (a : Nat) (x : Byte) (h : s.MemOk) : (s.setExtByte p a x).MemOk := by
  cases p
  · exact ⟨h.1, FMap.wf_put _ _ h.2.1, h.2.2⟩
  · exact ⟨h.1, h.2.1, FMap.wf_put _ _ h.2.2⟩

theorem memOk_setExtBytes {s : State} (p : Bool) (a : Nat) (bs : List Byte) (h : s.MemOk) : (s.setExtBytes p a bs).MemOk := by
  induction bs generalizing s a with
  | nil => exact h
  | cons b t ih => exact ih _ (memOk_setExtByte p a b h)

theorem memOk_setTag {s : State} (pa : Nat) (t : Bool) (h : s.MemOk) : (s.setTag pa t).MemOk := h.congr rfl rfl rfl

/-- A property that every step of a fold keeps holds at its end. -/
theorem memOk_foldl {α : Type} (f : State → α → State) (hf : ∀ s a, s.MemOk → (f s a).MemOk) (l : List α) {s : State} (h : s.MemOk) :
    (l.foldl f s).MemOk := by
  induction l generalizing s with
  | nil => exact h
  | cons a t ih => exact ih (hf s a h)

theorem memOk_clearTags {s : State} (pa n : Nat) (h : s.MemOk) : (s.clearTags pa n).MemOk :=
  memOk_foldl _ (fun _ _ g => memOk_setTag _ _ g) _ h

theorem memOk_clearPoison {s : State} (pa n : Nat) (h : s.MemOk) : (s.clearPoison pa n).MemOk := by
  unfold clearPoison
  extract_lets
  split
  · exact memOk_modMember _ _ h
  · exact h.congr rfl rfl rfl

theorem memOk_setPoison {s : State} (pa n : Nat) (h : s.MemOk) : (s.setPoison pa n).MemOk := by
  unfold setPoison
  extract_lets
  split
  · exact memOk_modMember _ _ h
  · exact h.congr rfl rfl rfl

/-- Bytes written with their tags and poison cleared keep the form. -/
theorem memOk_rawWrite {s : State} (pa : Nat) (bs : List Byte) (h : s.MemOk) : (s.rawWrite pa bs).MemOk :=
  memOk_clearPoison _ _ (memOk_clearTags _ _ (memOk_setBytes _ _ h))

/-! ### Regions, stores and atomics -/

theorem memOk_ite {c : Bool} {s t : State} (h : s.MemOk) (g : t.MemOk) : (if c then s else t).MemOk := by split <;> assumption

theorem memOk_endSolo {s : State} (d : Nat) (h : s.MemOk) : (s.endSolo d).MemOk := memOk_modDie _ _ h

theorem memOk_abortOne {s : State} (d n : Nat) (c : Cause) (h : s.MemOk) : (s.abortOne d n c).1.MemOk := by
  unfold abortOne
  split
  · exact h
  · split
    · exact h
    · exact memOk_ite (memOk_endSolo _ (memOk_modUid _ _ (memOk_modDie _ _ h))) (memOk_modUid _ _ (memOk_modDie _ _ h))

theorem memOk_abortAll (f : Nat) {s : State} (d : Nat) (l : List (Nat × Cause)) (h : s.MemOk) : (abortAll f s d l).MemOk := by
  induction f generalizing s l with
  | zero => exact h
  | succ f ih =>
    cases l with
    | nil => exact h
    | cons p t => exact ih _ (memOk_abortOne d p.1 p.2 h)

theorem memOk_abortRegion {s : State} (d n : Nat) (c : Cause) (h : s.MemOk) : (s.abortRegion d n c).MemOk := memOk_abortAll _ _ _ h

theorem memOk_abortLanes {s : State} (cell uid : Nat) (ls : Word) (c : Cause) (h : s.MemOk) : (s.abortLanes cell uid ls c).MemOk :=
  memOk_foldl _ (fun s l g => by unfold abortLane; split <;> first | exact memOk_abortRegion _ _ _ g | exact g) _ h

theorem memOk_abortMember {s : State} (cell uid : Nat) (c : Cause) (h : s.MemOk) : (s.abortMember cell uid c).MemOk :=
  memOk_foldl _ (fun _ _ g => memOk_abortRegion _ _ _ g) _ h

theorem memOk_validateReaders (s : State) {t : State} (pa n : Nat) (h : t.MemOk) : (validateReaders s t pa n).MemOk :=
  memOk_foldl _ (fun _ _ g => memOk_abortRegion _ _ _ g) _ h

/-- Bytes performed outside regions keep the form. -/
theorem memOk_put {s : State} (pa : Nat) (bs : List Byte) (tag : Bool) (poison : List Nat) (h : s.MemOk) : (s.put pa bs tag poison).MemOk :=
  memOk_validateReaders _ _ _ (memOk_foldl _ (fun _ _ g => memOk_setPoison _ _ g) _
    (memOk_ite (memOk_setTag _ _ (memOk_rawWrite _ _ h)) (memOk_rawWrite _ _ h)))

theorem memOk_hold {s : State} (w : HeldWrite) (h : s.MemOk) : (s.hold w).MemOk := h.congr rfl rfl rfl

/-- An atomic outside regions keeps the form. -/
theorem memOk_atomic {s : State} (pa : Nat) (op : AtomOp) (w : BitVec 2) (b : Nat) (h : s.MemOk) : (s.atomic pa op w b).1.MemOk :=
  memOk_validateReaders _ _ _ (memOk_ite (memOk_setPoison _ _ (memOk_rawWrite _ _ h)) (memOk_rawWrite _ _ h))

theorem memOk_compareSwap {s : State} (pa n e x : Nat) (h : s.MemOk) : (s.compareSwap pa n e x).1.MemOk := by
  unfold compareSwap
  extract_lets
  split
  · exact memOk_validateReaders _ _ _ (memOk_rawWrite _ _ h)
  · exact h

/-! ### What the homes and the caches record changes no memory -/

/-- The three memories. -/
def mems (s : State) : FMap Byte × FMap Byte × FMap Byte := (s.mem, s.hostMem, s.peerMem)

theorem MemOk.of_mems {s t : State} (h : s.MemOk) (e : t.mems = s.mems) : t.MemOk := by
  simp only [mems, Prod.mk.injEq] at e
  exact h.congr e.1 e.2.1 e.2.2

/-- What every step of a fold keeps of the memories, the fold keeps. -/
theorem mems_foldl {α : Type} {f : State → α → State} (hf : ∀ s a, (f s a).mems = s.mems) (l : List α) (s : State) :
    (l.foldl f s).mems = s.mems := by
  induction l generalizing s with
  | nil => rfl
  | cons a t ih => exact (ih _).trans (hf s a)

@[simp] theorem mems_setLine (s : State) (n : Nat) (l : Line) : (s.setLine n l).mems = s.mems := rfl
@[simp] theorem mems_modLine (s : State) (n : Nat) (f : Line → Line) : (s.modLine n f).mems = s.mems := rfl
@[simp] theorem mems_setL1 (s : State) (c n : Nat) (l : L1Line) : (s.setL1 c n l).mems = s.mems := rfl
@[simp] theorem mems_modL1 (s : State) (c n : Nat) (f : L1Line → L1Line) : (s.modL1 c n f).mems = s.mems := rfl
@[simp] theorem mems_stamp (s : State) (d : Nat) (t : BitVec 16) : (s.stamp d t).mems = s.mems := rfl
@[simp] theorem mems_setPts (s : State) (c : Nat) (t : BitVec 16) : (s.setPts c t).mems = s.mems := rfl
@[simp] theorem mems_raisePts (s : State) (c : Nat) (t : BitVec 16) : (s.raisePts c t).mems = s.mems := by unfold raisePts; split <;> rfl
@[simp] theorem mems_leaveLease (s : State) (n : Nat) : (s.leaveLease n).mems = s.mems := rfl
@[simp] theorem mems_recallLine (s : State) (n : Nat) (w : Word) (e : Option Nat) (i : Bool) : (s.recallLine n w e i).mems = s.mems := by
  unfold recallLine; dsimp only; rw [mems_modLine]; exact mems_foldl (fun _ _ => mems_modL1 ..) _ _
@[simp] theorem mems_invalidate (s : State) (n : Nat) (w : Word) (e : Option Nat) : (s.invalidate n w e).mems = s.mems := rfl
@[simp] theorem mems_recallHost (s : State) (n : Nat) (w : Word) : (s.recallHost n w).mems = s.mems := rfl
@[simp] theorem mems_settle (s : State) (n : Nat) : (s.settle n).mems = s.mems := rfl
@[simp] theorem mems_recallAll (s : State) (n : Nat) : (s.recallAll n).mems = s.mems := by simp [recallAll]
@[simp] theorem mems_leaveSlice (s : State) (n : Nat) : (s.leaveSlice n).mems = s.mems := by unfold leaveSlice; split <;> simp
@[simp] theorem mems_roomSlice (s : State) (n : Nat) : (s.roomSlice n).mems = s.mems := by
  unfold roomSlice; dsimp only; repeat' split
  all_goals simp
@[simp] theorem mems_convert (s : State) (n : Nat) (m : LineMode) : (s.convert n m).mems = s.mems := by
  unfold convert; dsimp only; split
  · rfl
  · rw [mems_modLine]; split <;> simp
@[simp] theorem mems_noteGone (s : State) (c n : Nat) : (s.noteGone c n).mems = s.mems := by unfold noteGone; split <;> simp
@[simp] theorem mems_writeBack (s : State) (c n : Nat) (w : Word) (i : Bool) : (s.writeBack c n w i).mems = s.mems := rfl
@[simp] theorem mems_evictL1 (s : State) (c n : Nat) : (s.evictL1 c n).mems = s.mems := by simp [evictL1]
@[simp] theorem mems_roomL1 (s : State) (c n : Nat) : (s.roomL1 c n).mems = s.mems := by
  unfold roomL1; dsimp only; repeat' split
  all_goals simp
@[simp] theorem mems_fillL1 (s : State) (c n h : Nat) (f : L1Line → L1Line) : (s.fillL1 c n h f).mems = s.mems := by simp [fillL1]
@[simp] theorem mems_dirFetch (s : State) (c n : Nat) (w : Word) : (s.dirFetch c n w).mems = s.mems := by simp [dirFetch]
@[simp] theorem mems_dirRead (s : State) (c n : Nat) (w : Word) (h : Nat) : (s.dirRead c n w h).mems = s.mems := by simp [dirRead]
@[simp] theorem mems_enterOwner (s : State) (n c : Nat) (w : Word) : (s.enterOwner n c w).mems = s.mems := by
  unfold enterOwner; dsimp only; rw [mems_modLine]; repeat' split
  all_goals simp
@[simp] theorem mems_dirOwn (s : State) (c n : Nat) (w : Word) (h : Nat) : (s.dirOwn c n w h).mems = s.mems := by simp [dirOwn]
@[simp] theorem mems_dirHome (s : State) (n : Nat) (w : Word) (b : Bool) : (s.dirHome n w b).mems = s.mems := by
  unfold dirHome; repeat' split
  all_goals simp
@[simp] theorem mems_acquire (s : State) (c : Nat) (k : List Nat) : (s.acquire c k).mems = s.mems := rfl
@[simp] theorem mems_leaseFetch (s : State) (c n l h : Nat) : (s.leaseFetch c n l h).mems = s.mems := by
  unfold leaseFetch; dsimp only; split <;> simp
@[simp] theorem mems_leaseWrite (s : State) (c n h : Nat) : (s.leaseWrite c n h).mems = s.mems := by
  unfold leaseWrite; dsimp only; split <;> simp
@[simp] theorem mems_leaseBare (s : State) (n : Nat) (w : Bool) : (s.leaseBare n w).mems = s.mems := by
  unfold leaseBare; dsimp only; split <;> simp
@[simp] theorem mems_leaseAcquire (s : State) (c n : Nat) (h : Option LeaseCopy) : (s.leaseAcquire c n h).mems = s.mems := by
  simp [leaseAcquire]
@[simp] theorem mems_markConv (s : State) (n : Nat) (m : Option LineMode) : (s.markConv n m).mems = s.mems := by
  unfold markConv; split
  · rfl
  · dsimp only; split <;> simp
@[simp] theorem mems_noteLine (s : State) (pa : Nat) (m : Option LineMode) : (s.noteLine pa m).mems = s.mems := by
  unfold noteLine; split <;> rfl
@[simp] theorem mems_fillTlb (s : State) (c x va : Nat) (l : Leaf) : (s.fillTlb c x va l).mems = s.mems := rfl
@[simp] theorem mems_storeHbm (s : State) (c : Nat) (l : Leaf) (n h : Nat) : (s.storeHbm c l n h).mems = s.mems := by
  unfold storeHbm; dsimp only; repeat' split
  all_goals simp
@[simp] theorem mems_atomHbm (s : State) (c : Nat) (l : Leaf) (n : Nat) : (s.atomHbm c l n).mems = s.mems := by
  unfold atomHbm; dsimp only; repeat' split
  all_goals simp
@[simp] theorem mems_loadHbm (s : State) (c : Nat) (l : Leaf) (n h : Nat) (a : Bool) : (s.loadHbm c l n h a).1.mems = s.mems := by
  unfold loadHbm; dsimp only; repeat' split
  all_goals simp
@[simp] theorem mems_touchHome (s : State) (pa n : Nat) (w : Bool) (m : Option LineMode) : (s.touchHome pa n w m).mems = s.mems := by
  unfold touchHome; split
  · rfl
  · refine mems_foldl (fun s i => ?_) _ _
    dsimp only; repeat' split
    all_goals simp
@[simp] theorem mems_modUid (s : State) (u : Nat) (f : Member → Member) : (s.modUid u f).mems = s.mems := rfl
@[simp] theorem mems_setDst (s : State) (u l : Nat) (d : LoadDst) (x : Nat) (t : Bool) : (s.setDst u l d x t).mems = s.mems := by
  unfold setDst; split <;> try rfl
  split
  · rfl
  · dsimp only; split <;> rfl

/-! ### Writes at their homes -/

/-- A write of a job, a controller or the host keeps the form, performed or held. -/
theorem memOk_homeWrite {s : State} (j : Option (Nat × Nat)) (pa : Nat) (bs : List Byte) (tag : Bool) (p : List Nat) (l : Option Leaf)
    (h : s.MemOk) : (s.homeWrite j pa bs tag p l).MemOk := by
  unfold homeWrite; split
  · exact memOk_hold _ h
  · exact (memOk_put _ _ _ _ h).of_mems (mems_touchHome ..)

theorem memOk_devWrite {s : State} (pa : Nat) (bs : List Byte) (tag : Bool) (h : s.MemOk) : (s.devWrite pa bs tag).MemOk := by
  unfold devWrite; split
  · exact memOk_hold _ h
  · exact memOk_homeWrite ctlAgent pa bs tag [] none h

/-- Noting a message in flight changes no memory. -/
@[simp] theorem mems_countTrip (s : State) (a b : Nat) : (s.countTrip a b).mems = s.mems :=
  (mems_foldl (f := countFlit) (fun _ _ => rfl) _ _).trans (mems_foldl (f := countFlit) (fun _ _ => rfl) _ _)
@[simp] theorem mems_fly (s : State) (u l c a : Nat) (t : Target) : (s.fly u l c a t).mems = s.mems := by
  unfold fly; split
  · dsimp only; split
    · rfl
    · exact mems_countTrip s _ _
  · rfl

/-- An access of a thread keeps the form, whatever it does. -/
theorem memOk_access {s : State} (cell x va n : Nat) (t : Target) (hint : Nat) (acq : Bool) (op : AccOp) (h : s.MemOk) :
    (s.access cell x va n t hint acq op).1.MemOk := by
  unfold access
  cases t with
  | ext p a => dsimp only; split <;> first | exact memOk_setExtBytes _ _ _ h | exact h
  | dev pa lf =>
    have e : (match lf with
      | some l => if s.l1Serves cell l n op then s.fillTlb cell x va l else (s.fillTlb cell x va l).noteLine pa (some (cohMode l.coh))
      | none => s).MemOk := by split <;> (try split) <;> exact h.of_mems (by simp)
    have k : ∀ u : State, u.MemOk → (match lf with
      | some l => u.atomHbm cell l n
      | none => u).MemOk := fun u g => by split <;> exact g.of_mems (by simp)
    cases op with
    | load => cases lf <;> first | exact e.of_mems (mems_loadHbm ..) | exact e
    | store y tg => cases lf <;> first | exact (memOk_put pa (toBytes n y) tg [] e).of_mems (mems_storeHbm ..) | exact memOk_put pa (toBytes n y) tg [] e
    | atom o w b => exact k _ (memOk_atomic _ _ _ _ e)
    | cas y z => exact k _ (memOk_compareSwap _ _ _ _ e)

/-- A write of a thread keeps the form, performed or held. -/
theorem memOk_submit {s : State} (i : Iss) (lane : Nat) (ls : Word) (va n pa : Nat) (l : Option Leaf) (hint : Nat) (op : AccOp)
    (dst : LoadDst) (h : s.MemOk) : (s.submit i lane ls va n pa l hint op dst).1.MemOk := by
  unfold submit; dsimp only; split
  · exact memOk_hold _ (by split <;> exact h.of_mems (by simp))
  · exact memOk_access _ _ _ _ _ _ _ _ (h.of_mems (mems_fly ..))

theorem memOk_performHeld {s : State} (w : HeldWrite) (h : s.MemOk) : (s.performHeld w).MemOk := by
  unfold performHeld; split
  · split
    · exact (memOk_put w.pa _ _ w.poison h).of_mems (mems_touchHome ..)
    · exact h
  · dsimp only; split
    · exact memOk_access _ _ _ _ _ _ _ _ h
    · split
      · exact h
      · exact (memOk_access w.cell w.ctx w.va w.n _ w.hint w.acq w.op (h.of_mems (mems_fly ..))).of_mems
          (by rw [mems_setDst]; split <;> rfl)

theorem memOk_applyLate {s : State} (c t : Nat) (e : LateEff) (h : s.MemOk) : (s.applyLate c t e).MemOk := by cases e <;> exact h

theorem memOk_settleLate {s : State} (h : s.MemOk) : s.settleLate.MemOk :=
  memOk_foldl _ (fun _ e g => by split <;> first | exact memOk_applyLate _ _ e.eff g | exact g) _ h

/-- The held writes that can be performed keep the form. -/
theorem memOk_drainHeld {s : State} (h : s.MemOk) : s.drainHeld.MemOk := by
  suffices ∀ (l : List HeldWrite) (a : State × List HeldWrite), a.1.MemOk → (l.foldl (fun (a : State × List HeldWrite) h =>
      if a.1.heldGoes a.2 h then (a.1.performHeld h, a.2)
      else (if isHbm h.pa then a.1.markConv (h.pa / 128) (h.page.map fun l => cohMode l.coh) else a.1, a.2 ++ [h])) a).1.MemOk from
    memOk_settleLate ((this s.heldW (s, []) h).congr rfl rfl rfl)
  intro l
  induction l with
  | nil => exact fun _ g => g
  | cons w t ih =>
    intro a g
    refine ih _ ?_
    dsimp only; split
    · exact memOk_performHeld w g
    · dsimp only; split
      · exact g.of_mems (by simp)
      · exact g

/-! ### What a byte reads as after a write -/

/-- Outside the register windows, a byte written where no line is mapped reads as written, and every other byte as before. -/
theorem get_mem_setByte {s : State} {pa : Nat} (x : Byte) (a : Nat) (r : isRegw (s.redirect pa) = false) :
    FMap.get 0 (s.setByte pa x).mem a = if a = s.redirect pa then x else FMap.get 0 s.mem a := by
  simp [setByte, r, FMap.get_put]

@[simp] theorem redirect_modMember (s : State) (k a : Nat) (f : Member → Member) : (s.modMember k f).redirect a = s.redirect a := by
  unfold modMember; split <;> rfl

@[simp] theorem redirect_setByte (s : State) (pa a : Nat) (x : Byte) : (s.setByte pa x).redirect a = s.redirect a := by
  unfold setByte
  extract_lets
  split
  · exact redirect_modMember ..
  · rfl

/-- Where a byte lies in a scratchpad, an ACC tile or an HBM line that is not mapped, it is the byte of memory at its address. -/
theorem byte_eq {s : State} {pa : Nat} (d : s.redirect pa = pa) (r : isRegw pa = false) : s.byte pa = FMap.get 0 s.mem pa := by
  simp [byte, d, r]

end State
end Sys2Proof.Machine
end

