-- ==== Sys2Proof/Laws/Words.lean ====
section
/-!
SUPPORT. Laws/Words.lean: what the shared frame of the instruction words does, said once: a word without an issuer, a word
whose lanes have no open region, a pure ALU word, and how the group goes on.
-/
namespace Sys2Proof.Machine

/-- The issuer of a word as its checks see it. -/
theorem State.iss_eq {s : State} {k : Nat} {m : Member} (i : s.issuer = some k) (h : s.member? k = some m) (x : Hdr) :
    s.iss x = some ⟨k, m, m.cur, m.enabled x⟩ := by
  simp [State.iss, i, h]

/-- An issuer that no stage has changed. -/
theorem State.reIss_eq {s : State} {k : Nat} {m : Member} {g : Option Nat} {en : Word} (h : s.member? k = some m) :
    s.reIss ⟨k, m, g, en⟩ en = ⟨k, m, g, en⟩ := by
  simp [State.reIss, h]

/-- Without an issuer a word does nothing. -/
theorem runWord_none {use : InRegion} {h : Hdr} {body : Iss → State → Chk State} {s : State} (n : s.issuer = none) :
    runWord use h body s = .next s := by
  simp [runWord, State.iss, n]

/-- Lanes without an open region take no part in the first stage. -/
theorem regionStage_none {use : InRegion} {body : Iss → State → Chk State} {i : Iss} {s : State}
    (n : s.regionLanes i.cell i.m.uid &&& i.en = 0) : regionStage use body i s = (s, i.en) := by
  simp [regionStage, n]

/-- A word whose checks pass has its effect, and its issuer chooses its group again. -/
theorem runWord_ok {use : InRegion} {h : Hdr} {body : Iss → State → Chk State} {s t : State} {k : Nat} {m : Member}
    (i : s.issuer = some k) (hm : s.member? k = some m) (n : s.regionLanes (cellOf k) m.uid &&& m.enabled h = 0)
    (b : body ⟨k, m, m.cur, m.enabled h⟩ s = .ok t) : runWord use h body s = .next (t.repick k) := by
  have r : regionStage use body ⟨k, m, m.cur, m.enabled h⟩ s = (s, m.enabled h) := regionStage_none n
  simp only [runWord, State.iss_eq i hm, r, State.reIss_eq hm, b]

/-- A word that raises a cause traps with it. -/
theorem runWord_error {use : InRegion} {h : Hdr} {body : Iss → State → Chk State} {s : State} {e : Exn} {k : Nat} {m : Member}
    (i : s.issuer = some k) (hm : s.member? k = some m) (n : s.regionLanes (cellOf k) m.uid &&& m.enabled h = 0)
    (b : body ⟨k, m, m.cur, m.enabled h⟩ s = .error e) : runWord use h body s = .next (s.raise ⟨k, m, m.cur, m.enabled h⟩ e) := by
  have r : regionStage use body ⟨k, m, m.cur, m.enabled h⟩ s = (s, m.enabled h) := regionStage_none n
  simp only [runWord, State.iss_eq i hm, r, State.reIss_eq hm, b]

theorem stepWord_ok {use : InRegion} {h : Hdr} {body : Iss → State → Chk State} {s t : State} {k : Nat} {m : Member}
    (i : s.issuer = some k) (hm : s.member? k = some m) (n : s.regionLanes (cellOf k) m.uid &&& m.enabled h = 0)
    (b : body ⟨k, m, m.cur, m.enabled h⟩ s = .ok t) :
    stepWord use h body s = .next ((t.next ⟨k, m, m.cur, m.enabled h⟩).repick k) :=
  runWord_ok i hm n (by simp [b, Except.map])

theorem stepWord_error {use : InRegion} {h : Hdr} {body : Iss → State → Chk State} {s : State} {e : Exn} {k : Nat} {m : Member}
    (i : s.issuer = some k) (hm : s.member? k = some m) (n : s.regionLanes (cellOf k) m.uid &&& m.enabled h = 0)
    (b : body ⟨k, m, m.cur, m.enabled h⟩ s = .error e) :
    stepWord use h body s = .next (s.raise ⟨k, m, m.cur, m.enabled h⟩ e) :=
  runWord_error i hm n (by simp [b, Except.map])

/-- A word that acts once does nothing but go on where no lane is enabled. -/
theorem onceWord_idle {use : InRegion} {h : Hdr} {body : Iss → State → Chk State} {s : State} {k : Nat} {m : Member}
    (i : s.issuer = some k) (hm : s.member? k = some m) (z : m.enabled h = 0) :
    onceWord use h body s = .next ((s.next ⟨k, m, m.cur, m.enabled h⟩).repick k) :=
  stepWord_ok i hm (by simp [z]) (by simp [z])

theorem onceWord_ok {use : InRegion} {h : Hdr} {body : Iss → State → Chk State} {s t : State} {k : Nat} {m : Member}
    (i : s.issuer = some k) (hm : s.member? k = some m) (n : s.regionLanes (cellOf k) m.uid &&& m.enabled h = 0)
    (z : m.enabled h ≠ 0) (b : body ⟨k, m, m.cur, m.enabled h⟩ s = .ok t) :
    onceWord use h body s = .next ((t.next ⟨k, m, m.cur, m.enabled h⟩).repick k) :=
  stepWord_ok i hm n (by rw [if_neg (by simpa using z)]; exact b)

/-- A group that can issue goes on issuing (R158). -/
theorem Member.repick_eq {m : Member} (n : m.names.contains m.cur = true) (c : m.canIssue m.cur = true) : m.repick = m := by
  have n' := List.contains_iff_mem.1 n
  simp [Member.repick, n', c]

/-- A member changed, sent on and chosen again is that member changed once. -/
theorem State.next_repick {s : State} {k : Nat} (m : Member) (i : Iss) (e : i.k = k) :
    (((s.setMember k m).next i).repick k) = s.setMember k (m.modGrp i.g fun x => { x with pc := nextPc x.pc }).repick := by
  subst e
  simp [State.next, State.repick]

/-- The lanes of a mask, put together again. -/
theorem foldl_laneMask (w x : Word) : (lanesOf w).foldl (fun a l => a ||| laneMask l) x = x ||| w := by
  suffices ∀ (l : List Nat) (x : Word), (∀ j ∈ l, j < 32) → ∀ i, i < 32 →
      (l.foldl (fun a l => a ||| laneMask l) x).getLsbD i = (x.getLsbD i || l.contains i) by
    refine BitVec.eq_of_getLsbD_eq fun i hi => ?_
    rw [this _ _ (fun j hj => by simp [lanesOf] at hj; exact hj.1) i hi, BitVec.getLsbD_or]
    congr 1
    rw [Bool.eq_iff_iff]
    simp [lanesOf, hi]
  intro l
  induction l with
  | nil => intro x _ i _; simp
  | cons j t ih =>
    intro x h i hi
    rw [List.foldl_cons, ih _ (fun a b => h a (List.mem_cons_of_mem _ b)) i hi]
    have hj := h j (List.mem_cons_self ..)
    have : (laneMask j).getLsbD i = (i == j) := by
      simp only [laneMask, BitVec.getLsbD_ofNat, Nat.testBit_two_pow, hi, decide_true, Bool.true_and]
      rw [Bool.eq_iff_iff, decide_eq_true_eq, beq_iff_eq, eq_comm]
    rw [BitVec.getLsbD_or, this, List.contains_cons, Bool.or_assoc]

/-- Where a word raises nothing in any lane, no region aborts. -/
theorem abortAlone_ok {body : Iss → State → Chk State} {i : Iss} (s : State) (b : ∀ j t, ∃ u, body j t = .ok u) (rl : Word) :
    abortAlone body i rl s = (s, rl) := by
  suffices ∀ (f : State × Word → Nat → State × Word) (l : List Nat) (x : Word), (∀ x j, f (s, x) j = (s, x ||| laneMask j)) →
      l.foldl f (s, x) = (s, l.foldl (fun a l => a ||| laneMask l) x) by
    unfold abortAlone
    rw [this, foldl_laneMask]
    · simp
    · intro x j
      obtain ⟨u, hu⟩ := b { i with en := laneMask j } s
      simp only [hu]
  intro f l
  induction l with
  | nil => intro x _; rfl
  | cons j t ih =>
    intro x h
    rw [List.foldl_cons, List.foldl_cons, h, ih _ h]

/-- The lanes for which a word acts that raises nothing: one that acts once leaves it to the lanes without an open region where some
enabled ones have one (R219). -/
theorem regionStage_ok {use : InRegion} {body : Iss → State → Chk State} {i : Iss} (s : State) (b : ∀ j t, ∃ u, body j t = .ok u)
    (h : use = .usual ∨ use = .once) :
    regionStage use body i s = (s, if use = .once ∧ i.en &&& ~~~(s.regionLanes i.cell i.m.uid) ≠ 0
      then i.en &&& ~~~(s.regionLanes i.cell i.m.uid) else i.en) := by
  have o : i.en &&& ~~~(s.regionLanes i.cell i.m.uid &&& i.en) = i.en &&& ~~~(s.regionLanes i.cell i.m.uid) := by
    generalize s.regionLanes i.cell i.m.uid = r
    ext j hj
    simp only [BitVec.getElem_and, BitVec.getElem_not]
    cases i.en[j] <;> simp
  have u : i.en &&& ~~~(s.regionLanes i.cell i.m.uid) ||| s.regionLanes i.cell i.m.uid &&& i.en = i.en := by
    generalize s.regionLanes i.cell i.m.uid = r
    ext j hj
    simp only [BitVec.getElem_and, BitVec.getElem_not, BitVec.getElem_or]
    cases i.en[j] <;> cases r[j] <;> rfl
  unfold regionStage
  simp only [abortAlone_ok s b, o]
  by_cases z : s.regionLanes i.cell i.m.uid &&& i.en = 0
  · rw [z] at u
    simp only [z, BEq.rfl, if_true]
    rw [show i.en &&& ~~~(s.regionLanes i.cell i.m.uid) = i.en by simpa using u]
    split <;> rfl
  · simp only [beq_iff_eq, z, if_false]
    rcases h with h | h
    · subst h; simp [u]
    · subst h
      by_cases y : i.en &&& ~~~(s.regionLanes i.cell i.m.uid) = 0
      · rw [y] at u
        simp only [y, if_true, ne_eq, not_true_eq_false, and_false, if_false]
        simpa using u
      · simp only [y, if_false, ne_eq, not_false_eq_true, and_true, if_true]

/-- The lanes for which a pure ALU word acts (R60, R219): with U, the enabled lanes without an open region where there are any, and else
every enabled lane. -/
def aluLanes (s : State) (k : Nat) (m : Member) (w : Alu) : Word :=
  if w.u = true ∧ m.enabled w.h &&& ~~~(s.regionLanes (cellOf k) m.uid) ≠ 0 then m.enabled w.h &&& ~~~(s.regionLanes (cellOf k) m.uid)
  else m.enabled w.h

/-- A pure ALU word changes its member alone, whatever regions are open. -/
theorem aluWord_eq {w : Alu} {t : Ty} {f : Member → Nat → Nat} {s : State} {k : Nat} {m : Member} (i : s.issuer = some k)
    (hm : s.member? k = some m) :
    aluWord w t f s = .next (s.setMember k
      ((m.aluWrite w t (aluLanes s k m w) (f m)).modGrp m.cur fun x => { x with pc := nextPc x.pc }).repick) := by
  have r := fun b h => regionStage_ok (use := if w.u then .once else .usual) (body := b) (i := ⟨k, m, m.cur, m.enabled w.h⟩) s h
    (by cases w.u <;> simp)
  have e : (if (if w.u = true then InRegion.once else InRegion.usual) = InRegion.once ∧
      m.enabled w.h &&& ~~~(s.regionLanes (cellOf k) m.uid) ≠ 0 then m.enabled w.h &&& ~~~(s.regionLanes (cellOf k) m.uid)
      else m.enabled w.h) = aluLanes s k m w := by
    unfold aluLanes
    cases w.u <;> simp
  have e' : (s.reIss ⟨k, m, m.cur, m.enabled w.h⟩ (aluLanes s k m w)) = ⟨k, m, m.cur, aluLanes s k m w⟩ := by simp [State.reIss, hm]
  have q := (r (fun i s => (Except.ok (s.modMember i.k fun m => m.aluWrite w t i.en (f i.m)) : Chk State).map fun t => t.next i)
    fun j t => ⟨_, rfl⟩).trans (congrArg (Prod.mk s) e)
  simp only [aluWord, stepWord, runWord, State.iss_eq i hm]
  rw [q]
  simp only [e', Except.map, State.modMember_eq hm, State.next_repick]

end Sys2Proof.Machine
end

