-- ==== Sys2Proof/Tests/Slice0.lean ====
section
/-!
SUPPORT. Tests/Slice0.lean: tests of the model. Words written out from the spec's encodings decode to their instructions;
ill-formed terms are refused; single steps give what the spec's examples give; and each obligation's hypotheses are met by a
concrete state and operands.
-/
namespace Sys2Proof.Tests
open Sys2Proof Sys2Proof.Machine Sys2Proof.Claims
set_option Elab.async false

/-! ### Well-formed and ill-formed terms: one ill-formed term for each check of R108, which the check refuses -/

theorem test_wf_accepts : (Instr.iadd ⟨⟨0, false, 7⟩, .i32, false, false, 5⟩ (.v 6) (.s 7) true).wf = true := by decide

/-- IDIV of an 8-bit type: R106 gives IDIV SUB 2, 3, 6 and 7 only. -/
theorem test_wf_assigned : (Instr.idiv ⟨⟨0, false, 7⟩, .i8, false, false, 5⟩ (.v 6) (.s 7)).assigned = false ∧
    (Instr.idiv ⟨⟨0, false, 7⟩, .i8, false, false, 5⟩ (.v 6) (.s 7)).wf = false := by decide

/-- An NW word that names a destination (R66). -/
theorem test_wf_reserved : (Instr.iadd ⟨⟨0, false, 7⟩, .i32, false, true, 5⟩ (.v 6) (.s 7) false).reservedOk = false ∧
    (Instr.iadd ⟨⟨0, false, 7⟩, .i32, false, true, 5⟩ (.v 6) (.s 7) false).wf = false := by decide

/-- An odd register for a 64-bit source (R59). -/
theorem test_wf_kinds : (Instr.iadd ⟨⟨0, false, 7⟩, .i64, false, false, 4⟩ (.v 7) (.s 7) false).kindsOk = false ∧
    (Instr.iadd ⟨⟨0, false, 7⟩, .i64, false, false, 4⟩ (.v 7) (.s 7) false).wf = false := by decide

/-- A pair whose destinations v2 and v6 stand in one bank (R104). -/
theorem test_wf_banks : (Instr.pairWord ⟨.iadd, 2, .s 4, 0, 0⟩ ⟨.fadd, 6, .v 9, 0, 0⟩).banksOk = false ∧
    (Instr.pairWord ⟨.iadd, 2, .s 4, 0, 0⟩ ⟨.fadd, 6, .v 9, 0, 0⟩).wf = false := by decide

theorem test_decode_integer_words :
    decodeTableWord 64 0x0001050687007001 = some (.iadd ⟨⟨0, false, 7⟩, .i32, false, false, 5⟩ (.v 6) (.s 7) true) ∧
    decodeTableWord 64 0x0023050687007002 = some (.iaddc ⟨⟨0, false, 7⟩, .n32, false, false, 5⟩ (.v 6) (.s 7) 2) ∧
    decodeTableWord 64 0x0042850687007000 = some (.isub ⟨⟨0, false, 7⟩, .n16, false, false, 5⟩ (.v 6) (.s 7) false) ∧
    decodeTableWord 64 0x0060050687007000 = some (.imul ⟨⟨0, false, 7⟩, .i8, false, false, 5⟩ (.v 6) (.s 7)) ∧
    decodeTableWord 64 0x0081050687007000 = some (.imulh ⟨⟨0, false, 7⟩, .i32, false, false, 5⟩ (.v 6) (.s 7)) ∧
    decodeTableWord 64 0x00A2050687FD7000 = some (.imad ⟨⟨0, false, 7⟩, .n8, false, false, 5⟩ (.v 6) (.s 7) (.imm 61)) ∧
    decodeTableWord 64 0x00C1050687007000 = some (.idiv ⟨⟨0, false, 7⟩, .i32, false, false, 5⟩ (.v 6) (.s 7)) ∧
    decodeTableWord 64 0x00E3050687007000 = some (.irem ⟨⟨0, false, 7⟩, .n32, false, false, 5⟩ (.v 6) (.s 7)) ∧
    decodeTableWord 64 0x0100850687007000 = some (.imin ⟨⟨0, false, 7⟩, .i16, false, false, 5⟩ (.v 6) (.s 7)) ∧
    decodeTableWord 64 0x0122050687007000 = some (.imax ⟨⟨0, false, 7⟩, .n8, false, false, 5⟩ (.v 6) (.s 7)) ∧
    decodeTableWord 64 0x0141050600007001 = some (.iabs ⟨⟨0, false, 7⟩, .i32, false, false, 5⟩ (.v 6) true) ∧
    decodeTableWord 64 0x0160850600007000 = some (.ineg ⟨⟨0, false, 7⟩, .i16, false, false, 5⟩ (.v 6) false) := by decide

theorem test_decode_bit_words :
    decodeTableWord 64 0x0183050687007000 = some (.and ⟨⟨0, false, 7⟩, .n32, false, false, 5⟩ (.v 6) (.s 7)) ∧
    decodeTableWord 64 0x01A3050687007000 = some (.or ⟨⟨0, false, 7⟩, .n32, false, false, 5⟩ (.v 6) (.s 7)) ∧
    decodeTableWord 64 0x01C3050687007000 = some (.xor ⟨⟨0, false, 7⟩, .n32, false, false, 5⟩ (.v 6) (.s 7)) ∧
    decodeTableWord 64 0x01E3050600007000 = some (.not ⟨⟨0, false, 7⟩, .n32, false, false, 5⟩ (.v 6)) ∧
    decodeTableWord 64 0x0203050687007000 = some (.shl ⟨⟨0, false, 7⟩, .n32, false, false, 5⟩ (.v 6) (.s 7)) ∧
    decodeTableWord 64 0x0223050687007000 = some (.shr ⟨⟨0, false, 7⟩, .n32, false, false, 5⟩ (.v 6) (.s 7)) ∧
    decodeTableWord 64 0x0241050687007000 = some (.sar ⟨⟨0, false, 7⟩, .i32, false, false, 5⟩ (.v 6) (.s 7)) ∧
    decodeTableWord 64 0x0263050687007000 = some (.rot ⟨⟨0, false, 7⟩, .n32, false, false, 5⟩ (.v 6) (.s 7)) ∧
    decodeTableWord 64 0x0281050687007000 = some (.bfx ⟨⟨0, false, 7⟩, .i32, false, false, 5⟩ (.v 6) (.s 7)) ∧
    decodeTableWord 64 0x02A3050687FD7000 = some (.bfi ⟨⟨0, false, 7⟩, .n32, false, false, 5⟩ (.v 6) (.s 7) (.imm 61)) ∧
    decodeTableWord 64 0x02C3050600007000 = some (.popc ⟨⟨0, false, 7⟩, .n32, false, false, 5⟩ (.v 6)) ∧
    decodeTableWord 64 0x02E2850600007000 = some (.clz ⟨⟨0, false, 7⟩, .n16, false, false, 5⟩ (.v 6)) ∧
    decodeTableWord 64 0x0302050600007000 = some (.ctz ⟨⟨0, false, 7⟩, .n8, false, false, 5⟩ (.v 6)) ∧
    decodeTableWord 64 0x0323050600007000 = some (.brev ⟨⟨0, false, 7⟩, .n32, false, false, 5⟩ (.v 6)) ∧
    decodeTableWord 64 0x0341020687007004 = some (.icmp ⟨0, false, 7⟩ .i32 2 (.v 6) (.s 7) 4) ∧
    decodeTableWord 64 0x0365050687007003 = some (.sel ⟨⟨0, false, 7⟩, .f32, false, false, 5⟩ (.v 6) (.s 7) 3) := by decide

theorem test_decode_float_words :
    decodeTableWord 64 0x0405050687007001 = some (.fadd ⟨⟨0, false, 7⟩, .f32, false, false, 5⟩ (.v 6) (.s 7) 1) ∧
    decodeTableWord 64 0x0424050687007002 = some (.fsub ⟨⟨0, false, 7⟩, .f16, false, false, 5⟩ (.v 6) (.s 7) 2) ∧
    decodeTableWord 64 0x0444850687007003 = some (.fmul ⟨⟨0, false, 7⟩, .bf16, false, false, 5⟩ (.v 6) (.s 7) 3) ∧
    decodeTableWord 64 0x0465050687FD7001 = some (.ffma ⟨⟨0, false, 7⟩, .f32, false, false, 5⟩ (.v 6) (.s 7) (.imm 61) 1) ∧
    decodeTableWord 64 0x0485050687007000 = some (.fmin ⟨⟨0, false, 7⟩, .f32, false, false, 5⟩ (.v 6) (.s 7)) ∧
    decodeTableWord 64 0x04A4850687007000 = some (.fmax ⟨⟨0, false, 7⟩, .bf16, false, false, 5⟩ (.v 6) (.s 7)) ∧
    decodeTableWord 64 0x04C5050687007002 = some (.fdiv ⟨⟨0, false, 7⟩, .f32, false, false, 5⟩ (.v 6) (.s 7) 2) ∧
    decodeTableWord 64 0x04E5050600007000 = some (.fsqrt ⟨⟨0, false, 7⟩, .f32, false, false, 5⟩ (.v 6) 0) ∧
    decodeTableWord 64 0x0505050600007001 = some (.frcp ⟨⟨0, false, 7⟩, .f32, false, false, 5⟩ (.v 6) 1) ∧
    decodeTableWord 64 0x0525050600007003 = some (.frsq ⟨⟨0, false, 7⟩, .f32, false, false, 5⟩ (.v 6) 3) ∧
    decodeTableWord 64 0x0545050600007000 = some (.fexp2 ⟨⟨0, false, 7⟩, .f32, false, false, 5⟩ (.v 6)) ∧
    decodeTableWord 64 0x0565050600007000 = some (.flog2 ⟨⟨0, false, 7⟩, .f32, false, false, 5⟩ (.v 6)) ∧
    decodeTableWord 64 0x0585050600007000 = some (.fsin ⟨⟨0, false, 7⟩, .f32, false, false, 5⟩ (.v 6)) ∧
    decodeTableWord 64 0x05A5050600007000 = some (.fcos ⟨⟨0, false, 7⟩, .f32, false, false, 5⟩ (.v 6)) ∧
    decodeTableWord 64 0x05C5050600007000 = some (.ftanh ⟨⟨0, false, 7⟩, .f32, false, false, 5⟩ (.v 6)) ∧
    decodeTableWord 64 0x05E4050600007002 = some (.frnd ⟨⟨0, false, 7⟩, .f16, false, false, 5⟩ (.v 6) 2) ∧
    decodeTableWord 64 0x0604050600007000 = some (.fclass ⟨⟨0, false, 7⟩, .f16, false, false, 5⟩ (.v 6)) ∧
    decodeTableWord 64 0x0625060687007005 = some (.fcmp ⟨0, false, 7⟩ .f32 6 (.v 6) (.s 7) 5) ∧
    decodeTableWord 64 0x0644850687FD7002 = some (.dot2 ⟨⟨0, false, 7⟩, .bf16, false, false, 5⟩ (.v 6) (.s 7) (.imm 61) 2) ∧
    decodeTableWord 64 0x0666050687FD7001 = some (.dot4 ⟨⟨0, false, 7⟩, .e4m3, false, false, 5⟩ (.v 6) (.s 7) (.imm 61) 1) := by decide

theorem test_decode_conversion_words :
    decodeTableWord 64 0x0801050600007029 = some (.cvt ⟨⟨0, false, 7⟩, .i32, false, false, 5⟩ .f32 (.v 6) 1) ∧
    decodeTableWord 64 0x0826050687007002 = some (.cvtq ⟨0, false, 7⟩ .e4m3 5 (.v 6) (.s 7) none 2) ∧
    decodeTableWord 64 0x0847050687897000 = some (.cvtd ⟨0, false, 7⟩ .cb4 5 (.v 6) (.s 7) (some 9)) ∧
    decodeTableWord 64 0x0867050687897006 = some (.pack ⟨⟨0, false, 7⟩, .cb4, false, false, 5⟩ (.v 6) (.s 7) 6 (some 9)) ∧
    decodeTableWord 64 0x0884050600007001 = some (.unpk ⟨⟨0, false, 7⟩, .f16, false, false, 5⟩ (.v 6) 1 none) := by decide

theorem test_decode_lane_words :
    decodeTableWord 64 0x09018506C1007004 = some (.shfl ⟨0, false, 7⟩ .xor 5 6 (.imm 1) 4) ∧
    decodeTableWord 64 0x0921050300007000 = some (.vote ⟨0, false, 7⟩ .ballot 5 3) ∧
    decodeTableWord 64 0x0951050600007002 = some (.lred ⟨0, false, 7⟩ .i32 true 5 (.v 6) 2) ∧
    decodeTableWord 64 0x0965050600007009 = some (.lscan ⟨0, false, 7⟩ .f32 5 (.v 6) 1 true) ∧
    decodeTableWord 64 0x0980050000007000 = some (.lidx ⟨0, false, 7⟩ 5) ∧
    decodeTableWord 64 0x09A3050687007000 = some (.bcast ⟨0, false, 7⟩ .n32 false 5 6 (.s 7)) := by decide

theorem test_decode_move_words :
    decodeTableWord 64 0x0A05050600007000 = some (.mov ⟨⟨0, false, 7⟩, .f32, false, false, 5⟩ (.v 6)) ∧
    decodeTableWord 64 0x0A21050000AB7CDE = some (.movi ⟨⟨0, false, 7⟩, .i32, false, false, 5⟩ 0xABCDE) ∧
    decodeTableWord 64 0x0A43050C00AB7CDE = some (.movh ⟨⟨0, false, 7⟩, .n32, false, false, 5⟩ 0xABCDE 12) ∧
    decodeTableWord 64 0x0A60010203047096 = some (.plop ⟨0, false, 7⟩ 1 2 3 4 0x96) ∧
    decodeTableWord 64 0x0A80050000007000 = some (.pmovTov ⟨0, false, 7⟩ 5) ∧
    decodeTableWord 64 0x0A80800600007054 = some (.pmovFromv ⟨0, false, 7⟩ (.v 6) 0x2A) ∧
    decodeTableWord 64 0x0AA00500000070A1 = some (.movxRead ⟨0, false, 7⟩ 5 2 33) ∧
    decodeTableWord 64 0x0AA0800600007043 = some (.movxWrite ⟨0, false, 7⟩ 1 3 (.v 6)) ∧
    decodeTableWord 64 0x0AC0030600007A08 = some (.xsetSet ⟨0, false, 7⟩ 3 (.v 6) 8 40) ∧
    decodeTableWord 64 0x0AC0828600007000 = some (.xsetAdd ⟨0, false, 7⟩ 2 (.s 6)) := by decide

theorem test_decode_control_words :
    decodeTableWord 64 0x0C00001234FFAFFE = some (.bra ⟨0, true, 2⟩ 0xFFFFE 0x1234) ∧
    decodeTableWord 64 0x0C20090304777C10 = some (.brx ⟨0, false, 7⟩ 9 3 (.v 4) 0x10 0x77) ∧
    decodeTableWord 64 0x0C40050000017002 = some (.call ⟨0, false, 7⟩ 5 0x1002) ∧
    decodeTableWord 64 0x0C60008500007000 = some (.ret ⟨0, false, 7⟩ 5) ∧
    decodeTableWord 64 0x2C80000000007000 = some (.join 1) ∧
    decodeTableWord 64 0x0CA0000000001000 = some (.exit ⟨0, false, 1⟩) ∧
    decodeTableWord 64 0x0CA0800000007000 = some (.exitTeam ⟨0, false, 7⟩) ∧
    decodeTableWord 64 0x0CC0000000007000 = some (.nop ⟨0, false, 7⟩) ∧
    decodeTableWord 64 0x0CE0000000007000 = some (.yld ⟨0, false, 7⟩) := by decide

theorem test_decode_record_words :
    decodeTableWord 64 0x0E00000000007005 = some (.spawn ⟨0, false, 7⟩ 5) ∧
    decodeTableWord 64 0x0E20000000007006 = some (.gather ⟨0, false, 7⟩ 6) ∧
    decodeTableWord 64 0x0E40000000FF7FFF = some (.migr ⟨0, false, 7⟩ 0xFFFFF) ∧
    decodeTableWord 64 0x0E60000000007000 = some (.susp ⟨0, false, 7⟩) ∧
    decodeTableWord 64 0x0E80050384897CFE = some (.refillQ ⟨0, false, 7⟩ 5 ⟨3, .s 4, 3, 0, 254⟩ (.s 9)) ∧
    decodeTableWord 64 0x0E80850000C47000 = some (.refillBkt ⟨0, false, 7⟩ 5 (.imm 4)) ∧
    decodeTableWord 64 0x0EA00003048C7CFE = some (.launch ⟨0, false, 7⟩ ⟨3, .v 4, 3, 0, 254⟩ 12) ∧
    decodeTableWord 64 0x0EC0000000007000 = some (.waitch ⟨0, false, 7⟩) ∧
    decodeTableWord 64 0x0EE0019400007000 = some (.steal ⟨0, false, 7⟩ 1 (.s 20)) ∧
    decodeTableWord 64 0x0F00000304007CFE = some (.enq ⟨0, false, 7⟩ ⟨3, .v 4, 3, 0, 254⟩) := by decide

theorem test_decode_memory_words :
    decodeTableWord 64 0x1000850304007EFE = some (.ld ⟨0, false, 7⟩ .i16 false 5 ⟨3, .v 4, 3, 2, 254⟩) ∧
    decodeTableWord 64 0x1018060384007CFE = some (.ldCap ⟨0, false, 7⟩ true 6 ⟨3, .s 4, 3, 0, 254⟩) ∧
    decodeTableWord 64 0x1025000304097DFE = some (.st ⟨0, false, 7⟩ .f32 ⟨3, .v 4, 3, 1, 254⟩ (.v 9)) ∧
    decodeTableWord 64 0x1028000384097CFE = some (.stCap ⟨0, false, 7⟩ ⟨3, .s 4, 3, 0, 254⟩ 9) ∧
    decodeTableWord 64 0x1044850304007DFE = some (.ldf ⟨0, false, 7⟩ .bf16 5 ⟨3, .v 4, 3, 1, 254⟩) ∧
    decodeTableWord 64 0x1060000304007CFE = some (.pref ⟨0, false, 7⟩ ⟨3, .v 4, 3, 0, 254⟩) ∧
    decodeTableWord 64 0x1080000304007DFE = some (.cflush ⟨0, false, 7⟩ ⟨3, .v 4, 3, 1, 254⟩) ∧
    decodeTableWord 64 0x10A1000000007081 = some (.ord 0 .ar 0x81) ∧
    decodeTableWord 64 0x10C1800000001003 = some (.fence ⟨0, false, 1⟩ .sc 3) ∧
    decodeTableWord 64 0x110D050304097CFE = some (.atom ⟨0, false, 7⟩ .swap 2 5 ⟨3, .v 4, 3, 0, 254⟩ (.v 9)) ∧
    decodeTableWord 64 0x112E800304097CFE = some (.red ⟨0, false, 7⟩ .fadd 1 ⟨3, .v 4, 3, 0, 254⟩ (.v 9)) ∧
    decodeTableWord 64 0x1143050304C17CFE = some (.cas ⟨0, false, 7⟩ .n32 5 ⟨3, .v 4, 3, 0, 254⟩ (.imm 1)) := by decide

theorem test_decode_capability_words :
    decodeTableWord 64 0x1200040586007000 = some (.capset ⟨0, false, 7⟩ 4 5 (.s 6)) ∧
    decodeTableWord 64 0x12200405C8007000 = some (.capinc ⟨0, false, 7⟩ 4 5 (.imm 8)) ∧
    decodeTableWord 64 0x1220840586007012 = some (.capincM ⟨0, false, 7⟩ 4 5 (.s 6) 18) ∧
    decodeTableWord 64 0x1251160700007000 = some (.capget ⟨0, false, 7⟩ .cursor true 22 7) ∧
    decodeTableWord 64 0x1260040586007000 = some (.capperm ⟨0, false, 7⟩ 4 5 (.s 6)) ∧
    decodeTableWord 64 0x1280030586007000 = some (.capchk ⟨0, false, 7⟩ 3 5 (.s 6)) := by decide

theorem test_decode_synchronisation_words :
    decodeTableWord 64 0x1400050000007003 = some (.barArv ⟨0, false, 7⟩ 5 3) ∧
    decodeTableWord 64 0x1400820600007000 = some (.barWait ⟨0, false, 7⟩ 2 (.v 6)) ∧
    decodeTableWord 64 0x1401000000007007 = some (.barSync ⟨0, false, 7⟩ 7) ∧
    decodeTableWord 64 0x1420000000007409 = some (.waitc ⟨0, false, 7⟩ 4 9) ∧
    decodeTableWord 64 0x1440058600007000 = some (.waitany ⟨0, false, 7⟩ 5 (.s 6)) ∧
    decodeTableWord 64 0x1460008600007000 = some (.waitall ⟨0, false, 7⟩ (.s 6)) ∧
    decodeTableWord 64 0x148005FF00007000 = some (.ffr ⟨0, false, 7⟩ 5 (.imm 63)) ∧
    decodeTableWord 64 0x14A3840304087DFE = some (.waitadr ⟨0, false, 7⟩ .n64 4 ⟨3, .v 4, 3, 1, 254⟩ (.v 8)) ∧
    decodeTableWord 64 0x1500050304097CFE = some (.sig ⟨0, false, 7⟩ 5 ⟨3, .v 4, 3, 0, 254⟩ (.v 9)) ∧
    decodeTableWord 64 0x15200203048B7CFE = some (.amsg ⟨0, false, 7⟩ 2 ⟨3, .v 4, 3, 0, 254⟩ 11) ∧
    decodeTableWord 64 0x1540020600007003 = some (.mbxs ⟨0, false, 7⟩ 2 (.v 6) 3) ∧
    decodeTableWord 64 0x1560080000007003 = some (.mbxr ⟨0, false, 7⟩ 8 3) := by decide

theorem test_decode_engine_words :
    decodeTableWord 64 0x1604092000007001 = some (.mma ⟨0, false, 7⟩ .f16 9 true none true) ∧
    decodeTableWord 64 0x1626890304907CFE = some (.mmas ⟨0, false, 7⟩ .e5m2 9 ⟨3, .v 4, 3, 0, 254⟩ 16) ∧
    decodeTableWord 64 0x1645090304907CFE = some (.drain ⟨0, false, 7⟩ .f32 9 ⟨3, .v 4, 3, 0, 254⟩ 16) ∧
    decodeTableWord 64 0x1660090000007003 = some (.accz ⟨0, false, 7⟩ 9 3) ∧
    decodeTableWord 64 0x1680000304907CFE = some (.omap ⟨0, false, 7⟩ ⟨3, .v 4, 3, 0, 254⟩ 16) ∧
    decodeTableWord 64 0x16A0060304907CFE = some (.cpy ⟨0, false, 7⟩ ⟨3, .v 4, 3, 0, 254⟩ 6 16) ∧
    decodeTableWord 64 0x16C0060304907CFE = some (.cpym ⟨0, false, 7⟩ ⟨3, .v 4, 3, 0, 254⟩ 6 16) ∧
    decodeTableWord 64 0x16E0008A00007003 = some (.batonRing ⟨0, false, 7⟩ 10 3) ∧
    decodeTableWord 64 0x16E0800000007000 = some (.batonPass ⟨0, false, 7⟩) ∧
    decodeTableWord 64 0x16E1000000007000 = some (.batonEnd ⟨0, false, 7⟩) ∧
    decodeTableWord 64 0x1700028A00007000 = some (.jpoll ⟨0, false, 7⟩ 2 10) ∧
    decodeTableWord 64 0x1720008A00007000 = some (.jwait ⟨0, false, 7⟩ 10) ∧
    decodeTableWord 64 0x1740060304907CFE = some (.bgath ⟨0, false, 7⟩ ⟨3, .v 4, 3, 0, 254⟩ 6 16) ∧
    decodeTableWord 64 0x1764860304907CFE = some (.bred ⟨0, false, 7⟩ .bf16 ⟨3, .v 4, 3, 0, 254⟩ 6 16) ∧
    decodeTableWord 64 0x1780060304907CFE = some (.bcvt ⟨0, false, 7⟩ ⟨3, .v 4, 3, 0, 254⟩ 6 16) ∧
    decodeTableWord 64 0x17A0050607907000 = some (.kcm ⟨0, false, 7⟩ false 5 (.v 6) (.v 7) 16) ∧
    decodeTableWord 64 0x1800050304007CFE = some (.beamQuery ⟨0, false, 7⟩ 5 ⟨3, .v 4, 3, 0, 254⟩) ∧
    decodeTableWord 64 0x18008503040C7CFE = some (.beamResume ⟨0, false, 7⟩ 5 ⟨3, .v 4, 3, 0, 254⟩ 12) ∧
    decodeTableWord 64 0x1820050600007000 = some (.bres ⟨0, false, 7⟩ 5 (.v 6)) := by decide

theorem test_decode_region_words :
    decodeTableWord 64 0x190000FFF0007123 = some (.trb ⟨0, false, 7⟩ 0x123 0xFFF0) ∧
    decodeTableWord 64 0x1920000000007000 = some (.tre ⟨0, false, 7⟩) ∧
    decodeTableWord 64 0x194000000000705A = some (.tra ⟨0, false, 7⟩ 0x5A) ∧
    decodeTableWord 64 0x1960050000007000 = some (.trs ⟨0, false, 7⟩ 5) := by decide

theorem test_decode_trap_words :
    decodeTableWord 64 0x1E0000000000705A = some (.trap ⟨0, false, 7⟩ 0x5A) ∧
    decodeTableWord 64 0x1E800000000070A5 = some (.bkpt ⟨0, false, 7⟩ 0xA5) ∧
    decodeTableWord 64 0x1E20000000007000 = some (.eret ⟨0, false, 7⟩) ∧
    decodeTableWord 64 0x1E50050000007141 = some (.csrr ⟨0, false, 7⟩ 5 0x141) ∧
    decodeTableWord 64 0x1E60008600007104 = some (.csrw ⟨0, false, 7⟩ 0x104 (.s 6)) := by decide

theorem test_decode_pair_words :
    decodeTableWord 64 0x820205FF10181C03 = some (.pairWord ⟨.imad, 1, .v 2, 255, 2⟩ ⟨.fadd, 6, .v 7, 0, 3⟩) ∧
    decodeTableWord 64 0x8790000A00000000 = some (.pairWord ⟨.movi, 8, .v 0, 5, 0⟩ ⟨.nop, 0, .v 0, 0, 0⟩) := by decide

theorem test_printed_words_one :
    decodeTableWord 64 0x82050806101C2402 = some (.pairWord ⟨.imad, 2, .s 4, 3, 0⟩ ⟨.fadd, 7, .v 9, 0, 2⟩) ∧
    decodeTableWord 64 0x8000000000000000 = some (.pairWord ⟨.nop, 0, .v 0, 0, 0⟩ ⟨.nop, 0, .v 0, 0, 0⟩) ∧
    decodeTableWord 64 0x17A0040102867000 = some (.kcm ⟨0, false, 7⟩ false 4 (.v 1) (.v 2) 6) ∧
    decodeTableWord 64 0x15200204C08B7040 = some (.amsg ⟨0, false, 7⟩ 2 ⟨4, .imm 0, 0, 0, 64⟩ 11) ∧
    decodeTableWord 64 0x15000A0401067800 = some (.sig ⟨0, false, 7⟩ 10 ⟨4, .v 1, 2, 0, 0⟩ (.v 6)) ∧
    decodeTableWord 64 0x01830402CF007000 = some (.and ⟨⟨0, false, 7⟩, .n32, false, false, 4⟩ (.v 2) (.imm 15)) ∧
    decodeTableWord 64 0x01A30402CF007000 = some (.or ⟨⟨0, false, 7⟩, .n32, false, false, 4⟩ (.v 2) (.imm 15)) ∧
    decodeTableWord 64 0x1401000000007000 = some (.barSync ⟨0, false, 7⟩ 0) ∧
    decodeTableWord 64 0x0281030102007000 = some (.bfx ⟨⟨0, false, 7⟩, .i32, false, false, 3⟩ (.v 1) (.v 2)) ∧
    decodeTableWord 64 0x0804850400007029 = some (.cvt ⟨⟨0, false, 7⟩, .bf16, false, false, 5⟩ .f32 (.v 4) 1) ∧
    decodeTableWord 64 0x0644860203067000 = some (.dot2 ⟨⟨0, false, 7⟩, .bf16, false, false, 6⟩ (.v 2) (.v 3) (.v 6) 0) ∧
    decodeTableWord 64 0x0F000006C0007000 = some (.enq ⟨0, false, 7⟩ ⟨6, .imm 0, 0, 0, 0⟩) ∧
    decodeTableWord 64 0x0625020304007002 = some (.fcmp ⟨0, false, 7⟩ .f32 2 (.v 3) (.v 4) 2) := by decide

theorem test_printed_words_two :
    decodeTableWord 64 0x0EA00005C08C7000 = some (.launch ⟨0, false, 7⟩ ⟨5, .imm 0, 0, 0, 0⟩ 12) ∧
    decodeTableWord 64 0x10080604C0007010 = some (.ldCap ⟨0, false, 7⟩ false 6 ⟨4, .imm 0, 0, 0, 16⟩) ∧
    decodeTableWord 64 0x10450404C0007001 = some (.ldf ⟨0, false, 7⟩ .f32 4 ⟨4, .imm 0, 0, 0, 1⟩) ∧
    decodeTableWord 64 0x10450404C0007101 = some (.ldf ⟨0, false, 7⟩ .f32 4 ⟨4, .imm 0, 0, 1, 1⟩) ∧
    decodeTableWord 64 0x0945090400007000 = some (.lred ⟨0, false, 7⟩ .f32 false 9 (.v 4) 0) ∧
    decodeTableWord 64 0x1540020600007003 = some (.mbxs ⟨0, false, 7⟩ 2 (.v 6) 3) ∧
    decodeTableWord 64 0x1560080000007003 = some (.mbxr ⟨0, false, 7⟩ 8 3) ∧
    decodeTableWord 64 0x0A03200A00007000 = some (.mov ⟨⟨0, false, 7⟩, .n32, false, false, 32⟩ (.v 10)) ∧
    decodeTableWord 64 0x10A0800000007009 = some (.ord 0 .rel 9) ∧
    decodeTableWord 64 0x0864850205007001 = some (.pack ⟨⟨0, false, 7⟩, .bf16, false, false, 5⟩ (.v 2) (.v 5) 1 none) ∧
    decodeTableWord 64 0x0A60030102077020 = some (.plop ⟨0, false, 7⟩ 3 1 2 7 0x20) ∧
    decodeTableWord 64 0x1060000401007A00 = some (.pref ⟨0, false, 7⟩ ⟨4, .v 1, 2, 2, 0⟩) ∧
    decodeTableWord 64 0x112E800401067400 = some (.red ⟨0, false, 7⟩ .fadd 1 ⟨4, .v 1, 1, 0, 0⟩ (.v 6)) ∧
    decodeTableWord 64 0x0E80880000FF7000 = some (.refillBkt ⟨0, false, 7⟩ 8 (.imm 63)) ∧
    decodeTableWord 64 0x02410402C4007000 = some (.sar ⟨⟨0, false, 7⟩, .i32, false, false, 4⟩ (.v 2) (.imm 4)) := by decide

theorem test_printed_words_three :
    decodeTableWord 64 0x0363040203007001 = some (.sel ⟨⟨0, false, 7⟩, .n32, false, false, 4⟩ (.v 2) (.v 3) 1) ∧
    decodeTableWord 64 0x09018504C1007005 = some (.shfl ⟨0, false, 7⟩ .xor 5 4 (.imm 1) 5) ∧
    decodeTableWord 64 0x10230004010A7A00 = some (.st ⟨0, false, 7⟩ .n32 ⟨4, .v 1, 2, 2, 0⟩ (.v 10)) ∧
    decodeTableWord 64 0x0EE0019400007000 = some (.steal ⟨0, false, 7⟩ 1 (.s 20)) ∧
    decodeTableWord 64 0x1940000000007005 = some (.tra ⟨0, false, 7⟩ 5) ∧
    decodeTableWord 64 0x1E00000000007007 = some (.trap ⟨0, false, 7⟩ 7) ∧
    decodeTableWord 64 0x0884860500007001 = some (.unpk ⟨⟨0, false, 7⟩, .bf16, false, false, 6⟩ (.v 5) 1 none) ∧
    decodeTableWord 64 0x0921060100007000 = some (.vote ⟨0, false, 7⟩ .ballot 6 1) ∧
    decodeTableWord 64 0x14A30407C0C17100 = some (.waitadr ⟨0, false, 7⟩ .n32 4 ⟨7, .imm 0, 0, 1, 0⟩ (.imm 1)) ∧
    decodeTableWord 64 0x144005FF00007000 = some (.waitany ⟨0, false, 7⟩ 5 (.imm 63)) ∧
    decodeTableWord 64 0x01C3040203007000 = some (.xor ⟨⟨0, false, 7⟩, .n32, false, false, 4⟩ (.v 2) (.v 3)) ∧
    decodeTableWord 64 0x0E40000000001002 = some (.migr ⟨0, false, 1⟩ 2) ∧
    decodeTableWord 64 0x1E6000C000007104 = some (.csrw ⟨0, false, 7⟩ 0x104 (.imm 0)) ∧
    decodeTableWord 64 0x00010303C1007000 = some (.iadd ⟨⟨0, false, 7⟩, .i32, false, false, 3⟩ (.v 3) (.imm 1) false) ∧
    decodeTableWord 64 0x0000000000000000 = some (.iadd ⟨⟨0, false, 0⟩, .i8, false, false, 0⟩ (.v 0) (.v 0) false) ∧
    decodeTableWord 64 0x0E20000000FF7FFA = some (.gather ⟨0, false, 7⟩ 0xFFFFA) := by decide

/-- Words that the spec prints with the cause that refuses them (the table under R108, and the pair of R104 with one bank), and SPAWN with a
bit of SUB set, whose cause R32 gives. -/
theorem test_refused_words :
    (match decode 0x0380000000007000 with | .error c => c == Cause.illegalInstruction | .ok _ => false) = true ∧
    (match decode 0x0E00800000007005 with | .error c => c == Cause.reservedField | .ok _ => false) = true ∧
    (match decode 0x0CC0000100007000 with | .error c => c == Cause.reservedField | .ok _ => false) = true ∧
    (match decode 0x00110303C1007000 with | .error c => c == Cause.operandKind | .ok _ => false) = true ∧
    (match decode 0x8082040012141800 with | .error c => c == Cause.pairBank | .ok _ => false) = true ∧
    (match decode 0xC000000000000000 with | .error c => c == Cause.reservedField | .ok _ => false) = true := by decide

/-! ### Small states -/

/-- The header of an unguarded word, and of a word that enables no lane. -/
def hd : Hdr := ⟨0, false, 7⟩
def off : Hdr := ⟨0, true, 7⟩

/-- A capability over a whole space with its cursor at an address. -/
def cp (sp : BitVec 4) (a : Nat) : Cap := ⟨true, sp, 0xFF, 20, 0, 0x7FFFFF, BitVec.ofNat 64 a⟩

/-- A wave with every lane live, whose c1 is GLOBAL, c2 SPAD and c3 SPADW. -/
def M : Member :=
  { uid := 1, scalar := false, ctx := 0, team := 1, idx := 0, v := [], pv := [], s := [], ps := [], pk := [], c := [(1, cp 1 0x100000), (2, cp 2 0), (3, cp 3 0)],
    q := [(0, 0xFFFFFFFF)], x := [], lat := [], chain := 0, chainPc := 0, ord := none,
    root := { Group.init with pc := 0x30000, mask := 0xFFFFFFFF }, subs := [], cur := none, serial := [], serialG := none, nextStamp := 0,
    inRow := 0, alatch := none, omap := none, cnt := [], jlast := 0, engst := 0, rstat := [], ldr := 0, lent := [], entered := 0,
    issued := false, run := .run, trapLanes := 0 }

/-- The same wave with lane 0 alone live. -/
def M1 : Member := { M with q := [(0, 1)], root := { M.root with mask := 1 } }

/-- Its team, with an extent of 0x4000 bytes and a handler. -/
def T : Team :=
  { ctx := 0, handle := 1, lid := 0, tidx := 0, count := 1, args := [], acap := 0, tdesc := 0, entry := 0x6000, handler := 0x38000, depth := 1,
    waves := 1, threads := 0, die := 0, cell := 0, bind := 0, prio := 0, wquota := 1, tquota := 0, wmask := 1, tmask := 0, spbase := 0,
    splen := 0x4000, level := 16, live := 32, begun := true, isHandler := false, bars := [], mail := [], baton := none, trap := TrapArea.zero,
    held := [] }

/-- A member in slot 0 of cell 0 that issues NOP at 0x30000, in the state that `placeWord` builds. -/
def st (m : Member) (t : Team := T) : State :=
  { (placeWord State.reset 0x0CC0000000007000).setMember 0 m with issuer := some 0, teams := [t], schedule := [] }

/-- A 64-bit word put into device memory. -/
def poke (s : State) (a w : Nat) : State := s.setBytes a (toBytes 8 w)

/-- Memory operands: the cursor of a capability register. -/
def op (c : BitVec 4) : MemOp := ⟨c, .imm 0, 0, 0, 0⟩

def isOk {ε α : Type} : Except ε α → Bool
  | .ok _ => true
  | .error _ => false

theorem ok_unit {x : Chk Unit} (h : isOk x = true) : x = .ok () := by
  cases x
  · cases h
  · rfl

/-- Checks that all pass. -/
theorem oks {xs : List (Chk Unit)} (h : xs.all isOk = true) : ∀ x ∈ xs, x = .ok () := fun _ hx => ok_unit (List.all_eq_true.1 h _ hx)

theorem ok_some {ε α : Type} {x : Except ε α} (h : isOk x = true) : ∃ a, x = .ok a := by
  cases x
  · cases h
  · exact ⟨_, rfl⟩

theorem ok_is {ε α : Type} [DecidableEq α] {x : Except ε α} {a : α} (h : (match x with
    | .ok b => decide (b = a)
    | .error _ => false) = true) : x = .ok a := by
  cases x
  · cases h
  · exact congrArg _ (of_decide_eq_true h)

theorem issues {s : State} {k : Nat} {m : Member}
    (h : (s.issuer == some k && s.member? k == some m && m.names.contains m.cur && m.canIssue m.cur) = true) : Issues s k m := by
  simp only [Bool.and_eq_true, beq_iff_eq] at h
  exact ⟨h.1.1.1, h.1.1.2, h.1.2, h.2⟩

/-- The member issues, and no lane of it has an open region. -/
theorem issues_M : Issues (st M) 0 M ∧ NoRegion (st M) 0 M hd ∧ M.enabled hd ≠ 0 :=
  ⟨issues (by decide +kernel), by unfold NoRegion; decide +kernel, by decide +kernel⟩
theorem issues_M1 : Issues (st M1) 0 M1 ∧ NoRegion (st M1) 0 M1 hd ∧ on M1 hd = [0] :=
  ⟨issues (by decide +kernel), by unfold NoRegion; decide +kernel, by decide +kernel⟩

/-! ### Witnesses: ALU, lanes, capabilities, control -/

theorem even_n32 : EvenDest .n32 false 63 ∧ EvenDest .i64 false 62 ∧ EvenDest .n64 true 63 := by unfold EvenDest; decide

theorem witness_IntegerWords : Ty.n32.isInt = true ∧ Ty.i64.isInt = true ∧ EvenDest .n32 false 63 ∧ EvenDest .i64 false 62 ∧ Issues (st M) 0 M :=
  ⟨rfl, rfl, even_n32.1, even_n32.2.1, issues_M.1⟩

theorem witness_Division : Ty.i32.isInt = true ∧ Ty.n64.isInt = true ∧ EvenDest .n64 true 63 ∧ Issues (st M) 0 M :=
  ⟨rfl, rfl, even_n32.2.2, issues_M.1⟩

theorem witness_BitwiseWords : Ty.n8.isInt = true ∧ EvenDest .n32 false 63 ∧ Issues (st M) 0 M := ⟨rfl, even_n32.1, issues_M.1⟩

/-- MOVH at the highest shift of each type. -/
theorem witness_MovesAndCarries : (12 : BitVec 8).toNat + 20 ≤ Ty.n32.bits ∧ (44 : BitVec 8).toNat + 20 ≤ Ty.n64.bits ∧ Issues (st M) 0 M :=
  ⟨by decide, by decide, issues_M.1⟩

theorem witness_FloatWords : EvenDest .f32 false 63 ∧ EvenDest .f64 false 62 ∧ Issues (st M) 0 M := by
  refine ⟨?_, ?_, issues_M.1⟩ <;> (unfold EvenDest; decide)

/-- Without a codebook, and with CB4 slot 2 of the format table at 0x40000, whose word names format 14. -/
def sCb : State := (poke (st { M with s := [(9, 2)] }) 0x40080 14).modCtx 0 fun c => { c with fmttab := 0x40000 }
theorem witness_ConversionWords : (st M).codebook (issOf 0 M hd) none = .ok [] ∧
    (∃ cb, (st M).codebook (issOf 0 M hd) none = .ok cb) ∧ (Issues (st M) 0 M ∧ NoRegion (st M) 0 M hd ∧ M.enabled hd ≠ 0) ∧
    (∃ cb, sCb.codebook (issOf 0 { M with s := [(9, 2)] } hd) (some 9) = .ok cb) ∧ Issues sCb 0 { M with s := [(9, 2)] } :=
  ⟨ok_is (by decide +kernel), ok_some (by decide +kernel), issues_M, ok_some (by decide +kernel), issues (by decide +kernel)⟩

theorem witness_TestWords : Issues (st M) 0 M ∧ Ty.i32.isInt = true := ⟨issues_M.1, rfl⟩

/-- A wave for SHFL; with U, a guard that enables no lane and one that enables some. -/
theorem witness_LaneWords : Issues (st M) 0 M ∧ M.scalar = false ∧ M.enabled off = 0 ∧ M.enabled hd ≠ 0 ∧ EvenDest .i64 false 62 :=
  ⟨issues_M.1, rfl, by decide +kernel, issues_M.2.2, even_n32.2.1⟩

/-- Index registers at the ends of their bounds, 0 and 63. -/
def Mx : Member := { M with x := (List.range 32).map fun l => (l * 4 + 1, ⟨if l = 0 then 0 else 63, 63, 0⟩) }
theorem witness_IndexRegisters : Issues (st Mx) 0 Mx ∧ NoRegion (st Mx) 0 Mx hd ∧
    (∀ l ∈ on Mx hd, ((Mx.xreg l 1).lo.toNat : Int) ≤ (Mx.xreg l 1).val.toInt + (0 : BitVec 6).toInt ∧
      (Mx.xreg l 1).val.toInt + (0 : BitVec 6).toInt ≤ (Mx.xreg l 1).hi.toNat) ∧ (5 : BitVec 6).toNat ≤ (5 : BitVec 6).toNat :=
  ⟨issues (by decide +kernel), by unfold NoRegion; decide +kernel, by decide +kernel, by decide⟩

theorem witness_PairHalves : Issues (st M) 0 M ∧ (HalfOp.iadd = .nop ∨ HalfOp.fmul = .nop ∨ (1 : BitVec 6) ≠ 6) ∧
    (HalfOp.movi = .nop ∨ HalfOp.nop = .nop ∨ (0 : BitVec 6) ≠ 0) := ⟨issues_M.1, by decide, by decide⟩

/-- A tagged source and an untagged one; CAPSET of the whole remaining length of a capability. -/
def Mc : Member := { M with s := [(6, 0x100000)] }
theorem witness_CapabilityWordsDerive : (Issues (st Mc) 0 Mc ∧ NoRegion (st Mc) 0 Mc hd) ∧ Mc.enabled hd ≠ 0 ∧ (Mc.creg 1).tag = true ∧
    (Mc.creg 0).tag = false ∧ (Mc.creg 1).base ≤ (Mc.creg 1).cursor.toNat ∧ (Mc.creg 1).cursor.toNat + Mc.src64 (.s 6) ≤ (Mc.creg 1).top ∧
    ((Mc.creg 1).withBounds (Mc.creg 1).cursor.toNat (Mc.src64 (.s 6))).isSome = true :=
  ⟨⟨issues (by decide +kernel), by unfold NoRegion; decide +kernel⟩, by decide +kernel⟩

/-- w at the ends of its range, 0 and 18. -/
theorem witness_CapincM : (Issues (st M) 0 M ∧ NoRegion (st M) 0 M hd ∧ M.enabled hd ≠ 0) ∧ (0 : BitVec 5).toNat ≤ 18 ∧
    (18 : BitVec 5).toNat ≤ 18 ∧ (M.creg 3).tag = true ∧ (M.creg 3).space = 3 ∧ (M.creg 3).cursor.toNat < 2 ^ 27 := ⟨issues_M, by decide +kernel⟩

theorem witness_Capget : Issues (st M) 0 M ∧ M.enabled hd ≠ 0 ∧ (62 : BitVec 6).toNat % 2 = 0 := ⟨issues_M.1, issues_M.2.2, by decide⟩

/-- Every lane, no lane, and some lanes of the group enabled; a return address that is a multiple of 8 and one that is not. -/
def Mq : Member := { M with q := [(0, 0xFFFFFFFF), (1, 0x0000FFFF)], s := [(5, 0x30008), (6, 0x30004)] }
theorem witness_Branches : (Issues (st Mq) 0 Mq ∧ NoRegion (st Mq) 0 Mq hd) ∧ Mq.enabled hd = Mq.curGrp.mask ∧ Mq.enabled off = 0 ∧
    Mq.enabled ⟨0, false, 1⟩ ≠ 0 ∧ Mq.enabled ⟨0, false, 1⟩ ≠ Mq.curGrp.mask ∧ Mq.serial = [] ∧ 2 ≤ ((st Mq).freeSplits (cellOf 0)).length ∧
    (Mq.sreg 5).toNat % 8 = 0 ∧ (Mq.sreg 6).toNat % 8 ≠ 0 :=
  ⟨⟨issues (by decide +kernel), by unfold NoRegion; decide +kernel⟩, by decide +kernel⟩

/-- A table at 0x100000 whose entry 0, the only one, names the word at 0x30000. -/
def sBrx : State := poke (st M1) 0x100000 0x30000
theorem witness_Brx : (Issues sBrx 0 M1 ∧ NoRegion sBrx 0 M1 hd) ∧
    (∀ x ∈ [sBrx.capCheck 0 0 (M1.creg 1) [spGlobal] permX 8 8 [(0, 0x100000)], sBrx.lateCheck 0 0 spGlobal 8 true false true [(0, 0x100000)]],
      x = .ok ()) ∧ on M1 hd = [0] ∧ M1.enabled hd = M1.curGrp.mask ∧
    (match sBrx.reach 0 0 spGlobal 0x100000 8 true false with
      | .ok (.dev pa (some lf)) => pa == 0x100000 && lf.coh == 0 && lf.pa == pa && (BitVec.ofNat 57 (sBrx.num pa 8)).toNat % 8 == 0
      | _ => false) = true :=
  ⟨⟨issues (by decide +kernel), by unfold NoRegion; decide +kernel⟩, oks (by decide +kernel), by decide +kernel⟩

/-- A wave whose group is not at its join, a scalar thread, and a group at its join beside one that runs. -/
def Mj : Member := { M with
  root := { M.root with st := .parent }, cur := some 0, nextStamp := 5
  subs := [(0, { Group.init with pc := 0x30000, mask := 0xFF, join := some 0x30000, parent := none }),
    (1, { Group.init with pc := 0x30008, mask := 0xFF00, join := some 0x30000, parent := none })] }
theorem witness_PassingWords : Issues (st M) 0 M ∧ NoRegion (st M) 0 M hd ∧ M.q0 ≠ 0 ∧ M.innermost M.cur ≠ some M.pc ∧
    ({ M with scalar := true }).scalar = true ∧ M.enabled off = 0 ∧ M.enabled hd ≠ 0 ∧ M.serial = [] :=
  ⟨issues_M.1, issues_M.2.1, by decide, by decide, rfl, by decide +kernel, issues_M.2.2, rfl⟩
def gX : Group := { Group.init with pc := 0x30000, mask := 0xFF, join := some 0x30000, parent := none }
def gY (s : GState) (pc : Addr) : Group := { Group.init with pc := pc, mask := 0xFF00, join := some 0x30000, parent := none, st := s }
theorem witness_JoinParks : Issues (st Mj) 0 Mj ∧ Mj.scalar = false ∧ Mj.serial = [] ∧ Mj.q0 ≠ 0 ∧ Mj.trapLanes = 0 ∧ Mj.root.st = .parent ∧
    Mj.cur = some 0 ∧ FMap.sorted Mj.subs = true ∧ FMap.find? Mj.subs 0 = some gX ∧ gX.join = some gX.pc ∧
    Mj.subs = [(0, gX), (1, gY .run 0x30008)] ∧ (gY .run 0x30008).parent = gX.parent ∧ (gY .run 0x30008).join = gX.join ∧
    (gY .run 0x30008).wait = none ∧ (gY .run 0x30008).mask ≠ 0 := ⟨issues (by decide +kernel), by decide +kernel⟩

/-- The other group already parked at the join. -/
def Mjj : Member := { Mj with subs := [(0, gX), (1, gY .parked 0x30000)] }
theorem witness_JoinMerges : Issues (st Mjj) 0 Mjj ∧ Mjj.q0 ≠ 0 ∧ Mjj.trapLanes = 0 ∧ FMap.sorted Mjj.subs = true ∧
    FMap.find? Mjj.subs 0 = some gX ∧ gX.parent = none ∧ (gY .parked 0x30000).pc = gX.pc := ⟨issues (by decide +kernel), by decide +kernel⟩

/-- A team of 32 threads of which one leaves; the last thread of a team with a live child launch. -/
def Tlast : Team := { T with live := 1 }
def sChild : State := { st M1 Tlast with posted := [⟨0, 0, 0, 1, 2⟩] }
theorem witness_Exit : Issues (st M1) 0 M1 ∧ NoRegion (st M1) 0 M1 hd ∧ M1.enabled hd ≠ 0 ∧ (st M1).team? 0 1 = some T ∧
    laneCount (M1.enabled hd) < T.live ∧ ((st M1).late.any fun e => e.uid == M1.uid && e.lanes &&& M1.enabled hd != 0) = false :=
  ⟨issues_M1.1, issues_M1.2.1, by decide +kernel, by decide +kernel, by decide +kernel, by decide +kernel⟩
theorem witness_ExitLast : (st M1 Tlast).team? 0 1 = some Tlast ∧ (st M1 Tlast).hasChildren 0 1 = false ∧ Issues (st M1 Tlast) 0 M1 :=
  ⟨by decide +kernel, by decide +kernel, issues (by decide +kernel)⟩
theorem witness_ExitWaits : Issues sChild 0 M1 ∧ NoRegion sChild 0 M1 hd ∧ on M1 hd = [0] ∧ sChild.team? 0 1 = some Tlast ∧ Tlast.live ≤ 1 ∧
    sChild.hasChildren 0 1 = true :=
  ⟨issues (by decide +kernel), by unfold NoRegion; decide +kernel, by decide +kernel, by decide +kernel, by decide, by decide +kernel⟩
theorem witness_ExitTeam : Issues (st M) 0 M ∧ (st M).team? 0 1 = some T ∧ T.trap.v = false := ⟨issues_M.1, by decide +kernel, rfl⟩

/-! ### Witnesses: memory -/

theorem ownUid_M : OwnUid (st M) 0 M ∧ OwnUid (st M1) 0 M1 := by unfold OwnUid; decide +kernel
theorem noSolo {s : State} (h : (s.dies.all fun e => e.2.soloHolder == none) = true) : NoSolo s :=
  FMap.get_ind (p := fun x : Die => x.soloHolder = none) rfl fun e he => by simpa using List.all_eq_true.1 h e he
theorem noSolo_st : NoSolo (st M) ∧ NoSolo (st M1) := ⟨noSolo (by decide +kernel), noSolo (by decide +kernel)⟩

/-- Loads of 4 bytes and of a capability from the own scratchpad (SPAD) and through SPADW, at the start of the extent and at its end. -/
def lanes (m : Member) (o : MemOp) : List (Nat × Nat) := (on m hd).map fun l => (l, m.addr o l)
def Me : Member := { M with c := [(2, cp 2 0x3FFC), (3, cp 3 0x3FF0)] }
theorem witness_ScratchpadLoads : (Issues (st M) 0 M ∧ NoRegion (st M) 0 M hd ∧ M.enabled hd ≠ 0) ∧ OwnUid (st M) 0 M ∧ SlotExists 0 ∧
    EvenDest .n32 false 63 ∧ (M.creg 2).space = 2 ∧ (M.creg 3).space = 3 ∧ (st M).heldW = [] ∧ (st Me).heldW = [] ∧
    (∀ x ∈ [(st M).capCheck 0 0 (M.creg 2) threadSpaces permR 4 4 (lanes M (op 2)), (st M).lateCheck 0 0 2 4 true false true (lanes M (op 2)),
        (st Me).capCheck 0 0 (Me.creg 2) threadSpaces permR 4 4 (lanes Me (op 2)), (st Me).lateCheck 0 0 2 4 true false true (lanes Me (op 2)),
        (st M).capCheck 0 0 (M.creg 3) threadSpaces permR 4 4 ((lanes M (op 3)).take 1),
        (st M).lateCheck 0 0 3 4 true false true ((lanes M (op 3)).take 1),
        (st Me).capCheck 0 0 (Me.creg 3) threadSpaces (permR ||| permLC) 16 16 ((lanes Me (op 3)).take 1),
        (st Me).lateCheck 0 0 3 16 true false true ((lanes Me (op 3)).take 1)], x = .ok ()) :=
  ⟨issues_M, ownUid_M.1, by unfold SlotExists; decide, even_n32.1, by decide +kernel, by decide +kernel, by decide +kernel, by decide +kernel, oks (by decide +kernel)⟩

theorem witness_GlobalLoads : (Issues (st M) 0 M ∧ NoRegion (st M) 0 M hd ∧ M.enabled hd ≠ 0) ∧
    (∀ x ∈ [(st M).capCheck 0 0 (M.creg 1) threadSpaces permR 4 4 (lanes M (op 1)), (loadView (st M) 0 M).lateCheck 0 0 1 4 true false true (lanes M (op 1)),
        (st M).capCheck 0 0 (M.creg 1) threadSpaces (permR ||| permLC) 16 16 ((lanes M (op 1)).take 1),
        (loadView (st M) 0 M).lateCheck 0 0 1 16 true false true ((lanes M (op 1)).take 1)], x = .ok ()) ∧ (M.creg 1).space = 1 ∧ (st M).heldW = [] ∧
    (∀ n ∈ [4, 16], (match (st M).reach 0 0 1 (M.addr (op 1) 0) n true false with
      | .ok (.dev pa (some lf)) => pa == 0x100000 && lf.pa == pa && lf.coh != 1
      | _ => false) = true) ∧ on M1 hd = [0] ∧ (st M1).heldW = [] := ⟨issues_M, oks (by decide +kernel), by decide +kernel⟩

/-- A page that names format slot 2, of E4M3 without scales, over the table at 0x100000. -/
def sLdf : State :=
  let s := (st M).setBytes 0x10000 (toBytes 8 (2 ^ 63 + 2 * 2 ^ 53 + 15))
  let s := poke (poke (poke (poke s 0x40080 12) 0x40088 0x100000) 0x40090 0) 0x40098 64
  s.modCtx 0 fun c => { c with fmttab := 0x40000 }
theorem witness_Ldf : (Issues sLdf 0 M ∧ NoRegion sLdf 0 M hd ∧ (loadView sLdf 0 M).ldfCheck (issOf 0 M hd) (M.creg 1) (lanes M (op 1)) = .ok ()) ∧
    sLdf.heldW = [] ∧ M.enabled off = 0 :=
  ⟨⟨issues (by decide +kernel), by unfold NoRegion; decide +kernel, ok_unit (by decide +kernel)⟩, by decide +kernel⟩
/-- The same page for a wave of one lane: the element and the format that its lane finds. -/
def sLdf1 : State := sLdf.setMember 0 M1
theorem witness_LdfOneLane : (Issues sLdf1 0 M1 ∧ NoRegion sLdf1 0 M1 hd) ∧ on M1 hd = [0] ∧ sLdf1.heldW = [] ∧
    (match (loadView sLdf1 0 M1).ldfLane (issOf 0 M1 hd) (M1.creg 1) (M1.addr (op 1) 0) true with
      | .ok x => x.n == 1 && x.scaleVa == none && (Ty.ofNat? (sLdf1.fmtEntry 0 x.slot).efmt).isSome && (match sLdf1.reach 0 0 1 (M1.addr (op 1) 0) x.n true false with
        | .ok (.dev pa (some lf)) => pa == 0x100000 && lf.coh != 1
        | _ => false)
      | .error _ => false) = true := ⟨⟨issues (by decide +kernel), by unfold NoRegion; decide +kernel⟩, by decide +kernel⟩

/-- The last byte of a line, and a whole line. -/
theorem witness_Store : 0x10007F % 128 + 1 ≤ 128 ∧ 0x100000 % 128 + 128 ≤ 128 ∧ NoSolo (st M) ∧ isRegw ((st M).redirect 0x10007F) = false :=
  ⟨by decide, by decide, noSolo_st.1, by decide +kernel⟩

theorem witness_StoresPerform : (Issues (st M) 0 M ∧ NoRegion (st M) 0 M hd ∧ M.enabled hd ≠ 0) ∧
    (∀ x ∈ [(st M).capCheck 0 0 (M.creg 1) threadSpaces permW 4 4 (lanes M (op 1)),
        (st M).capCheck 0 0 (M.creg 2) [spGlobal, spSpad, spSpadw] (permW ||| permSC) 16 16 ((lanes M (op 2)).take 1),
        (st M).capCheck 0 0 (M.creg 3) threadSpaces permRWAT 4 4 (lanes M (op 3))], x = .ok ()) ∧
    (M.creg 1).space = 1 ∧ (M.creg 2).space = 2 ∧ (M.creg 3).space = 3 ∧ ((M.creg 1).tag = true → (M.creg 1).space = 1 → (M.creg 1).has permGL = true) ∧
    (st M).wayTo (cellOf 0) 0x100000 = [] ∧ (st M).soloHolds 0x100000 4 = none ∧ (st M).windowLent 0x100000 = false ∧ (∀ e ∈ (st M).heldW, e.uid ≠ M.uid) ∧
    ((st { M with lent := [(true, 1)] }).windowLent regwBase = true) := ⟨issues_M, oks (by decide +kernel), by decide +kernel⟩

theorem witness_Atomics : Issues (st M1) 0 M1 ∧ NoRegion (st M1) 0 M1 hd ∧ on M1 hd = [0] ∧ NoSolo (st M1) ∧ (st M1).heldW = [] ∧ SlotExists 0 ∧ (M1.creg 2).space = 2 ∧
    (∀ n ∈ [2, 4, 8], (st M1).capCheck 0 0 (M1.creg 2) threadSpaces permRWAT n n [(0, M1.addr (op 2) 0)] = .ok () ∧
      (st M1).lateCheck 0 0 2 n true true true [(0, M1.addr (op 2) 0)] = .ok ()) ∧ EvenDest .n64 false 62 := by
  refine ⟨issues_M1.1, issues_M1.2.1, issues_M1.2.2, noSolo_st.2, by decide +kernel, by unfold SlotExists; decide, rfl, ?_, by unfold EvenDest; decide⟩
  intro n hn
  simp only [List.mem_cons, List.not_mem_nil, or_false] at hn
  rcases hn with rfl | rfl | rfl <;> exact ⟨ok_unit (by decide +kernel), ok_unit (by decide +kernel)⟩

/-- ORD before a word that accepts its order (ST), before one that does not (NOP), and an empty set. -/
def sOrd (w : Nat) : State := poke (st M) 0x30008 w
theorem witness_Orders : Issues (sOrd 0x1023000401007200) 0 M ∧ NoRegion (sOrd 0x1023000401007200) 0 M hd ∧ (0xFF : BitVec 8) ≠ 0 ∧
    (match (sOrd 0x1023000401007200).instrAt 0 0 0x30008 with | .ok i => ordAccepts .rel i | .error _ => false) = true ∧
    (match (sOrd 0x0CC0000000007000).instrAt 0 0 0x30008 with | .ok i => !ordAccepts .rel i && chainCause 0 i == none | .error _ => false) = true :=
  ⟨issues (by decide +kernel), by unfold NoRegion; decide +kernel, by decide, by decide +kernel, by decide +kernel⟩

/-- FENCE with lanes that are in no region, one of which has a held write, and with none enabled. -/
theorem witness_Fence : M.enabled hd &&& (1 : Word) ≠ 0 ∧ Issues (st M) 0 M ∧ M.enabled hd &&& ~~~((st M).regionLanes (cellOf 0) M.uid) ≠ 0 ∧
    M.enabled off &&& ~~~((st M).regionLanes (cellOf 0) M.uid) = 0 := ⟨by decide +kernel, issues_M.1, by decide +kernel⟩

theorem witness_CacheWords : Issues (st M) 0 M ∧ NoRegion (st M) 0 M hd ∧
    ∀ x ∈ [(st M).capCheck 0 0 (M.creg 1) threadSpaces permR 1 1 (lanes M (op 1)), (st M).capCheck 0 0 (M.creg 1) threadSpaces permW 1 1 (lanes M (op 1)),
      (st M).lateCheck 0 0 1 1 false true false (lanes M (op 1))], x = .ok () := ⟨issues_M.1, issues_M.2.1, oks (by decide +kernel)⟩

/-! ### Witnesses: records, queues, launches -/

/-- Member m issues at slot k, no lane of it has an open region, and at least one is enabled. -/
theorem able {s : State} {k : Nat} {m : Member} (h : (s.issuer == some k && s.member? k == some m && m.names.contains m.cur && m.canIssue m.cur &&
    s.regionLanes (cellOf k) m.uid &&& m.enabled hd == 0 && m.enabled hd != 0) = true) : Issues s k m ∧ NoRegion s k m hd ∧ m.enabled hd ≠ 0 := by
  simp only [Bool.and_eq_true, beq_iff_eq, bne_iff_ne, ne_eq] at h
  exact ⟨⟨h.1.1.1.1.1, h.1.1.1.1.2, h.1.1.1.2, h.1.1.2⟩, h.1.2, h.2⟩

/-- Checks that all answer on the same operands. -/
theorem oks' {α : Type} {i : Iss} {s : State} {xs : List (Iss → State → Chk α)} (h : xs.all (fun x => isOk (x i s)) = true) :
    ∀ x ∈ xs, ∃ j, x i s = .ok j := fun x hx => ok_some (List.all_eq_true.1 h x hx)

/-- A mark table at 0x50000 whose only entry marks 0x30008 with a kind. -/
def marked (m : Member) (kind : Nat) : State :=
  (poke (st m) 0x50000 (0x6001 * 2 ^ 16 + kind * 2 ^ 14)).modCtx 0 fun c => { c with marktab := 0x50000, markcnt := 1 }

/-- SPAWN to marks of kinds 1 (Carousel) and 2 (ready queue). -/
theorem witness_Spawn : ∀ kind, kind = 1 ∨ kind = 2 → Issues (marked M1 kind) 0 M1 ∧ NoRegion (marked M1 kind) 0 M1 hd ∧
    markCheck (marked M1 kind) 0 0x30008 [1, 2, 3] = .ok kind ∧ on M1 hd = [0] ∧
    NoThief (marked M1 kind) 0 ∧ (M1.pc + 8 * (1 : BitVec 20).signExtend 57).toNat = 0x30008 ∧
    (marked M1 kind).hasRoom (State.homeOf (issOf 0 M1 hd) (kind != 1)) (recOf (marked M1 kind) M1 0 0x30008 1 false) = true := by
  rintro kind (rfl | rfl) <;>
    exact ⟨(able (by decide +kernel)).1, (able (by decide +kernel)).2.1, ok_is (by decide +kernel), by unfold NoThief; decide +kernel⟩

/-- GATHER and MIGR to a mark of kind 3, and SUSP. -/
theorem witness_SuspendingWords : (markCheck (marked M1 3) 0 0x30008 [1, 3] = .ok 3 ∧ markCheck (marked M1 3) 0 0x30008 [2, 3] = .ok 3) ∧
    (Issues (marked M1 3) 0 M1 ∧ NoRegion (marked M1 3) 0 M1 hd ∧ M1.enabled hd ≠ 0) ∧ on M1 hd = [0] ∧ NoThief (marked M1 3) 0 ∧
    ∀ x ∈ [((.carousel 0 : PoolTarget), 0x30008, 3), (.ready 0, 0x30008, 2), (State.homeOf (issOf 0 M1 hd) false, (nextPc M1.pc).toNat, 6)],
      (marked M1 3).hasRoom x.1 (recOf (marked M1 3) M1 0 x.2.1 x.2.2 false) = true :=
  ⟨⟨ok_is (by decide +kernel), ok_is (by decide +kernel)⟩, able (by decide +kernel), by unfold NoThief; decide +kernel⟩

/-- STEAL with no scalar thread in its cell, and with one in scalar slot 0. -/
def sVictim : State := (st M1).setMember 16 { M1 with uid := 7, scalar := true }
theorem witness_Steal : Issues sVictim 0 M1 ∧ NoRegion sVictim 0 M1 hd ∧ on M1 hd = [0] ∧ NoThief (st M1) 0 ∧ NoThief sVictim 0 ∧
    stealVictim (st M1) (issOf 0 M1 hd) (M1.src64 (.imm 0)) = none ∧ stealVictim sVictim (issOf 0 M1 hd) (M1.src64 (.imm 0)) = some 16 ∧
    ∀ s ∈ [st M1, sVictim], s.hasRoom (.carousel 0) (recOf s M1 0 (nextPc M1.pc).toNat 6 false) = true :=
  ⟨(able (by decide +kernel)).1, (able (by decide +kernel)).2.1, by unfold NoThief; decide +kernel⟩

/-- A node at 0x100000 with an empty ring of 32 places at 0x200000. -/
def sNode : State := poke (poke (st M) 0x100000 0x200000) 0x100010 (1 * 2 ^ 8 + 5)
theorem witness_Enq : (Issues sNode 0 M ∧ NoRegion sNode 0 M hd ∧ M.enabled hd ≠ 0) ∧ NoSolo sNode ∧ sNode.heldW = [] ∧ sNode.mapped = [] ∧
    (match enqCheck (issOf 0 M hd) (op 1) sNode, sNode.reach 0 0 1 0x100000 64 true true, sNode.reach 0 0 1 0x200000 16 false true with
      | .ok (d, n), .ok (.dev pa _), .ok (.dev pb _) => d == 0x100000 && laneCount (M.enabled hd) ≤ n.free && isHbm (pa + 63) && isHbm (pb + 15)
      | _, _, _ => false) = true :=
  ⟨able (by decide +kernel), noSolo (by decide +kernel), by decide +kernel⟩

/-- The same ring full, and one enabled lane. -/
def sRing : State := poke (poke (poke (st M1) 0x100000 0x200000) 0x100010 (1 * 2 ^ 8 + 5)) 0x100018 (32 * 2 ^ 32)
theorem witness_EnqFull : (Issues sRing 0 M1 ∧ NoRegion sRing 0 M1 hd ∧ M1.enabled hd ≠ 0) ∧ on M1 hd = [0] ∧ NoThief sRing 0 ∧
    (match enqCheck (issOf 0 M1 hd) (op 1) sRing with
      | .ok (_, n) => n.free == 0
      | .error _ => false) = true := ⟨able (by decide +kernel), by decide +kernel, by unfold NoThief; decide +kernel⟩

/-- A queue at 0x100000 with two records, of two lines. -/
def sQueue : State := poke (poke (poke (st M1) 0x100000 0) 0x100008 2) 0x100010 1
theorem witness_RefillQ : (Issues sQueue 0 M1 ∧ NoRegion sQueue 0 M1 hd ∧ M1.enabled hd ≠ 0) ∧ M1.scalar = false ∧ sQueue.mapped = [] ∧ sQueue.heldW = [] ∧
    (match refillCheck (issOf 0 M1 hd) (op 1) (fun q => min (idleLanes M1 (M1.src64 (.imm (-1)))).length ((q.tail + 2 ^ 32 - q.head) % 2 ^ 32)) sQueue,
      sQueue.reach 0 0 1 0x100000 24 true true with
      | .ok (a, q), .ok (.dev pa _) => (a, q.tail, q.head) == (0x100000, 2, 0) && isHbm (pa + 23) &&
        (sQueue.homeUpdate (issOf 0 M1 hd) 1 a 24 0 2 0).member? 0 == some M1
      | _, _ => false) = true ∧ (idleLanes M1 (M1.src64 (.imm (-1)))).length = 31 :=
  ⟨able (by decide +kernel), by decide +kernel⟩

/-- A bucket of the team at the next word, with one record. -/
def sBucket : State :=
  (marked M1 3).modCluster 0 fun c => { c with buckets := [⟨0, 1, entryOf 0x30008, [recOf (st M1) M1 0 0x30008 1 false], 0, true⟩] }
theorem witness_RefillBkt : (Issues sBucket 0 M1 ∧ NoRegion sBucket 0 M1 hd ∧ M1.enabled hd ≠ 0) ∧
    markCheck sBucket M1.ctx (nextPc M1.pc).toNat [1, 3] = .ok 3 ∧ M1.scalar = false ∧
    ((((sBucket.cluster 0).buckets.find? fun x => x.ctx == M1.ctx && x.team == M1.team && x.entry == entryOf (nextPc M1.pc).toNat).map
      Bucket.recs).getD []).map (fun r => (recFaulty sBucket r, r.setq)) = [(false, none)] :=
  ⟨able (by decide +kernel), ok_is (by decide +kernel), by decide +kernel⟩

/-- A leader with a packet at 0x100000 whose entry is marked, and queue 0 of its context. -/
def Ml : Member := { M1 with ldr := 1 }
def sLaunch : State :=
  ((poke (st Ml) 0x100000 (0x6001 * 2 ^ 16)).setQueue 0 { Queue.init with en := true, dev := true, base := 0x300000, logsize := 2 }).modCtx 0 id
def sLaunch' : State := (poke sLaunch 0x50000 (0x6001 * 2 ^ 16 + 3 * 2 ^ 14)).modCtx 0 fun c => { c with marktab := 0x50000, markcnt := 1 }
theorem witness_Launch : (∀ x ∈ [launchCheck (issOf 0 Ml hd) (op 1) 0 sLaunch',
      packetCheck (sLaunch'.sread (issOf 0 Ml hd) 1 (Ml.addr (op 1) 0) 8).1 0 (sLaunch'.sread (issOf 0 Ml hd) 1 (Ml.addr (op 1) 0) 8).2], x = .ok ()) ∧
    (Issues sLaunch' 0 Ml ∧ NoRegion sLaunch' 0 Ml hd ∧ Ml.enabled hd ≠ 0) ∧ on Ml hd = [0] ∧ sLaunch'.hasChildren 0 1 = false ∧
    (NoSolo sLaunch' ∧ sLaunch'.heldW = [] ∧ sLaunch'.mapped = [] ∧ sLaunch'.linesWait 0x300000 128 none = false ∧ (sLaunch'.queue 0).packetAt (sLaunch'.queue 0).tail.toNat = (false, 0x300000) ∧
      isHbm (0x300000 + 127) = true) ∧
    sChild.hasChildren 0 1 = true ∧ Issues sChild 0 M1 ∧ NoRegion sChild 0 M1 hd ∧ M1.enabled hd ≠ 0 :=
  ⟨oks (by decide +kernel), able (by decide +kernel), by decide +kernel, by decide +kernel, ⟨noSolo (by decide +kernel), by decide +kernel⟩,
    by decide +kernel, able (by decide +kernel)⟩

/-- The same launch through a ring in host memory. -/
def sLaunchH : State := sLaunch'.setQueue 0 { Queue.init with en := true, dev := true, base := 2 ^ 63 + 0x300000, logsize := 2 }
theorem witness_LaunchHost : (∀ x ∈ [launchCheck (issOf 0 Ml hd) (op 1) 0 sLaunchH,
      packetCheck (sLaunchH.sread (issOf 0 Ml hd) 1 (Ml.addr (op 1) 0) 8).1 0 (sLaunchH.sread (issOf 0 Ml hd) 1 (Ml.addr (op 1) 0) 8).2], x = .ok ()) ∧
    (Issues sLaunchH 0 Ml ∧ NoRegion sLaunchH 0 Ml hd ∧ Ml.enabled hd ≠ 0) ∧ ((sLaunchH.queue 0).packetAt (sLaunchH.queue 0).tail.toNat).1 = true :=
  ⟨oks (by decide +kernel), able (by decide +kernel), by decide +kernel⟩

/-! ### Witnesses: barriers, waits, messages -/

/-- One lane's arrival of 32, and the last of 32 lanes. -/
theorem witness_Barriers : (Issues (st M1) 0 M1 ∧ NoRegion (st M1) 0 M1 hd ∧ M1.enabled hd ≠ 0) ∧
    (Issues (st M) 0 M ∧ NoRegion (st M) 0 M hd ∧ M.enabled hd ≠ 0) ∧ (st M).team? 0 1 = some T ∧ (st M1).team? 0 1 = some T ∧
    (st M).lateFor 1 (M.enabled hd) = false ∧ (T.bar 0).arr + laneCount (M1.enabled hd) < T.live ∧ T.live ≤ (T.bar 0).arr + laneCount (M.enabled hd) ∧ 0 < laneCount (M1.enabled hd) :=
  ⟨able (by decide +kernel), able (by decide +kernel), by decide +kernel⟩

/-- Tokens of the last phase, of the present one, and malformed, at phase 1 of barrier 0. -/
def sBar : State := st { M1 with s := [(1, 0xFFFFFFFF)] } { T with bars := [(0, ⟨1, 0⟩)] }
def Mb : Member := { M1 with s := [(1, 0xFFFFFFFF)] }
theorem witness_BarWait : (Issues sBar 0 Mb ∧ NoRegion sBar 0 Mb hd ∧ Mb.enabled hd ≠ 0) ∧
    (on Mb hd).map (fun l => tokenAge sBar (issOf 0 Mb hd) (Mb.src32 (.imm 0) l)) = [some (0 + 1)] ∧
    (on Mb hd).map (fun l => tokenAge sBar (issOf 0 Mb hd) (Mb.src32 (.imm 1) l)) = [some 0] ∧
    (on Mb hd).find? (fun l => tokenAge sBar (issOf 0 Mb hd) (Mb.src32 (.s 1) l) = none) = some 0 :=
  ⟨able (by decide +kernel), by decide +kernel⟩

/-- A counter at its bound and above it; a tag that is done, one that is not, an empty mask; a job that is open and one that is not. -/
def J0 : Job := ⟨1, 1, clsMatrix, 1, 0, 1, 0, .accz 0 1, .queued, none, some 0, [], []⟩
def Mw : Member := { M with cnt := [(0, 1)], s := [(1, 1)] }
def sWait : State := ((st Mw).modCell 0 fun c => { c with tag := [(0, ⟨true, 0, false⟩)] }).modCluster 0 fun c => { c with jobs := [J0] }
theorem witness_Waits : (Issues sWait 0 Mw ∧ NoRegion sWait 0 Mw hd ∧ Mw.enabled hd ≠ 0) ∧ Mw.count 0 ≤ (1 : BitVec 8).toNat ∧
    (0 : BitVec 8).toNat < Mw.count 0 ∧ sWait.doneSet 0 0 (Mw.src64 (.imm 1)) = Mw.src64 (.imm 1) ∧
    sWait.doneSet 0 0 (Mw.src64 (.imm 3)) ≠ Mw.src64 (.imm 3) ∧ sWait.doneSet 0 0 (Mw.src64 (.imm 3)) ≠ 0 ∧ Mw.src64 (.imm 0) = 0 ∧
    sWait.doneSet 0 0 (Mw.src64 (.imm 2)) = 0 ∧ Mw.src64 (.imm 2) ≠ 0 ∧ sWait.jobOpen 0 ((Mw.sreg 1).toNat % 2 ^ 16) = true ∧
    sWait.jobOpen 0 ((Mw.sreg 2).toNat % 2 ^ 16) = false := ⟨able (by decide +kernel), by decide +kernel⟩

/-- WAITADR until equal and until different, of a word that holds 0. -/
theorem witness_Waitadr : (Issues (st M1) 0 M1 ∧ NoRegion (st M1) 0 M1 hd ∧ M1.enabled hd ≠ 0) ∧ SlotExists 0 ∧ EvenDest .n64 false 62 ∧
    (∀ x ∈ [(st M1).capCheck 0 0 (M1.creg 2) threadSpaces permR 8 8 [(0, M1.addr (op 2) 0)],
      (st M1).lateCheck 0 0 2 8 true false true [(0, M1.addr (op 2) 0)]], x = .ok ()) ∧ on M1 hd = [0] ∧ (M1.creg 2).space = 2 ∧
    (st M1).num (spadBase + cellOf 0 * 2 ^ 18 + M1.addr (op 2) 0) 8 = 0 ∧ M1.src .n64 (.imm 0) 0 = 0 ∧ M1.src .n64 (.imm 1) 0 ≠ 0 ∧ M1.ord = none :=
  ⟨able (by decide +kernel), by unfold SlotExists; decide, by unfold EvenDest; decide, oks (by decide +kernel), by decide +kernel⟩

/-- An entry at 0x30008 of kind 3 in s2, and counter 0 of die 0 with a decrement of 1 in s4. -/
def Mm : Member := { M1 with s := [(2, 0x30008), (4, 0x10000)] }
theorem witness_Messages : (Issues (marked Mm 3) 0 Mm ∧ NoRegion (marked Mm 3) 0 Mm hd ∧ Mm.enabled hd ≠ 0) ∧
    amsgCheck (issOf 0 Mm hd) 0 (op 1) 2 (marked Mm 3) = .ok 0x30008 ∧
    (marked Mm 3).capCheck 0 0 (Mm.creg 1) threadSpaces permW 4 4 [(0, Mm.addr (op 1) 0)] = .ok () ∧
    (∃ t, (marked Mm 3).reach 0 0 1 (Mm.addr (op 1) 0) 4 false true = .ok t) ∧ on Mm hd = [0] ∧
    (amsgLane (issOf 0 Mm hd) 0 0x30008 (op 1) (marked Mm 3) 0).isSome = true ∧ sigWord (Mm.sreg 4).toNat = some (0, 0, 1) ∧
    (marked Mm 3).trusted 0 = true ∧ (marked Mm 3).reaches (dieOfCell (cellOf 0)) 0 = true :=
  ⟨able (by decide +kernel), ok_is (by decide +kernel), ok_unit (by decide +kernel), ok_some (by decide +kernel), by decide +kernel⟩

/-- Mailboxes that are empty, one word short of full, and full. -/
theorem witness_Mailboxes : (Issues (st M) 0 M ∧ NoRegion (st M) 0 M hd ∧ M.enabled hd ≠ 0) ∧ (st M).team? 0 1 = some T ∧
    (∀ n ∈ [31, 32], (st M { T with mail := [(7, List.replicate n 5)] }).team? 0 1 = some { T with mail := [(7, List.replicate n 5)] } ∧
      ((FMap.get [] [(7, List.replicate n (5 : Word))] 7).length = n)) ∧ (62 : BitVec 6).toNat % 2 = 0 :=
  ⟨able (by decide +kernel), by decide +kernel⟩

/-! ### Witnesses: engines, baton, beams, regions -/

/-- An operand map of F16 rows 32 bytes apart at the start of the scratchpad, tile 0 owned, and parameters for each command. -/
def om : OMap := ⟨cp 2 0, 1 + 8 * 2 ^ 13, 0⟩
def Mg : Member :=
  { M with omap := some om, s := [(10, 1), (12, 32), (13, 2 * 2 ^ 8 + 8 * 2 ^ 12), (14, 2 ^ 32 + 1), (16, 0), (18, 1 + 8 * 2 ^ 13)] }
def sEng : State := (st Mg).modCluster 0 fun c => { c with acc := [(0, 0)] }

/-- What the checks of each engine command answer on the same operands. -/
theorem witness_Engines : (Issues sEng 0 Mg ∧ NoRegion sEng 0 Mg hd ∧ Mg.enabled hd ≠ 0) ∧ Mg.scalar = false ∧
    (∀ x ∈ [mmaCheck .f16 0 false none, mmasCheck .f16 0 (op 2) 10, drainCheck .f32 0 (op 2) 20, cpyCheck (op 2) 1 12, bgathCheck (op 2) 1 14,
      bredCheck .f32 (op 1) 2 16, bcvtCheck (op 1) 1 16], ∃ j, x (issOf 0 Mg hd) sEng = .ok j) ∧
    (∃ j, cpymCheck (op 2) 1 12 (issOf 0 Mg hd) sEng = .ok j) ∧ ∃ j, omapCheck (issOf 0 Mg hd) (op 2) 18 sEng = .ok j :=
  ⟨able (by decide +kernel), rfl, oks' (by decide +kernel), ok_some (by decide +kernel), ok_some (by decide +kernel)⟩

/-- ACCZ of the last tile, where no tile is owned by another context. -/
theorem witness_Accz : ¬64 < (63 : BitVec 6).toNat + ((0 : BitVec 6).toNat + 1) ∧
    ¬∃ j, j < (0 : BitVec 6).toNat + 1 ∧ ∃ x, FMap.find? (sEng.cluster (clusterOfCell 0)).acc ((63 : BitVec 6).toNat + j) = some x ∧ x ≠ 0 := by
  refine ⟨by decide, ?_⟩
  rintro ⟨j, hj, x, hx, -⟩
  obtain rfl : j = 0 := by simpa using hj
  rw [show FMap.find? (sEng.cluster (clusterOfCell 0)).acc ((63 : BitVec 6).toNat + 0) = none by decide +kernel] at hx
  cases hx

/-- A ring of waves 0 and 1, held by wave 0 with wave 1 after it and before it, or held by wave 1; and a disarmed one. -/
def ring (r : List Nat) (h : Nat) : Team := { T with baton := some (r, h) }
theorem witness_Baton : (Issues (st M) 0 M ∧ NoRegion (st M) 0 M hd ∧ M.enabled hd ≠ 0) ∧ M.scalar = false ∧ M.idx = 0 ∧
    (st M).team? 0 1 = some T ∧ T.baton = none ∧ (∀ x ∈ ringOf (M.sreg 0) 0, (st M).isWave 0 1 x = true) ∧ (ringOf (M.sreg 0) 0).Nodup ∧
    (∀ r ∈ [([0, 1], 0), ([1, 0], 0), ([0, 1], 1)], (st M (ring r.1 r.2)).team? 0 1 = some (ring r.1 r.2)) ∧
    (ring [0, 1] 0).baton = some ([] ++ 0 :: 1 :: [], 0) ∧ (ring [1, 0] 0).baton = some (1 :: [] ++ [0], 0) ∧
    (ring [0, 1] 1).baton = some ([0, 1], 1) ∧ 0 ∉ ([] : List Nat) ∧ 0 ∉ [1] := ⟨able (by decide +kernel), by decide +kernel⟩

theorem witness_Kcm : Issues (st M) 0 M ∧ M.enabled hd ≠ 0 := ⟨issues_M.1, issues_M.2.2⟩

theorem witness_Beam : (Issues (st M1) 0 M1 ∧ NoRegion (st M1) 0 M1 hd ∧ M1.enabled hd ≠ 0) ∧
    beamCheck (issOf 0 M1 hd) (op 1) (st M1) = .ok () ∧ Unmixed (st M1) 0 M1 hd ∧ on M1 hd = [0] :=
  ⟨able (by decide +kernel), ok_unit (by decide +kernel), by unfold Unmixed; decide +kernel, by decide +kernel⟩

/-- An open region of lane 0. -/
def R0 : Region :=
  { st := .run, solo := false, ctx := 0, cell := 0, scal := false, slot := 0, lane := 0, uid := 1, abort := 0x30010, join := none, age := 0,
    waits := [], hold := [], fwd := [], ckV := [], ckP := 0, ckQ := 0, reads := [], writes := [], tags := [], heals := [] }
def sReg (r : Region) : State := (st M1).modDie 0 fun d => { d with regions := [(3, r)] }
theorem witness_Regions : (Issues (st M1) 0 M1 ∧ NoRegion (st M1) 0 M1 hd ∧ M1.enabled hd ≠ 0) ∧ Issues (sReg R0) 0 M1 ∧ on M1 hd = [0] ∧
    abortsOf (M1.rstatOf 0) < 8 ∧ (st M1).soloBusy 0 = false ∧
    firstFree 256 (fun n => (FMap.find? ((st M1).die 0).regions n).isSome) = some 0 ∧
    abortsOf (({ M1 with rstat := [(0, 7 * 2 ^ 26)] } : Member).rstatOf 0) = 7 ∧ (sReg R0).regionOf 0 M1.uid 0 = some (3, R0) ∧
    R0.isOpen = true ∧ FMap.find? ((sReg R0).die 0).regions 3 = some R0 :=
  ⟨able (by decide +kernel), issues (by decide +kernel), by decide +kernel⟩

/-! ### Witnesses: traps, special registers -/

theorem canTrap {s : State} {k : Nat} {m : Member} {tm : Team}
    (h : (s.team? m.ctx m.team == some tm && !tm.trap.v && tm.handler != 0 && m.run == .run && s.byUid m.uid == some m &&
      (FMap.sorted s.members && s.members.all (fun e => e.2.uid != m.uid || e.1 == k) && s.evicted.all fun n => n.uid != m.uid) &&
      s.dies.all fun e => e.2.soloHolder == none) = true) : CanTrap s k m tm := by
  simp only [Bool.and_eq_true, beq_iff_eq, bne_iff_ne, ne_eq, Bool.not_eq_true', List.all_eq_true, Bool.or_eq_true] at h
  obtain ⟨⟨⟨⟨⟨⟨h1, h2⟩, h3⟩, h4⟩, h5⟩, ⟨h6, h7⟩, h8⟩, h9⟩ := h
  have own : OwnUid s k m := ⟨h6, fun e he hu => (h7 e he).resolve_left (fun n => n hu), h8⟩
  have solo : NoSolo s := FMap.get_ind (p := fun x : Die => x.soloHolder = none) rfl h9
  exact { team := h1, idle := h2, handler := h3, runs := h4, found := h5, own := own, noSolo := solo }

theorem canTrap_M : CanTrap (st M) 0 M T ∧ CanTrap (st M1) 0 M1 T := ⟨canTrap (by decide +kernel), canTrap (by decide +kernel)⟩

/-- A team with a handler and no trap, one without a handler, and one whose handler runs. -/
def Tnone : Team := { T with handler := 0 }
def Ttrap : Team := { T with trap := { TrapArea.zero with v := true, tpc := 0x30008 } }
def Todd : Team := { T with trap := { TrapArea.zero with v := true, tpc := 0x30004 } }
theorem witness_Traps : (Issues (st M) 0 M ∧ NoRegion (st M) 0 M hd ∧ M.enabled hd ≠ 0) ∧ CanTrap (st M) 0 M T ∧
    (Issues (st M Tnone) 0 M ∧ (st M Tnone).team? 0 1 = some Tnone ∧ (st M Tnone).byUid 1 = some M ∧ M.run = .run ∧ Tnone.handler = 0) ∧
    Issues (st M Ttrap) 0 M ∧ (st M Ttrap).team? 0 1 = some Ttrap ∧ (st M Ttrap).byUid 1 = some M ∧ Ttrap.trap.v = true :=
  ⟨issues_M, canTrap_M.1, ⟨issues (by decide +kernel), by decide +kernel⟩, issues (by decide +kernel), by decide +kernel⟩

/-- A log in host memory with one place left, for a cause of each of those teams. -/
def logged (s : State) : State :=
  s.modCtx 0 fun c => { c with log := { LogRing.init with en := true, logsize := 4, tail := 15, base := 2 ^ 63 + 0x1000 } }
theorem witness_TrapLogs : (∀ t ∈ [Tnone, Ttrap], Issues (logged (st M t)) 0 M ∧ (logged (st M t)).team? 0 1 = some t) ∧
    (∀ t ∈ [Tnone, Ttrap], (logged (st M t)).byUid 1 = some M ∧ (t.trap.v = true ∨ t.handler = 0)) ∧
    ∀ r ∈ [((logged (st M Tnone)).ctx 0).log, ((logged (st M Ttrap)).ctx 0).log], r.en = true ∧ (r.tail - r.head).toNat < 2 ^ r.logsize.toNat ∧
      r.base.getLsbD 63 = true := by
  refine ⟨fun t ht => ?_, by decide +kernel⟩
  simp only [List.mem_cons, List.not_mem_nil, or_false] at ht
  rcases ht with rfl | rfl <;> exact ⟨issues (by decide +kernel), by decide +kernel⟩

theorem witness_Eret : (∀ t ∈ [T, Ttrap, Todd], (st M t).team? 0 1 = some t ∧ Issues (st M t) 0 M ∧ NoRegion (st M t) 0 M hd ∧ M.enabled hd ≠ 0) ∧
    T.trap.v = false ∧ (Ttrap.trap.v = true ∧ Ttrap.trap.tpc.toNat % 8 = 0) ∧ Todd.trap.v = true ∧ Todd.trap.tpc.toNat % 8 ≠ 0 := by
  refine ⟨fun t ht => ?_, by decide⟩
  simp only [List.mem_cons, List.not_mem_nil, or_false] at ht
  rcases ht with rfl | rfl | rfl <;> exact ⟨by decide +kernel, able (by decide +kernel)⟩

/-- An assigned and an unassigned register, and the first and last mapping entries, not in use. -/
theorem witness_Csr : (Issues (st M) 0 M ∧ NoRegion (st M) 0 M hd ∧ M.enabled hd ≠ 0) ∧ (st M).team? 0 1 = some T ∧
    (st M).csrVal (issOf 0 M hd) 0x102 = some 0 ∧ (st M).csrVal (issOf 0 M hd) 0xFFF = none ∧
    ∀ n ∈ [0, 15], ((st M).spEntry (cellOf 0) n).v = false := ⟨issues_M, by decide +kernel⟩

/-- A range of 256 bytes at GVA 0 and offset 0; an entry of the team, and one of another team. -/
def sSp (t : Nat) : State := (st M).modCell 0 fun c => { c with spmap := [(15, ⟨0, true, 1, 0, 0, t⟩)] }
theorem witness_SpadMappings : (Issues (st M) 0 M ∧ NoRegion (st M) 0 M ⟨0, false, 7⟩ ∧ M.enabled ⟨0, false, 7⟩ ≠ 0) ∧ NoSolo (st M) ∧
    (∀ t ∈ [1, 2], Issues (sSp t) 0 M ∧ NoRegion (sSp t) 0 M ⟨0, false, 7⟩ ∧ NoSolo (sSp t) ∧ (sSp t).team? 0 1 = some T ∧
      ((sSp t).spEntry 0 15).v = true ∧ ((sSp t).spEntry 0 15).ctx = 0 ∧ ((sSp t).spEntry 0 15).team = t) ∧ (st M).team? 0 1 = some T ∧
    ((st M).spEntry 0 15).v = false ∧ bits (2 ^ 18 : DWord).toNat 62 29 = 0 ∧ 1 ≤ bits (2 ^ 18 : DWord).toNat 28 18 ∧
    bits (2 ^ 18 : DWord).toNat 28 18 ≤ 1024 ∧ bits (2 ^ 18 : DWord).toNat 17 0 % 256 = 0 ∧ ((st M).spEntry 0 15).gva.toNat % 256 = 0 ∧
    T.spbase ≤ bits (2 ^ 18 : DWord).toNat 17 0 ∧ bits (2 ^ 18 : DWord).toNat 17 0 + bits (2 ^ 18 : DWord).toNat 28 18 * 256 ≤ T.spbase + T.splen ∧
    (match (st M).mapLines 0 0 ((st M).spEntry 0 15).gva.toNat (bits (2 ^ 18 : DWord).toNat 28 18 * 256) with
      | some ks => !hasDup ks
      | none => false) = true := by
  refine ⟨issues_M, noSolo_st.1, fun t ht => ?_, by decide +kernel⟩
  simp only [List.mem_cons, List.not_mem_nil, or_false] at ht
  rcases ht with rfl | rfl <;> exact ⟨issues (by decide +kernel), by unfold NoRegion; decide +kernel, noSolo (by decide +kernel), by decide +kernel⟩

/-- A reserved bit, a length of 0 and one of 1,025, a place that is no multiple of 256, one behind the extent, and a page that is not mapped. -/
def sSpGap : State := (st M).modCell 0 fun c => { c with spmap := [(15, ⟨2 ^ 40, false, 1, 0, 0, 0⟩)] }
theorem witness_SpadMapRefused : bits (2 ^ 29 + 2 ^ 18 : DWord).toNat 62 29 ≠ 0 ∧ bits (0 : DWord).toNat 28 18 = 0 ∧
    1024 < bits (1025 * 2 ^ 18 : DWord).toNat 28 18 ∧ bits (2 ^ 18 + 128 : DWord).toNat 17 0 % 256 ≠ 0 ∧
    T.spbase + T.splen < bits (2 ^ 18 + (2 ^ 18 - 256) : DWord).toNat 17 0 + 256 ∧ (sSpGap.spEntry 0 15).v = false ∧
    sSpGap.mapLines 0 0 (sSpGap.spEntry 0 15).gva.toNat 256 = none ∧ sSpGap.team? 0 1 = some T := by decide +kernel

/-! ### Witnesses: launch queues, records, slots -/

/-- Queue 0 of context 0, enabled for the host, with 16 places; and the same queue with a packet to be read. -/
def q0 : Queue := { Queue.init with en := true, logsize := 4, base := 0x300000 }
def sQ : State := (st M).setQueue 0 q0
theorem witness_QueueRegisters : sQ.host.recovery = false ∧ (sQ.queue 0).en = true ∧ (sQ.queue 0).dev = false ∧
    ((16 : BitVec 32) - (sQ.queue 0).head).toNat ≤ 2 ^ (sQ.queue 0).logsize.toNat ∧
    ¬((17 : BitVec 32) - (sQ.queue 0).head).toNat ≤ 2 ^ (sQ.queue 0).logsize.toNat ∧ (0 : DWord).getLsbD 0 = false ∧ (sQ.queue 255).en = false ∧
    (st M).host.recovery = false := by decide +kernel

/-- A context with one descriptor of one wave, a capability entry 0, and a mark at 0x30008. -/
def sTab : State :=
  let s := poke (poke (st M) 0x50000 (0x6001 * 2 ^ 16 + 3 * 2 ^ 14)) 0x70000 (0x6001 * 2 ^ 16)
  let s := (s.setBytes 0x70010 (toBytes 8 (1 * 2 ^ 59))).setBytes 0x60000 (toBytes 16 (cp 1 0x100000).toNat128)
  { s.modCtx 0 fun c => { c with marktab := 0x50000, markcnt := 1, desctab := 0x70000, desccnt := 1, captab := 0x60000 } with tags := [(0x6000, true)] }
def sPkt : State := (poke (poke sTab 0x300000 (0x6001 * 2 ^ 16)) 0x300010 (1 * 2 ^ 32)).setQueue 0 { q0 with tail := 1 }
theorem witness_Packets : (sPkt.queue 0).en = true ∧ (sPkt.queue 0).pending ≠ 0 ∧ (sPkt.queue 0).cur = none ∧ sPkt.queueDies (sPkt.queue 0) ≠ [] ∧
    (sPkt.queue 0).packetAt (sPkt.queue 0).head.toNat = (false, 0x300000) ∧
    sPkt.packetCause 0 (sPkt.bytes 0x300000 128) (Packet.ofBytes (sPkt.bytes 0x300000 128)) = none ∧ sPkt.threadHeld 0 1 = false ∧
    sPkt.packetHeld (sPkt.queue 0) = false ∧ sPkt.told = false ∧ (sPkt.ctx (sPkt.queue 0).ctx.toNat).halted = false ∧
    (sPkt.touchHome 0x300000 128 false).lineQ = [] := by decide +kernel

/-- A launch of one team in admission. -/
def l0 : Launch :=
  { ctx := 0, lid := State.provisional 0, queue := 0, entry := 0x6001, tdesc := 0, acap := 0, args := [], teams := 1, admitted := 0, depth := 1,
    parent := none, stok := 0, irq := false, failed := false, level := 16, wtok := 0, wval := 0 }
def sAdm : State := { sTab.setQueue 0 { q0 with head := 1, tail := 1, cur := some (0, State.provisional 0) } with launches := [l0] }
theorem witness_TeamAdmit : sAdm.newRound.mayServe 0 = true ∧ sAdm.newRound.curLaunch 0 = some l0 ∧
    (match sAdm.newRound.desc? 0 0 with
      | some d => (match sAdm.newRound.placeFor 0 d with
        | some (_, cell, _, _) =>
          let c := sAdm.newRound.defaultChoice 0 cell
          sAdm.newRound.choiceOk 0 cell d.waves d.threads c && sAdm.newRound.poolRoom 0 (sAdm.newRound.recordCount cell d.waves d.threads c) &&
            sAdm.newRound.recordCount cell d.waves d.threads c == 0 && (sAdm.newRound.directWaves cell d.waves c)[0]? == some 0
        | none => false)
      | none => false) = true := by decide +kernel

/-- A node at 0x100000 with one element and the entry 0x30008, and a record suspended at it. -/
def sCons : State :=
  let s := poke (poke (poke (poke sTab 0x100000 0x200000) 0x100008 (0x6001 * 2 ^ 16)) 0x100010 (1 * 2 ^ 8 + 5)) 0x100018 (1 * 2 ^ 32)
  let s := s.setBytes (0x60000 + 16 * 255) (toBytes 16 (Cap.make 1 0xFF 0x400000 4096).toNat128)
  { s.modCtx 0 fun c => { c with nodes := [0x100000], poolsz := 4096 } with tags := [(0x6000, true), (0x6000 + 255, true)] }
theorem witness_Consumers : ∃ k, sCons.newRound.consumerFor 0 0x100000 = some k ∧ 0x100000 ∈ (sCons.newRound.ctx 0).nodes ∧
    (sCons.newRound.consumerTurn 0 0x100000 k.node.level &&
      sCons.newRound.choiceOk 0 k.place.2.1 (if k.wave then max 1 k.desc.waves else k.desc.waves)
        (if k.wave then k.desc.threads else max 1 k.desc.threads) (sCons.newRound.defaultChoice 0 k.place.2.1)) = true := by
  have h : (match sCons.newRound.consumerFor 0 0x100000 with
    | some k => sCons.newRound.consumerTurn 0 0x100000 k.node.level &&
        sCons.newRound.choiceOk 0 k.place.2.1 (if k.wave then max 1 k.desc.waves else k.desc.waves)
          (if k.wave then k.desc.threads else max 1 k.desc.threads) (sCons.newRound.defaultChoice 0 k.place.2.1)
    | none => false) = true := by decide +kernel
  revert h
  cases e : sCons.newRound.consumerFor 0 0x100000 with
  | none => intro h; cases h
  | some k => exact fun h => ⟨k, rfl, by decide +kernel, h⟩
def r0 : Rec := recOf (st M1) M1 0 0x30008 1 false
def sEnqd : State := sCons.modCtx 0 fun c => { c with gwaits := [(0x100000, .carousel 0, r0)] }
theorem witness_EnqResume : (sEnqd.ctx 0).gwaits.find? (fun g => g.1 == 0x100000) = some (0x100000, .carousel 0, r0) ∧
    ((sEnqd.nodeAt 0 0x100000).map fun p => p.1.free) = some 31 ∧ sEnqd.hasRoom (.carousel 0) r0 = true ∧ sEnqd.arrivalWaits (.carousel 0) = false := by decide +kernel

/-- A record on its way to a Carousel that has no bucket of its key, one that is full, and one with room. -/
def bkt (n : Nat) : Bucket := ⟨0, 1, entryOf 0x30008, List.replicate n r0, 0, false⟩
def sCar (bs : List Bucket) : State := (st M1).modCluster 0 fun c => { c with inbound := [r0], buckets := bs }
theorem witness_Carousel : ∀ n ∈ [31, 32], ((sCar [bkt n]).cluster 0).inbound = r0 :: [] ∧ (sCar [bkt n]).spilledFor (.carousel 0) = [] ∧
    (sCar [bkt n]).arrivalWaits (.carousel 0) = false ∧
    ((sCar [bkt n]).cluster 0).buckets = [] ++ bkt n :: [] ∧ (bkt n).hasKey r0 = true ∧ (bkt n).recs.length = n := by decide +kernel

/-- One record spilled from each place. -/
def sp0 (tgt : PoolTarget) : Spilled := ⟨0, tgt, 5, none, 1, Origin.none⟩
def sSpill (tgt : PoolTarget) : State := sCons.modCtx 0 fun c => { c with spilled := [sp0 tgt] }
theorem witness_PoolRefill : ∀ t ∈ [PoolTarget.carousel 0, .ready 0, .handler 0], (sSpill t).spilledFor t = [(0, [sp0 t])] ∧
    ((sSpill t).cluster 0).buckets.length < 64 ∧ ((sSpill t).cell 0).ready.length < 128 ∧ ((sSpill t).die 0).hq.length < 1024 := by decide +kernel

/-- A team with free slots of both kinds. -/
def T2 : Team := { T with wquota := 2, wmask := 3, tquota := 1, tmask := 1 }
def sDisp : State :=
  ((st M1 T2).modCluster 0 fun c => { c with buckets := [{ bkt 1 with ready := true }] }).modCell 0 fun c => { c with ready := [r0] }
theorem witness_Dispatch : (sDisp.cluster 0).buckets.filter Bucket.ready = [{ bkt 1 with ready := true }] ∧ sDisp.team? 0 1 = some T2 ∧
    sDisp.takeSlot T2 false = some (1, 1) ∧ recFaulty sDisp r0 = false ∧ r0.setq = none ∧ r0.a.length = 12 ∧ (sDisp.cell 0).ready = [r0] ∧
    (sDisp.cell 0).inbound = [] ∧ sDisp.takeSlot T2 true = some (16, 0) := by decide +kernel

/-- A cell whose 16 wave slots are taken, with a sleeper in slot 0, and an evicted member that could run. -/
def Ms : Member := { M1 with root := { M1.root with wait := some .child } }
def sFull : State :=
  { (List.range 15).foldl (fun s n => s.setMember (n + 1) { M1 with uid := n + 2 }) (st Ms { T with wmask := 0xFFFF }) with evicted := [{ M1 with uid := 99 }] }
theorem witness_Eviction : (st M).incoming 0 = [] ∧
    (match (sFull.incoming 0).find? (fun w => sFull.lacks 0 w && (sFull.victims 0 w).any fun k => if slotOf k < 16 then 1 ≠ 0 else 0 ≠ 0) with
      | some w => (sFull.victims 0 w).find? (fun k => if slotOf k < 16 then 1 ≠ 0 else 0 ≠ 0) == some 0
      | none => false) = true ∧ sFull.member? 0 = some Ms ∧ ∀ e ∈ (sFull.die (dieOfCell (cellOf 0))).regions, e.2.uid ≠ Ms.uid := by
  decide +kernel

def Mv : Member := { M1 with uid := 99 }
def sEvd : State := { st M1 T2 with evicted := [Mv] }
theorem witness_Restore : sEvd.evicted.find? (fun m => m.uid == 99) = some Mv ∧ sEvd.team? 0 1 = some T2 ∧
    (if Mv.scalar then (sEvd.freeScals T2.cell T2.tmask).head?.map (scalKey T2.cell)
      else (sEvd.freeWaves T2.cell T2.wmask).head?.map (waveKey T2.cell)) = some 1 ∧ Mv.run = .run ∧ (sEvd.ctx 0).halted = false ∧
    Mv.subs.length ≤ (sEvd.freeSplits T2.cell).length := by decide +kernel

/-- Two groups that can issue, the current one for 1,024 words. -/
def Mrow : Member := { Mj with inRow := 1024, nextStamp := 0 }
theorem witness_GroupSwitch : (st Mrow).member? 0 = some Mrow ∧ 1024 ≤ Mrow.inRow ∧ Mrow.chain = 0 ∧ Mrow.ord = none ∧ Mrow.serial = [] ∧
    some 1 ∈ Mrow.names ∧ Mrow.canIssue (some 1) = true ∧ some 1 ≠ Mrow.cur := by decide +kernel

/-- The last team of a launch that names a token, without live threads. -/
def T0 : Team := { T with live := 0 }
def lT : Launch := { l0 with lid := 0, admitted := 1, stok := 5 }
def sRet : State := { st M1 T0 with launches := [lT] }
theorem witness_Retire : sRet.team? 0 1 = some T0 ∧ sRet.canRetire T0 = true ∧ sRet.launch? 0 T0.lid = some lT ∧ lT.admitted = lT.teams ∧
    (∀ u ∈ sRet.teams, u.ctx = 0 → u.lid = T0.lid → u.handle = 1) ∧ lT.stok ≠ 0 := by decide +kernel

/-! ### Witnesses: engines at work, beams, shares -/

/-- An MMA that is queued, with its block lent; an ACCZ of the last two tiles that has started. -/
def jMma : Job := { J0 with op := .mma .f16 0 0xFFFFFFFF true false 0 om }
def sMat (j : Job) : State := (st { M with lent := [(true, 1)] }).modCluster 0 fun c => { c with jobs := [j] }
def jAcc : Job := { J0 with op := .accz 62 2, st := .started }

/-- A write of a job that waits at its home. -/
def heldOf (key : Nat) : HeldWrite :=
  { uid := 1, job := some (0, key), lane := 0, lanes := 1, cell := 0, ctx := 0, va := 0, pa := 0x100000, n := 4, op := .store 5 false, dst := .none, page := none, hint := 0,
    acq := false, rel := 0, poison := [], storesAfter := 0, loadsAfter := 0, told := false, way := none }
def holding (s : State) (key : Nat) : State := { s with heldW := [heldOf key] }

theorem witness_MatrixJobs : (sMat jMma).runningMatrix 0 = none ∧ (sMat jMma).firstQueued 0 (fun j => j.cls == clsMatrix) = some jMma ∧
    (sMat jMma).threadHeld jMma.uid 0xFFFFFFFF = false ∧ (sMat jMma).member? 0 = some { M with lent := [(true, 1)] } ∧ M.uid = jMma.uid ∧
    OwnUid (sMat jMma) 0 { M with lent := [(true, 1)] } ∧
    ((sMat jAcc).cluster 0).jobs = [jAcc] ∧ jAcc.cls = clsMatrix ∧ jAcc.st = .started ∧ (sMat jAcc).lineQ = [] ∧ (sMat jAcc).jobHeld 0 1 = false ∧
    62 + 2 ≤ 64 ∧ ({ M with lent := [(true, 1)] } : Member).q0 ≠ 0 := by
  unfold OwnUid; decide +kernel

/-- An MMAS whose A operand lies where nothing is mapped: its cause is found at once, with no write of it held and with one. -/
def jGap : Job := { jAcc with op := .mmas ⟨.f16, 0, cp 1 0, 2 ^ 45, 64, 0, om⟩ }
theorem witness_MatrixEffect : ((sMat jGap).cluster 0).jobs = [jGap] ∧ jGap.cls = clsMatrix ∧ jGap.st = .started ∧
    ∀ p ∈ [(sMat jGap, false), (holding (sMat jGap) 1, true)],
      ((p.1.matrixEffect 0 jGap).1.lineQ, (p.1.matrixEffect 0 jGap).1.jobHeld 0 1) = ([], p.2) := by decide +kernel

/-- A copy of two sectors from HBM to the scratchpad, queued, started, and landed; its tag is 3. -/
def jCpy (st : JobSt) (landed : FMap Bool) : Job :=
  { J0 with cls := clsCopy, op := .cpy (cp 2 0) 0 (cp 1 0x100000) 64 (some 3), st := st, landed := landed }
def sCpy (j : Job) : State :=
  ((st M).modCluster 0 fun c => { c with jobs := [j] }).modCell 0 fun c => { c with tag := [(3, ⟨false, 0, false⟩)] }
def sGo : State := sCpy (jCpy .started [])
def sEnd : State := sCpy (jCpy .started [(0, true), (1, true)])
theorem witness_Copies : (((sCpy (jCpy .queued [])).cluster 0).jobs.filter fun j => j.cls == clsCopy && j.st == .started).length < 16 ∧
    (sCpy (jCpy .queued [])).firstQueued 0 (fun j => j.cls == clsCopy) = some (jCpy .queued []) ∧
    (sCpy (jCpy .queued [])).threadHeld 1 0xFFFFFFFF = false ∧
    (match sGo.copyRun? 0 1, sGo.reach 0 0 1 (0x100000 + 32 * 1) 32 true false, sGo.reach 0 0 2 (0 + 32 * 1) 32 false true with
      | some r, .ok (.dev pa _), .ok (.dev qa _) =>
        (r.job, r.len, r.tag) == (jCpy .started [], 64, some 3) && 1 < r.len / 32 && (FMap.find? r.job.landed 1).isNone &&
        !isRegw pa && !isRegw qa && !isHbm qa && qa % 32 == 0 && (sGo.landSector 0 r 1).lineQ == [] &&
        (List.range 4).all fun i => !sGo.poisoned (pa + 8 * i) 8
      | _, _, _ => false) = true ∧ sGo.heldW = [] ∧
    (match sEnd.copyRun? 0 1 with
      | some r => (sEnd.cluster 0).jobs == [r.job] && decide (r.len / 32 ≤ r.job.landed.length) && r.tag == some 3
      | none => false) = true ∧ sEnd.jobHeld 0 1 = false ∧ FMap.find? (sEnd.cell 0).tag 3 = some ⟨false, 0, false⟩ := by decide +kernel
theorem witness_CopySolo : NoSolo sGo := noSolo (by decide +kernel)

/-- A gathering of nothing, with no write of it held and with one. -/
def jBase : Job := { J0 with cls := clsBase, op := .bgath (cp 2 0) 0 (cp 1 0x100000) (cp 1 0x200000) 0 }
theorem witness_BaseJobs : (∀ p ∈ [(sCpy jBase, false), (holding (sCpy jBase) 1, true)],
      (p.1.cluster 0).jobs = [jBase] ∧ p.1.job? 0 1 = some jBase ∧ p.1.threadHeld jBase.uid 0xFFFFFFFF = false ∧ p.1.bredWaits jBase = false ∧
      ((p.1.baseEffect jBase).1.lineQ, (p.1.baseEffect jBase).1.jobHeld 0 1) = ([], p.2)) ∧ (sCpy jBase).lineQ = [] ∧
    (sCpy jBase).jobHeld 0 1 = false ∧ jBase.st ≠ .ending := by decide +kernel

/-- A query of one ray at 0x100000: BVH at 0x200000, results at 0x300000, save area at `save`. -/
def beamMem (s : State) (save : Nat) : State :=
  let s := (s.setBytes 0x100000 (toBytes 16 (cp 1 0x200000).toNat128)).setBytes 0x100010 (toBytes 16 (cp 1 0x300000).toNat128)
  let s := (s.setBytes 0x100020 (toBytes 16 (cp 1 save).toNat128)).setBytes 0x100048 (toBytes 4 0x7F800000)
  { s.setBytes 0x100054 (toBytes 4 0x3F800000) with tags := [(0x10000, true), (0x10001, true), (0x10002, true)] }
def Q0 (save : Nat) : Query :=
  { bvh := cp 1 0x200000, res := cp 1 0x300000, save := cp 1 save, ctl := 0, apex := [0, 0, 0], tmin := 0, tmax := 0x7F800000,
    dirs := [0, 0, 0x3F800000, 0, 0, 0, 0, 0, 0, 0, 0, 0] }
def B0 : BeamJob :=
  { key := 1, id := 1, uid := 1, ctx := 0, team := 1, cell := 0, prio := 0, cap := cp 1 0x100000, addr := 0x100000, piece := none, st := .waiting, q := none,
    frames := [], beams := [], splits := 0, limit := false, preempted := false }
def rootFrame (next : Nat) : BeamItem := { node := 0, next := next, col := 0, row := 0, ncol := 1, nrow := 1, leaf := false, lvl := 0 }
def Brun (save next : Nat) : BeamJob := { B0 with st := .running, q := some (Q0 save), frames := [rootFrame next] }
def sBeam (save : Nat) (bs : List BeamJob) : State := (beamMem (st M1) save).modCluster 0 fun c => { c with beams := bs }

/-- A query that starts, a RESUME whose node has a child, and a RESUME that clashes with another. -/
def Bres : BeamJob := { B0 with piece := some (0, 0, 0) }
def sB0 : State := sBeam 0x310000 [B0]
def sBres : State := poke (sBeam 0x310000 [Bres]) 0x200008 (2 ^ 56)
def sClash : State := sBeam 0x310000 [{ Bres with key := 2, id := 2, st := .running }, Bres]
theorem witness_BeamStart : (∀ p ∈ [(sB0, B0, false), (sBres, Bres, false), (sClash, Bres, true)],
      p.1.beamsRunning 0 < 8 ∧ p.1.nextBeam 0 = some p.2.1 ∧ p.2.1.st = .waiting ∧ p.1.threadHeld 1 0xFFFFFFFF = false ∧
      (p.1.startBeam 0 p.2.1).lineQ = [] ∧ p.1.beamClash 0 p.2.1 = p.2.2 ∧ p.1.queryOk (Q0 0x310000) p.2.1 = true) ∧
    (match (sB0.engTouch B0.asJob 1 0x100000 128).writeStatus B0 0 with
      | (s, e) => e == none && (s.writeMisses B0 (Q0 0x310000)).2 == none) = true ∧
    rectOk (Q0 0x310000) (pieceItem 0 0) = true ∧
    (match sBres.readNode Bres (Q0 0x310000) 0 with
      | .ok n => n.cmask.testBit (pieceItem 0 0).next
      | .error _ => false) = true ∧ sClash.jobHeld 0 1 = false := by decide +kernel
theorem witness_BeamQuery : sB0.readQuery B0 = .ok (Q0 0x310000) ∧ sBres.readQuery Bres = .ok (Q0 0x310000) :=
  ⟨ok_is (by decide +kernel), ok_is (by decide +kernel)⟩

/-- A step of a root without children, and one at the end of the root. -/
def sRoot (n : Nat) : State := sBeam 0x310000 [Brun 0x310000 n]
theorem witness_BeamStep : ∀ n ∈ [0, 8], (sRoot n).beam? 0 1 = some (Brun 0x310000 n) ∧ (Brun 0x310000 n).st = .running ∧
    (Brun 0x310000 n).q = some (Q0 0x310000) ∧ (sRoot n).mustSave 0 (Brun 0x310000 n) = false ∧ (sRoot n).jobHeld 0 1 = false ∧
    (∀ f ∈ (Brun 0x310000 n).frames, (sRoot n).mergeWaits (Brun 0x310000 n) (Q0 0x310000) f = false) ∧
    (match (sRoot n).beamAdvance (Brun 0x310000 n) (Q0 0x310000) with
      | (s', j', e) => e == none && s'.lineQ == [] && ((j'.frames.isEmpty && j'.beams.isEmpty) == (n == 8)) && (s'.endBeam 0 j' e).lineQ == [] &&
        !(s'.writeStatus j' (State.statusWord j' e)).1.jobHeld 0 1) = true := by decide +kernel

/-- A job whose issuer has been evicted, with a save area that can be written, and with one that cannot. -/
def sSave (save : Nat) : State := { sBeam save [Brun save 0] with evicted := [M1] }
def putWord (j : BeamJob) (q : Query) (acc : State × Option Cause) (a w : Nat) : State × Option Cause :=
  ((acc.1.beamWrite j q.save.space.toNat a (toBytes 8 w)).1, acc.2.orElse fun _ => (acc.1.beamWrite j q.save.space.toNat a (toBytes 8 w)).2)
theorem witness_BeamSave : ∀ save ∈ [0x310000, 2 ^ 40], (sSave save).beam? 0 1 = some (Brun save 0) ∧ (sSave save).mustSave 0 (Brun save 0) = true ∧
    (sSave save).jobHeld 0 1 = false ∧
    (match (Brun save 0).frames.zipIdx.foldl (fun x p => putWord (Brun save 0) (Q0 save) x (save + 192 + 8 * p.2) (State.itemWord p.1 true))
        (putWord (Brun save 0) (Q0 save) (sSave save, none) save (State.saveWord 0 (Brun save 0))) with
      | (s, none) => save != 2 ^ 40 && s.lineQ == []
      | (s, some e) => save == 2 ^ 40 && (s.endBeam 0 { Brun save 0 with preempted := true } (some e)).lineQ == [] &&
        !(s.writeStatus (Brun save 0) (State.statusWord { Brun save 0 with preempted := true } (some e))).1.jobHeld 0 1) = true := by decide +kernel

/-- A saved job whose area holds nothing left to do, and one whose area is not valid. -/
def Bsav : BeamJob := { B0 with st := .saved }
def sRest (w : Nat) : State := poke (sBeam 0x310000 [Bsav]) 0x310000 w
theorem witness_BeamRestore : (∀ w ∈ [2 ^ 63 + 1, 0], (sRest w).beamsRunning 0 < 8 ∧ (sRest w).nextBeam 0 = some Bsav ∧
      (sRest w).queryOk (Q0 0x310000) Bsav = true ∧ (sRest w).jobHeld 0 1 = false ∧ ((sRest w).restoreBeam 0 Bsav).lineQ = []) ∧ Bsav.st = .saved ∧
    isOk ((sRest (2 ^ 63 + 1)).loadArea 0 Bsav (Q0 0x310000)) = true ∧
    ((sRest (2 ^ 63 + 1)).beamWrite Bsav 1 (0x310000 + 512 * Bsav.area) (toBytes 8 0)).2 = none ∧
    (match (sRest 0).loadArea 0 Bsav (Q0 0x310000) with
      | .ok _ => false
      | .error e => !((sRest 0).writeStatus Bsav (State.statusWord Bsav (some e))).1.jobHeld 0 1) = true := by decide +kernel
theorem witness_BeamRestoreQuery : (sRest 0).readQuery Bsav = .ok (Q0 0x310000) ∧ (sRest (2 ^ 63 + 1)).readQuery Bsav = .ok (Q0 0x310000) :=
  ⟨ok_is (by decide +kernel), ok_is (by decide +kernel)⟩

/-- A context with a team on the die and one without; activity counters that are not all 0. -/
theorem witness_Budgets : 0 ∈ (st M).ctxsOn 0 ∧ 1 ∉ (st M).ctxsOn 0 ∧ ([1, 0, 0, 0].take 4).foldl (· + ·) 0 ≠ 0 := by decide +kernel

/-- A region at TRE with one byte written, whose read holds or does not; a lane that waits for the solo token. -/
def Rt (v : Word) : Region := { R0 with st := .atTre, writes := [(0x100000, 5)], reads := [(0x10000, some v)] }
def Mso : Member := { M1 with root := { M1.root with wait := some .solo } }
def sSolo : State := (st Mso).modDie 0 fun d => { d with soloQ := [(1, 0)] }
theorem witness_RegionCommit : ∀ v, v = 0 ∨ v = 7 → (sReg (Rt v)).committable 0 = some 3 ∧ FMap.find? ((sReg (Rt v)).die 0).regions 3 = some (Rt v) ∧
    (sReg (Rt v)).mapped = [] ∧ (sReg (Rt v)).heldW = [] ∧ (sReg (Rt v)).commitWaits (Rt v) = false ∧ FMap.sorted (Rt v).writes = true ∧
    (∀ e ∈ (Rt v).writes, isHbm e.1 = true) ∧ (sReg (Rt v)).member? 0 = some M1 ∧ M1.uid = (Rt v).uid ∧ (Rt v).st = .atTre ∧
    (∀ e ∈ ((sReg (Rt v)).die 0).regions, e.2.uid = (Rt v).uid → e.2.lane = (Rt v).lane → e.1 = 3) ∧
    (sReg (Rt v)).readsHold (Rt v) = (v == 0) := by
  rintro v (rfl | rfl) <;> decide +kernel
theorem witness_SoloGrant : sSolo.soloReady 0 = true ∧ ((sSolo.pruneSolo 0).die 0).soloQ = [(1, 0)] := by decide +kernel
theorem witness_RegionOwn : OwnUid (sReg (Rt 0)) 0 M1 ∧ NoSolo (sReg (Rt 0)) := ⟨by unfold OwnUid; decide +kernel, noSolo (by decide +kernel)⟩

/-! ### Witnesses: coherence -/

/-- A request, response or grant of cell 0 for the line of 0x100000, alone in the network. -/
def msg (k : MsgKind) : Msg := { Msg.bare k 0x2000 0 with tag := 1, span := 1, data := toBytes 4 7, op := some (.atom .add 2 0) }
def sMsg (ms : List Msg) (l : Line := Line.init) : State :=
  let s := st M
  { s with coh := { s.coh with net := ms, lines := FMap.put Line.init [] 0x2000 l } }
def Lown : Line := { Line.init with mode := .dir, owners := [(5, 1)] }
def Lbusy (n : Nat) : Line := { Lown with tx := some ⟨{ msg .rdo with tag := 9, cell := 5 }, n, 0⟩ }

theorem arrived {s : State} {k : MsgKind} {tag : Nat} {m : Msg} (h : (s.msg? k tag == some m && !s.coh.applied.contains tag && s.lineQ == [] && decide (s.tagsInUse.length ≤ 2048)) = true) :
    Arrived s k tag m := by
  simp only [Bool.and_eq_true, beq_iff_eq, Bool.not_eq_true', decide_eq_true_eq] at h
  exact ⟨h.1.1.1, h.1.1.2, h.1.2, h.2⟩

theorem ready {s : State} {k : MsgKind} {tag : Nat} {m : Msg}
    (h : ((s.msg? k tag == some m && !s.coh.applied.contains tag && s.lineQ == [] && decide (s.tagsInUse.length ≤ 2048)) && !s.reqWaits m && isHbm (m.line * 128) && FMap.find? s.mapped m.line == none &&
      (s.line m.line).queue == [] && decide (m.cell < 512) && decide (m.line < 2 ^ 46) && s.dies.all fun e => e.2.soloHolder == none) = true) :
    Ready s k tag m := by
  simp only [Bool.and_eq_true, beq_iff_eq, Bool.not_eq_true', decide_eq_true_eq, List.all_eq_true] at h
  obtain ⟨⟨⟨⟨⟨⟨⟨h1, h2⟩, h3⟩, h4⟩, h5⟩, h6⟩, h7⟩, h8⟩ := h
  exact ⟨⟨h1.1.1.1, h1.1.1.2, h1.1.2, h1.2⟩, h2, h3, h4, h5, h6, h7, fun _ => FMap.get_ind (p := fun x : Die => x.soloHolder = none) rfl h8⟩

/-- Every request, alone, a compare and swap among them. -/
def mCas : Msg := { msg .atm with op := some (.cas 0 1) }
theorem witness_Requests : (∀ m ∈ [msg .rds, msg .rdo, msg .upg, msg .lrd, msg .urd, msg .wrt, msg .atm, mCas],
      Ready (sMsg [m]) m.kind 1 m ∧ (sMsg [m]).snoops m = []) ∧ (msg .wrt).data.length = 4 * laneCount (msg .wrt).span ∧
    (msg .atm).op = some (.atom .add 2 0) ∧ 4 * lowest (msg .atm).span + atomBytes .add 2 ≤ 128 ∧
    4 * lowest mCas.span + 4 * laneCount mCas.span ≤ 128 := by
  refine ⟨fun m hm => ?_, by decide +kernel⟩
  simp only [List.mem_cons, List.not_mem_nil, or_false] at hm
  rcases hm with rfl | rfl | rfl | rfl | rfl | rfl | rfl | rfl <;> exact ⟨ready (by decide +kernel), by decide +kernel⟩

/-- A request whose snoops must be answered, one that finds its line BUSY, and one that finds its slice full. -/
def sBusy (n : Nat) : State :=
  sMsg [msg .rdo] { Lbusy 2 with queue := List.replicate n { msg .rds with tag := 9 } }
theorem witness_BusyLines : ((sMsg [msg .rdo] Lown).snoops (msg .rdo)).length ≤ 1024 ∧ Ready (sMsg [msg .rdo] Lown) .rdo 1 (msg .rdo) ∧ (∀ n ∈ [0, 1024], Arrived (sBusy n) .rdo 1 (msg .rdo)) ∧
    NoSolo (sBusy 0) ∧ NoSolo (sBusy 1024) ∧ (sMsg [msg .rdo] Lown).snoops (msg .rdo) ≠ [] ∧ (sBusy 0).busy 0x2000 = true ∧
    (sBusy 0).sliceQueued 0x2000 < 992 ∧ (sBusy 1024).busy 0x2000 = true ∧ 1024 ≤ (sBusy 1024).sliceQueued 0x2000 := by
  refine ⟨by decide +kernel, ready (by decide +kernel), fun n hn => ?_, noSolo (by decide +kernel), noSolo (by decide +kernel), by decide +kernel⟩
  simp only [List.mem_cons, List.not_mem_nil, or_false] at hn
  rcases hn with rfl | rfl <;> exact arrived (by decide +kernel)

/-- Snoops alone, and with a write-back that crosses them. -/
def crosses (m x : Msg) : Bool := x.kind == .wb && x.line == m.line && x.cell == m.cell && x.span &&& m.span != 0 && x.re == 0
theorem witness_Snoops : (∀ k, k = .sns ∨ k = .sni ∨ k = .inv → Arrived (sMsg [msg k] (Lbusy 2)) k 1 (msg k) ∧ Arrived (sMsg [msg k, msg .wb]) k 1 (msg k)) ∧
    (msg .sns).line < 2 ^ 46 ∧ (sMsg [msg .sns]).coh.net.any (crosses (msg .sns)) = false ∧
    (sMsg [msg .sns, msg .wb]).coh.net.any (crosses (msg .sns)) = true ∧ clusterOfCell 1 = (msg .inv).cluster ∧ 1 ≠ (msg .inv).cell ∧
    ((sMsg [msg .sni] (Lbusy 2)).line 0x2000).tx = some ⟨{ msg .rdo with tag := 9, cell := 5 }, 2, 0⟩ ∧ clusterOfCell 2 = clusterOfCell (msg .sni).cell := by
  refine ⟨?_, by decide +kernel⟩
  rintro k (rfl | rfl | rfl) <;> exact ⟨arrived (by decide +kernel), arrived (by decide +kernel)⟩

/-- A transaction of tag 9 that awaits two responses, and one that awaits one. -/
def rsp (k : MsgKind) (re : Nat) : Msg := { msg k with re := re }
theorem witness_Responses : (∀ n, n = 1 ∨ n = 2 → Arrived (sMsg [rsp .iack 9] (Lbusy n)) .iack 1 (rsp .iack 9) ∧
      ((sMsg [rsp .iack 9] (Lbusy n)).line 0x2000).tx = some ⟨{ msg .rdo with tag := 9, cell := 5 }, n, 0⟩ ∧
      ((sMsg [rsp .iack 9] (Lbusy n)).line 0x2000).queue = []) ∧
    Arrived (sMsg [{ rsp .sdat 9 with flag := true }] (Lbusy 2)) .sdat 1 { rsp .sdat 9 with flag := true } ∧
    Arrived (sMsg [rsp .wb 10] (Lbusy 2)) .wb 1 (rsp .wb 10) ∧ Arrived (sMsg [msg .evn]) .evn 1 (msg .evn) ∧
    (rsp .iack 9).re = 9 ∧ (msg .rdo).line = 0x2000 ∧ (msg .rdo).kind = .rdo ∧ (rsp .wb 10).re ≠ 0 ∧
    (sMsg [rsp .wbif 9]).msg? .wbif 1 = some (rsp .wbif 9) ∧ (sMsg [msg .evn]).busy 0x2000 = false ∧
    (sMsg [msg .evn]).clusterHolds (msg .evn).cluster 0x2000 = false := by
  refine ⟨?_, arrived (by decide +kernel), arrived (by decide +kernel), arrived (by decide +kernel), by decide +kernel⟩
  rintro n (rfl | rfl) <;> exact ⟨arrived (by decide +kernel), by decide +kernel⟩

/-- An upgrade of a DIR line whose words its cell no longer holds; an eviction notice for a BUSY line, alone and with an INV of its cluster. -/
def sCross : State := sMsg [msg .evn, { msg .inv with tag := 7 }] (Lbusy 1)
theorem witness_UpgAndEvn : Ready (sMsg [msg .upg] { Line.init with mode := .dir }) .upg 1 (msg .upg) ∧
    ((sMsg [msg .upg] { Line.init with mode := .dir }).line 0x2000).mode = .dir ∧
    ((sMsg [msg .upg] { Line.init with mode := .dir }).l1 0 0x2000).valid &&& (msg .upg).span ≠ (msg .upg).span ∧
    Arrived (sMsg [msg .evn] (Lbusy 1)) .evn 1 (msg .evn) ∧ Arrived sCross .evn 1 (msg .evn) ∧
    ∀ p ∈ [(sMsg [msg .evn] (Lbusy 1), false), (sCross, true)], (p.1.line 0x2000).tx.isSome = true ∧ p.1.clusterHolds (msg .evn).cluster 0x2000 = false ∧
      (p.1.coh.net.any fun x => (x.kind == .inv || x.kind == .iack) && x.line == 0x2000 && x.cluster == (msg .evn).cluster) = p.2 :=
  ⟨ready (by decide +kernel), by decide +kernel, by decide +kernel, arrived (by decide +kernel), arrived (by decide +kernel), by decide +kernel⟩

/-- A second copy of a message that has been applied. -/
def sTwice (k : MsgKind) : State := { sMsg [msg k] with coh := { (sMsg [msg k]).coh with applied := [1] } }
theorem witness_Duplicates : ∀ k, k = .iack ∨ k = .data → (sTwice k).msg? (msg k).kind 1 = some (msg k) ∧ (sTwice k).coh.applied.contains 1 = true := by
  rintro k (rfl | rfl) <;> decide +kernel

/-- A grant of owned words, a LEASE reply of the line's die, a refusal, and a request whose delay is over. -/
def gOwn : Msg := { msg .data with flag := true }
def gLease : Msg := { msg .data with data := List.replicate 128 1, exp := 0xFFF0, op := none }
def sRetry : State := { sMsg [msg .nack] with coh := { (sMsg [msg .nack]).coh with retry := [{ msg .rdo with re := 5 }] }, clk := 5 }
def sOwn : State := sMsg [gOwn] { Lown with owners := [(0, 3)] }
def sLease : State := sMsg [gLease] { Line.init with mode := .lease }
theorem witness_Grants : Arrived sOwn .data 1 gOwn ∧ Arrived sLease .data 1 gLease ∧ Arrived sRetry .nack 1 (msg .nack) ∧ gOwn.line < 2 ^ 46 ∧
    (sOwn.line 0x2000).mode = .dir ∧ gOwn.flag = true ∧ ((sOwn.line 0x2000).owners.find? fun o => o.1 == gOwn.cell) = some (gOwn.cell, 3) ∧
    (sLease.line 0x2000).mode = .lease ∧ gLease.data.length = 128 ∧ dieOfCell gLease.cell = dieOfPa (gLease.line * 128) ∧ gLease.op = none ∧
    ltS gLease.exp (sLease.die (dieOfCell gLease.cell)).floor = false ∧
    sRetry.lineQ = [] ∧ sRetry.tagsInUse.length ≤ 2048 ∧ sRetry.coh.retry.find? (fun m => m.tag == 1) = some { msg .rdo with re := 5 } ∧ 5 ≤ sRetry.clk :=
  ⟨arrived (by decide +kernel), arrived (by decide +kernel), arrived (by decide +kernel), by decide +kernel⟩

/-- A die whose stamps have passed the half of the number space; a DIR line and an empty one. -/
def sTmax : State := (st M).modDie 0 fun d => { d with tmax := 0x4000 }
theorem witness_Clocks : (sTmax.die 0).floor ≠ floorFor (sTmax.die 0).tmax ∧ isHbm (0x2000 * 128) = true ∧ (∀ e ∈ (st M).coh.lines, e.2.queue = []) ∧
    ∀ l ∈ [Line.init, Lown], FMap.find? (sMsg [] l).mapped 0x2000 = none ∧ (sMsg [] l).busy 0x2000 = false ∧
      (((sMsg [] l).line 0x2000).mode = .dir ∨ ((sMsg [] l).line 0x2000).mode = .empty) := by decide +kernel

/-! ### Witnesses: the host, the links, the dies -/

/-- A write of two bytes at the end of a line, one at an address that is not backed, and one behind die 1, which is in RESET. -/
theorem witness_HostAccesses : NoSolo (st M) ∧ (st M).host.recovery = false ∧ (st M).mapped = [] ∧ (st M).heldW = [] ∧
    (∃ i, i < 1 ∧ backed (2 ^ 60 + i) = false) ∧
    (∀ i, i < 2 → backed (0x10007E + i) = true ∧ (st M).windowLent (0x10007E + i) = false ∧ (st M).busy ((0x10007E + i) / 128) = false) ∧
    (st M).trusted (dieOfPa 0x10007E) = true ∧ (st M).trusted (dieOfPa (0x10007E + 2 - 1)) = true ∧ (st M).threadHeld 0 1 = false ∧
    ((st M).touchHome 0x10007E 2 false).lineQ = [] ∧ (∀ i, i < 1 → backed (hbmDie + i) = true) ∧ (st M).trusted (dieOfPa hbmDie) = false ∧
    ({ st M with heldW := [{ heldOf 0 with uid := 0, job := none }] } : State).threadHeld 0 1 = true := ⟨noSolo_st.1, by decide +kernel⟩

/-- A load that lane 0 waits for, and a posted store to a peer. -/
def Mpc : Member := { M1 with root := { M1.root with wait := some (.access (.vec .n32 4) false 1 [] none [] false) } }
def impOf (c : Cause) (die cell : Nat) : ImpFault := ⟨c, 0x30000, 0x100000, 0, 1, 0, 0, 1, 0, die, cell, false⟩
def preq (peer posted : Bool) (op : AccOp) : PcieReq := ⟨1, none, 0, peer, 0x1000, 4, op, posted, 0x30000, impOf Cause.atomicType 0 0⟩
def sPcie : State := { st Mpc with pcie := [preq false false .load] }
def sPeer : State :=
  { st M1 with pcie := [preq true true (.store 7 false)], host := { (st M1).host with ev := { LogRing.init with en := true, logsize := 4 } } }
theorem witness_Pcie : sPcie.pcie = preq false false .load :: [] ∧ sPcie.member? 0 = some Mpc ∧ Mpc.uid = (preq false false .load).uid ∧
    State.pcieGrp Mpc 0 = some none ∧ (Mpc.grp none).wait = some (.access (.vec .n32 4) false 1 [] none [] false) ∧
    sPeer.pcie = preq true true (.store 7 false) :: [] ∧ sPeer.host.ev.en = true ∧
    (sPeer.host.ev.tail - sPeer.host.ev.head).toNat < 2 ^ sPeer.host.ev.logsize.toNat ∧ (AccOp.load).reads = true ∧
    sPeer.pcie.find? (fun r => r.peer && r.posted && !r.op.reads) = some (preq true true (.store 7 false)) ∧
    (AccOp.store 7 false).newVal 4 0 = some 7 := by decide +kernel
theorem witness_PcieOwn : OwnUid sPcie 0 Mpc := by unfold OwnUid; decide +kernel

/-- Values at the ends of the ranges of PWRLIM and DIEHT, the last registers of each kind, and contexts that are live and not. -/
def sCtx : State := (st M).modCtx 1 fun c => { c with poolsz := 128 }
def sHalt : State := (st M).modCtx 0 fun c => { c with halted := true, captab := 0x60000 }
theorem witness_HostRegisters : sCtx.host.recovery = false ∧ (∀ v ∈ [1000, 2700], 1000 ≤ (BitVec.ofNat 64 v).toNat % 2 ^ 12 ∧
      (BitVec.ofNat 64 v).toNat % 2 ^ 12 ≤ 2700) ∧ (63 : DWord).extractLsb' 6 2 = 0 ∧ (sCtx.ctx 63).en = false ∧ (sCtx.counter 3 4095).v = false ∧
    ((64 : DWord).extractLsb' 0 7).toNat ≤ 64 ∧ (sCtx.ctx 1).log.en = false ∧ (0x10000 : DWord).getLsbD 16 = true ∧ (1 : DWord).getLsbD 0 = true ∧
    (sCtx.ctx 1).en = false ∧ (sCtx.ctx 1).tablesOk = true ∧ (∀ l ∈ sCtx.launches, l.ctx ≠ 1) ∧
    (∀ q ∈ sCtx.queueKeys, (sCtx.queue q).ctx.toNat = 1 → (sCtx.queue q).en = false) ∧ (sCtx.ctx 0).halted = false ∧
    (sHalt.ctx 0).halted = true ∧ sHalt.team? 0 1 = some T ∧ T.trap.v = false := by decide +kernel
def pCap : Nat := tableAddr (sHalt.ctx 0).captab + 16 * 255
theorem witness_Capw : NoSolo sHalt ∧ (0x1FF : DWord).getLsbD 8 = true ∧ isHbm pCap = true ∧ pCap % 128 + 16 ≤ 128 ∧
    FMap.find? sHalt.mapped (pCap / 128) = none ∧ sHalt.heldW = [] ∧ sHalt.linesWait pCap 16 none = false :=
  ⟨noSolo (by decide +kernel), by decide +kernel⟩

/-- TLBINV while nothing waits, while a write of a thread is held, and while an open region holds one. -/
def sOpenT : State := (st M1).modDie 0 fun d => { d with regions := [(3, { R0 with writes := [(0x100000, 5)] })] }
def sHeldT : State := { st M with heldW := [{ heldOf 0 with job := none }] }
theorem witness_Tlbinv : (2 ^ 63 : DWord).getLsbD 63 = true ∧ sCtx.host.tlbDone = true ∧ (∀ e ∈ sCtx.heldW, e.uid = 0 ∧ e.job = none) ∧
    (∀ e ∈ sCtx.dies, ∀ r ∈ e.2.regions, r.2.ctx ≠ sCtx.host.tlbCtx.toNat ∨ r.2.writes = []) ∧
    (∃ e ∈ sOpenT.dies, ∃ r ∈ e.2.regions, r.2.isOpen = true ∧ r.2.ctx = sOpenT.host.tlbCtx.toNat ∧ r.2.writes ≠ []) ∧
    (∀ s ∈ [sCtx, sHeldT, sOpenT], ∀ m ∈ FMap.vals s.members ++ s.evicted, ∀ g ∈ m.names, (m.grp g).wait = none) ∧
    ∃ e ∈ sHeldT.heldW, e.uid ≠ 0 ∧ e.ctx = sHeldT.host.tlbCtx.toNat := by decide +kernel

/-- A link that is live without an update, one with an update under way, and a message of a thread on the first. -/
def upd : LinkDir := { LinkDir.init with newKey := some 5 }
def sLink : State := (st M).setLink 7 { Link.init with out := upd, back := upd }
def far : Msg := { msg .rds with cell := 128, who := some (impOf Cause.linkLost 1 128) }
def sFar : State :=
  let s := (sMsg [far]).modDie 1 fun d => { d with st := .trusted }
  { s with coh := { s.coh with flights := [⟨0x2001, [4], impOf Cause.linkLost 1 128⟩] },
           heldW := [{ heldOf 0 with job := none, way := some ([4], 0, impOf Cause.linkLost 1 128) }] }
def sDue : State := (st M).setLink 0 { Link.init with out := { LinkDir.init with flits := 2 ^ 32, oldKey := some 1 } }
theorem witness_Links : sLink.linkLive 0 = true ∧ (sLink.link 0).out.newKey = none ∧ (sLink.link 7).out.newKey = some 5 ∧
    (sLink.link 7).back.newKey = some 5 ∧ (sFar.link 4).up = true ∧ far ∈ sFar.coh.net ∧ sFar.crossesLink 4 far = true ∧
    (∀ e ∈ sFar.coh.lines, e.2.queue = []) ∧ sFar.host.ev.en = false ∧ sFar.mapped = [] ∧ isHbm (far.line * 128 + 127) = true ∧
    far.who.isSome = true ∧ (∃ f ∈ sFar.coh.flights, 4 ∈ f.links ∧ isHbm (f.line * 128 + 127) = true) ∧
    (∃ e ∈ sFar.heldW, e.way = some ([4], 0, impOf Cause.linkLost 1 128) ∧ isHbm (e.pa / 128 * 128 + 127) = true) ∧ sDue.linkLive 0 = true ∧
    (sDue.link 0).out.newKey = none ∧ 2 ^ 32 ≤ (sDue.link 0).out.flits ∧ ¬2 ^ 32 ≤ (sLink.link 0).out.flits ∧ ¬2 ^ 32 ≤ (sLink.link 0).back.flits ∧
    ¬(sLink.link 0).since + hourClk ≤ sLink.clk := by decide +kernel

/-- Every message in the order of the protocol. -/
def sSpdm (ms : List SpdmMsg) : State := ((st M).setSpdm 0 ms).setSpdm 4 ms
theorem witness_Spdm : (∀ p ∈ [(SpdmMsg.getCapabilities, [SpdmMsg.getVersion], [SpdmMsg.getVersion]),
      (.negotiateAlgorithms, [.getCapabilities], [.getVersion, .getCapabilities]),
      (.getDigests, [.negotiateAlgorithms], [.negotiateAlgorithms]), (.getCertificate, [.negotiateAlgorithms], [.negotiateAlgorithms]),
      (.challenge, [.negotiateAlgorithms], [.negotiateAlgorithms]), (.getMeasurements, [.negotiateAlgorithms], [.negotiateAlgorithms]),
      (.keyExchange, [.negotiateAlgorithms], [.negotiateAlgorithms]), (.finish, [.keyExchange], [.keyExchange])],
    ∀ d ∈ [0, 4], p.1 ∉ (sSpdm p.2.2).spdmOf d ∧ ∀ n ∈ p.2.1, n ∈ (sSpdm p.2.2).spdmOf d) ∧ ((st M).die 0).st ≠ .reset := by decide +kernel
theorem witness_EndSession : ∀ d ∈ [0, 4], SpdmMsg.finish ∈ (sSpdm [.finish]).spdmOf d := by decide +kernel

/-- Dies in each state that something ends. -/
def sDie (x : DieSt) (ms : List SpdmMsg) : State := (st M).modDie 0 fun d => { d with st := x, spdm := ms }
theorem witness_Dies : ((st M).die 1).st = .reset ∧ (st M).host.recovery = false ∧ (st M).host.fwVersion = 0 ∧ (st M).host.fwMin ≤ 0 ∧ ((sDie .attesting []).die 0).st = .attesting ∧
    ((sDie .attesting [.finish]).die 0).st = .attesting ∧ SpdmMsg.finish ∈ ((sDie .attesting [.finish]).die 0).spdm ∧ (1 : DWord).getLsbD 0 = true ∧
    ((st M).die 0).st ≠ .reset ∧ ((st M).die 0).st ≠ .draining ∧ ((sDie .draining []).die 0).st = .draining ∧ (sDie .draining []).dieBusy 0 = false ∧
    ((sDie .draining []).modDie 0 fun d => { d with hin := [⟨r0, Origin.none, 0⟩] }).dieBusy 0 = true ∧ (sDie .draining []).heldW = [] := by
  decide +kernel

theorem witness_Resets : ((st M).die 3).st = .reset ∧ (∀ e ∈ (st M).coh.lines, e.2.queue = []) ∧ ({ st M with frozen := true }).frozen = true ∧ ({ st M with frozen := true }).schedule = [] ∧
    ({ st M with frozen := true, schedule := [.issue 0] }).schedule = .issue 0 :: [] := by decide +kernel

theorem witness_StorageErrors : NoSolo (st M) ∧ isHbm 0x100000 = true ∧ (st M).mapped = [] ∧ (st M).member? 0 = some M ∧ ((st M).cell (cellOf 0)).uncorr ≠ 1 ∧
    FMap.get 0 ((st M).die 0).chret 2 < 2 ∧ ¬FMap.get 0 (((st M).modDie 0 fun d => { d with chret := [(2, 2)] }).die 0).chret 2 < 2 :=
  ⟨noSolo_st.1, by decide +kernel⟩

/-- Idle, verifying and programming. -/
theorem witness_Firmware : (2 ^ 63 : DWord).getLsbD 63 = true ∧ (st M).host.fwState ≠ 1 ∧ (st M).host.fwState ≠ 2 ∧
    ∀ n ∈ [(1 : BitVec 4), 2], ({ st M with host := { (st M).host with fwState := n } } : State).host.fwState = n := by decide +kernel

/-! ### Witnesses: wakes, faults, signals -/

/-- The only group of a member in a wait. -/
def Mz (w : Wait) : Member := { M with root := { M.root with wait := some w }, s := [(1, 1)] }
theorem sleeps {xs : List (State × Member × Wait)}
    (h : xs.all (fun x => x.1.member? 0 == some x.2.1 && x.2.1.run == .run &&
      (x.2.1.subs == [] && (x.2.1.cur == none && (x.2.1.serial == [] && x.2.1.trapLanes == 0))) &&
      (x.2.1.root.st == .run && (x.2.1.root.mask != 0 && x.2.1.root.wait == some x.2.2)) && !(x.1.ctx x.2.1.ctx).asleep) = true) :
    ∀ x ∈ xs, Sleeps x.1 0 x.2.1 x.2.2 := by
  intro x hx
  have h := List.all_eq_true.1 h x hx
  simp only [Bool.and_eq_true, beq_iff_eq, bne_iff_ne, ne_eq, Bool.not_eq_true'] at h
  exact ⟨h.1.1.1.1, h.1.1.1.2, h.1.1.2, h.1.2, h.2⟩

/-- Waits whose condition holds and waits whose condition does not. -/
def sTag (m : Member) : State := ((st m).modCell 0 fun c => { c with tag := [(0, ⟨true, 0, false⟩)] }).modCluster 0 fun c => { c with jobs := [J0] }
def waiting (f : Member → State) (w : Wait) (cnt : FMap Nat := []) : State × Member × Wait := (f { Mz w with cnt := cnt }, { Mz w with cnt := cnt }, w)
def withKid (m : Member) : State := { st m with posted := [⟨0, 0, 0, 1, 2⟩] }
def withRegion (m : Member) : State := (st m).modDie 0 fun d => { d with regions := [(3, R0)] }
def withAsker (m : Member) : State := (st m).modDie 0 fun d => { d with soloQ := [(1, 0)] }
def withHeld (m : Member) : State := { st m with heldW := [{ heldOf 0 with job := none }] }
/-- With a held write of lane 0, an arrival that waits for it, or a store on its way to another die. -/
def withLate (m : Member) : State := { withHeld m with late := [⟨1, 1, 0, 1, .arrive 0 1⟩] }
def withFar (m : Member) : State := (st m).modDie 1 fun d => { d with st := .trusted }
theorem witness_Late : (Issues (withHeld M1) 0 M1 ∧ NoRegion (withHeld M1) 0 M1 hd ∧ M1.enabled hd ≠ 0) ∧
    (Issues (withLate M1) 0 M1 ∧ NoRegion (withLate M1) 0 M1 hd ∧ M1.enabled hd ≠ 0) ∧ (withLate M1).team? 0 1 = some T ∧
    (withHeld M1).lateFor 1 (M1.enabled hd) = true ∧ ((withLate M1).late.any fun e => e.uid == M1.uid && e.lanes &&& M1.enabled hd != 0) = true ∧
    laneCount (M1.enabled hd) < T.live ∧ (withFar M1).wayTo (cellOf 0) hbmDie ≠ [] ∧ (withFar M1).reaches (dieOfCell (cellOf 0)) 1 = true :=
  ⟨able (by decide +kernel), able (by decide +kernel), by decide +kernel⟩
theorem witness_Sleepers : ∀ x ∈ [waiting st (.cnt 0 0) [(0, 1)], waiting st (.cnt 0 1) [(0, 1)], waiting sTag (.allTags 1), waiting sTag (.allTags 2),
      waiting sTag (.anyTag 4 1 1), waiting sTag (.anyTag 4 2 1), waiting sTag (.job 1), waiting sTag (.job 2), waiting st (.bar none 1 0 [(0, 0)]),
      waiting st (.bar (some 2) 1 0 [(0, 1)]), waiting st .child, waiting withKid .child, waiting st (.tre 1), waiting withRegion (.tre 1), waiting st .solo,
      waiting withAsker .solo, waiting st (.bar none 1 0 [(0, 1)]), waiting st (.behind 0 0), waiting withHeld (.behind 0 0), waiting withKid (.exitPark 1)], Sleeps x.1 0 x.2.1 x.2.2 :=
  sleeps (by decide +kernel)
theorem witness_SleepConditions : ({ Mz (.cnt 0 1) with cnt := [(0, 1)] } : Member).count 0 ≤ 1 ∧
    0 < ({ Mz (.cnt 0 0) with cnt := [(0, 1)] } : Member).count 0 ∧ (sTag M).doneSet 0 0 1 = 1 ∧ (sTag M).doneSet 0 0 2 ≠ 2 ∧
    (sTag M).doneSet 0 0 1 ≠ 0 ∧ (sTag M).doneSet 0 0 2 = 0 ∧ (sTag M).jobOpen 0 1 = true ∧ (sTag M).jobOpen 0 2 = false ∧
    (st M).barPassed 0 1 [(0, 1)] = true ∧ (st M).barPassed 0 1 [(0, 0)] = false ∧ (st (Mz .child)).hasChildren 0 1 = false ∧
    ({ st (Mz .child) with posted := [⟨0, 0, 0, 1, 2⟩] } : State).hasChildren 0 1 = true ∧ (st M).regionLanes 0 1 &&& 1 = 0 ∧
    ((st (Mz (.tre 1))).modDie 0 fun d => { d with regions := [(3, R0)] }).regionLanes 0 1 &&& 1 ≠ 0 ∧
    (st (Mz .solo)).soloGo 0 (Mz .solo) none = true ∧
    ((st (Mz .solo)).modDie 0 fun d => { d with soloQ := [(1, 0)] }).soloGo 0 (Mz .solo) none = false ∧ M.lent = [] ∧
    (st M).threadHeld 1 M.root.mask = false ∧ (withHeld M).threadHeld 1 M.root.mask = true ∧ (withKid M).hasChildren 0 1 = true := by decide +kernel

/-- A WAITADR until a word that holds 0 is 0, and until it is 1. -/
def until0 (v : Nat) : Wait := .adr false true 4 0 false (cp 2 0) [(0, 0, v)]
theorem witness_WaitadrWake : (∀ x ∈ [waiting st (until0 0), waiting st (until0 1)], Sleeps x.1 0 x.2.1 x.2.2) ∧ SlotExists 0 ∧
    (∀ x ∈ [(st (Mz (until0 0))).lateCheck 0 (cellOf 0) 2 4 true false true [(0, 0)], (st (Mz (until0 1))).lateCheck 0 (cellOf 0) 2 4 true false true [(0, 0)]],
      x = .ok ()) ∧ (cp 2 0).space = 2 ∧ (st M).num (spadBase + cellOf 0 * 2 ^ 18 + 0) 4 = 0 ∧ M.lent = [] :=
  ⟨sleeps (by decide +kernel), by unfold SlotExists; decide, oks (by decide +kernel), by decide +kernel⟩

/-- An imprecise fault of a member of a live team, of a team whose handler runs, and of a team that is gone. -/
def F0 : ImpFault := impOf Cause.poison 0 0
def sImp (t : Team) (f : ImpFault) : State := { st M t with impFaults := [f] }
theorem witness_ImpreciseFaults : CanTrap (sImp T F0) 0 M T ∧ (sImp T F0).impFaults = [F0] ∧ F0.uid = M.uid ∧ F0.ctx = M.ctx ∧ F0.team = M.team ∧
    F0.lid = T.lid ∧ M.q0 ≠ 0 ∧ M.curGrp.st = .run ∧ M.curGrp.mask ≠ 0 ∧ (sImp Ttrap F0).team? 0 1 = some Ttrap ∧ F0.lid = Ttrap.lid ∧
    Ttrap.trap.v = true ∧ (logged (sImp T { F0 with team := 2 })).team? 0 2 = none ∧ ((logged (sImp T F0)).ctx 0).log.en = true ∧
    (((logged (sImp T F0)).ctx 0).log.tail - ((logged (sImp T F0)).ctx 0).log.head).toNat < 2 ^ ((logged (sImp T F0)).ctx 0).log.logsize.toNat ∧
    ((logged (sImp T F0)).ctx 0).log.base.getLsbD 63 = true := ⟨canTrap (by decide +kernel), by decide +kernel⟩

/-- A context whose only member waits for a barrier, and one whose member waits for its scratchpad and the host. -/
def Mbar : Member := Mz (.bar none 1 0 [(0, 0)])
def Marm : Member := Mz (.adr false true 4 0x40 false (cp 2 0) [(0, 0, 1)])
def sArm : State := (st Marm).modCtx 0 fun c => { c with log := { LogRing.init with en := true, logsize := 4 } }
def armed (s : State) (x : Nat) : Bool :=
  (FMap.vals s.members ++ s.evicted).any fun m => m.ctx == x && m.names.any fun g => ((m.grp g).wait.map State.armedOutside).getD false
theorem witness_AllAsleep : (st Mbar).allAsleep 0 = true ∧ armed (st Mbar) 0 = false ∧ (st Mbar).teams.filter (fun t => t.ctx == 0) = [T] ∧
    (st Mbar).lowestSleeper T = some Mbar ∧ Mbar.curGrp.wait.map State.deepWait = some true ∧ Mbar.curGrp.st = .run ∧ Mbar.curGrp.mask ≠ 0 ∧ sArm.allAsleep 0 = true ∧
    armed sArm 0 = true ∧ (sArm.ctx 0).asleep = false ∧ (sArm.ctx 0).log.en = true ∧
    ((sArm.ctx 0).log.tail - (sArm.ctx 0).log.head).toNat < 2 ^ (sArm.ctx 0).log.logsize.toNat := by decide +kernel
theorem witness_AllAsleepTrap : CanTrap (st Mbar) 0 Mbar T := canTrap (by decide +kernel)

/-- A decrement of 1 at a counter of 2, at a counter of 1 whose handler is marked, and at another context's counter. -/
def G0 : SigMsg := ⟨0, 1, 0, 1, Origin.none, 1, 1, 0, 0, 0x30000, 0, 0⟩
def sSig (ctx : BitVec 6) (count : BitVec 32) : State :=
  (marked M 3).modDie 0 fun d => { d with sigs := [G0], counters := [(0, ⟨true, ctx, 0, count, 0x6001, 0x100000⟩)] }
theorem witness_SigDecrement : (∀ n, n = 1 ∨ n = 2 → ((sSig 0 n).die 0).sigs = G0 :: [] ∧ ((sSig 0 n).counter 0 0).v = true ∧
      ((sSig 0 n).counter 0 0).ctx.toNat = G0.ctx ∧ (((sSig 0 n).counter 0 0).count.toNat - G0.d = 0 ↔ n = 1) ∧
      (sSig 0 n).laneStored G0.uid G0.lane = true) ∧
    (sSig 0 1).markKind 0 (((sSig 0 1).counter 0 0).hpc.toNat * 8) = some 3 ∧ ((sSig 0 1).counter 0 0).recptr.toNat % 16 = 0 ∧
    ((List.range 3).all fun i => match (sSig 0 1).reach 0 (0 * 128) spGlobal (0x100000 + 16 * i) 16 true false with
      | .ok (.dev pa _) => pa == 0x100000 + 16 * i
      | _ => false) = true ∧ 0x100000 % 128 + 48 ≤ 128 ∧ (sSig 0 1).poisoned 0x100000 48 = false ∧
    (∀ m ∈ FMap.vals (sSig 0 1).members ++ (sSig 0 1).evicted, m.uid = G0.uid → m.q0 ≠ 0) ∧ (sSig 0 1).member? 0 = some M ∧ M.uid = G0.uid ∧ ((sSig 1 1).counter 0 0).ctx.toNat ≠ G0.ctx ∧
    (sSig 1 1).laneStored G0.uid G0.lane = true := by
  refine ⟨?_, by decide +kernel⟩
  rintro n (rfl | rfl) <;> decide +kernel

/-- A handler record on its way, and one that a free slot takes. -/
def H0 : HandlerRec := ⟨{ r0 with kind := 5 }, Origin.none, 0⟩
def sHnd (hin hq : List HandlerRec) : State := (st M).modDie 0 fun d => { d with hin := hin, hq := hq }
theorem witness_Handlers : ((sHnd [H0] []).die 0).hin = H0 :: [] ∧ ((sHnd [H0] []).die 0).hq.length < 1024 ∧ (sHnd [H0] []).spilledFor (.handler 0) = [] ∧
    ((sHnd [] [H0]).die 0).hq.find? (fun h => !((sHnd [] [H0]).ctx h.rcd.owner).halted) = some H0 ∧ State.handlerFaulty H0.rcd = false ∧
    (sHnd [] [H0]).trusted 0 = true ∧ (sHnd [H0] []).arrivalWaits (.handler 0) = false ∧ (sHnd [] [H0]).handlerSlot 0 = some (0, 31) := by decide +kernel

/-! ### Witnesses: completion -/

/-- A scalar thread. -/
def Msc : Member := { M1 with scalar := true }
theorem witness_QueueTrapWords : (Issues (st Msc) 0 Msc ∧ NoRegion (st Msc) 0 Msc hd ∧ Msc.enabled hd ≠ 0) ∧
    (Issues sNode 0 M ∧ NoRegion sNode 0 M hd ∧ M.enabled hd ≠ 0) ∧ (Issues sQueue 0 M1 ∧ NoRegion sQueue 0 M1 hd ∧ M1.enabled hd ≠ 0) ∧
    (Issues sBucket 0 M1 ∧ NoRegion sBucket 0 M1 hd ∧ M1.enabled hd ≠ 0) ∧ CanTrap (st M) 0 M T ∧
    (st Msc).team? 0 1 = some T ∧ Msc.q0 ≠ 0 ∧ Msc.scalar = true ∧ (∀ s ∈ [sNode, sQueue, sBucket, sLaunch', sLdf, st M], s.team? 0 1 = some T) ∧
    (∀ x ∈ (sBucket.cluster 0).buckets, ∀ r ∈ x.recs, recFaulty sBucket r = false ∧ r.setq = none) ∧ (st M).hasChildren 0 1 = false ∧
    (st M).csrVal (issOf 0 M hd) 0x102 = some 0 :=
  ⟨able (by decide +kernel), able (by decide +kernel), able (by decide +kernel), able (by decide +kernel), canTrap_M.1, by decide +kernel⟩

/-- Rows of the coherence protocol that find their message, and accesses of the host to backed addresses. -/
theorem witness_Rows : (∀ m ∈ [msg .sns, msg .sni, msg .inv, msg .iack, msg .sdat, msg .wb, msg .wbif, msg .evn, msg .data, msg .nack],
      Arrived (sMsg [m]) m.kind 1 m ∧ (sMsg [m]).busy m.line = false ∧ (sMsg [m]).coh.net.count m = 1) ∧
    (∀ m ∈ [msg .rds, msg .rdo, msg .upg, msg .lrd, msg .urd, msg .wrt, msg .atm], Ready (sMsg [m]) m.kind 1 m ∧ (sMsg [m]).snoops m = []) ∧
    (sReg (Rt 0)).committable 0 = some 3 ∧ (sReg (Rt 0)).commitWaits (Rt 0) = false ∧ (sReg (Rt 0)).readsHold (Rt 0) = true ∧
    (sRoot 0).mustSave 0 (Brun 0x310000 0) = false ∧ (sSave 0x310000).mustSave 0 (Brun 0x310000 0) = true ∧
    ((sSave 0x310000).saveBeam 0 (Brun 0x310000 0) (Q0 0x310000)).lineQ = [] ∧ ∀ n, n < 2 → backed (0x10007E + n) = true := by
  refine ⟨fun m hm => ?_, fun m hm => ?_, by decide +kernel⟩ <;> simp only [List.mem_cons, List.not_mem_nil, or_false] at hm
  · rcases hm with rfl | rfl | rfl | rfl | rfl | rfl | rfl | rfl | rfl | rfl <;> exact ⟨arrived (by decide +kernel), by decide +kernel⟩
  · rcases hm with rfl | rfl | rfl | rfl | rfl | rfl | rfl <;> exact ⟨ready (by decide +kernel), by decide +kernel⟩

/-! ### Witnesses: windows, steps, encodings -/

theorem witness_RegisterWindows : (0 : Nat) < 512 ∧ (0 : Nat) < 16 ∧ 0xFFF < 2 ^ 12 ∧ (st M).member? (waveKey 0 0) = some M := by decide +kernel

def w4 (t : Ty) : Alu := ⟨hd, t, false, false, 4⟩

/-- A member whose word at its PC is i, the next move. -/
def sAt (m : Member) (i : Instr) : State := { poke (st m) 0x30000 ((encode i).getD 0).toNat with schedule := [.issue 0] }
def issued (s : State) (m : Member) : State :=
  match s.fetchLeaf 0 0 m.pc with
  | .ok lf => (({ s with schedule := [] }).beginWord 0 m).fillTlb 0 0 m.pc.toNat lf
  | .error _ => s
def stepHyps (m : Member) (i : Instr) (s : State) : Bool :=
  s.schedule == [.issue 0] && !s.frozen && s.runnable 0 && s.yieldTo 0 == 0 && s.adriftFor m == none && s.member? 0 == some m && s.abortedHere 0 m == [] && isOk (s.fetchLeaf 0 0 m.pc) &&
    (match s.instrAt 0 0 m.pc with
      | .ok j => j == i
      | .error _ => false) && chainCause m.chain i == none
def Mpoi : Member := { M1 with pv := [(1, true)] }
def ldw : Instr := .ld hd .n32 false 4 (op 1)
def sLine : State := { sAt M1 ldw with coh := { (sAt M1 ldw).coh with lines := [(0x2000, Lbusy 1)] } }
/-- NOP; SHFL in a scalar thread; MOV of a poisoned register; a load whose line is BUSY. -/
theorem witness_AStep : stepHyps M (.nop hd) (sAt M (.nop hd)) = true ∧
    (stepHyps Msc (.shfl hd .idx 4 1 (.imm 1) 0) (sAt Msc (.shfl hd .idx 4 1 (.imm 1) 0)) && Instr.waveOnly (.shfl hd .idx 4 1 (.imm 1) 0) && Msc.scalar) = true ∧
    (stepHyps Mpoi (.mov (w4 .n32) (.v 2)) (sAt Mpoi (.mov (w4 .n32) (.v 2))) &&
      (poisonLanes (issued (sAt Mpoi (.mov (w4 .n32) (.v 2))) Mpoi) (issOf 0 Mpoi hd) (.mov (w4 .n32) (.v 2)) == [0]) && ((sAt Mpoi (.mov (w4 .n32) (.v 2))).regionLanes 0 1 == 0)) = true ∧
    (∀ p ∈ [(sAt M1 ldw, true), (sLine, false)], stepHyps M1 ldw p.1 = true ∧ (issued p.1 M1).stalls (issOf 0 M1 hd) ldw = false ∧ (issued p.1 M1).beamFull (issOf 0 M1 hd) ldw = false ∧
      poisonLanes (issued p.1 M1) (issOf 0 M1 hd) ldw = [] ∧ (issued p.1 M1).behind (issOf 0 M1 hd) ldw = none ∧
      (match exec ldw (((issued p.1 M1).tell (issOf 0 M1 hd) ldw).debit (issOf 0 M1 hd) (Instr.cost ldw)) with
        | .next t => t.lineQ.isEmpty == p.2
        | _ => false) = true) ∧ ({ st M with schedule := [.event .powerUp] } : State).schedule = .event .powerUp :: [] ∧
    (st M).eventWaits .powerUp = false ∧ ({ st M with heldW := [{ heldOf 0 with uid := 0, job := none }] } : State).eventWaits (.tlbinv 0) = true := by
  decide +kernel

theorem witness_EveryStep : State.reset.MemOk ∧ (st M).MemOk := by
  constructor <;> (unfold State.MemOk; decide +kernel)

theorem witness_EncodeRoundTrip : (Instr.nop hd).wf = true ∧ encode (.nop hd) = some 0x0CC0000000007000 ∧
    decode 0x0CC0000000007000 = .ok (.nop hd) := ⟨by decide +kernel, by decide +kernel, ok_is (by decide +kernel)⟩

/-! ### One step of some instructions, with the results that the spec's own examples give -/

/-- Lane 0 of a wave after one word, with v1, v2 and v3 of lane 0 as given: the value of v4. -/
def v4After (i : Instr) (a : Nat) (b c : Nat := 0) : Nat :=
  match exec i (st (((M1.setVal .n32 0 1 a).setVal .n32 0 2 b).setVal .n32 0 3 c)) with
  | .next t => match t.member? 0 with
    | some m => (m.vreg 0 4).toNat
    | none => 0
  | _ => 0

/-- R368, R369 and the table of CLZ and BREV: ROT by 4 and by −4, POPC, NOT, BREV, CLZ, CTZ. -/
theorem test_rot : v4After (.rot (w4 .n32) (.v 1) (.imm 4)) 0x80000001 = 0x18 ∧
    v4After (.rot (w4 .n32) (.v 1) (.imm (-4))) 0x80000001 = 0x18000000 := by decide +kernel
theorem test_popc : v4After (.popc (w4 .n32) (.v 1)) 0xF0F00001 = 9 ∧ v4After (.popc (w4 .i8) (.v 1)) 0xFFFFFF80 = 1 := by decide +kernel
theorem test_not : v4After (.not (w4 .i16) (.v 1)) 0xFF = 0xFFFFFF00 := by decide +kernel
theorem test_brev : v4After (.brev (w4 .n32) (.v 1)) 0xF0 = 0x0F000000 ∧ v4After (.brev (w4 .n8) (.v 1)) 0xF0 = 0x0F := by decide +kernel
theorem test_clz : v4After (.clz (w4 .n32) (.v 1)) 0xF0 = 24 ∧ v4After (.clz (w4 .n8) (.v 1)) 0xF0 = 0 := by decide +kernel
theorem test_ctz : v4After (.ctz (w4 .n32) (.v 1)) 0xF0 = 4 ∧ v4After (.ctz (w4 .n8) (.v 1)) 0xF0 = 4 := by decide +kernel

/-- The examples of SAR, XOR, MOV and MOVI. -/
theorem test_sar : v4After (.sar (w4 .i32) (.v 1) (.imm 4)) 0xFFFFFF80 = 0xFFFFFFF8 ∧
    v4After (.sar (w4 .n8) (.v 1) (.imm 1)) 0x80 = 0xC0 := by decide +kernel
theorem test_shr : v4After (.shr (w4 .n32) (.v 1) (.imm 4)) 0xFFFFFF80 = 0x0FFFFFF8 := by decide +kernel
theorem test_xor : v4After (.xor (w4 .i16) (.v 1) (.v 2)) 0x8000 1 = 0xFFFF8001 := by decide +kernel
theorem test_mov : v4After (.mov (w4 .i8) (.v 1)) 0x1F0 = 0xFFFFFFF0 := by decide +kernel
theorem test_movi : v4After (.movi (w4 .i32) (-1)) 0 = 0xFFFFFFFF := by decide +kernel

/-- The table of CVT. -/
theorem test_cvt_narrow : v4After (.cvt (w4 .bf16) .f32 (.v 1) 1) 0x3DCCCCCD = 0x3DCC ∧
    v4After (.cvt (w4 .n8) .i32 (.v 1) 0) 0xFFFFFFFB = 0 := by decide +kernel
theorem test_cvt_integer : v4After (.cvt (w4 .i32) .f32 (.v 1) 0) 0x40200000 = 2 ∧ v4After (.cvt (w4 .i32) .f32 (.v 1) 0) 0x4F32D05E = 0x7FFFFFFF := by
  decide +kernel

/-- The examples of FCLASS, CVTQ (1.0 at scale 3.0), UNPK and KCM. -/
theorem test_fclass : v4After (.fclass (w4 .f32) (.v 1)) 0x80000001 = 4 := by decide +kernel
theorem test_cvtq : v4After (.cvtq hd .e4m3 4 (.v 1) (.v 2) none 0) 0x3F800000 0x84 = 0x2B := by decide +kernel
theorem test_unpk : v4After (.unpk (w4 .bf16) (.v 1) 1 none) 0x3DCD3F80 = 0x3DCD0000 ∧
    v4After (.unpk (w4 .e4m3) (.v 1) 3 none) 0x79000000 = 0x43900000 := by decide +kernel
theorem test_kcm : v4After (.kcm hd false 4 (.v 1) (.v 2) 6) 1 0 = 0x3EC2E762 := by decide +kernel

/-- The member after one word. -/
def after (i : Instr) (m : Member) : Option Member :=
  match exec i (st m) with
  | .next t => t.member? 0
  | _ => none

/-- The buffer of R133: 96 MiB at 0x2_0000_0000, with R and W. -/
def buf (cursor : Nat) : Cap := ⟨true, 1, 3, 4, 0, 0x600000, BitVec.ofNat 64 cursor⟩
def Mbuf (cursor step : Nat) : Member := { M1 with c := [(4, buf cursor)], s := [(20, BitVec.ofNat 64 step)] }

/-- CAPINC inside the window keeps the tag; R133's cursor at 0x2_0800_0000 leaves it and loses the tag. -/
theorem test_capinc : (after (.capinc hd 6 4 (.s 20)) (Mbuf 0x200000000 0x100000)).map (·.creg 6) = some (buf 0x200100000) ∧
    (after (.capinc hd 6 4 (.s 20)) (Mbuf 0x200000000 0x8000000)).map (fun m => (m.creg 6).tag) = some false := by decide +kernel

/-- CAPSET at the cursor 0x2_0010_0000 to 0x300 bytes takes E = 0, BASEM = 0x10_0000 and LENM = 0x300. -/
theorem test_capset : (after (.capset hd 7 4 (.s 20)) (Mbuf 0x200100000 0x300)).map (·.creg 7) =
    some ⟨true, 1, 3, 0, 0x100000, 0x300, 0x200100000⟩ := by decide +kernel

/-- CAPINC.M of R139: a stride of 0x820 in slabs of 0x400 bytes carries from cell 7 into x. -/
theorem test_capincM : (after (.capincM hd 3 3 (.s 20) 10) { M1 with c := [(3, cp 3 0x013813F0)], s := [(20, 0x820)] }).map
    (fun m => (m.creg 3).cursor) = some 0x01441010 := by decide +kernel

/-- TRAP 7 halts the team with TRAP_INSTR (0x140), CODE 7 and TPC the next word. -/
theorem test_trap : (match exec (.trap hd 7) (st M) with
    | .next t => (t.team? 0 1).map fun t => (t.trap.v, t.trap.cause, t.trap.code, t.trap.tpc)
    | _ => none) = some (true, 0x140, 7, 0x30008) := by decide +kernel

/-- PWRLIM and DIEHT read in BAR0 as they were written; an offset that the table does not list reads as 0 (R296). -/
theorem test_bar0 : (match exec (.registerWrite 0x160 1500) (st M) with
    | .next t => (t.bar0Read 0x160, t.bar0Read 0x168, t.bar0Read 0x100)
    | _ => (0, 0, 0)) = (1500, 0, 16) := by decide +kernel

end Sys2Proof.Tests
end

section
/-!
SUPPORT. Register windows (R69): what an address of a window means, and what one byte written into a register leaves of its other bytes.
-/
namespace Sys2Proof.Machine

/-! ### One byte of a register -/

/-- A register with byte b replaced, as `State.setByte` writes it. -/
def withByte (w : Word) (b : Nat) (x : Byte) : Word :=
  (w &&& ~~~(BitVec.ofNat 32 (0xFF * 2 ^ (8 * b)))) ||| BitVec.ofNat 32 (x.toNat * 2 ^ (8 * b))

theorem getLsbD_byteMask (b : Nat) {i : Nat} (hi : i < 32) :
    (BitVec.ofNat 32 (0xFF * 2 ^ (8 * b))).getLsbD i = (decide (8 * b ≤ i) && decide (i - 8 * b < 8)) := by
  rw [BitVec.getLsbD_ofNat, Nat.testBit_mul_two_pow, show 0xFF = 2 ^ 8 - 1 from rfl, Nat.testBit_two_pow_sub_one]
  simp [hi]

theorem getLsbD_byteShifted (x : Byte) (b : Nat) {i : Nat} (hi : i < 32) :
    (BitVec.ofNat 32 (x.toNat * 2 ^ (8 * b))).getLsbD i = (decide (8 * b ≤ i) && x.getLsbD (i - 8 * b)) := by
  rw [BitVec.getLsbD_ofNat, Nat.testBit_mul_two_pow]
  simp [hi, BitVec.testBit_toNat]

/-- Bit j of a byte of the new register: of the byte written where it is that byte, and else as before. -/
theorem getLsbD_withByte (w : Word) (x : Byte) (b : Nat) {c j : Nat} (hc : c < 4) (hj : j < 8) :
    (withByte w b x).getLsbD (8 * c + j) = if c = b then x.getLsbD j else w.getLsbD (8 * c + j) := by
  have hi : 8 * c + j < 32 := by omega
  simp only [withByte, BitVec.getLsbD_or, BitVec.getLsbD_and, BitVec.getLsbD_not, getLsbD_byteMask b hi, getLsbD_byteShifted x b hi, hi]
  by_cases e : c = b
  · subst e
    simp [hj]
  · rw [if_neg e]
    by_cases below : 8 * b ≤ 8 * c + j
    · have above : 8 ≤ 8 * c + j - 8 * b := by omega
      simp [Nat.not_lt.2 above, BitVec.getLsbD_of_ge x _ above]
    · simp [below]

/-- A byte of the new register. -/
theorem extractLsb'_withByte (w : Word) (x : Byte) (b : Nat) {c : Nat} (hc : c < 4) :
    (withByte w b x).extractLsb' (8 * c) 8 = if c = b then x else w.extractLsb' (8 * c) 8 := by
  refine BitVec.eq_of_getLsbD_eq fun j hj => ?_
  rw [BitVec.getLsbD_extractLsb', getLsbD_withByte w x b hc hj]
  split <;> simp [hj]

/-! ### The address of a window's byte -/

/-- The address of byte o of the register window of a wave slot (R140). -/
def windowPa (cell slot o : Nat) : Nat := regwBase + cell * 2 ^ 16 + slot * 2 ^ 12 + o

theorem windowPa_sub_regwBase (cell slot o : Nat) : windowPa cell slot o - regwBase = cell * 2 ^ 16 + slot * 2 ^ 12 + o := by
  rw [windowPa, Nat.add_assoc, Nat.add_assoc, Nat.add_sub_cancel_left, ← Nat.add_assoc]

theorem isRegw_windowPa {cell slot o : Nat} (hc : cell < 512) (hs : slot < 16) (ho : o < 2 ^ 12) : isRegw (windowPa cell slot o) = true := by
  simp only [isRegw, Bool.and_eq_true, decide_eq_true_eq]
  rw [windowPa]
  omega

theorem isHbm_windowPa (cell slot o : Nat) : isHbm (windowPa cell slot o) = false := by
  have above : hbmEnd ≤ regwBase := by decide
  simp only [isHbm, decide_eq_false_iff_not]
  rw [windowPa]
  omega

/-- The lane, register and byte that a window's address names. -/
theorem regwPos_windowPa (cell slot : Nat) {o : Nat} (ho : o < 2 ^ 12) :
    regwPos (windowPa cell slot o - regwBase) = (o / 2 ^ 7, 32 + o / 4 % 32, o % 4) := by
  simp only [windowPa_sub_regwBase, regwPos, bits, Prod.mk.injEq]
  omega

namespace State

/-- The slot that a window's address names. -/
theorem windowSlot_windowPa (cell : Nat) {slot o : Nat} (hs : slot < 16) (ho : o < 2 ^ 12) :
    windowSlot (windowPa cell slot o) = waveKey cell slot := by
  simp only [windowSlot, windowPa_sub_regwBase, bits, waveKey]
  omega

/-- No line is mapped at a window's address (R143). -/
theorem redirect_windowPa (s : State) (cell slot o : Nat) : s.redirect (windowPa cell slot o) = windowPa cell slot o := by
  simp [redirect, isHbm_windowPa]

/-! ### A window's byte -/

/-- A window's byte reads as the byte of the register that R69 names. -/
theorem byte_windowPa {s : State} {cell slot o : Nat} {m : Member} (hc : cell < 512) (hs : slot < 16) (ho : o < 2 ^ 12)
    (hm : s.member? (waveKey cell slot) = some m) :
    s.byte (windowPa cell slot o) = (m.vreg (o / 2 ^ 7) (32 + o / 4 % 32)).extractLsb' (8 * (o % 4)) 8 := by
  have key := windowSlot_windowPa cell hs ho
  rw [windowSlot] at key
  simp only [byte, redirect_windowPa, isRegw_windowPa hc hs ho, if_true, regwPos_windowPa cell slot ho, key, hm]

/-- A window's byte written replaces that byte of the register that R69 names. -/
theorem setByte_windowPa {s : State} {cell slot o : Nat} {m : Member} (hc : cell < 512) (hs : slot < 16) (ho : o < 2 ^ 12)
    (hm : s.member? (waveKey cell slot) = some m) (x : Byte) :
    s.setByte (windowPa cell slot o) x = s.setMember (waveKey cell slot)
      (m.setV (o / 2 ^ 7) (32 + o / 4 % 32) (withByte (m.vreg (o / 2 ^ 7) (32 + o / 4 % 32)) (o % 4) x)) := by
  have key := windowSlot_windowPa cell hs ho
  rw [windowSlot] at key
  simp only [setByte, redirect_windowPa, isRegw_windowPa hc hs ho, if_true, regwPos_windowPa cell slot ho, key, modMember_eq hm, withByte]

end State
end Sys2Proof.Machine
end

section
open Sys2Proof Sys2Proof.Machine

/-- Settles O54: a window's byte is read from, and written to, the byte of the register that R69 names, which leaves the register's
other bytes and every other register. -/
theorem registerWindowsShowTheUpperRegisters : Obligations.RegisterWindowsShowTheUpperRegisters := by
  intro s cell slot o m hc hs ho hm pa lane reg
  refine ⟨State.byte_windowPa hc hs ho hm,
    fun x => ⟨m.setV lane reg (withByte (m.vreg lane reg) (o % 4) x), State.setByte_windowPa hc hs ho hm x, ?_, ?_, ?_⟩⟩
  · rw [Member.vreg_setV, extractLsb'_withByte _ _ _ (Nat.mod_lt _ (by decide)), if_pos rfl]
  · intro b hb other
    rw [Member.vreg_setV, extractLsb'_withByte _ _ _ hb, if_neg other]
  · intro l n _ hn other
    have hreg : reg < 64 := by omega
    exact Member.vreg_setV_ne m _ (by omega)
end

section
/-!
SUPPORT. Words that derive a capability (R139, R320): how a word that acts once and changes only its member leaves the state, and the
place of a cursor of the device's scratchpads among the slabs that CAPINC.M walks.
-/
namespace Sys2Proof.Machine

/-! ### A group sent on to the next word -/

namespace Member

@[simp] theorem cur_modGrp (m : Member) (g : Option Nat) (f : Group → Group) : (m.modGrp g f).cur = m.cur := by cases g <;> rfl

@[simp] theorem trapLanes_modGrp (m : Member) (g : Option Nat) (f : Group → Group) : (m.modGrp g f).trapLanes = m.trapLanes := by
  cases g <;> rfl

@[simp] theorem grp_modGrp_self (m : Member) (g : Option Nat) (f : Group → Group) : (m.modGrp g f).grp g = f (m.grp g) := by
  cases g with
  | none => rfl
  | some e => simp [modGrp, setGrp, grp]

/-- A group that was changed has a name. -/
theorem contains_names_modGrp (m : Member) (g : Option Nat) (f : Group → Group) : (m.modGrp g f).names.contains g = true := by
  cases g with
  | none => simp [names]
  | some e =>
    have listed := FMap.mem_of_find? (FMap.find?_ins_self m.subs e (f (m.grp (some e))))
    simpa [names, modGrp, setGrp] using ⟨_, listed⟩

@[simp] theorem cur_advance (m : Member) : m.advance.cur = m.cur := cur_modGrp ..

/-- Going on leaves a group as able to issue as it was. -/
@[simp] theorem canIssue_advance (m : Member) : m.advance.canIssue m.cur = m.canIssue m.cur := by
  simp [advance, goto, canIssue, frozen]

/-- A group that can issue goes on as the current one (R158). -/
theorem repick_advance {m : Member} (c : m.canIssue m.cur = true) : m.advance.repick = m.advance :=
  repick_eq (by rw [cur_advance]; exact contains_names_modGrp ..) (by rwa [cur_advance, canIssue_advance])

@[simp] theorem canIssue_setC (m : Member) (n : Nat) (x : Cap) (g : Option Nat) : (m.setC n x).canIssue g = m.canIssue g := by
  cases g <;> rfl

end Member

/-! ### Words that act once -/

/-- A word that acts once and only changes its member, which can still issue, goes on with that member. -/
theorem onceWord_setMember {use : InRegion} {h : Hdr} {body : Iss → State → Chk State} {s : State} {k : Nat} {m m' : Member}
    (i : s.issuer = some k) (hm : s.member? k = some m) (n : s.regionLanes (cellOf k) m.uid &&& m.enabled h = 0) (z : m.enabled h ≠ 0)
    (b : body ⟨k, m, m.cur, m.enabled h⟩ s = .ok (s.setMember k m')) (e : m'.cur = m.cur) (c : m'.canIssue m'.cur = true) :
    onceWord use h body s = .next (s.setMember k m'.advance) := by
  have goesOn : (m'.modGrp m.cur fun x => { x with pc := nextPc x.pc }) = m'.advance := by rw [← e]; rfl
  have chosen := State.next_repick (s := s) m' ⟨k, m, m.cur, m.enabled h⟩ rfl
  rw [onceWord_ok i hm n z b, chosen, goesOn, Member.repick_advance c]

/-- A word that derives a capability from a tagged one writes what its rule answers, and goes on (R320). -/
theorem capWord_ok {h : Hdr} {cd ca : BitVec 4} {f : Iss → Cap → Chk Cap} {s : State} {k : Nat} {m : Member} {r : Cap}
    (i : s.issuer = some k) (hm : s.member? k = some m) (c : m.canIssue m.cur = true)
    (n : s.regionLanes (cellOf k) m.uid &&& m.enabled h = 0) (z : m.enabled h ≠ 0) (t : (m.creg ca.toNat).tag = true)
    (d : f ⟨k, m, m.cur, m.enabled h⟩ (m.creg ca.toNat) = .ok r) :
    capWord h cd ca f s = .next (s.setMember k (m.setC cd.toNat r).advance) := by
  refine onceWord_setMember i hm n z ?_ (Member.setC_cur ..) (by simpa using c)
  simp only [t, need, if_true, d, State.modMember_eq hm]
  rfl

theorem exec_capincM (h : Hdr) (cd ca : BitVec 4) (b : Src) (w : BitVec 5) (s : State) :
    exec (.capincM h cd ca b w) s = execCapincM h cd ca b w s := rfl

/-- CAPINC.M of a tagged capability for the device's scratchpads writes the capability moved by its stride. -/
theorem execCapincM_ok {h : Hdr} {cd ca : BitVec 4} {b : Src} {w : BitVec 5} {s : State} {k : Nat} {m : Member}
    (i : s.issuer = some k) (hm : s.member? k = some m) (c : m.canIssue m.cur = true)
    (n : s.regionLanes (cellOf k) m.uid &&& m.enabled h = 0) (z : m.enabled h ≠ 0) (t : (m.creg ca.toNat).tag = true)
    (sp : (m.creg ca.toNat).space = 3) :
    execCapincM h cd ca b w s =
      .next (s.setMember k (m.setC cd.toNat (capincmRes (m.creg ca.toNat) (sextN (m.src64 b) 64) w.toNat)).advance) :=
  capWord_ok i hm c n z t (by rw [sp]; rfl)

/-! ### The slabs of the device (R139) -/

/-- The two's-complement reading of a number is that of the bit vector of its low bits. -/
theorem sextN_eq_toInt (x n : Nat) : sextN x n = (BitVec.ofNat n x).toInt := by
  cases n with
  | zero => simp [sextN, BitVec.toInt_zero_length]
  | succ n =>
    have half : x % 2 ^ (n + 1) < 2 ^ n ↔ 2 * (x % 2 ^ (n + 1)) < 2 ^ (n + 1) := by omega
    simp [sextN, BitVec.toInt_eq_toNat_cond, half]

/-- pos of R139: where a stride leads from a cursor, counted along the slabs of 2^w bytes of all the cells. -/
def slabPos (cursor w : Nat) (stride : Int) : Int :=
  (cursor / 2 ^ 18 : Nat) * 2 ^ w + (cursor % 2 ^ 18 : Nat) % 2 ^ w + stride

/-- The cursor at a position along the slabs: in the cell that the position names, in its slab at the offset where the old one stood. -/
def slabCursor (cursor w : Nat) (pos : Int) : Int :=
  pos / 2 ^ w * 2 ^ 18 + ((cursor % 2 ^ 18 : Nat) - (cursor % 2 ^ 18 : Nat) % 2 ^ w + pos % 2 ^ w)

/-- The cursor at a position that is not negative, as the model computes it. -/
theorem slabCursor_natCast (cursor w p : Nat) :
    slabCursor cursor w p = (p / 2 ^ w * 2 ^ 18 + (cursor % 2 ^ 18 - cursor % 2 ^ 18 % 2 ^ w) + p % 2 ^ w : Nat) := by
  have lo_le : cursor % 2 ^ 18 % 2 ^ w ≤ cursor % 2 ^ 18 := Nat.mod_le ..
  have cast_div : ((p / 2 ^ w : Nat) : Int) = p / 2 ^ w := by rw [Int.natCast_ediv, Int.natCast_pow]; rfl
  have cast_mod : ((p % 2 ^ w : Nat) : Int) = p % 2 ^ w := by rw [Int.natCast_emod, Int.natCast_pow]; rfl
  have cast_lo : ((cursor % 2 ^ 18 % 2 ^ w : Nat) : Int) = (cursor % 2 ^ 18 : Nat) % 2 ^ w := by
    rw [Int.natCast_emod (cursor % 2 ^ 18), Int.natCast_pow]; rfl
  rw [slabCursor, ← cast_div, ← cast_mod, ← cast_lo]
  omega

/-- A packed cursor is its cell number and its offset. -/
theorem bits_of_packed_cursor {cursor : Nat} (hc : cursor < 2 ^ 27) :
    bits cursor 26 18 = cursor / 2 ^ 18 ∧ bits cursor 17 0 = cursor % 2 ^ 18 ∧ cursor / 2 ^ 27 = 0 := by
  simp only [bits]
  omega

/-- The step of CAPINC.M in terms of its position. -/
theorem meshStep_eq {cursor : Nat} (hc : cursor < 2 ^ 27) (w : Nat) (stride : Int) :
    Cap.meshStep cursor w stride =
      if slabPos cursor w stride < 0 ∨ 512 * 2 ^ w ≤ slabPos cursor w stride then none
      else some (slabCursor cursor w (slabPos cursor w stride)).toNat := by
  obtain ⟨cell, off, top⟩ := bits_of_packed_cursor hc
  have pos_eq : ((cursor / 2 ^ 18 * 2 ^ w + cursor % 2 ^ 18 % 2 ^ w : Nat) : Int) + stride = slabPos cursor w stride := by
    simp [slabPos]
  have end_eq : ((512 * 2 ^ w : Nat) : Int) = 512 * 2 ^ w := by simp
  simp only [Cap.meshStep, cell, off, top, pos_eq, end_eq, Nat.zero_mul, Nat.zero_add, Bool.or_eq_true, decide_eq_true_eq]
  generalize slabPos cursor w stride = pos
  split
  case isTrue leaves => rfl
  case isFalse stays =>
    obtain ⟨p, rfl⟩ := Int.eq_ofNat_of_zero_le (Int.not_lt.1 (not_or.1 stays).1)
    simp only [slabCursor_natCast, Int.toNat_natCast]

/-- The capability that CAPINC.M leaves: untagged where its position leaves the device, and else moved to that position. -/
theorem capincmRes_eq {c : Cap} (hc : c.cursor.toNat < 2 ^ 27) (stride : Int) (w : Nat) :
    capincmRes c stride w =
      if slabPos c.cursor.toNat w stride < 0 ∨ 512 * 2 ^ w ≤ slabPos c.cursor.toNat w stride then { c with tag := false }
      else c.moveTo (BitVec.ofInt 64 (slabCursor c.cursor.toNat w (slabPos c.cursor.toNat w stride))) := by
  rw [capincmRes, meshStep_eq hc]
  generalize slabPos c.cursor.toNat w stride = pos
  by_cases leaves : pos < 0 ∨ 512 * 2 ^ w ≤ pos
  · simp only [leaves, if_true]
  · obtain ⟨p, rfl⟩ := Int.eq_ofNat_of_zero_le (Int.not_lt.1 (not_or.1 leaves).1)
    simp only [leaves, if_false, slabCursor_natCast, Int.toNat_natCast, BitVec.ofInt_natCast]

end Sys2Proof.Machine
end

section
open Sys2Proof Sys2Proof.Machine

/-- Settles O10: the word writes what the rule's pseudocode leaves of its capability, position by position, and the rule's example is
evaluated. -/
theorem capincMWalksTheSlabsOfTheDevice : Obligations.CapincMWalksTheSlabsOfTheDevice := by
  refine ⟨fun h cd ca b w s k m issues noRegion enabled _ => ?_, by decide⟩
  intro c tagged space packed W off lo L pos
  obtain ⟨issuer, here, _, ready⟩ := issues
  rw [exec_capincM, execCapincM_ok issuer here ready noRegion enabled tagged space, sextN_eq_toInt, capincmRes_eq packed]
  rfl
end

section
/-!
SUPPORT. The pure ALU words (R59, R60, R65, R66): what their write-back leaves of each register file, and that such a word computes its
value in every state in which it issues.
-/
namespace Sys2Proof.Machine
open Sys2Proof.Claims

/-! ### A new latch -/

theorem mem_lanesOf {en : Word} {l : Nat} : l ∈ lanesOf en ↔ l < 32 ∧ en.getLsbD l = true := by simp [lanesOf]

theorem get_foldl_put (f : Nat → DWord) (ls : List Nat) (a : FMap DWord) (l : Nat) :
    FMap.get 0 (ls.foldl (fun a k => FMap.put 0 a k (f k)) a) l = if l ∈ ls then f l else FMap.get 0 a l := by
  induction ls generalizing a with
  | nil => rfl
  | cons k ls ih =>
    rw [List.foldl_cons, ih, FMap.get_put]
    by_cases first : l = k
    · subst first; simp
    · simp [first]

/-- The newest latch that a pure ALU word leaves (R65). -/
def aluLatch (w : Alu) (t : Ty) (en : Word) (val : Nat → Nat) : FMap DWord :=
  if w.u then (List.range 32).foldl (fun l k => FMap.put 0 l k (BitVec.ofNat 64 (extendTo t 64 (val (lowest en))))) []
  else (lanesOf en).foldl (fun l k => FMap.put 0 l k (BitVec.ofNat 64 (extendTo t (regBits t) (val k)))) []

theorem get_aluLatch (w : Alu) (t : Ty) (en : Word) (val : Nat → Nat) {l : Nat} (hl : l < 32) :
    FMap.get 0 (aluLatch w t en val) l =
      if w.u then BitVec.ofNat 64 (extendTo t 64 (val (lowest en)))
      else if en.getLsbD l then BitVec.ofNat 64 (extendTo t (regBits t) (val l)) else 0 := by
  unfold aluLatch
  split
  · rw [get_foldl_put fun _ => _, if_pos (List.mem_range.2 hl)]
  · rw [get_foldl_put fun k => BitVec.ofNat 64 (extendTo t (regBits t) (val k))]
    simp [mem_lanesOf, hl]

/-! ### A vector destination -/

/-- An even vector destination of 64 bits has its upper register (R59). -/
theorem succ_lt_of_evenDest {t : Ty} {d : BitVec 6} (even : EvenDest t false d) (wide : t.is64 = true) : d.toNat + 1 < 64 := by
  have := even wide rfl
  omega

namespace Member

/-- Register n of a lane after a result x of a type is written to register d of that lane (R59). -/
def destReg (t : Ty) (d x n : Nat) (old : Word) : Word :=
  if n = d then (if t.is64 then BitVec.ofNat 32 x else BitVec.ofNat 32 (extendTo t 32 x))
  else if t.is64 = true ∧ n = d + 1 then BitVec.ofNat 32 (x / 2 ^ 32)
  else old

@[simp] theorem destReg_destReg (t : Ty) (d x n : Nat) (old : Word) : destReg t d x n (destReg t d x n old) = destReg t d x n old := by
  unfold destReg
  split
  · rfl
  · split <;> rfl

theorem vreg_setV_eq (m : Member) {l r j n : Nat} (y : Word) (hr : r < 64) (hn : n < 64) :
    (m.setV l r y).vreg j n = if j = l ∧ n = r then y else m.vreg j n := by
  split
  next same => rw [same.1, same.2, vreg_setV]
  next other => exact vreg_setV_ne m y (by omega)

theorem vreg_setVal (m : Member) {t : Ty} {l d x j n : Nat} (hd : d < 64) (hp : t.is64 = true → d + 1 < 64) (hn : n < 64) :
    (m.setVal t l d x).vreg j n = if j = l then destReg t d x n (m.vreg j n) else m.vreg j n := by
  by_cases wide : t.is64 = true
  · have healed : (m.healPair l d).vreg j n = m.vreg j n := rfl
    simp only [setVal, destReg, wide, if_true, true_and, vreg_setV_eq _ _ hd hn, vreg_setV_eq _ _ (hp wide) hn, healed]
    by_cases lane : j = l <;> by_cases low : n = d <;> simp [lane, low]
  · simp only [setVal, destReg, wide, if_false, false_and, vreg_setV_eq _ _ hd hn, Bool.false_eq_true]
    by_cases lane : j = l <;> simp [lane]

theorem setLanes_cons (m : Member) (t : Ty) (d l : Nat) (ls : List Nat) (f : Nat → Nat) :
    m.setLanes t d (l :: ls) f = (m.setVal t l d (f l)).setLanes t d ls f := rfl

theorem vreg_setLanes (m : Member) {t : Ty} {d j n : Nat} (ls : List Nat) (f : Nat → Nat) (hd : d < 64)
    (hp : t.is64 = true → d + 1 < 64) (hn : n < 64) :
    (m.setLanes t d ls f).vreg j n = if j ∈ ls then destReg t d (f j) n (m.vreg j n) else m.vreg j n := by
  induction ls generalizing m with
  | nil => rfl
  | cons l ls ih =>
    rw [setLanes_cons, ih, vreg_setVal m hd hp hn]
    by_cases first : j = l
    · subst first; simp
    · simp [first]

/-- Writing a destination changes the vector registers and their poison alone. -/
theorem setVal_with (m : Member) (t : Ty) (l d x : Nat) (v : FMap Word) (pv : FMap Bool) :
    { m.setVal t l d x with v := v, pv := pv } = { m with v := v, pv := pv } := by
  unfold setVal; split <;> rfl

theorem setLanes_with (m : Member) (t : Ty) (d : Nat) (ls : List Nat) (f : Nat → Nat) (v : FMap Word) (pv : FMap Bool) :
    { m.setLanes t d ls f with v := v, pv := pv } = { m with v := v, pv := pv } := by
  induction ls generalizing m with
  | nil => rfl
  | cons l ls ih => exact (ih _).trans (setVal_with ..)

/-! ### The latches -/

@[simp] theorem latch_zero_shiftLat (m : Member) (l0 : FMap DWord) (l : Nat) : (m.shiftLat l0).latch 0 l = FMap.get 0 l0 l := rfl

theorem latch_succ_shiftLat (m : Member) (l0 : FMap DWord) {j : Nat} (l : Nat) (hj : j < 3) :
    (m.shiftLat l0).latch (j + 1) l = m.latch j l := by
  simp [latch, shiftLat, List.getD_eq_getElem?_getD, hj]

/-! ### The write-back of a pure ALU word -/

/-- The destination of a pure ALU word written (R59, R60, R66). -/
def aluDest (m : Member) (w : Alu) (t : Ty) (en : Word) (val : Nat → Nat) : Member :=
  if w.nw then m
  else if w.u then (if en = 0 then m else m.setS w.d.toNat (BitVec.ofNat 64 (extendTo t 64 (val (lowest en)))))
  else m.setLanes t w.d.toNat (lanesOf en) val

/-- The write-back is the latches shifted and then the destination written. -/
theorem aluWrite_eq (m : Member) (w : Alu) (t : Ty) (en : Word) (val : Nat → Nat) :
    m.aluWrite w t en val = (m.shiftLat (aluLatch w t en val)).aluDest w t en val := by
  unfold aluWrite aluDest aluLatch
  cases w.u <;> cases w.nw <;> simp

/-- A destination is in the vector registers or in the uniform registers. -/
theorem aluDest_with (m : Member) (w : Alu) (t : Ty) (en : Word) (val : Nat → Nat) (v : FMap Word) (pv : FMap Bool) (s : FMap DWord)
    (ps : FMap Bool) : { m.aluDest w t en val with v := v, pv := pv, s := s, ps := ps } = { m with v := v, pv := pv, s := s, ps := ps } := by
  unfold aluDest
  split
  case isTrue => rfl
  case isFalse =>
    split
    case isTrue => split <;> rfl
    case isFalse => exact congrArg (fun x : Member => { x with s := s, ps := ps }) (setLanes_with m t w.d.toNat (lanesOf en) val v pv)

/-- A pure ALU word changes the vector and uniform registers and the latches alone. -/
theorem aluWrite_with (m : Member) (w : Alu) (t : Ty) (en : Word) (val : Nat → Nat) (v : FMap Word) (pv : FMap Bool) (s : FMap DWord)
    (ps : FMap Bool) (lat : List (FMap DWord)) :
    { m.aluWrite w t en val with v := v, pv := pv, s := s, ps := ps, lat := lat } =
      { m with v := v, pv := pv, s := s, ps := ps, lat := lat } := by
  rw [aluWrite_eq]
  exact congrArg (fun x : Member => { x with lat := lat }) (aluDest_with (m.shiftLat (aluLatch w t en val)) w t en val v pv s ps)

/-- Writing the destination leaves the latches. -/
theorem latch_aluWrite (m : Member) (w : Alu) (t : Ty) (en : Word) (val : Nat → Nat) (j l : Nat) :
    (m.aluWrite w t en val).latch j l = (m.shiftLat (aluLatch w t en val)).latch j l := by
  have lat := congrArg Member.lat (aluDest_with (m.shiftLat (aluLatch w t en val)) w t en val [] [] [] [])
  rw [aluWrite_eq, latch, latch]
  exact congrArg (fun x : List (FMap DWord) => FMap.get 0 (x.getD j []) l) lat

theorem vecSet_setLanes (m : Member) {t : Ty} {d : Nat} (ls : List Nat) (f : Nat → Nat) (hd : d < 64)
    (hp : t.is64 = true → d + 1 < 64) : VecSet m (m.setLanes t d ls f) t d ls f where
  low l hl := by rw [vreg_setLanes m ls f hd hp hd, if_pos hl, destReg, if_pos rfl]
  high l hl wide := by
    rw [vreg_setLanes m ls f hd hp (hp wide), if_pos hl, destReg, if_neg (Nat.succ_ne_self d), if_pos ⟨wide, rfl⟩]
  frame l n _ hn other := by
    rw [vreg_setLanes m ls f hd hp hn]
    by_cases hl : l ∈ ls
    · obtain ⟨notLow, notHigh⟩ := not_or.1 fun dest => other ⟨hl, dest⟩
      rw [if_pos hl, destReg, if_neg notLow, if_neg notHigh]
    · rw [if_neg hl]

theorem uniSet_setS (m : Member) (d : Nat) (x : DWord) : UniSet m (m.setS d x) d x :=
  ⟨sreg_setS .., fun _ other => sreg_setS_ne m x other⟩

/-- The write-back of a pure ALU word is what R59, R60, R65 and R66 say. -/
theorem aluDone_aluWrite (m : Member) (w : Alu) (t : Ty) (en : Word) (val : Nat → Nat) (even : EvenDest t w.u w.d) :
    AluDone m (m.aluWrite w t en val) w t en val where
  vec vector writes := by
    have set := vecSet_setLanes (m.shiftLat (aluLatch w t en val)) (lanesOf en) val w.d.isLt (succ_lt_of_evenDest (vector ▸ even))
    simp only [aluWrite_eq, aluDest, vector, writes, Bool.false_eq_true, if_false]
    exact ⟨set.low, set.high, set.frame⟩
  noVec other := by
    rw [aluWrite_eq, aluDest]
    by_cases silent : w.nw = true
    · rw [if_pos silent]; exact ⟨rfl, rfl⟩
    · rw [if_neg silent, if_pos (other.resolve_right silent)]
      split <;> exact ⟨rfl, rfl⟩
  uni uniform writes active := by
    simp only [aluWrite_eq, aluDest, uniform, writes, active, Bool.false_eq_true, if_false, if_true]
    exact uniSet_setS ..
  noUni other := by
    rw [aluWrite_eq, aluDest]
    by_cases silent : w.nw = true
    · rw [if_pos silent]; rfl
    · rw [if_neg silent]
      by_cases uniform : w.u = true
      · have idle : en = 0 := by simpa [uniform, silent] using other
        rw [if_pos uniform, if_pos idle]; rfl
      · rw [if_neg uniform]
        exact (congrArg Member.s (setLanes_with (m.shiftLat (aluLatch w t en val)) t w.d.toNat (lanesOf en) val [] []) :)
  latch l hl := by rw [latch_aluWrite, latch_zero_shiftLat, get_aluLatch w t en val hl]
  older j l hj := by rw [latch_aluWrite, latch_succ_shiftLat m _ l hj]
  rest :=
    have same := aluWrite_with m w t en val [] [] [] [] []
    ⟨(congrArg Member.c same :), (congrArg Member.pk same :), (congrArg Member.x same :)⟩

/-! ### Going on -/

/-- A member that differs in its register files and latches alone. -/
def OnlyRegs (m m' : Member) : Prop :=
  { m' with v := m.v, pv := m.pv, s := m.s, ps := m.ps, c := m.c, pk := m.pk, q := m.q, x := m.x, lat := m.lat } = m

theorem onlyRegs_aluWrite (m : Member) (w : Alu) (t : Ty) (en : Word) (val : Nat → Nat) : OnlyRegs m (m.aluWrite w t en val) :=
  (congrArg (fun x : Member => { x with c := m.c, pk := m.pk, q := m.q, x := m.x })
    (aluWrite_with m w t en val m.v m.pv m.s m.ps m.lat) :)

theorem OnlyRegs.cur_eq {m m' : Member} (h : OnlyRegs m m') : m'.cur = m.cur := (congrArg Member.cur h :)

theorem OnlyRegs.grp_eq {m m' : Member} (h : OnlyRegs m m') (g : Option Nat) : m'.grp g = m.grp g := by
  cases g with
  | none => exact (congrArg Member.root h :)
  | some e => exact (congrArg (fun x : Member => (FMap.find? x.subs e).getD Group.init) h :)

theorem OnlyRegs.canIssue_eq {m m' : Member} (h : OnlyRegs m m') (g : Option Nat) : m'.canIssue g = m.canIssue g := by
  have lanes : m'.trapLanes = m.trapLanes := (congrArg Member.trapLanes h :)
  simp only [canIssue, frozen, h.grp_eq, lanes]

/-- Going on changes the groups alone. -/
theorem modGrp_with (m : Member) (g : Option Nat) (f : Group → Group) :
    m.modGrp g f = { m with root := (m.modGrp g f).root, subs := (m.modGrp g f).subs } := by
  cases g <;> rfl

theorem advance_with (m : Member) : m.advance = { m with root := m.advance.root, subs := m.advance.subs } := by
  unfold advance goto
  exact modGrp_with ..

theorem grp_modGrp_ne (m : Member) {g k : Option Nat} (f : Group → Group) (h : k ≠ g) : (m.modGrp g f).grp k = m.grp k := by
  cases g with
  | none =>
    cases k with
    | none => exact absurd rfl h
    | some e => rfl
  | some e =>
    cases k with
    | none => rfl
    | some j => simp only [grp, modGrp, setGrp, FMap.find?_ins_ne _ _ (fun same => h (congrArg some same))]

/-- A member changed in its register files alone, sent on to the next word, has the frame of a word of registers. -/
theorem OnlyRegs.rest_advance {m m' : Member} (h : OnlyRegs m m') : Rest m m'.advance where
  same := by
    rw [advance_with]
    exact (congrArg (fun x : Member => { x with root := m.root, subs := m.subs }) h :)
  cur := by
    rw [curGrp, cur_advance, advance, goto, grp_modGrp_self, h.cur_eq, h.grp_eq, pc, curGrp, h.cur_eq, h.grp_eq]
    rfl
  others g other := by
    rw [advance, goto, grp_modGrp_ne _ _ (h.cur_eq ▸ other), h.grp_eq]

theorem aluDone_advance {m m' : Member} {w : Alu} {t : Ty} {en : Word} {val : Nat → Nat} (h : AluDone m m' w t en val) :
    AluDone m m'.advance w t en val := by
  rw [advance_with]
  exact ⟨fun vector writes => ⟨(h.vec vector writes).low, (h.vec vector writes).high, (h.vec vector writes).frame⟩, h.noVec, h.uni,
    h.noUni, h.latch, h.older, h.rest⟩

end Member

/-! ### Words that compute a value -/

/-- The lanes for which a pure ALU word acts, as the statements say them. -/
theorem aluLanes_eq (s : State) (k : Nat) (m : Member) (w : Alu) :
    aluLanes s k m w = if w.u then acting s k m w.h else m.enabled w.h := by
  unfold aluLanes acting
  cases w.u
  · simp
  · by_cases idle : m.enabled w.h &&& ~~~(s.regionLanes (cellOf k) m.uid) = 0 <;> simp [idle]

/-- A pure ALU word computes its value (R65). -/
theorem computes_of_aluWord {i : Instr} {w : Alu} {t : Ty} {val : Member → Nat → Nat} (h : ∀ s, exec i s = aluWord w t val s) :
    Computes i w t val := by
  intro s k m ⟨issuer, here, _, ready⟩ even
  have regs := m.onlyRegs_aluWrite w t (aluLanes s k m w) (val m)
  have goesOn : ((m.aluWrite w t (aluLanes s k m w) (val m)).modGrp m.cur fun x => { x with pc := nextPc x.pc }) =
      (m.aluWrite w t (aluLanes s k m w) (val m)).advance := by rw [← regs.cur_eq]; rfl
  refine ⟨(m.aluWrite w t (aluLanes s k m w) (val m)).advance, ⟨?_, regs.rest_advance⟩, ?_, ?_⟩
  · rw [h, aluWord_eq issuer here, goesOn, Member.repick_advance (by rwa [regs.canIssue_eq, regs.cur_eq])]
  · rw [← aluLanes_eq]
    exact Member.aluDone_advance (m.aluDone_aluWrite w t _ _ even)
  · rw [Member.advance_with]
    exact (congrArg Member.q (m.aluWrite_with w t (aluLanes s k m w) (val m) [] [] [] [] []) :)

end Sys2Proof.Machine
end

section
/-!
SUPPORT. Exact integers (R341): the model's reading and reduction of them are those of the statements, and the quotient and the remainder
of R343 case by case.
-/
namespace Sys2Proof.Machine
open Sys2Proof.Claims

theorem tyVal_eq_exact (t : Ty) (x : Nat) : tyVal t x = exact t x := by
  unfold tyVal exact
  split
  · exact sextN_eq_toInt ..
  · rw [BitVec.toNat_ofNat]

theorem modN_eq_toNat_ofInt (z : Int) (n : Nat) : modN z n = (BitVec.ofInt n z).toNat := by
  rw [modN, BitVec.toNat_ofInt, Int.natCast_pow]
  rfl

theorem intRes_eq_wrap (t : Ty) (z : Int) : intRes t false z = wrap t z := modN_eq_toNat_ofInt ..

/-- A word of an exact integer result computes that integer modulo 2^n. -/
theorem computes_of_intWord {i : Instr} {w : Alu} {a b : Src} {f : Int → Int → Int} (h : ∀ s, exec i s = intWord w a b false f s) :
    Computes i w w.t (fun m l => wrap w.t (f (exact w.t (m.src w.t a l)) (exact w.t (m.src w.t b l)))) := by
  simp only [← intRes_eq_wrap, ← tyVal_eq_exact]
  exact computes_of_aluWord h

theorem wrap_zero (t : Ty) : wrap t 0 = 0 := by simp [wrap]

theorem wrap_add_two_pow (t : Ty) (z : Int) : wrap t (z + 2 ^ t.bits) = wrap t z := by
  simp only [wrap, ← modN_eq_toNat_ofInt, modN, Int.add_emod_right]

/-- The greatest unsigned number has all its bits set. -/
theorem wrap_two_pow_sub_one (t : Ty) : wrap t (2 ^ t.bits - 1) = 2 ^ t.bits - 1 := by
  have ones : (2 : Int) ^ t.bits - 1 = (2 ^ t.bits - 1 : Nat) := by
    rw [Int.ofNat_sub Nat.one_le_two_pow, Int.natCast_pow]; rfl
  rw [ones, wrap, BitVec.ofInt_natCast, BitVec.toNat_ofNat, Nat.mod_eq_of_lt (Nat.sub_one_lt_of_lt (Nat.two_pow_pos _))]

theorem wrap_neg_one (t : Ty) : wrap t (-1) = 2 ^ t.bits - 1 := by
  rw [← wrap_add_two_pow, Int.add_comm, ← Int.sub_eq_add_neg, wrap_two_pow_sub_one]

theorem width_pos (t : Ty) : 0 < t.bits := by cases t <;> decide

/-- −2^(n−1) and 2^(n−1) are one number modulo 2^n. -/
theorem wrap_neg_bottom {t : Ty} (signed : t.isI = true) : wrap t (-bottom t) = wrap t (bottom t) := by
  have double : (2 : Int) ^ t.bits = 2 ^ (t.bits - 1) + 2 ^ (t.bits - 1) := by
    rw [← Int.two_mul, ← Int.pow_succ', Nat.sub_add_cancel (width_pos t)]
  have apart : -bottom t = bottom t + 2 ^ t.bits := by
    rw [bottom, if_pos signed, double]
    omega
  rw [apart, wrap_add_two_pow]

/-- The quotient of IDIV: all ones, the least number on overflow, and else truncated toward zero (R343). -/
theorem wrap_idivRes (t : Ty) (x y : Int) :
    wrap t (idivRes t x y) =
      if y = 0 then 2 ^ t.bits - 1
      else if t.isI = true ∧ x = bottom t ∧ y = -1 then wrap t (bottom t)
      else wrap t (Int.tdiv x y) := by
  by_cases zero : y = 0
  · simp only [idivRes, zero, BEq.rfl, if_true]
    split
    case isTrue => exact wrap_neg_one t
    case isFalse => exact wrap_two_pow_sub_one t
  · rw [idivRes, if_neg (by simpa using zero), if_neg zero]
    split
    case isTrue overflow =>
      obtain ⟨signed, rfl, rfl⟩ := overflow
      rw [Int.tdiv_neg, Int.tdiv_one, wrap_neg_bottom signed]
    case isFalse => rfl

/-- The remainder of IREM: a, 0 on overflow, and else what the truncated quotient leaves (R343). -/
theorem wrap_iremRes (t : Ty) (x y : Int) :
    wrap t (iremRes x y) =
      if y = 0 then wrap t x
      else if t.isI = true ∧ x = bottom t ∧ y = -1 then 0
      else wrap t (x - y * Int.tdiv x y) := by
  by_cases zero : y = 0
  · rw [iremRes, if_pos (by simpa using zero), if_pos zero]
  · rw [iremRes, if_neg (by simpa using zero), if_neg zero]
    split
    case isTrue overflow =>
      obtain ⟨_, _, rfl⟩ := overflow
      rw [Int.tmod_neg, Int.tmod_one, wrap_zero]
    case isFalse => rw [Int.tmod_def]

end Sys2Proof.Machine
end

section
open Sys2Proof Sys2Proof.Machine

/-- Settles O2: IDIV and IREM are words of exact integer results, whose quotient and remainder are taken case by case, and the rows of
the rule's table are evaluated. -/
theorem divisionDefinesEveryCase : Obligations.DivisionDefinesEveryCase := by
  refine ⟨fun w a b _ => ?_, by decide⟩
  simp only [← wrap_idivRes, ← wrap_iremRes]
  exact ⟨computes_of_intWord fun _ => rfl, computes_of_intWord fun _ => rfl⟩
end
